-- ==== Sys2Proof/Word.lean ====
section
/-! DEFINITION. The words of the module: bytes, 32-bit register words and 64-bit counts (R13, R14). -/

namespace Sys2Proof

/-- One byte of a memory structure, image, flit or record (R13). -/
abbrev Byte := BitVec 8

/-- A run of bytes in ascending address order (R13: byte 0 at the lowest address). -/
abbrev Bytes := List Byte

/-- A register word (R14: registers are 32 bits wide). -/
abbrev Word := BitVec 32

/-- A 64-bit quantity: a seed, an identity, a digest. -/
abbrev DWord := BitVec 64

end Sys2Proof
end

