-- ==== Sys2Proof/Syntax.lean ====
section
/-! DEFINITION. The commands of the Ummal module: one constructor for each row of the opcode table, with the row's operands.
Host commands carry the submission entry as it is fetched; a plan word is named by its paddock, its index in WORDS and its
repetition; a happening that falls at a herd count carries it. -/

namespace Sys2Proof

/-- A command-ring submission entry as the device reads it when it fetches it (R419). The opcode is the
constructor that carries the entry; `reserved` is byte 3. -/
structure Entry where
  ring : Fin 64
  flags : Byte
  reserved : Byte
  cmdId : Word
  payload : DWord
  payloadLen : Word
  resultLen : Word
  result : DWord
  inline : Bytes
deriving DecidableEq, Repr

/-- A storage-queue command as it is fetched (R380), less its opcode. `rest` is bytes 24 to 63. -/
structure StorageEntry where
  tag : Byte
  flags : Byte
  reserved : Byte
  length : Word
  shedAddr : DWord
  hostAddr : DWord
  rest : Bytes
deriving DecidableEq, Repr

/-- The masters of a register access (R511) that reach registers. -/
inductive Master where
  /-- Halter transaction with SECURE set: privileged. -/
  | secure
  /-- Halter transaction without SECURE. -/
  | plain
  /-- Drover core in FIRMWARE mode: privileged. -/
  | firmware
  /-- Drover core in TASK mode. -/
  | task
deriving DecidableEq, Repr

/-- The five kinds of control register that carry a SWAP field (R158, R346, R386, R519). -/
inductive SwapTarget where
  /-- SLOT_CTL of a pseudo-channel, by number stack × 64 + pc. -/
  | pc (n : Fin 512)
  /-- BARN_SLOT_CTL of a barn channel. -/
  | barn (c : Fin 32)
  /-- SHED_SLOT_CTL of a shed channel. -/
  | shed (c : Fin 24)
  /-- USLOT_CTL: Drove ports 0 to 11, then merge, tokenizer and grammar unit. -/
  | unit (u : Fin 15)
  /-- LINK_CTL: all link maps together. -/
  | links
deriving DecidableEq, Repr

/-- A Halter flit as received (R413), less its FTYPE, which the constructor gives. -/
structure HalterFlit where
  fflags : Byte
  seq : BitVec 16
  ack : BitVec 16
  credits : BitVec 16
  body : Bytes
  crc : Word
deriving DecidableEq, Repr

/-- The head flit of a Drove train as received (R402), less its KIND, which the constructor gives. -/
structure DroveHead where
  flits : Byte
  paddock : Byte
  flags : Byte
  seq : Word
  ack : Word
  credits : BitVec 16
  channel : BitVec 16
  launch : DWord
  offset : DWord
  checks : List (BitVec 16)
  reserved : Word
  crc : Word
deriving DecidableEq, Repr

/-- What a unit reports to the fault collector (R440 to R443). `users` names the paddocks whose running step used the
unit or read the page named, where that is not the holder of the unit; `delay` is the count of cycles from detection
to the fence. -/
structure Detection where
  cause : BitVec 16
  ukind : Byte
  uindex : BitVec 56
  detail : DWord
  arg : Word
  users : List (Fin 64)
  delay : Nat
deriving DecidableEq, Repr

/-- One 10 µs sample of the input and the domain rails (R471): the input in mV, its energy over the sample in µJ, the
energy of each domain in µJ, and the domains whose rail lies outside its limits, with the reading in mV (R472). -/
structure RailSample where
  vinMV : Nat
  inputUJ : Nat
  domainUJ : List (Fin 96 × Nat)
  outside : List (Fin 96 × Nat)
deriving DecidableEq, Repr

/-- What the SFDP table of the tack store offers (R483): the size in bytes and the features the device uses. -/
structure Sfdp where
  bytes : Nat
  addr4 : Bool
  quadRead : Bool
  pageProgram : Bool
  erase4k : Bool
  erase64k : Bool
deriving DecidableEq, Repr

/-- What the boot ROM or firmware found in the bring-up stage that ends (R491 to R495). Each stage reads only the
fields its work gives. -/
structure StageFindings where
  durationMS : Nat
  /-- stage 0: REF_CLK is present and within its limits -/
  refClk : Bool
  /-- stage 1: the SFDP table, which image region verifies, and the status of a failure -/
  sfdp : Sfdp
  fwOk : Bool
  cfgOk : Bool
  status : BitVec 16
  topologyOk : Bool
  diesFound : Nat
  /-- stages 4, 7 and 8: channels or lanes retrained in full -/
  retrained : Nat
  /-- stages 5 and 7: failing pages, as retirement-list entries -/
  pages : List DWord
  /-- stage 6: physical stalls found defective, and (physical stall, column) substitutions -/
  stalls : List Nat
  columns : List (Nat × Nat)
  /-- stages 4 to 6: pseudo-channels removed -/
  removedPc : List (Fin 512)
  /-- stage 8: Halter lanes locked (bitmap of 16), Drove ports that trained (bitmap of 12), and the first 16 bytes of the DEVICE_ID of the peer of
  each port -/
  halterLanes : BitVec 16
  droveUp : BitVec 12
  peerIds : List (Fin 12 × Bytes)
  /-- stage 7: base of the translation map -/
  mapRegion : Nat
  identityOk : Bool
  savedUsed : Bool
deriving DecidableEq, Repr

/-- The commands of the module, in the order of the opcode table. -/
inductive Instr where
  -- command-ring commands (R424)
  | nop (e : Entry)
  | muster (e : Entry)
  | planLoad (e : Entry)
  | planUnload (e : Entry)
  | batch (e : Entry)
  | cancel (e : Entry)
  | admitRequest (e : Entry)
  | input (e : Entry)
  | pause (e : Entry)
  | resume (e : Entry)
  | paddockForm (e : Entry)
  | paddockTeardown (e : Entry)
  | serveSet (e : Entry)
  | tenantSet (e : Entry)
  | lockstepPair (e : Entry)
  | tokenizerLoad (e : Entry)
  | grammarLoad (e : Entry)
  | adapterLoad (e : Entry)
  | adapterUnload (e : Entry)
  | indexCreate (e : Entry)
  | indexUpdate (e : Entry)
  | indexConsolidate (e : Entry)
  | indexGeneration (e : Entry)
  | indexDelete (e : Entry)
  | embCreate (e : Entry)
  | embVersion (e : Entry)
  | embMigrate (e : Entry)
  | embDelete (e : Entry)
  | hostWrite (e : Entry)
  | hostRead (e : Entry)
  | peerCopy (e : Entry)
  | commonsMigrate (e : Entry)
  | pageRetire (e : Entry)
  | groomRequest (e : Entry)
  | energySet (e : Entry)
  | fwHandover (e : Entry)
  | attest (e : Entry)
  -- storage queues (R379 to R384)
  | storageRead (q : Fin 8) (c : StorageEntry)
  | storageWrite (q : Fin 8) (c : StorageEntry)
  | storageDiscard (q : Fin 8) (c : StorageEntry)
  | storageCompletion (q : Fin 8) (tag : Fin 32)
  -- doorbells and index writes
  | subTail (r : Fin 64) (v : Byte)
  | cplHead (r : Fin 64) (v : Byte)
  | strHead (r : Fin 64) (v : Byte)
  | evtHead (v : BitVec 10)
  | shedSubTail (q : Fin 8) (v : BitVec 6)
  | compHead (q : Fin 8) (v : BitVec 6)
  | shedQueueReset (q : Fin 8)
  | queueResetEnd (q : Fin 8)
  -- registers (R507 to R526)
  | swap (m : Master) (t : SwapTarget)
  | cfgOpen (m : Master)
  | cfgCommit (m : Master)
  | cfgAbandon (m : Master)
  | cfgRefWrite (m : Master) (v : Word)
  | cfgWindowTimeout (h : Nat)
  | faultClear (m : Master) (slot : Fin 32)
  | faultInject (m : Master) (cls : BitVec 3)
  | musterCtlGo
  | rcvCtlGo (m : Master) (install : Bool)
  | standbyEnter (m : Master)
  | standbyExit (m : Master)
  | indirectAccess (m : Master) (t : Fin 11) (k : Fin 4) (v : Option Word)
  | loReadCapture (m : Master) (addr : BitVec 24)
  | registerWrite (m : Master) (addr : BitVec 24) (v : Word)
  -- links (R402, R403, R413, R414)
  | halterDataFlit (f : HalterFlit)
  | halterControlFlit (f : HalterFlit)
  | halterReplayTimeout
  | halterLinkLost (lanes : BitVec 16)
  | halterLinkUp (lanes : BitVec 16)
  | droveTrain (port : Fin 12) (h : DroveHead) (data : List Bytes)
  | droveControl (port : Fin 12) (h : DroveHead)
  | droveReplayTimeout (port : Fin 12)
  | droveLinkLost (port : Fin 12) (lanes : Byte)
  -- lock-step (R80, R81)
  | lockstepDigestReady (p : Fin 64)
  | lockstepDigestReceived (port : Fin 12) (h : DroveHead) (data : List Bytes)
  | lockstepTimeout (p : Fin 64)
  -- launch points and epochs
  | launchPoint (h : Nat)
  | epochBoundary (h : Nat) (index : DWord)
  | remapDue (h : Nat) (handle : Fin 64)
  -- plan words (R51)
  | planNop (p : Fin 64) (w j : Nat)
  | pass (p : Fin 64) (w j : Nat)
  | vec (p : Fin 64) (w j : Nat)
  | pack (p : Fin 64) (w j : Nat)
  | select8 (p : Fin 64) (w j : Nat)
  | select (p : Fin 64) (w j : Nat)
  | compact (p : Fin 64) (w j : Nat)
  | move (p : Fin 64) (w j : Nat)
  | bayTable (p : Fin 64) (w j : Nat)
  | bayHamming (p : Fin 64) (w j : Nat)
  | bayFetch (p : Fin 64) (w j : Nat)
  | bayHop (p : Fin 64) (w j : Nat)
  | bayQueueOut (p : Fin 64) (w j : Nat)
  | lookup (p : Fin 64) (w j : Nat)
  | update (p : Fin 64) (w j : Nat)
  | bayDecode (p : Fin 64) (w j : Nat)
  | merge (p : Fin 64) (w j : Nat)
  | tokenize (p : Fin 64) (w j : Nat)
  | detokenize (p : Fin 64) (w j : Nat)
  | mask (p : Fin 64) (w j : Nat)
  | shedRead (p : Fin 64) (w j : Nat)
  | barnRead (p : Fin 64) (w j : Nat)
  | barnWrite (p : Fin 64) (w j : Nat)
  | droveSend (p : Fin 64) (w j : Nat)
  | droveRecv (p : Fin 64) (w j : Nat)
  | hostOut (p : Fin 64) (w j : Nat)
  | random (p : Fin 64) (w j : Nat)
  | repeatWord (p : Fin 64) (w j : Nat)
  -- step happenings
  | stepBoundary (p : Fin 64)
  | holdPoint (p : Fin 64)
  | holdEnd (p : Fin 64)
  | deadlineExpiry (p : Fin 64)
  | deadlineReadArrival (p : Fin 64) (granule : Nat) (check : BitVec 16)
  -- faults, scrub, re-formation
  | faultDetection (d : Detection)
  | recoveryEnd
  | faultLogCopy
  | defectListAppend
  | scrubEnd (p : Fin 64)
  | reformationEnd (p : Fin 64)
  | cfgSweepStart (h : Nat)
  | cfgSweepEnd
  -- temperature, power, energy
  | stackTempReading (stack : Fin 8) (celsius : Byte)
  | stackTrip (stack : Fin 8) (celsius : Byte)
  | railSample (r : RailSample)
  | refClkFault
  | energyWindowEnd (h : Nat)
  | budgetSliceEnd (h : Nat) (tenant : Byte)
  | domainWake (n : Fin 96)
  | domainAwake (n : Fin 96)
  | domainDeepen (n : Fin 96)
  -- shed, pages, migration
  | mapCheckpoint
  | garbageCollection (c : Fin 24)
  | pageProgramComplete (c : Fin 24) (ok : Bool)
  | blockEraseComplete (c : Fin 24) (block : Nat) (ok : Bool)
  | pageFillDone (page : Nat) (lost : List Nat)
  | commonsCopyDone (page : Nat)
  | migPeriod (h : Nat)
  | embCopyDone (handle : Fin 64) (row : Word)
  -- groom and handover
  | groomServiceEnd (n : Nat) (ok : Bool) (failed : List Nat)
  | handoverCoreReturn (core : Fin 16) (ok : Bool)
  | tackRewriteDone (ok : Bool)
  -- SYNC (R545 to R549)
  | syncMessage (count : DWord) (check : Byte) (stop : Bool) (h : Nat)
  | syncWaitTimeout
  | syncStale
  | syncOutSend (h : Nat)
  -- power sequencing (R541 to R543)
  | inputPowerApplied
  | pwrEnRise
  | orderlyPowerDown
  | heldEntry
  | resetNLow
  | resetNRise
  | stageComplete (f : StageFindings)
  | halterTrainRetry (lanes : BitVec 16)
  -- management bus (R479, R550)
  | statusWord
  | readVin
  | readIin
  | readTemperature1
  | readPin
  | pmbusRevision
  | mfrEnergyBlock
  | pmbusWrite (code : Byte) (data : Bytes)
  | alertResponse
  -- TAP (R551)
  | bypass
  | idcode
  | samplePreload (preload : Option (BitVec 32))
  | extest
  | clamp
  | highz
  -- late rows of the table
  | codebookCopyDone (index : DWord)
  | inputPowerLost
  | smbusBusTimeout
  | tapReset
deriving DecidableEq, Repr

end Sys2Proof
end

