-- ==== Sys2Proof/Decode.lean ====
section
/-! DEFINITION. The command that a word of table bits spells. No row of the opcode table gives bits: its commands are ring entries,
register accesses, flits, plan words of a loaded plan, pins and times, whose operands are wider than a word. -/

namespace Sys2Proof

/-- No row of the table has bits, so no word spells a command (log entry 1). -/
def decodeTableWord (_nbits _w : Nat) : Option Instr := none

end Sys2Proof
end

