-- ==== Sys2Proof/Machine/Bits.lean ====
section
/-! DEFINITION. Bit fields, byte order, finite tables kept in ascending key order, and small arithmetic shared by every unit. -/

namespace Sys2Proof.Machine

/-- Bits `[lo + n - 1 : lo]` of `v` (R13). -/
def bitsOf (v lo n : Nat) : Nat := (v >>> lo) % 2 ^ n

/-- Bit `i` of `v`. -/
def bitOf (v i : Nat) : Bool := v.testBit i

def b2n (b : Bool) : Nat := if b then 1 else 0

/-- The `n` low bytes of `v`, byte 0 first (R13). -/
def leBytes : Nat → Nat → Bytes
  | 0, _ => []
  | n + 1, v => BitVec.ofNat 8 v :: leBytes n (v / 256)

/-- The number that little-endian bytes spell (R13). -/
def ofLe : Bytes → Nat
  | [] => 0
  | b :: bs => b.toNat + 256 * ofLe bs

/-- The field of `size` bytes at `off` of a record, 0 beyond its end. -/
def fld (b : Bytes) (off size : Nat) : Nat := ofLe ((b.drop off).take size)

/-- `n` bytes of `b` from `off`, padded with zeros. -/
def slice (b : Bytes) (off n : Nat) : Bytes :=
  let x := (b.drop off).take n
  x ++ List.replicate (n - x.length) 0

def zeros (n : Nat) : Bytes := List.replicate n 0

def allZero (b : Bytes) : Bool := b.all (· == 0)

/-- `b` cut or padded with zeros to `n` bytes. -/
def fit (n : Nat) (b : Bytes) : Bytes := slice b 0 n

/-- `b` cut into pieces of `n` bytes; the last may be shorter. `fuel` bounds their number. -/
def chunksAux (n : Nat) : Nat → List α → List (List α)
  | 0, _ => []
  | _ + 1, [] => []
  | fuel + 1, l => l.take n :: chunksAux n fuel (l.drop n)

def chunks (n : Nat) (l : List α) : List (List α) := chunksAux n l.length l

/-- Records of `size` bytes laid one after another. -/
def records (size : Nat) (b : Bytes) : List Bytes := chunks size b

def ceilDiv (a b : Nat) : Nat := (a + b - 1) / b

def alignUp (a n : Nat) : Nat := ceilDiv a n * n

/-- Value of the `n`-bit two's complement number `v`. -/
def toSigned (n v : Nat) : Int := if v % 2 ^ n < 2 ^ (n - 1) then (v % 2 ^ n : Nat) else (v % 2 ^ n : Nat) - (2 ^ n : Nat)

/-- The `n`-bit two's complement code of `i`, modulo 2^n. -/
def ofSigned (n : Nat) (i : Int) : Nat := (i % (2 ^ n : Nat)).toNat

/-- Number of set bits among the low `n`. -/
def popAux (v : Nat) : Nat → Nat
  | 0 => 0
  | n + 1 => b2n (v.testBit n) + popAux v n

def popCount (n v : Nat) : Nat := popAux v n

/-- Indices below `n` of the set bits of `v`, ascending. -/
def setBits (n v : Nat) : List Nat := (List.range n).filter v.testBit

def bitMask (l : List Nat) : Nat := l.foldl (fun a i => a ||| 2 ^ i) 0

/-! ### Tables by number, kept in ascending key order -/

/-- Entry `k` of a table. -/
def tget? (k : Nat) : List (Nat × α) → Option α
  | [] => none
  | (j, v) :: r => if j = k then some v else tget? k r

def tget (d : α) (k : Nat) (l : List (Nat × α)) : α := (tget? k l).getD d

def tput (k : Nat) (v : α) : List (Nat × α) → List (Nat × α)
  | [] => [(k, v)]
  | (j, u) :: r => if k < j then (k, v) :: (j, u) :: r else if k = j then (k, v) :: r else (j, u) :: tput k v r

def tdel (k : Nat) : List (Nat × α) → List (Nat × α)
  | [] => []
  | (j, u) :: r => if j = k then r else (j, u) :: tdel k r

/-- A number by number; absent is 0. -/
def nget (m : List (Nat × Nat)) (k : Nat) : Nat := tget 0 k m

def nput (k v : Nat) (m : List (Nat × Nat)) : List (Nat × Nat) := if v = 0 then tdel k m else tput k v m

def nadd (k n : Nat) (m : List (Nat × Nat)) : List (Nat × Nat) := nput k (nget m k + n) m

def insertNat (k : Nat) : List Nat → List Nat
  | [] => [k]
  | j :: r => if k < j then k :: j :: r else if k = j then j :: r else j :: insertNat k r

/-- The numbers of a list, ascending and each once. -/
def sortNat (l : List Nat) : List Nat := l.foldl (fun a k => insertNat k a) []

/-- Insertion of `x` before the first element that `lt` puts after it. -/
def insertBy (lt : α → α → Bool) (x : α) : List α → List α
  | [] => [x]
  | y :: r => if lt x y then x :: y :: r else y :: insertBy lt x r

/-- Stable sort by `lt`. -/
def sortBy (lt : α → α → Bool) (l : List α) : List α := l.foldl (fun a x => insertBy lt x a) []

def setNth (l : List α) (i : Nat) (v : α) : List α := l.set i v

/-- First element that satisfies `p`, with its place. -/
def findIdxFrom (p : α → Bool) (n : Nat) : List α → Option (Nat × α)
  | [] => none
  | x :: r => if p x then some (n, x) else findIdxFrom p (n + 1) r

def sumNat (l : List Nat) : Nat := l.foldl (· + ·) 0

def maxNat (l : List Nat) : Nat := l.foldl max 0

def minNat? : List Nat → Option Nat
  | [] => none
  | x :: r => some (r.foldl min x)

/-- Saturating count in `n` bits. -/
def satN (n v : Nat) : Nat := min v (2 ^ n - 1)

end Sys2Proof.Machine
end

