-- ==== Sys2Proof/Machine/Crc.lean ====
section
/-! DEFINITION. The check values of images, flits and sweeps: CRC-32 (IEEE 802.3) and CRC-32C, both bit-reflected, and the
CRC-8 of the management bus. -/

namespace Sys2Proof.Machine

def crcBits (poly : Nat) : Nat → Nat → Nat
  | 0, c => c
  | n + 1, c => crcBits poly n (if c % 2 = 1 then (c / 2) ^^^ poly else c / 2)

def crcByte (poly c : Nat) (b : Byte) : Nat := crcBits poly 8 (c ^^^ b.toNat)

def crc32With (poly : Nat) (bs : Bytes) : Nat := (bs.foldl (crcByte poly) 0xFFFF_FFFF) ^^^ 0xFFFF_FFFF

/-- CRC-32, IEEE 802.3 polynomial (R402, R413). -/
def crc32 (bs : Bytes) : Nat := crc32With 0xEDB8_8320 bs

/-- CRC-32C (R46, R80, R522). -/
def crc32c (bs : Bytes) : Nat := crc32With 0x82F6_3B78 bs

/-- GC of a 64-byte granule (R331). -/
def granuleCheck (b : Bytes) : Nat := let c := crc32c b; (c / 65536) ^^^ (c % 65536)

end Sys2Proof.Machine
end

