-- ==== Sys2Proof/Config.lean ====
section
/-! DEFINITION. What an implementation fixes and what the spec leaves open: opaque constants, so that no proof can see their values. -/

namespace Sys2Proof.Config

/-- A byte whose content the spec leaves undefined, by the count of free values drawn (R83, R86, R138, R429). -/
opaque freeByte : Nat → Byte

/-- A number that the spec leaves open, by the count of free values drawn. -/
opaque freeNat : Nat → Nat

/-- A choice that the spec leaves open. -/
opaque freeBool : Nat → Bool

/-- Sign and payload of a NaN that an operation on these operand bits gives: no rule states them. The result is always a NaN. -/
opaque nanBits : List Nat → Nat

/-- A result that no rule states for these operands of a vector operation: the smaller or larger of a NaN and a number, or of
two zeros of unlike sign (R562). -/
opaque unstated : Nat → List Nat → Nat

/-- Where inside the 2 ulp that R102 allows the result of a transcendental lies: used modulo 5 and less 2, by operation code and
operand bits. -/
opaque ulpOffset : Nat → Nat → Nat

/-- Code of an element that is NaN or infinite under a conversion into a narrow format, by format code and element bits: R127
to R130 state it for finite elements only. -/
opaque narrowSpecial : Nat → Nat → Nat

/-- Scale of a converted block that holds a NaN, by format code and the block's element bits. -/
opaque narrowScale : Nat → List Nat → Nat

/-- ML-DSA-44 verification of a signature over a digest under a public key (R488). -/
opaque sigVerify : (key digest signature : Bytes) → Bool

/-- The attestation signature of the device over a report (R498): 2,420 bytes are used. -/
opaque attestSign : (deviceSecret : Nat) → (report : Bytes) → Nat → Byte

/-- Bytes of a KV block, which the ladder plans fix, by the bytes of their pool (R281, R564): no rule gives it. -/
opaque kvBlockBytes : Nat → Nat

/-- ADAPTER_SLOTS of a paddock, which the ladder's RESIDENCY sizes (R300): no rule says how. -/
opaque adapterSlots : Nat → Nat

/-- Blocks of a shed channel that can hold data, by channel: no rule gives their number. -/
opaque shedBlocks : Nat → Nat

/-- Spare blocks of a shed channel at manufacture beyond the 64 that R368 promises. -/
opaque shedExtraSpares : Nat → Nat

/-- Code of a new state in a SHED or LINK event (R423), by the place of its name there: no rule gives the codes. -/
opaque stateCode : Nat → Byte

/-- Bytes that were fixed at manufacture and that no rule gives: 0 SHA3-256 of the boot ROM, 1 SERIAL, 2 the public key of the certificate,
3 ISSUER, 4 the certificate's signature, 5 the Arxium firmware key, 6 the default owner key, 7 the public key that stage 2 derives where
it is another (R489, R497, R498). -/
opaque deviceByte : (what : Nat) → Nat → Byte

/-- Yard router on which the die bridge of a field die hangs (R32, R33): no rule names it. -/
opaque bridgeYard : (die : Nat) → BitVec 3

/-- Which of the exponents that fit a LINEAR11 answer uses (R479): no rule chooses one. By the value, a quotient. -/
opaque linearExp : (num den : Nat) → Nat

/-- SMB_ADDR[2:0], strapped by the board (R539). -/
opaque smbAddr : BitVec 3

/-- The drover core that runs the recovery of a fault record, by its sequence number (R453): no rule says which. -/
opaque recoveryCore : Nat → BitVec 4

/-- The device's entropy source (R77). -/
opaque entropy : Nat → DWord

/-- Whether requester `who` has an access ready at grant `g` of slot table `t` (R156). No rule places the accesses of a word, a host transfer or
the groom inside their frames. -/
opaque ready : (t g who : Nat) → Bool

/-- Grants of the locked sequence that background owner `who` asks for at grant `g` of table `t`; 0 or 1 is none (R157). -/
opaque lockAsked : (t g who : Nat) → Nat

/-- Row of the batch whose logits a selecting word of a generation plan reads, by the plan's DIGEST, the word, the unit's ordinal and
the repetition (R276, R291): the plan lays them out, and no rule says how. -/
opaque sampledRow : (digest : List Byte) → (word ord rep : Nat) → Option Nat

/-- Row of the batch whose attention an ATTEND word forms, named as in `sampledRow` (R288). -/
opaque attendRow : (digest : List Byte) → (word ord rep : Nat) → Option Nat

/-- How the operands of an ATTEND word lie (R288): the ladder plans define the layout within a KV block (R564). `layout` names the word by the
plan's DIGEST, the word, the repetition, and the FORMATs and LENGTHs of its descriptors. `attendPlace` says where element `k` of the query (`part` 0), of a
key (1) and of a value (2) that result `r` takes at position `p` lies in its operand: the byte at which its stream begins, the column and the k-value. -/
opaque attendPlace : (digest : List Byte) → (layout : List Nat) → (part r p k : Nat) → Nat × Nat × Nat

/-- Elements of a query and of a key, and the factor that scales a score before the softmax, as FP32 bits. -/
opaque attendDepth : (digest : List Byte) → (layout : List Nat) → Nat
opaque attendScale : (digest : List Byte) → (layout : List Nat) → BitVec 32

end Sys2Proof.Config
end

