-- ==== Sys2Proof/Machine/Float.lean ====
section
/-! DEFINITION. Exact numbers and their rounding: every floating-point operation computes exactly and rounds once (R102, R118). -/

namespace Sys2Proof.Machine

/-- An exact number: (−1)^neg × m × 2^e, an infinity, or NaN. -/
inductive Num where
  | fin (neg : Bool) (m : Nat) (e : Int)
  | inf (neg : Bool)
  | nan
deriving DecidableEq, Repr

/-- The rounding modes of R106, and rounding up in magnitude (R127). -/
inductive Rounding where
  | nearest
  | zero
  | stochastic
  | up
deriving DecidableEq, Repr

/-- 2^i for i at or above 0, else 1. -/
def pow2 (i : Int) : Nat := 2 ^ i.toNat

/-- Rounds (−1)^neg × (a ÷ b) × 2^e to M × 2^q with at most `p` bits in M and q at least `qmin`, and answers M and q. `u` is the
16-bit draw of R131. -/
def roundQ (r : Rounding) (u : Nat) (neg : Bool) (p : Nat) (qmin : Int) (a b : Nat) (e : Int) : Nat × Int :=
  if a = 0 then (0, qmin) else
  -- floor of the binary logarithm of (a ÷ b) × 2^e
  let g : Int := (Nat.log2 a : Int) - (Nat.log2 b : Int)
  let l : Int := if a * pow2 (-g) < b * pow2 g then g - 1 + e else g + e
  let q : Int := max (l - (p : Int) + 1) qmin
  let num := a * pow2 (e - q)
  let den := b * pow2 (q - e)
  let m := num / den
  let rem := num % den
  let away := match r with
    | .nearest => decide (den < 2 * rem) || (decide (2 * rem = den) && decide (m % 2 = 1))
    | .zero => false
    | .up => decide (0 < rem)
    | .stochastic =>
      if rem = 0 then false
      else if neg then !decide (u < (den - rem) * 65536 / den) else decide (u < rem * 65536 / den)
  (if away then m + 1 else m, q)

/-- Code of M × 2^q in a format of precision `p` and least unit 2^qmin: the exponent field starts at bit p − 1. -/
def packMag (p : Nat) (qmin : Int) (mq : Nat × Int) : Nat := (mq.2 - qmin).toNat * 2 ^ (p - 1) + mq.1

/-! ### FP32 and BF16 -/

/-- The number that FP32 bits spell, subnormals kept. -/
def f32Num (v : Nat) : Num :=
  let neg := v.testBit 31
  let ex := bitsOf v 23 8
  let f := bitsOf v 0 23
  if ex = 255 then (if f = 0 then .inf neg else .nan)
  else if ex = 0 then .fin neg f (-149) else .fin neg (f + 2 ^ 23) ((ex : Int) - 150)

def f32Inf (neg : Bool) : Nat := 0x7F80_0000 + b2n neg * 2 ^ 31

/-- A NaN whose sign and payload nothing states. -/
def f32NaN (ops : List Nat) : Nat :=
  let f := Config.nanBits ops
  0x7F80_0000 + (1 + f / 2 % (2 ^ 23 - 1)) + (f % 2) * 2 ^ 31

def f32IsNaN (v : Nat) : Bool := decide (bitsOf v 23 8 = 255) && decide (bitsOf v 0 23 ≠ 0)
def f32IsInf (v : Nat) : Bool := decide (bitsOf v 0 31 = 0x7F80_0000)

/-- FP32 code of a rational (−1)^neg × (a ÷ b) × 2^e, nearest even, also just above the largest finite value (DEDUCED: log entry 140). -/
def f32OfRat (neg : Bool) (a b : Nat) (e : Int) : Nat :=
  let m := packMag 24 (-149) (roundQ .nearest 0 neg 24 (-149) a b e)
  (if m ≥ 0x7F80_0000 then 0x7F80_0000 else m) + b2n neg * 2 ^ 31

/-- FP32 code of an exact number; `ops` are the operand bits that a NaN came from. -/
def f32OfNum (ops : List Nat) : Num → Nat
  | .nan => f32NaN ops
  | .inf neg => f32Inf neg
  | .fin neg m e => f32OfRat neg m 1 e

/-- BF16 widened to FP32 bits. -/
def bf16To32 (v : Nat) : Nat := v * 65536

/-- FP32 bits rounded to BF16, with an infinity where the rounded value lies beyond the largest BF16. -/
def bf16Round (r : Rounding) (u : Nat) (v : Nat) : Nat :=
  match f32Num v with
  | .nan => f32NaN [v] / 65536 % 65536 ||| 0x40
  | .inf neg => 0x7F80 + b2n neg * 2 ^ 15
  | .fin neg m e => min 0x7F80 (packMag 8 (-133) (roundQ r u neg 8 (-133) m 1 e)) + b2n neg * 2 ^ 15

/-- A finite value of FP32 bits lies beyond the largest BF16 magnitude, 255 × 2^120. -/
def beyondBf16 (v : Nat) : Bool :=
  match f32Num v with
  | .fin _ m e => decide (255 * pow2 (120 - e) < m * pow2 (e - 120))
  | _ => false

/-- Conversion of FP32 bits to BF16. A finite value beyond the largest BF16 becomes an infinity, or the largest finite value when
rounding toward zero (R130). The second answer says that this happened. -/
def bf16Of32 (r : Rounding) (u : Nat) (v : Nat) : Nat × Bool :=
  if beyondBf16 v then ((if r = .zero then 0x7F7F else 0x7F80) + v / 2 ^ 31 % 2 * 2 ^ 15, true) else (bf16Round r u v, false)

/-! ### Exact arithmetic -/

def Num.negate : Num → Num
  | .fin n m e => .fin (!n) m e
  | .inf n => .inf (!n)
  | .nan => .nan

/-- Exact sum. A sum of zero is +0 unless both terms are −0. -/
def Num.add : Num → Num → Num
  | .nan, _ => .nan
  | _, .nan => .nan
  | .inf a, .inf b => if a = b then .inf a else .nan
  | .inf a, .fin .. => .inf a
  | .fin .., .inf b => .inf b
  | .fin a m e, .fin b n f =>
    let g := min e f
    let x : Int := (m * pow2 (e - g) : Nat) * (if a then -1 else 1)
    let y : Int := (n * pow2 (f - g) : Nat) * (if b then -1 else 1)
    let s := x + y
    if s = 0 then .fin (a && b && m = 0 && n = 0) 0 g else .fin (decide (s < 0)) s.natAbs g

/-- Exact product. -/
def Num.mul : Num → Num → Num
  | .nan, _ => .nan
  | _, .nan => .nan
  | .inf a, .inf b => .inf (a != b)
  | .inf a, .fin b m _ => if m = 0 then .nan else .inf (a != b)
  | .fin a m _, .inf b => if m = 0 then .nan else .inf (a != b)
  | .fin a m e, .fin b n f => .fin (a != b) (m * n) (e + f)

def Num.isZero : Num → Bool
  | .fin _ m _ => decide (m = 0)
  | _ => false

/-- Sign of x − y for numbers that are no NaN: −1, 0 or 1. -/
def Num.cmp (x y : Num) : Int :=
  match x, y with
  | .inf a, .inf b => if a = b then 0 else if a then -1 else 1
  | .inf a, _ => if a then -1 else 1
  | _, .inf b => if b then 1 else -1
  | x, y =>
    match Num.add x y.negate with
    | .fin neg m _ => if m = 0 then 0 else if neg then -1 else 1
    | _ => 0

/-! ### FP32 operations (R102, R562) -/

def f32Add (a b : Nat) : Nat := f32OfNum [a, b] ((f32Num a).add (f32Num b))
def f32Sub (a b : Nat) : Nat := f32OfNum [a, b] ((f32Num a).add (f32Num b).negate)
def f32Mul (a b : Nat) : Nat := f32OfNum [a, b] ((f32Num a).mul (f32Num b))
/-- a × b + c with one rounding. -/
def f32Fma (a b c : Nat) : Nat := f32OfNum [a, b, c] (((f32Num a).mul (f32Num b)).add (f32Num c))

/-- a > b; a NaN compares false. -/
def f32Gt (a b : Nat) : Bool := !f32IsNaN a && !f32IsNaN b && decide ((f32Num a).cmp (f32Num b) = 1)

/-- Two zeros of unlike sign, which compare equal. -/
def f32ZeroPair (a b : Nat) : Bool := decide (a ≠ b) && decide (bitsOf a 0 31 = 0) && decide (bitsOf b 0 31 = 0)

/-- Smaller (`op` 5) or larger (`op` 6) of two values. No rule states the result for a NaN, or which of −0 and +0 it is. -/
def f32MinMax (op a b : Nat) : Nat :=
  if f32IsNaN a || f32IsNaN b then Config.unstated op [a, b] % 2 ^ 32
  else if f32ZeroPair a b then (Config.unstated op [a, b] % 2) * 2 ^ 31
  else if op = 5 then (if f32Gt a b then b else a) else (if f32Gt b a then b else a)

def f32Min (a b : Nat) : Nat := f32MinMax 5 a b
def f32Max (a b : Nat) : Nat := f32MinMax 6 a b

def f32One : Nat := 0x3F80_0000

/-- Integer square root by bits: `r` is the root so far, `n` the bits still to try. -/
def isqrtBits (a : Nat) : Nat → Nat → Nat
  | 0, r => r
  | n + 1, r => isqrtBits a n (if (r + 2 ^ n) * (r + 2 ^ n) ≤ a then r + 2 ^ n else r)

/-- ⌊√a⌋. -/
def isqrt (a : Nat) : Nat := isqrtBits a (Nat.log2 a / 2 + 1) 0

/-! ### Transcendentals: within 2 units in the last place of the exact result (R102)

A result is a fraction `x` ÷ 2^200 of the exact value; the code lies at the nearest FP32 code plus an offset of −2 to 2 that
nothing states, and stays within 2 ulp. -/

def fixBits : Nat := 200

/-- e^x for 0 ≤ x < 1 in fixed point, by its series. -/
def expSeries (x : Nat) : Nat → Nat → Nat → Nat
  | 0, _, acc => acc
  | n + 1, term, acc =>
    let k := 61 - (n + 1)
    let t := term * x / 2 ^ fixBits / k
    expSeries x n t (acc + t)

def expFix (x : Nat) : Nat := expSeries x 60 (2 ^ fixBits) (2 ^ fixBits)

/-- Sum of z^(2k+1) ÷ (2k + 1), which is atanh z, for 0 ≤ z ≤ 1/3 in fixed point. -/
def atanhSeries (z2 : Nat) : Nat → Nat → Nat → Nat → Nat
  | 0, _, _, acc => acc
  | n + 1, k, pw, acc => atanhSeries z2 n (k + 2) (pw * z2 / 2 ^ fixBits) (acc + pw / k)

def atanhFix (z : Nat) : Nat := atanhSeries (z * z / 2 ^ fixBits) 70 1 z 0

/-- Natural logarithm of a ÷ b in fixed point, for b ≤ a ≤ 2 b. -/
def logFix (a b : Nat) : Nat := 2 * atanhFix ((a - b) * 2 ^ fixBits / (a + b))

def ln2Fix : Nat := logFix 2 1

/-- ln(m × 2^e) in fixed point, for 0 < m. -/
def lnFix (m : Nat) (e : Int) : Int := (logFix m (2 ^ Nat.log2 m) : Int) + (e + Nat.log2 m) * (ln2Fix : Int)

/-- −ln(p) × t with one rounding, for 0 < p < 1 and a positive finite t (R291). -/
def f32NegLogTimes (p t : Nat) : Nat :=
  match f32Num p, f32Num t with
  | .fin false m e, .fin false n f => f32OfRat false ((lnFix m e).natAbs * n) 1 (f - fixBits)
  | _, _ => f32NaN [p, t]

/-- The code that lies `Config.ulpOffset` ulp from the nearest code of (−1)^neg × (a ÷ b) × 2^e, if it is within 2 ulp. -/
def nearUlp (op v : Nat) (neg : Bool) (a b : Nat) (e : Int) : Nat :=
  let c := bitsOf (f32OfRat neg a b e) 0 31
  let o := Config.ulpOffset op v % 5
  let d := if c + o < 2 then c else min (c + o - 2) 0x7F7F_FFFF
  let within := match f32Num d, f32Num c with
    | .fin _ m f, .fin _ _ g =>
      -- |m 2^f − (a ÷ b) 2^e| ≤ 2 × 2^g, over the common unit 2^k
      let k := min (min f e) g
      let x : Int := (m * pow2 (f - k) * b : Nat) - (a * pow2 (e - k) : Nat)
      decide (x.natAbs ≤ 2 * pow2 (g - k) * b)
    | _, _ => false
  (if within then d else c) + b2n neg * 2 ^ 31

/-- Operation codes 0x09 EXP, 0x0A LOG, 0x0B RECIP, 0x0C RSQRT of R562. Operands for which no rule states a result take a free one. -/
def f32Trans (op v : Nat) : Nat :=
  let free := Config.unstated op [v] % 2 ^ 32
  match op, f32Num v with
  | _, .nan => f32NaN [v]
  | 0x09, .fin _ 0 _ => nearUlp op v false 1 1 0
  | 0x09, .fin neg m e =>
    -- x = k ln 2 + r
    let x : Int := (m * pow2 (e + fixBits) / pow2 (-(e + fixBits)) : Nat) * (if neg then -1 else 1)
    let k : Int := x / (ln2Fix : Int)
    let r := (x % (ln2Fix : Int)).toNat
    if k > 200 then f32Inf false else if k < -200 then nearUlp op v false 1 1 (-200)
    else nearUlp op v false (expFix r) 1 (k - fixBits)
  | 0x09, .inf true => 0
  | 0x09, .inf false => f32Inf false
  | 0x0A, .fin false m e =>
    if m = 0 then free else
    let x := lnFix m e
    if x = 0 then nearUlp op v false 0 1 0 else nearUlp op v (decide (x < 0)) x.natAbs 1 (-fixBits)
  | 0x0A, .inf false => f32Inf false
  | 0x0B, .fin neg m e => if m = 0 then free else nearUlp op v neg 1 m (-e)
  | 0x0B, .inf neg => b2n neg * 2 ^ 31
  | 0x0C, .fin false m e =>
    if m = 0 then free else
    -- 1 ÷ √(m 2^e), with e made even
    let m' := if e % 2 = 0 then m else 2 * m
    let e' := if e % 2 = 0 then e else e - 1
    let root := isqrt (2 ^ (4 * fixBits) / m')
    nearUlp op v false root 1 (-(e' / 2) - 2 * fixBits)
  | 0x0C, .inf false => 0
  | _, _ => free

end Sys2Proof.Machine
end

