-- ==== Sys2Proof/Machine/Formats.lean ====
section
/-! DEFINITION. The element formats, their block metadata and layouts, and the conversions into them (R106 to R131). -/

namespace Sys2Proof.Machine

/-! ### Format codes (R106) -/

abbrev fRAW := 0x00
abbrev fBIN := 0x01
abbrev fN2 := 0x02
abbrev fN4 := 0x03
abbrev fN4i := 0x04
abbrev fN8 := 0x05
abbrev fF8A := 0x06
abbrev fF8B := 0x07
abbrev fBF16 := 0x08
abbrev fFP32 := 0x09
abbrev fACC32 := 0x20
abbrev fACCI := 0x21

def fmtKnown (f : Nat) : Bool := decide (f ≤ 0x09) || f = 0x20 || f = 0x21

/-- Bits [5:0] of a FORMAT byte. -/
def fmtCode (f : Nat) : Nat := f % 64

/-- Bits [7:6]: the rounding mode; 11 is reserved. -/
def fmtRounding (f : Nat) : Option Rounding :=
  match f / 64 % 4 with
  | 0 => some .nearest
  | 1 => some .zero
  | 2 => some .stochastic
  | _ => none

/-- Element width in bits. -/
def fmtBits : Nat → Nat
  | 0x01 => 1
  | 0x02 => 2
  | 0x03 | 0x04 => 4
  | 0x05 | 0x06 | 0x07 => 8
  | 0x08 => 16
  | 0x09 | 0x20 | 0x21 => 32
  | _ => 8

def fmtIs8 (f : Nat) : Bool := f = 5 || f = 6 || f = 7
def fmtIs4 (f : Nat) : Bool := f = 3 || f = 4
def fmtIsNarrow (f : Nat) : Bool := f = 2 || fmtIs4 f || fmtIs8 f

/-- Length of a scale block in k-values. -/
def scaleBlock (f : Nat) : Nat := if f = fN2 then 64 else if fmtIs4 f then 16 else 32

/-- Escape slots of a block of 64. -/
def escapeSlots (f : Nat) : Nat := if f = fN2 then 2 else if fmtIs4 f then 1 else 0

/-! ### Scales (R108 to R110) -/

/-- A block scale as decoded: its magnitude (none where invalid) and its MARK. -/
structure Scale where
  mag : Option (Nat × Int)
  mark : Bool
deriving DecidableEq, Repr

/-- E4M3 magnitude of code bits [6:0], as m × 2^e. -/
def e4m3Mag (c : Nat) : Nat × Int :=
  let ex := c / 8 % 16
  if ex = 0 then (c % 8, -9) else (8 + c % 8, (ex : Int) - 10)

def e4m3Scale (b : Nat) : Scale :=
  { mag := if b % 128 = 0x7F then none else some (e4m3Mag b), mark := b.testBit 7 }

def bf16Scale (v : Nat) : Scale :=
  let ex := v / 128 % 256
  { mag := if ex = 255 then none else if ex = 0 then some (v % 128, -133) else some (128 + v % 128, (ex : Int) - 134)
    mark := v.testBit 15 }

def decodeScale (f raw : Nat) : Scale := if fmtIs8 f then bf16Scale raw else e4m3Scale raw

/-! ### Elements (R111 to R115) -/

/-- Twice the E2M1 magnitude of code bits [2:0]. -/
def e2m1Twice (c : Nat) : Nat := [0, 1, 2, 3, 4, 6, 8, 12].getD (c % 8) 0

def isEscape (f c : Nat) : Bool := (f = fN2 && c = 2) || (fmtIs4 f && c = 8)

/-- The value of code `c`, apart from its scale, where it is no escape. -/
def codeNum (f c : Nat) : Num :=
  if f = fN4 then .fin (c.testBit 3) (e2m1Twice c) (-1)
  else if f = fN4i then .fin (decide (toSigned 4 c < 0)) (toSigned 4 c).natAbs 0
  else if f = fN2 then (if c = 1 then .fin false 1 0 else if c = 3 then .fin true 1 0 else .fin false 0 0)
  else if f = fN8 then .fin (decide (toSigned 8 c < 0)) (toSigned 8 c).natAbs 0
  else if f = fF8A then
    (if c % 128 = 0x7F then .nan else let m := e4m3Mag (c % 128); .fin (c.testBit 7) m.1 m.2)
  else if f = fF8B then
    let ex := c / 4 % 32
    (if ex = 31 then (if c % 4 = 0 then .inf (c.testBit 7) else .nan)
     else if ex = 0 then .fin (c.testBit 7) (c % 4) (-16) else .fin (c.testBit 7) (4 + c % 4) ((ex : Int) - 17))
  else .fin false 0 0

/-- The value of an escape slot byte, apart from the scale: o ÷ 2 at N4 and N4i, o ÷ 4 at N2. -/
def escapeNum (f o : Nat) : Num :=
  let v := toSigned 8 o
  .fin (decide (v < 0)) v.natAbs (if f = fN2 then -2 else -1)

/-- One element under its scale. `slot` is the byte of its escape slot, or none for an escape beyond the slots. -/
def elemNum (f c : Nat) (s : Scale) (slot : Option Nat) : Num :=
  match s.mag with
  | none => .fin false 0 0
  | some (0, _) => .fin false 0 0
  | some (m, e) =>
    let v := if isEscape f c then (match slot with | some o => escapeNum f o | none => .fin false 0 0) else codeNum f c
    v.mul (.fin false m e)

/-! ### Layouts (R85, R116, R117)

An area is read through `rd`, a byte by offset from its start. `row` and `col` name a line of an area; `k` the k-value. -/

/-- A field of `n` bits at bit `b` of an area. -/
def readBits (rd : Nat → Nat) (b n : Nat) : Nat :=
  if n ≤ 8 then rd (b / 8) / 2 ^ (b % 8) % 2 ^ n
  else (List.range (n / 8)).foldl (fun a i => a + rd (b / 8 + i) * 256 ^ i) 0

/-- Place of one element: the bit of its code, the byte of its scale, and the byte of escape slot `n` of its block. -/
structure Place where
  code : Nat
  scale : Nat
  slot : Nat → Nat

/-- Input area (R85, R116): T tiles over K k-values; `m` the tile, `i` the row in it. -/
def inputPlace (f K T k m i : Nat) : Place :=
  let w := fmtBits f
  let m0 := K * T * 3 * w
  { code := (k * T + m) * 24 * w + w * i
    scale := if fmtIs8 f then m0 + ((k / 32 * T + m) * 24 + i) * 2 else m0 + (k / 16 * T + m) * 24 + i
    slot := fun _ => m0 + ceilDiv K 16 * T * 24 + (k / 64 * T + m) * 24 + i }

/-- k-values of a group of a weight stream (R117). -/
def groupK (f : Nat) : Nat := if fmtIs4 f || f = fN2 then 64 else if fmtIs8 f then 32 else if f = fBIN then 8 else 1

def groupSize (f : Nat) : Nat :=
  if fmtIs4 f then 888 else if f = fN2 then 456 else if fmtIs8 f then 816 else if f = fBF16 then 48 else if f = fBIN then 24
  else 24 * fmtBits f / 8

/-- Weight stream (R117): column `j`, k-value `k` of the stream. -/
def weightPlace (f k j : Nat) : Place :=
  let g := k / groupK f * groupSize f
  let h := k % groupK f
  if fmtIs4 f then { code := 8 * (g + 120 + 12 * h) + 4 * j, scale := g + h / 16 * 24 + j, slot := fun _ => g + 96 + j }
  else if f = fN2 then
    { code := 8 * (g + 72 + 12 * (h / 2)) + 4 * j + 2 * (h % 2), scale := g + j, slot := fun n => g + 24 * (n + 1) + j }
  else if fmtIs8 f then { code := 8 * (g + 48 + 24 * h + j), scale := g + 2 * j, slot := fun _ => 0 }
  else if f = fBIN then { code := 8 * g + 8 * j + h, scale := 0, slot := fun _ => 0 }
  else { code := 8 * g + fmtBits f * j, scale := 0, slot := fun _ => 0 }

/-- Number of escape codes of the block of 64 before k-value `k`, with `at_ k` the place of a k-value of the same line. -/
def escapesBefore (f : Nat) (rd : Nat → Nat) (at_ : Nat → Place) (k : Nat) : Nat :=
  ((List.range (k % 64)).filter fun d => isEscape f (readBits rd (at_ (k - k % 64 + d)).code (fmtBits f))).length

/-- What the fetch stage finds at one element: its value, and the guard conditions of R121. -/
structure Fetched where
  num : Num
  excess : Bool
  marked : Bool
  bad : Bool

def fetchElem (f : Nat) (rd : Nat → Nat) (at_ : Nat → Place) (k : Nat) : Fetched :=
  let p := at_ k
  let c := readBits rd p.code (fmtBits f)
  if f = fBF16 then { num := f32Num (bf16To32 c), excess := false, marked := false, bad := false }
  else if f = fFP32 || f = fACC32 then { num := f32Num c, excess := false, marked := false, bad := false }
  else if f = fBIN then { num := .fin (c = 0) 1 0, excess := false, marked := false, bad := false }
  else
    let s := decodeScale f (readBits rd (8 * p.scale) (if fmtIs8 f then 16 else 8))
    let n := if isEscape f c then escapesBefore f rd at_ k else 0
    let slot := if n < escapeSlots f then some (rd (p.slot n)) else none
    { num := elemNum f c s slot, excess := isEscape f c && escapeSlots f ≤ n, marked := s.mark, bad := s.mag.isNone }

/-! ### Conversion (R127 to R131)

A block is a list of FP32 values in ascending k-value; `u` gives the draw of an element by its place in the block. -/

def absMag (v : Nat) : Nat := bitsOf v 0 31

/-- The exact magnitude of an FP32 value as m × 2^e; an infinity stands above every finite value. -/
def magOf (v : Nat) : Nat × Int :=
  match f32Num v with
  | .fin _ m e => (m, e)
  | .inf _ => (1, 200)
  | .nan => (0, 0)

/-- a × 2^e ≥ b × 2^f. -/
def geMag (a b : Nat × Int) : Bool := decide (b.1 * pow2 (b.2 - a.2) ≤ a.1 * pow2 (a.2 - b.2))

/-- The smallest E4M3 magnitude at or above (a ÷ b) × 2^e and whether it was clamped (RoundUp4 of R127). -/
def roundUp4 (a b : Nat) (e : Int) : Nat × Bool :=
  let c := packMag 4 (-9) (roundQ .up 0 false 4 (-9) a b e)
  if c > 0x7E then (0x7E, true) else (c, false)

/-- RoundUp16 of R127. -/
def roundUp16 (a b : Nat) (e : Int) : Nat × Bool :=
  let c := packMag 8 (-133) (roundQ .up 0 false 8 (-133) a b e)
  if c > 0x7F7F then (0x7F7F, true) else (c, false)

/-- The larger of two rationals (a ÷ b) × 2^e. -/
def maxRat (x y : Nat × Nat × Int) : Nat × Nat × Int :=
  if geMag (x.1 * y.2.1, x.2.2) (y.1 * x.2.1, y.2.2) then x else y

/-- x ÷ s rounded to an integer magnitude of at most `lim`, and whether it saturated. -/
def roundToInt (r : Rounding) (u lim v : Nat) (s : Nat × Int) : Nat × Bool :=
  let m := magOf v
  let q := (roundQ r u (v.testBit 31) 400 0 m.1 s.1 (m.2 - s.2)).1
  if q > lim then (lim, true) else (q, false)

/-- x ÷ s rounded to a floating magnitude code of precision `p`, at most `lim`. -/
def roundToFp (r : Rounding) (u p : Nat) (qmin : Int) (lim v : Nat) (s : Nat × Int) : Nat × Bool :=
  let m := magOf v
  let c := packMag p qmin (roundQ r u (v.testBit 31) p qmin m.1 s.1 (m.2 - s.2))
  if c > lim then (lim, true) else (c, false)

def specialVal (v : Nat) : Bool := f32IsNaN v || f32IsInf v

/-- One element of a narrow format under scale magnitude `s`: its code and whether it saturated, which a NaN does (DESIGN CHOICE: log entry
141). -/
def narrowElem (f : Nat) (r : Rounding) (u v : Nat) (s : Nat × Int) : Nat × Bool :=
  let neg := v.testBit 31
  if s.1 = 0 then (0, false)
  else if specialVal v then (Config.narrowSpecial f v % 2 ^ fmtBits f, true)
  else if f = fN4 then
    let c := roundToFp r u 2 (-1) 7 v s
    (if c.1 = 0 then 0 else c.1 + 8 * b2n neg, c.2)
  else if f = fN4i then
    let c := roundToInt r u 7 v s
    (ofSigned 4 (if neg then -(c.1 : Int) else c.1), c.2)
  else if f = fN8 then
    let c := roundToInt r u 127 v s
    (ofSigned 8 (if neg then -(c.1 : Int) else c.1), c.2)
  else if f = fF8A then
    let c := roundToFp r u 4 (-9) 0x7E v s
    (c.1 + 128 * b2n neg, c.2)
  else
    let c := roundToFp r u 3 (-16) 0x7B v s
    (c.1 + 128 * b2n neg, c.2)

/-- A converted block of 64 (N2, N4, N4i) or 32 (N8, F8A, F8B): scales, escape slots, codes, and whether OVF_CVT is due. -/
structure Converted where
  scales : List Nat
  slots : List Nat
  codes : List Nat
  ovf : Bool
deriving DecidableEq, Repr

/-- Place of the element of largest |x| that `p` admits; ties go to the lowest k-value. NaN counts as 0. -/
def argMax (vs : List Nat) (p : Nat → Bool) : Option Nat :=
  (List.range vs.length).foldl (fun best i =>
    if !p i then best else
    match best with
    | none => some i
    | some b => if geMag (magOf (vs.getD b 0)) (magOf (vs.getD i 0)) then some b else some i) none

def maxMag (vs : List Nat) (p : Nat → Bool) : Nat × Int :=
  match argMax vs p with
  | some i => magOf (vs.getD i 0)
  | none => (0, 0)

/-- A scale code with MARK when clamped; a block with a NaN takes a scale that no rule states. -/
def scaleCode (f : Nat) (vs : List Nat) (c : Nat × Bool) : Nat :=
  if vs.any f32IsNaN then Config.narrowScale f vs % (if fmtIs8 f then 65536 else 256)
  else c.1 + (if c.2 then (if fmtIs8 f then 0x8000 else 0x80) else 0)

def scaleMag (f c : Nat) : Nat × Int := ((decodeScale f c).mag).getD (0, 0)
def scaleMark (f c : Nat) : Bool := (decodeScale f c).mark

/-- Conversion to N4 or N4i of a block of up to 64 values (R128). -/
def convert4 (f : Nat) (r : Rounding) (u : Nat → Nat) (vs : List Nat) : Converted :=
  let l := if f = fN4 then 6 else 7
  let e := (argMax vs fun _ => true).getD 0
  let j := e / 16
  let inJ := fun i => decide (i / 16 = j)
  let xe := magOf (vs.getD e 0)
  let rest := maxMag vs fun i => inJ i && i ≠ e
  -- |x_e| > 4 × r
  let esc := !vs.isEmpty && !geMag (4 * rest.1, rest.2) xe
  let block := fun b => (vs.drop (16 * b)).take 16
  let nblk := ceilDiv vs.length 16
  let scales := (List.range nblk).map fun b =>
    if b = j && esc then
      let q := maxRat (rest.1, l, rest.2) (2 * xe.1, 127, xe.2)
      scaleCode f (block b) (roundUp4 q.1 q.2.1 q.2.2)
    else
      let m := maxMag (block b) fun _ => true
      scaleCode f (block b) (roundUp4 m.1 l m.2)
  let mag := fun i => scaleMag f (scales.getD (i / 16) 0)
  let slot :=
    if esc then
      let v := vs.getD e 0
      if specialVal v then (Config.narrowSpecial f v % 256, true)
      else if (mag e).1 = 0 then (0, false)
      else
        let s := mag e
        let o := roundToInt r (u e) (if v.testBit 31 then 128 else 127) v (s.1, s.2 - 1)
        (ofSigned 8 (if v.testBit 31 then -(o.1 : Int) else o.1), o.2)
    else (0, false)
  let elems := (List.range vs.length).map fun i =>
    if esc && i = e then (if (mag e).1 = 0 then 0 else 8, false) else narrowElem f r (u i) (vs.getD i 0) (mag i)
  { scales := scales, slots := [slot.1], codes := elems.map (·.1)
    ovf := slot.2 || elems.any (·.2) || scales.any (scaleMark f) }

/-- Exact sum of magnitudes. -/
def sumMag (l : List (Nat × Int)) : Nat × Int :=
  l.foldl (fun a b => let g := min a.2 b.2; (a.1 * pow2 (a.2 - g) + b.1 * pow2 (b.2 - g), g)) (0, 0)

/-- Conversion to N2 of a block of up to 64 values (R129). The mean of a shorter block is that of the others there are (DEDUCED: log entry 145). -/
def convert2 (r : Rounding) (u : Nat → Nat) (vs : List Nat) : Converted :=
  let c1 := (argMax vs fun _ => true).getD 0
  let c2 := (argMax vs fun i => i ≠ c1).getD c1
  let others := (List.range vs.length).filter fun i => i ≠ c1 && i ≠ c2
  let sum := sumMag (others.map fun i => magOf (vs.getD i 0))
  let x1 := magOf (vs.getD c1 0)
  let q := maxRat (sum.1, max 1 others.length, sum.2) (4 * x1.1, 127, x1.2)
  let clamp := roundUp4 q.1 q.2.1 q.2.2
  let raw := scaleCode fN2 vs clamp
  let s := scaleMag fN2 raw
  let big := fun i => s.1 ≠ 0 && geMag (magOf (vs.getD i 0)) (2 * s.1, s.2)
  let esc := ([min c1 c2, max c1 c2].eraseDups).filter fun i => decide (i < vs.length) && big i
  let third := others.any big
  let slots := esc.map fun i =>
    let v := vs.getD i 0
    if specialVal v then (Config.narrowSpecial fN2 v % 256, true)
    else
      let o := roundToInt r (u i) (if v.testBit 31 then 128 else 127) v (s.1, s.2 - 2)
      (ofSigned 8 (if v.testBit 31 then -(o.1 : Int) else o.1), o.2)
  let codes := (List.range vs.length).map fun i =>
    let v := vs.getD i 0
    let sign := if v.testBit 31 then 3 else 1
    if s.1 = 0 then 0
    else if esc.contains i then 2
    else if f32IsNaN v then Config.narrowSpecial fN2 v % 4
    else if r = .stochastic then
      (if geMag (magOf v) s then sign
       else
         -- neighbours 0 and ±s: b is taken if u < ⌊(x − a) ÷ (b − a) × 65,536⌋ (R131)
         let x := (magOf v).1 * pow2 ((magOf v).2 - s.2)
         let d := s.1 * pow2 (s.2 - (magOf v).2)
         if v.testBit 31 then (if u i < (d - x) * 65536 / d then 0 else sign)
         else if u i < x * 65536 / d then sign else 0)
    else if geMag (2 * (magOf v).1, (magOf v).2) s then sign else 0
  let mark := if third && !scaleMark fN2 raw then raw + 0x80 else raw
  { scales := [mark], slots := [(slots.getD 0 (0, false)).1, (slots.getD 1 (0, false)).1], codes := codes
    ovf := slots.any (·.2) || scaleMark fN2 mark }

/-- Conversion to N8, F8A or F8B of a block of up to 32 values (R130). -/
def convert8 (f : Nat) (r : Rounding) (u : Nat → Nat) (vs : List Nat) : Converted :=
  let m := maxMag vs fun _ => true
  let l := if f = fN8 then 127 else if f = fF8A then 448 else 57344
  let raw := scaleCode f vs (roundUp16 m.1 l m.2)
  let s := scaleMag f raw
  let elems := (List.range vs.length).map fun i => narrowElem f r (u i) (vs.getD i 0) s
  { scales := [raw], slots := [], codes := elems.map (·.1), ovf := elems.any (·.2) || scaleMark f raw }

def convertBlock (f : Nat) (r : Rounding) (u : Nat → Nat) (vs : List Nat) : Converted :=
  if fmtIs8 f then convert8 f r u vs else if f = fN2 then convert2 r u vs else convert4 f r u vs

/-- Length of the block that a conversion works on. -/
def convertLen (f : Nat) : Nat := if fmtIs8 f then 32 else 64

end Sys2Proof.Machine
end

