-- ==== Sys2Proof/Machine/State.lean ====
section
/-! DEFINITION. The state of the module as plain data: every register, store, table, queue, counter and mode the spec gives it,
grouped by the unit that holds it, and the queue of commands that wait. -/

namespace Sys2Proof.Machine

/-- Numbers by number; a key that is not listed reads as 0. Keys rise strictly and no listed number is 0. -/
abbrev NMap := List (Nat × Nat)

/-- Memory as (key, byte) pairs in one canonical form: keys strictly rising, no byte equal to what an unlisted key reads as. -/
abbrev Memory := List Host.Cell

/-! ### Reasons to stop -/

/-- Why the machine would stop with a fault. No command of this module does: every detection of the spec is taken as a
fault record (R440), and a command the module cannot accept in its present power state has no effect (R450, R510).
The one constructor is raised by nothing; safe. -/
inductive Fault where
  /-- Raised by nobody; safe. -/
  | halted
deriving DecidableEq, Repr

/-- Why a command has no meaning in the model. -/
inductive Refusal where
  /-- Raised by `exec` for a row whose meaning is not written; safe. -/
  | notModelled (mnemonic : String)
deriving DecidableEq, Repr

/-! ### Time, start and power -/

/-- The herd count (R41): 64 bits wide, never set back. -/
structure Clock where
  herd : Nat
deriving DecidableEq, Repr

/-- The three part numbers (R5). -/
inductive Part where
  | u8200f
  | u8100s
  | u6400c
deriving DecidableEq, Repr

/-- The states of R541. -/
inductive Phase where
  /-- no 56 V, or absent -/
  | noPower
  /-- 56 V present, PWR_EN low (R470) -/
  | held
  /-- RESET_N low -/
  | inReset
  /-- bring-up, stages 0 to 9 (R491) -/
  | bringUp
  /-- waiting for an image (R496) -/
  | imageWait
  /-- end of bring-up: RUN -/
  | run
  /-- STANDBY (R470) -/
  | standby
  /-- orderly power-down (R543) -/
  | poweringDown
  /-- safe state (R450) -/
  | safe
deriving DecidableEq, Repr

/-- A stage report (R494). -/
structure StageReport where
  stage : Nat
  result : Nat
  status : Nat
  found : Nat
  durationMS : Nat
  startHerd : Nat
  detail : Nat
  flags : Nat
deriving DecidableEq, Repr

/-- A defect-list entry (R486). -/
structure DefectEntry where
  ukind : Nat
  source : Nat
  cause : Nat
  uindex : Nat
  start : Nat
deriving DecidableEq, Repr

/-- A signed image (R488): its header fields, identity and body. -/
structure Image where
  kind : Nat
  version : Nat
  stateFormat : Nat
  identity : Nat
  body : Bytes
deriving DecidableEq, Repr

/-- One copy of an A/B region of the tack store (R485): SEQ of its trailer, whether the trailer's CRC-32C holds over the copy, and what it holds. -/
structure TackCopy (α : Type) where
  seq : Nat
  crcOk : Bool
  held : α
deriving DecidableEq, Repr

/-- An A/B region (R484). -/
structure TackRegion (α : Type) where
  a : TackCopy α
  b : TackCopy α
deriving DecidableEq, Repr

/-- The store header (R484): start count, last start mode, and the image regions in use (1 configuration, 2 firmware). -/
structure StoreHeader where
  startCount : Nat
  startMode : Nat
  inUse : Nat
deriving DecidableEq, Repr

/-- The tack store (R483, R484): what its SFDP table offers, as the boot ROM has learned it, its A/B regions and its two image regions; a
region of an image holds none where no valid image lies there. -/
structure Tack where
  device : Option Sfdp
  header : TackRegion StoreHeader
  owner : TackRegion Bytes
  /-- stack channels, barn channels, Halter lanes and Drove lanes whose saved training is valid, as UKIND × 2^56 + number; lane i of Drove port p is
  8 p + i -/
  saved : TackRegion (List Nat)
  defects : TackRegion (List DefectEntry)
  retired : TackRegion (List Nat)
  faultLog : TackRegion (List Bytes)
deriving DecidableEq, Repr

/-- A firmware handover in progress (R499): the command, the image, the cores still to hand over in order, the core that is
away, whether the store is kept and whether the rewrite runs. -/
structure Handover where
  ring : Nat
  index : Nat
  cmdId : Nat
  image : Image
  todo : List Nat
  away : Option Nat
  onNew : List Nat
  keepStore : Bool
  rewriting : Bool
deriving DecidableEq, Repr

/-- Bring-up, the tack store and the BOOT registers (R483 to R506). -/
structure Boot where
  part : Part
  phase : Phase
  inputPresent : Bool
  pwrEn : Bool
  resetN : Bool
  /-- stages completed in this start, 0 to 10 -/
  stagesDone : Nat
  degraded : Bool
  fast : Bool
  nextFull : Bool
  identityBad : Bool
  readyHerd : Nat
  /-- REF_CLK failed after stage 0: the herd count is not valid until the next start (R461) -/
  herdInvalid : Bool
  stageStart : Nat
  log : List StageReport
  prev : List StageReport
  romVersion : Nat
  deviceId : Nat
  tack : Tack
  /-- image regions of the tack store; none where no valid image lies there -/
  tackFw : Option Image
  tackCfg : Option Image
  /-- images in use in this start -/
  fw : Option Image
  cfg : Option Image
  /-- standing fences and re-formations not yet in the defect list (R486) -/
  toAppend : List DefectEntry
  /-- units that the full defect list has not taken: they apply to this start only (R486), as (UKIND, UINDEX) -/
  unlisted : List (Nat × Nat)
  mapRegion : Nat
  copyYard : Option Nat
  rcvLo : Nat
  rcvHi : Nat
  rcvLen : Nat
  rcvInstall : Bool
  rcvBusy : Bool
  rcvStatus : Nat
  handover : Option Handover
deriving DecidableEq, Repr

/-- The SYNC unit (R545 to R549). -/
structure Sync where
  locked : Bool
  solo : Bool
  mismatch : Bool
  /-- a message after the one that disagreed has agreed (R549) -/
  agreed : Bool
  stale : Bool
  messages : Nat
  badCheck : Nat
  lastValid : Nat
  /-- last message sent on SYNC_OUT: its 74 samples as a number, least significant first -/
  out : Option Nat
deriving DecidableEq, Repr

/-- One power domain (R462, R482). State codes: 0 ON, 1 IDLE, 2 NAP, 3 DOZE, 4 OFF. -/
structure Domain where
  state : Nat
  waking : Bool
  wakes : Nat
  /-- herd count since which the domain is idle -/
  idleSince : Nat
  /-- stored energy counter in µJ (R471 counts whole mJ of it) -/
  energyUJ : Nat
  /-- consecutive samples outside the rail's limits (R472) -/
  badSamples : Nat
  /-- energy of the last 100 samples in µJ, newest first: 1 ms (R475) -/
  recent : List Nat
deriving DecidableEq, Repr

/-- Power, energy window and throttle (R459 to R482). -/
structure Power where
  domains : List (Nat × Domain)
  vinMV : Nat
  inputUJ : Nat
  /-- input energy of the last samples, newest first, in µJ -/
  history : List Nat
  badInput : Nat
  inputFault : Bool
  underVoltage : Bool
  windowStart : Nat
  windowMS : Nat
  allowW : Nat
  throttleW : Nat
  usedUJ : Nat
  overdraftIn : Nat
  pendAllow : Option Nat
  pendWindow : Option Nat
  thrLevel : Nat
  /-- further paddocks the throttle has added, and samples since the last was added (R477) -/
  thrPads : Nat
  thrSamples : Nat
  standbyAsked : Bool
  /-- a batch whose estimate exceeds a whole allowance (R475): ring, index, and the herd count from which it waits, 0 once it has waited
  through a whole window -/
  bigBatch : Option (Nat × Nat × Nat)
deriving DecidableEq, Repr

/-! ### Registers -/

/-- A sweep in progress (R522, R523). -/
structure Sweep where
  crc : Nat
  startHerd : Nat
  windowSeen : Bool
  forCommit : Bool
deriving DecidableEq, Repr

/-- The configuration check engine (R521 to R526). -/
structure CfgCheck where
  /-- holder of the open window: none, host (false) or firmware (true) -/
  holder : Option Bool
  openWait : Bool
  openedAt : Nat
  /-- TIMEOUT, and whether a later commit has completed, so that its cause is gone (R526) -/
  timeout : Bool
  timeoutGone : Bool
  committing : Bool
  state : Nat
  restoring : Bool
  /-- CFG_REF commits have begun (stage 9) -/
  live : Bool
  ref : Nat
  last : Nat
  sweeps : Nat
  drop : Nat
  sweep : Option Sweep
  /-- checked registers at the last commit, by key -/
  committed : NMap
  /-- table changes that firmware makes once the host's window closes, as command ring × 256 + index -/
  waiting : List Nat
deriving DecidableEq, Repr

/-- The register interface (R507 to R533). -/
structure Regs where
  /-- IDX_ADDR[t][k] by t × 4 + k -/
  idxAddr : NMap
  /-- captured _HI values by master × 2^32 + key (R515) -/
  captured : NMap
  /-- _LO values written and not yet joined by their _HI, by key (R515) -/
  loWritten : NMap
  unmapped : Nat
  privDrop : Nat
  privLast : Nat
  musterAddr : Nat
  /-- value and status of the last register read (R508, R509) -/
  readValue : Nat
  readStatus : Nat
  cfg : CfgCheck
deriving DecidableEq, Repr

/-- A change of active tables that waits for a launch point (R158). `cause` 0 SWAP, 1 throttle of a stack, 2 calibration,
3 restore after calibration, 4 forming or teardown, 5 standing fence, 6 entries for a groom test, 7 restore after one. -/
structure TableChange where
  cause : Nat
  tables : List Nat
  /-- link maps change too -/
  links : Bool
  stack : Nat
  /-- the pending tables and link maps as they stood when the change was asked for, which it brings (R152, R525) -/
  copy : NMap := []
  linkCopy : NMap := []
deriving DecidableEq, Repr

/-- Slot tables and link maps (R152 to R162, R346, R372, R404, R530). Tables are numbered: pseudo-channel n at n, barn
channel c at 512 + c, shed channel c at 544 + c, unit slot u at 568 + u. Entry e of table t lies at t × 256 + e. -/
structure Slots where
  pend : NMap
  act : NMap
  /-- tables as last swapped, before throttling, calibration and standing fences; and the tables now set to CAL, or to GROOM for a test
  (R158, R335, R502) -/
  base : NMap
  cal : List Nat
  grm : List Nat
  linkPend : NMap
  linkAct : NMap
  tableErr : List Nat
  rrNext : NMap
  /-- SWAPs that wait for the configuration window to close (R525); table 583 is LINK_CTL -/
  swapWait : List Nat
  changes : List TableChange
  bgPairs : NMap
  idlePairs : NMap
  /-- grant up to which a table's arbitration has been counted; background locked sequences that stand, as (table, owner, grant at which
  they end); and planned locked sequences not yet counted, as (table, first cycle, cycle after the last) (R156, R157, R162) -/
  counted : NMap
  bgLocks : List (Nat × Nat × Nat)
  planLocks : List (Nat × Nat × Nat)
  /-- accesses dropped under R139, by bay -/
  foreign : NMap
deriving DecidableEq, Repr

/-! ### Rings -/

/-- An outstanding command: fetched, and without its completion written (R420). -/
structure Outstanding where
  index : Nat
  op : Nat
  entry : Entry
  herd : Nat
  started : Bool
deriving DecidableEq, Repr

/-- A completion entry (R421). -/
structure Completion where
  status : Nat
  cmdId : Nat
  herd : Nat
  index : Nat
  value : Nat
  /-- host address and bytes of the result (R421: written before the entry) -/
  resultAt : Nat
  result : Bytes
deriving DecidableEq, Repr

/-- One command ring (R418). -/
structure Ring where
  enable : Bool
  streamEn : Bool
  admin : Bool
  tenant : Nat
  sub : Nat
  cpl : Nat
  str : Nat
  subHead : Nat
  subTail : Nat
  cplHead : Nat
  cplTail : Nat
  phase : Bool
  strHead : Nat
  strTail : Nat
  out : List Outstanding
  /-- CMD_IDs of the BATCH commands that have completed, newest first: what a CANCEL finds complete (R434) -/
  done : List Nat
  /-- completions that wait for the link (R417) -/
  heldCpl : List Completion
  /-- stream entries in the stream store (R422), oldest first -/
  heldStr : List Bytes
deriving DecidableEq, Repr

/-- The event ring (R423, R532). -/
structure EventRing where
  base : Nat
  head : Nat
  tail : Nat
  enable : Bool
  lost : Nat
  held : List Bytes
deriving DecidableEq, Repr

/-! ### Faults -/

/-- A fault record (R440). -/
structure FaultRec where
  cls : Nat
  reaction : Nat
  cause : Nat
  seq : Nat
  herd : Nat
  ukind : Nat
  uindex : Nat
  detail : Nat
  arg : Nat
  attempt : Nat
  repeats : Nat
  paddocks : List Nat
  planId : Nat
  queuedBehind : Bool
  standing : Bool
  done : Bool
  causePresent : Bool
  fenceDelay : Nat
deriving DecidableEq, Repr

/-- The fault collector and the fault log (R440 to R458). -/
structure Faults where
  slots : List (Nat × FaultRec)
  seq : Nat
  /-- log records, newest first, at most 1,024; and how many were ever written since 56 V -/
  log : List Bytes
  logged : Nat
  /-- SEQ of the record under recovery, and the queued records in order (R453) -/
  recovering : Option FaultRec
  queue : List FaultRec
  /-- (UKIND × 2^56 + UINDEX, herd) of detections, newest first (REPEAT of R440) -/
  history : List (Nat × Nat)
  /-- (unit, launch herd count, attempt) in which a unit was named (R445) -/
  named : List (Nat × Nat × Nat)
  /-- units with a standing fence, as UKIND × 2^56 + UINDEX -/
  standing : List Nat
  /-- standing fences whose effect waits for a launch point -/
  toFence : List Nat
  /-- fenced paddocks with the SEQ of the record that fences them -/
  fences : List (Nat × Nat)
  /-- (paddock, page) held for a PAGE_RETIRE (R447) -/
  heldPages : List (Nat × Nat)
  /-- pages named since the last start (R333) -/
  badPages : List Nat
  noteAlert : Bool
deriving DecidableEq, Repr

/-! ### Plans -/

/-- A plan word (R50). -/
structure PWord where
  slot : Nat
  cls : Nat
  v : Bool
  s : Bool
  l : Bool
  resv : Nat
  kind : Nat
  mask : Nat
  dst : Nat
  srca : Nat
  srcb : Nat
deriving DecidableEq, Repr

/-- An operand descriptor (R53). -/
structure Desc where
  space : Nat
  format : Nat
  flags : Nat
  length : Nat
  base : Nat
  strideUnit : Nat
  strideRep : Nat
  deadline : Nat
  binding : Nat
  guard : Nat
deriving DecidableEq, Repr

/-- A share entry (R390): a target, an owner, a table or link index and the set of entries as a 256-bit number. -/
structure Share where
  target : Nat
  owner : Nat
  index : Nat
  resv : Nat
  entries : Nat
deriving DecidableEq, Repr

/-- A BINDINGS entry (R558). -/
structure Binding where
  kind : Nat
  region : Nat
  resv : Nat
  ident : Nat
deriving DecidableEq, Repr

/-- A GUARDS entry (R123). -/
structure GuardEntry where
  guard : Nat
  sources : Nat
  flags : Nat
  word : Nat
  shadow : Nat
  resv : Nat
deriving DecidableEq, Repr

/-- An allocation entry of RESIDENCY (R351). -/
structure AllocEntry where
  allocId : Nat
  set : Nat
  flags : Nat
  place : Nat
  length : Nat
  commons : Nat
  phys : Nat
  master : Nat
  masterSpace : Nat
  stackMask : Nat
  resvZero : Bool
deriving DecidableEq, Repr

/-- A PREFETCH entry (R360). -/
structure Prefetch where
  post : Nat
  src : Nat
  dst : Nat
  layer : Nat
  flags : Nat
  resv : Nat
deriving DecidableEq, Repr

/-- An ENERGY entry (R474). -/
structure EnergyEntry where
  word : Nat
  domain : Nat
  estUJ : Nat
  resv : Nat
deriving DecidableEq, Repr

/-- A plan image as it is held once loaded (R45 to R47, R558). -/
structure Plan where
  planId : Nat
  version : Nat
  kind : Nat
  parts : Nat
  flags : Nat
  stalls : Nat
  prefillStables : Nat
  batch : Nat
  length : Nat
  energyMJ : Nat
  peakW : Nat
  units : Nat
  fromSet : Nat
  toSet : Nat
  family : Nat
  digest : Bytes
  words : List PWord
  descs : List Desc
  constants : Bytes
  residency : List AllocEntry
  prefetch : List Prefetch
  shares : List Share
  bindings : List Binding
  holds : List Nat
  guards : List GuardEntry
  energy : List EnergyEntry
  commits : List (Nat × Nat)
  /-- correction factor k as FP32 bits (R474) -/
  k : Nat
deriving DecidableEq, Repr

/-! ### Indexes and tables -/

/-- An index descriptor (R168). -/
structure IndexDesc where
  large : Bool
  metric : Nat
  indexId : Nat
  generation : Nat
  dim : Nat
  ds : Nat
  vecFormat : Nat
  partCap : Nat
  shard : Nat
  cbHalf : Nat
  partMask : Nat
  period : Nat
  vrec : Nat
  created : Nat
  phdrBase : Nat
  scanBase : Nat
  adjBase : Nat
  vpoolBase : Nat
  vecBase : Nat
  psgBase : Nat
  cbBase : Nat
  projBase : Nat
  vecSpace : Nat
  psgSpace : Nat
  cbSpace : Nat
  projSpace : Nat
  vecStride : Nat
  tokenizer : Nat
deriving DecidableEq, Repr

/-- An accepted update record that waits for its stamp (R212 to R215). -/
structure UpdateRec where
  insert : Bool
  part : Nat
  slot : Nat
  attr : Nat
  passage : Nat
  norm : Nat
  /-- the update command and the record's position in it -/
  ring : Nat
  index : Nat
  pos : Nat
  /-- acceptance count, which gives its cut (R215, R420) -/
  accepted : Nat
deriving DecidableEq, Repr

/-- An update command whose records do not all have results (R214): how many still lack one, and the results so far. -/
structure UpdateCmd where
  ring : Nat
  index : Nat
  left : Nat
  results : Bytes
deriving DecidableEq, Repr

/-- A consolidation pass (R226, R227). -/
structure Consolidation where
  ring : Nat
  index : Nat
  /-- D is fixed: pass limits N and E_D by partition -/
  fixed : Bool
  limits : NMap
  eD : NMap
  /-- next slot to cover -/
  next : Nat
  /-- stamp of the step that covered the last slot, when it has -/
  finish : Option Nat
  /-- epoch that the pass's last step bound: it runs one step in an epoch (R227) -/
  ran : Option Nat
deriving DecidableEq, Repr

/-- A generation submitted by the host that waits for its switch (R230, R178). -/
structure PendingGen where
  ring : Nat
  index : Nat
  desc : IndexDesc
  baseEpoch : Nat
  copied : Bool
deriving DecidableEq, Repr

/-- An index (R163 to R230). -/
structure Index where
  desc : IndexDesc
  /-- the generation before the current one, while it is bound -/
  old : Option IndexDesc
  paddock : Nat
  applyFamily : Nat
  consFamily : Nat
  insCap : Nat
  delCap : Nat
  consSlots : Nat
  psgAppend : Nat
  psgLimit : Nat
  nextPart : Nat
  /-- number of the epoch that is current, and whether boundary 0 has passed -/
  epoch : Nat
  begun : Bool
  /-- last epoch stamped -/
  stamped : Nat
  openCut : List UpdateRec
  closed : List UpdateRec
  closedCut : Nat
  /-- how many records of `closed` the running or waiting apply step takes, fixed at its first launch (R218) -/
  taken : Nat
  /-- the cut whose apply step has failed for good: its records wait for the next cut (R223) -/
  failedCut : Option Nat
  updates : List UpdateCmd
  /-- (partition, slot, epoch) of deletes in stamp order (R226) -/
  tombLog : List (Nat × Nat × Nat)
  /-- pool records in use: (partition, record, epoch written) (R222) -/
  pool : List (Nat × Nat × Nat)
  /-- reclaimed slots that are free: (partition, slot) (R229); and those that wait for the old generation's release -/
  reclaimed : List (Nat × Nat)
  reclaimedWait : List (Nat × Nat)
  /-- slots reclaimed at the switch to the current generation (R229) -/
  gone : List (Nat × Nat)
  consolidation : Option Consolidation
  pendingGen : Option PendingGen
  /-- the create command, while its codebook copy runs (R178) -/
  creating : Option (Nat × Nat)
  lost : Bool
deriving DecidableEq, Repr

/-- An embedding table descriptor (R304). -/
structure EmbDesc where
  rowFormat : Nat
  flags : Nat
  embId : Nat
  version : Nat
  rows : Nat
  dim : Nat
  rowStride : Nat
  hotSlots : Nat
  partMask : Nat
  dirBase : Nat
  hotBase : Nat
  tailBase : Nat
  tailSpace : Nat
  updReserve : Nat
  remapPeriod : Nat
  retryMax : Nat
deriving DecidableEq, Repr

/-- A row migration (R322, R323). -/
structure Migration where
  row : Nat
  promote : Bool
  src : Nat
  slot : Nat
  copied : Bool
  tries : Nat
deriving DecidableEq, Repr

/-- An embedding table (R304 to R327). -/
structure Emb where
  handle : Nat
  desc : EmbDesc
  paddock : Nat
  remapFamily : Nat
  /-- hot slots taken, as bay × 2^24 + slot -/
  taken : List Nat
  migrations : List Migration
  remapDue : Bool
  /-- a version command that waits for its switch: ring, index, descriptor (R324) -/
  pending : Option (Nat × Nat × EmbDesc)
  lost : Bool
  /-- pages of the hot region whose rows fall back to their tail records before the next launch (R325, R327) -/
  badPages : List Nat
deriving DecidableEq, Repr

/-- What a step binds at launch for one BINDINGS entry (R68). -/
structure Bound where
  kind : Nat
  region : Nat
  ident : Nat
  epoch : Nat
  version : Nat
  base : Nat
  space : Nat
  index : Option IndexDesc
  emb : Option EmbDesc
deriving DecidableEq, Repr

/-! ### Steps and paddocks -/

/-- A row of a generation step (R564). -/
structure Row where
  request : Option Nat
  prefill : Bool
  position : Nat
  count : Nat
  lastChunk : Bool
deriving DecidableEq, Repr

/-- A batch, or a service step in its place (R427, R218, R227, R323, R287). `service` 0 host batch, 1 apply, 2 consolidation,
3 remap, 4 generation; `ident` is the index or table of a service step, `epoch` the epoch that it binds. -/
structure Batch where
  ring : Nat
  index : Nat
  cmdId : Nat
  family : Nat
  seed : Nat
  launch : Option Nat
  pauseLive : Bool
  window : Nat
  windowLen : Nat
  tenant : Nat
  accepted : Nat
  service : Nat
  ident : Nat
  epoch : Nat
  rows : List Row
deriving DecidableEq, Repr

/-- A granule that has been posted and has neither arrived nor been missed: a deadline read, a read without a deadline, a
prefetch transfer, or a write that must reach its channel by a deadline. -/
structure Posted where
  /-- descriptor and repetition whose deadline it follows -/
  desc : Nat
  rep : Nat
  deadline : Nat
  hasDeadline : Bool
  missZero : Bool
  /-- a miss breaches at the deadline itself: a write (R350, R378) or a prefetch (R360) -/
  breach : Bool
  /-- key of the source granule; the bytes of it that are read, `skip` to `skip + len`; key of the staged copy, if it is staged -/
  src : Nat
  skip : Nat
  dst : Option Nat
  len : Nat
  /-- the bytes as they stood before a later write of the step to the same granule (R347) -/
  data : Option Bytes
  /-- the copy lies in a committed destination (R65) -/
  stage : Bool
  /-- the unit that writes the copy: unit kind × 2^32 + ordinal (R80) -/
  writer : Nat
  /-- the plan cycle and the herd count of the post, and the unit that posted: unit kind × 2^32 + ordinal (R347, R376) -/
  cycle : Nat := 0
  since : Nat := 0
  unit : Nat := 0
deriving DecidableEq, Repr

/-- A node selected by BAY_HOP whose adjacency is requested for a later hop (R197): the record of its chain that is read now and
its depth, and whether it waits (0), serves (1) or gives no edges (2). -/
structure Selected where
  bay : Nat
  block : Nat
  hop : Nat
  slot : Nat
  depth : Nat
  src : Nat
  state : Nat
deriving DecidableEq, Repr

/-- Fetch staging of a traversal block (R189): the BAY_FETCH word that filled it last and the slots of its scan records. -/
structure Staging where
  bay : Nat
  block : Nat
  fetch : Nat
  slots : List Nat
deriving DecidableEq, Repr

/-- An open receive channel (R407): its area begins at key `src` of SPACE 11; the postings of its descriptor say where each granule is staged. -/
structure Channel where
  port : Nat
  channel : Nat
  desc : Nat
  rep : Nat
  src : Nat
deriving DecidableEq, Repr

/-- A directory entry overwritten by an update of the step (R319). -/
structure Undo where
  table : Nat
  bay : Nat
  key : Nat
  old : Nat
  newSlot : Nat
deriving DecidableEq, Repr

/-- What DETOKENIZE and MASK leave for the boundary: a request's chunk, its new held bytes and its state (R269, R275). -/
structure Chunk where
  request : Nat
  record : Bytes
  logprob : Bytes
  held : Bytes
  reason : Nat
  token : Option Nat
deriving DecidableEq, Repr

/-- A row that a BAY_GATHER word reads into its staging area: the list entry, the row, its place in staging and whether it is a tail
read. -/
structure GatherRead where
  entry : Nat
  row : Nat
  stage : Nat
  tail : Bool
deriving DecidableEq, Repr

/-- One bay's part of a BAY_GATHER word (R311): its reads, and the list entries spilled and those that are bad rows. -/
structure GatherBay where
  bay : Nat
  reads : List GatherRead
  spilled : List Nat
  bad : List Nat
deriving DecidableEq, Repr

/-- A BAY_GATHER word whose tail reads are posted, until their deadline (R311, R317). -/
structure Gather where
  word : Nat
  rep : Nat
  slot : Nat
  deadline : Nat
  units : List GatherBay
deriving DecidableEq, Repr

/-- A running step, or one that waits for its replay (R63 to R66). -/
structure Step where
  plan : Plan
  batch : Batch
  launch : Nat
  cycle : Nat
  attempt : Nat
  bound : List Bound
  /-- stables lent to prefill at launch (R31) -/
  prefill : Nat
  /-- committed destinations written so far and not yet committed, as (key, byte), newest first -/
  staged : List Host.Cell
  posted : List Posted
  /-- granules that have arrived: (descriptor, repetition, source key, key of the copy of the granule's first byte + 64) -/
  landed : List (Nat × Nat × Nat × Nat)
  /-- (descriptor, repetition, source key) of granules that missed without MISS_ZERO or read as zeros -/
  missed : List (Nat × Nat × Nat)
  misses : Nat
  breached : Bool
  /-- the breach has its fault record -/
  breachNoted : Bool
  /-- a granule-check error or another detection fell in the step -/
  detected : Bool
  abandon : Bool
  /-- the abandon was asked for in the plan cycle at which the step stands: a hold point of that cycle counts (R101) -/
  abandonHere : Bool
  cancel : List (Nat × Nat)
  /-- 0 no hold asked, 16 frames by level 1, 1 an open hold by level 2 (R477) -/
  holdAsked : Nat
  /-- frames of the hold that stands, 0 while their number is open -/
  held : Option Nat
  holdFrames : Nat
  /-- guard flags: flat × 256 + guard (R122) -/
  guards : List Nat
  /-- stalls counted per GUARDS entry (R126) -/
  guardCount : NMap
  shadowIssues : Nat
  ovfAcc : List Nat
  ovfCvt : List Nat
  bayGuard : List Nat
  bayOvf : List Nat
  /-- traversals found malformed, as (bay, block), and how many were (R190, R430) -/
  travMalformed : List (Nat × Nat)
  travCount : Nat
  staging : List Staging
  /-- granules that the running word read and whose check failed (R151, R333) -/
  badRead : List Nat
  /-- bytes that the word now run has sent to the host, for the CRCs of R80 -/
  hostOut : List Host.Cell
  foreign : Nat
  termsMalformed : Nat
  stray : Nat
  late : Nat
  spilled : Nat
  rejectSpill : Bool
  capped : Bool
  varied : Bool
  selected : List Selected
  /-- SRCA of the last BAY_HOP that named a queue, and whether its traversal was malformed: (bay, queue, block, malformed) (R190, R200) -/
  lastHop : List (Nat × Nat × Nat × Bool)
  /-- issues made so far, as (word, repetition) (R57) -/
  issued : List (Nat × Nat)
  /-- PREFETCH entries posted so far (R360) -/
  nextPrefetch : Nat
  channels : List Channel
  undo : List Undo
  gathers : List Gather
  chunks : List Chunk
  /-- carry written at the boundary: (request, bytes); held tokens of rows of non-final buffers -/
  carries : List (Nat × Bytes)
  tokens : List (Nat × List Nat × Bool)
  /-- grammar contexts after the step's MASK words -/
  contexts : List (Nat × Nat × List Nat)
  /-- (row, ALLOWED, CAPPED, context) of the step's MASK words -/
  masks : List (Nat × Nat × Bool × Nat)
  /-- unit CRCs of committed granules plus 1, by unit kind × 2^32 + ordinal (R80) -/
  crcs : NMap
  /-- stretches that a word or a posting is to write, as (key, length, cycle from which they are present); none where a miss has left them
  absent until something writes them (R57, R59) -/
  unready : List (Nat × Nat × Option Nat)
  /-- words that run, as (word, repetition, end cycle) -/
  active : List (Nat × Nat × Nat)
  /-- commons pages that have moved since the launch, as (page, tier, address) of the copy that the step reads (R356) -/
  commons : List (Nat × Nat × Nat)
  /-- failing granules of pages retired since the launch: the step reads the old page (R341) -/
  oldBad : List Nat
  /-- stretches that hold the zeros of a miss, as (key, length), until something writes them (R236) -/
  zeroed : List (Nat × Nat)
  energyUJ : Nat
  reserved : Nat
  /-- herd count at which the attempt came to its boundary or was abandoned, 0 until then -/
  ended : Nat
  /-- step record of the attempt before, in a replay (R430) -/
  last : Bytes
deriving DecidableEq, Repr

/-- A batch that has passed its checks and waits for its launch point (R61). -/
structure Decided where
  batch : Batch
  plan : Plan
  at_ : Nat
deriving DecidableEq, Repr

/-- A decode-ladder family (R285, R432). -/
structure Family where
  family : Nat
  dr : Nat
  pr : Nat
  pt : Nat
deriving DecidableEq, Repr

/-- The serving settings of a paddock (R285 to R290, R432). -/
structure Serving where
  loadMode : Bool
  prefillStables : Nat
  pcost : Nat
  dcost : Nat
  hyst : Nat
  age : Nat
  ctxCap : Nat
  goal : List Nat
  rMax : Nat
  families : List Family
deriving DecidableEq, Repr

/-- A version in a paddock's adapter store (R299, R300). -/
structure AdapterVersion where
  slot : Nat
  adapterId : Nat
  version : Nat
  rank : Nat
  weightSet : Nat
  digest : Bytes
  image : Bytes
  current : Bool
  /-- becomes current at the next launch point -/
  pending : Bool
  unloaded : Bool
deriving DecidableEq, Repr

/-- A lock-step pairing (R80, R81): the port, GATE or COMPARE, and the digests that wait for their partner. -/
structure Lockstep where
  port : Nat
  gate : Bool
  /-- own digests not yet compared, oldest first: launch, digest, boundary herd count, and whether it has been sent -/
  own : List (Nat × Nat × Nat × Bool)
  /-- the peer's digests not yet compared: launch, digest -/
  peer : List (Nat × Nat)
deriving DecidableEq, Repr

/-- A teardown in progress (R396). -/
structure Teardown where
  ring : Nat
  index : Nat
  abandon : Bool
  /-- the bays that the paddock held when its entries were cleared -/
  bays : List Nat := []
deriving DecidableEq, Repr

/-- A re-formation in progress (R398). -/
structure Reform where
  flat : Nat
  physStable : Nat
  physOld : Nat
deriving DecidableEq, Repr

/-- The states of R393. -/
inductive PadState where
  | forming
  | ready
  | reforming
  | tearing
deriving DecidableEq, Repr

/-- A paddock (R389 to R399). -/
structure Paddock where
  state : PadState
  /-- logical stables ((die × 8 + yard) × 8 + stable), ascending -/
  stables : List Nat
  mergeBase : Nat
  mergeBytes : Nat
  stageBytes : Nat
  resident : Nat
  prefill : Nat
  /-- ratio chosen at consecutive boundaries (R290) -/
  ratioSeen : Nat × Nat
  pendServing : Option Serving
  serving : Option Serving
  plans : List Plan
  /-- batches that wait, in acceptance order (R427) -/
  batches : List Batch
  decided : List Decided
  step : Option Step
  /-- a failed step that waits for its replay -/
  replay : Option Step
  /-- GATE holds the commits of a step that has reached its boundary (R81) -/
  gated : Option Step
  adapters : List AdapterVersion
  /-- number of the newest version of each ADAPTER_ID (R431) -/
  adapterCounts : NMap
  tenantPtr : Nat
  depthMax : Nat
  formCmd : Option (Nat × Nat)
  scrubbing : Bool
  scrubDone : Bool
  teardown : Option Teardown
  reform : Option Reform
  lockstep : Option Lockstep
  /-- committed lengths of APPEND regions by descriptor base (R65) -/
  appended : NMap
  /-- shed reads without a deadline that were in flight at a boundary (R377) -/
  flying : List Posted
deriving DecidableEq, Repr

/-! ### Serving -/

/-- The states of R282; `none` of a request means it is terminal and gone from the table. -/
inductive ReqState where
  | input
  | ready
  | prefill
  | decode
deriving DecidableEq, Repr

/-- A live request (R279 to R284). -/
structure Request where
  number : Nat
  admitted : Nat
  ring : Nat
  tenant : Nat
  cls : Nat
  paddock : Nat
  includeStop : Bool
  logprobs : Bool
  inLimit : Nat
  outLimit : Nat
  protect : Nat
  seed : Nat
  stream : Nat
  sampler : Nat
  topK : Nat
  tableId : Nat
  tableVer : Nat
  adapterId : Nat
  adapterVer : Nat
  adapterSlot : Nat
  grammarId : Nat
  grammarVer : Nat
  context : Option Nat
  temp : Nat
  p : Nat
  mark : Nat
  stopTokens : List Nat
  stopStrings : List Bytes
  state : ReqState
  pauseHost : Bool
  pauseBudget : Bool
  pauseLatency : Bool
  pausePhase : Bool
  resumedPhase : Bool
  received : Nat
  /-- text buffers that wait for their TOKENIZE row, oldest first, with FINAL -/
  buffers : List (Bytes × Bool)
  carry : Bytes
  heldTokens : List Nat
  heldBytes : Bytes
  inTokens : Nat
  prefilled : Nat
  outTokens : Nat
  lastToken : Option Nat
  waited : Nat
  kv : List Nat
  resident : Nat
  cancelled : Bool
deriving DecidableEq, Repr

/-- A tenant's settings and window (R294, R295). -/
structure Tenant where
  budget : Nat
  window : Nat
  liveMax : Nat
  rowCap : Nat
  replaceInvalid : Bool
  /-- slice counters, newest first, 16 of them -/
  slices : List Nat
  pendBudget : Option Nat
  pendWindow : Option Nat
deriving DecidableEq, Repr

/-- A loaded tokenizer table version (R252 to R254). -/
structure TokTable where
  tableId : Nat
  version : Nat
  image : Bytes
  current : Bool
  pending : Bool
deriving DecidableEq, Repr

/-- A loaded grammar image version (R270 to R272). -/
structure Grammar where
  grammarId : Nat
  version : Nat
  image : Bytes
  current : Bool
  pending : Bool
deriving DecidableEq, Repr

/-- A grammar context (R272). -/
structure GContext where
  grammarId : Nat
  version : Nat
  state : Nat
  stack : List Nat
deriving DecidableEq, Repr

/-- Generation serving (R279 to R303) and the loaded text objects. -/
structure Serve where
  requests : List Request
  /-- the most recent completions: (number, admission count, tenant), newest first, at most 4,096 -/
  recent : List (Nat × Nat × Nat)
  tenants : List (Nat × Tenant)
  tables : List TokTable
  /-- number of the newest version of each TABLE_ID, and of each GRAMMAR_ID (R431) -/
  tableCounts : NMap
  grammars : List Grammar
  grammarCounts : NMap
  contexts : List (Nat × GContext)
deriving DecidableEq, Repr

/-! ### Memory tiers and the shed -/

/-- A stack's temperature and throttle (R334 to R339). -/
structure Therm where
  temp : Nat
  computed : Nat
  applied : Nat
  refresh2x : Bool
  trip : Bool
deriving DecidableEq, Repr

/-- A page being retired (R341): tier 5 or 6, the page address, the command, whether its fill is done and its lost granules. -/
structure Retire where
  tier : Nat
  page : Nat
  ring : Nat
  index : Nat
  filled : Bool
  lost : List Nat
deriving DecidableEq, Repr

/-- An allocation (R351 to R353): its entry, owner, and the placement of each commons page that is not at its first place. -/
structure Alloc where
  entry : AllocEntry
  paddock : Nat
  /-- placement: tier 5, 6 or 7 and address of each 64 KiB page, by page ordinal -/
  place : List (Nat × Nat × Nat)
  /-- a step has bound it (SHARED_RO is then read-only) -/
  bound : Bool
deriving DecidableEq, Repr

/-- A commons page migration (R357). -/
structure CommonsMig where
  page : Nat
  /-- target tier, and the place in it that the copy goes to, none while the tier has no room -/
  target : Nat
  place : Option Nat
  dirty : Bool
  copied : Bool
  dirtyCount : Nat
  /-- command, or none when firmware started it -/
  cmd : Option (Nat × Nat)
deriving DecidableEq, Repr

/-- Stacks, barn memory and the commons (R328 to R361). -/
structure Tiers where
  therm : List (Nat × Therm)
  /-- retired pages: tier × 2^48 + page address -/
  remapped : List Nat
  retiring : List Retire
  /-- keys of granules whose check fails until they are written again (R333) -/
  badGranules : List Nat
  allocs : List Alloc
  migrations : List CommonsMig
  commonsAuto : Bool
  migPeriod : Nat
  stackQuota : Nat
  /-- reads of commons pages in this MIG_PERIOD -/
  reads : NMap
deriving DecidableEq, Repr

/-- An outstanding storage command (R379 to R384). `op` 1 READ, 2 WRITE, 3 DISCARD. -/
structure StorageCmd where
  op : Nat
  entry : StorageEntry
  index : Nat
  herd : Nat
  /-- place in acceptance order -/
  seq : Nat
  started : Bool
  /-- mapping granules still to serve (READ), to enter the write buffer (WRITE) or to discard -/
  todo : List Nat
  /-- mapping granules of a WRITE or DISCARD that are not yet durable -/
  left : List Nat
  lost : Nat
  /-- granules of a READ that waits, as they stood before an effect accepted after it: bytes and the keys that fail their check (R381) -/
  saved : List (Nat × Bytes × List Nat)
deriving DecidableEq, Repr

/-- A storage queue (R379, R388). -/
structure Queue where
  sub : Nat
  cpl : Nat
  subHead : Nat
  subTail : Nat
  compHead : Nat
  compTail : Nat
  enable : Bool
  resetting : Bool
  out : List StorageCmd
  /-- completion records that wait for room: tag, status, index, lost -/
  held : List (Nat × Nat × Nat × Nat)
deriving DecidableEq, Repr

/-- A NAND block that is not in its first, erased state (R364 to R368). State 0 free, 1 open, 2 full, 3 retired. -/
structure Block where
  number : Nat
  state : Nat
  erases : Nat
  /-- mapping granules written in it, in page order -/
  granules : List Nat
deriving DecidableEq, Repr

/-- A shed channel (R366 to R369). -/
structure ShedChannel where
  blocks : List Block
  spares : Nat
  /-- block that collection has emptied and erases -/
  victim : Option Nat
deriving DecidableEq, Repr

/-- A write or discard that is not yet on the medium (R378, R381): mapping granule, acceptance order, and the bytes that stood
before it. -/
structure Buffered where
  granule : Nat
  seq : Nat
  discard : Bool
  old : Bytes
deriving DecidableEq, Repr

/-- The shed (R362 to R388). -/
structure Shed where
  mounted : Bool
  readOnly : Bool
  spareLow : Bool
  poolBytes : Nat
  channels : List (Nat × ShedChannel)
  /-- where a granule lies: granule to channel-block number + 1 (0: never written or discarded) -/
  map : NMap
  /-- map as of the last checkpoint -/
  checkpoint : NMap
  buffer : List Buffered
  nextSeq : Nat
  queues : List (Nat × Queue)
deriving DecidableEq, Repr

/-! ### Links, groom, management bus, TAP -/

/-- What waits to be sent by a link: a transaction or a train. Of the Halter link the lower class goes first, then the lower `key` (R429); of a Drove
port `cls` is the slot-table entry that owns its slots (R404). -/
structure Waiting where
  cls : Nat
  key : Nat
  bytes : Bytes
deriving DecidableEq, Repr

/-- One end of the Halter link or of a Drove port (R403, R414). `state` 0 DOWN, 1 TRAINING, 2 UP, 3 HALF. -/
structure Link where
  state : Nat
  /-- last SEQ received in order, and whether flits are discarded until a resend -/
  rxLast : Nat
  discarding : Bool
  txNext : Nat
  txAcked : Nat
  /-- sent and kept for replay: (SEQ, bytes), oldest first -/
  sent : List (Nat × Bytes)
  credits : Nat
  freed : Nat
  /-- the last CONTROL flit, or CONTROL head, that was sent (R402, R413) -/
  control : Bytes
  resending : Bool
  /-- herd counts of replays, newest first (R403, R414) -/
  replays : List Nat
  /-- herd counts of the NAKs sent on the Halter link: replays of its other direction (R414) -/
  rxReplays : List Nat
  /-- bytes of a transaction that continues in the next flit (R415) -/
  partialTx : Bytes
  /-- transactions or trains to send -/
  toSend : List Waiting
  /-- trains discarded since the start (R402) -/
  discarded : Nat
deriving DecidableEq, Repr

/-- A groom service that runs or waits (R501 to R503). -/
structure GroomService where
  ring : Nat
  index : Nat
  cmdId : Nat
  service : Nat
  target : Nat
  first : Nat
  count : Nat
  running : Bool
  queued : Bool
  /-- herd count at which it started -/
  start : Nat
  /-- units that it holds, as UKIND × 2^56 + UINDEX -/
  units : List Nat
deriving DecidableEq, Repr

/-- The groom: services and the last 16 results (R506). -/
structure Groom where
  services : List GroomService
  /-- (CMD_ID, status, service, end herd count), newest first -/
  results : List (Nat × Nat × Nat × Nat)
deriving DecidableEq, Repr

/-- The TAP instructions of R551. -/
inductive TapInstr where
  | bypass
  | idcode
  | samplePreload
  | extest
  | clamp
  | highz
deriving DecidableEq, Repr

/-- The management bus and the TAP (R479, R550, R551). -/
structure Mgmt where
  /-- bytes of the last answer on the management bus, and whether the last transfer was refused -/
  answer : Bytes
  nack : Bool
  /-- until this herd count the gatehouse is handed over and the bus refuses (R499) -/
  busyUntil : Nat
  tap : TapInstr
  tapReset : Bool
  /-- boundary-scan register over sideband pins A2 to C4 -/
  boundary : Nat
  /-- what the last data-register scan gives -/
  tdo : Nat
deriving DecidableEq, Repr

/-! ### The machine -/

/-- Everything of the module but its clock, its addressed memory and its queue. -/
structure Dev where
  boot : Boot
  sync : Sync
  power : Power
  regs : Regs
  slots : Slots
  rings : List (Nat × Ring)
  events : EventRing
  faults : Faults
  /-- physical stalls that are defective (R20, R27), re-formation moves (flat, physical stall) and stables that left (R398) -/
  badStalls : List Nat
  columns : List (Nat × Nat)
  moves : List (Nat × Nat)
  goneStables : List Nat
  pads : List (Nat × Paddock)
  serve : Serve
  indexes : List Index
  embs : List Emb
  tiers : Tiers
  shed : Shed
  halter : Link
  drove : List (Nat × Link)
  groom : Groom
  mgmt : Mgmt
  /-- the model's own counter of free values drawn -/
  fresh : Nat
deriving DecidableEq, Repr

structure State where
  clock : Clock
  mem : Memory
  dev : Dev
  pending : List Instr
deriving DecidableEq, Repr

/-! ### Right after reset -/

/-- What a byte of memory that nothing has written reads as: 0. The stacks, the barn and the stores are zero when bring-up has
scrubbed them and a paddock's memory is zero after its scrub (R394, R491); the shed reads 0 where nothing was written (R370).
DESIGN CHOICE for host memory and for a store before its first scrub: log entry 2. -/
def Memory.unlisted : BitVec 8 := 0

/-- The canonical form: keys strictly rising, and no byte equal to what an unlisted key reads as. -/
def Memory.wf : Memory → Bool
  | [] => true
  | (k, b) :: r => (match r with | [] => true | (j, _) :: _ => decide (k < j)) && decide (b ≠ Memory.unlisted) && Memory.wf r

def Sync.reset : Sync :=
  { locked := false, solo := false, mismatch := false, agreed := false, stale := false, messages := 0, badCheck := 0, lastValid := 0, out := none }

/-- A domain that is not listed: ON, nothing counted. -/
def Domain.reset : Domain := { state := 0, waking := false, wakes := 0, idleSince := 0, energyUJ := 0, badSamples := 0, recent := [] }

/-- EN_CFG resets to 100 ms, 1,600 W and 1,750 W (R473, R477, R481). -/
def Power.reset : Power :=
  { domains := [], vinMV := 0, inputUJ := 0, history := [], badInput := 0, inputFault := false, underVoltage := false
    windowStart := 0, windowMS := 100, allowW := 1600, throttleW := 1750, usedUJ := 0, overdraftIn := 0, pendAllow := none
    pendWindow := none, thrLevel := 0, thrPads := 0, thrSamples := 0, standbyAsked := false, bigBatch := none }

def CfgCheck.reset : CfgCheck :=
  { holder := none, openWait := false, openedAt := 0, timeout := false, timeoutGone := false, committing := false, state := 0, restoring := false
    live := false, ref := 0, last := 0, sweeps := 0, drop := 0, sweep := none, committed := [], waiting := [] }

def Regs.reset : Regs :=
  { idxAddr := [], captured := [], loWritten := [], unmapped := 0, privDrop := 0, privLast := 0, musterAddr := 0
    readValue := 0, readStatus := 0, cfg := CfgCheck.reset }

def Slots.reset : Slots :=
  { pend := [], act := [], base := [], cal := [], grm := [], linkPend := [], linkAct := [], tableErr := [], rrNext := [], swapWait := [], changes := [], counted := [], bgLocks := []
    planLocks := []
    bgPairs := [], idlePairs := [], foreign := [] }

/-- RING_CTL, RING_IDX and RING_SIDX reset to 0 (R418). -/
def Ring.reset : Ring :=
  { enable := false, streamEn := false, admin := false, tenant := 0, sub := 0, cpl := 0, str := 0, subHead := 0, subTail := 0
    cplHead := 0, cplTail := 0, phase := false, strHead := 0, strTail := 0, out := [], done := [], heldCpl := [], heldStr := [] }

def EventRing.reset : EventRing := { base := 0, head := 0, tail := 0, enable := false, lost := 0, held := [] }

def Faults.reset : Faults :=
  { slots := [], seq := 0, log := [], logged := 0, recovering := none, queue := [], history := [], named := [], standing := []
    toFence := [], fences := [], heldPages := [], badPages := [], noteAlert := false }

def Serve.reset : Serve := { requests := [], recent := [], tenants := [], tables := [], tableCounts := [], grammars := [], grammarCounts := [], contexts := [] }

def Tiers.reset : Tiers :=
  { therm := [], remapped := [], retiring := [], badGranules := [], allocs := [], migrations := [], commonsAuto := false
    migPeriod := 0, stackQuota := 0, reads := [] }

def Shed.reset : Shed :=
  { mounted := false, readOnly := false, spareLow := false, poolBytes := 0, channels := [], map := [], checkpoint := []
    buffer := [], nextSeq := 0, queues := [] }

def Link.reset : Link :=
  { state := 0, rxLast := 0xFFFF, discarding := false, txNext := 0, txAcked := 0xFFFF, sent := [], credits := 0, freed := 0
    control := [], resending := false, replays := [], rxReplays := [], partialTx := [], toSend := [], discarded := 0 }

def Groom.reset : Groom := { services := [], results := [] }

def Mgmt.reset : Mgmt :=
  { answer := [], nack := false, busyUntil := 0, tap := .idcode, tapReset := true, boundary := 0, tdo := 0 }

/-- An A/B region with no valid copy: empty (R485). -/
def TackRegion.reset (x : α) : TackRegion α := { a := { seq := 0, crcOk := false, held := x }, b := { seq := 0, crcOk := false, held := x } }

def StoreHeader.reset : StoreHeader := { startCount := 0, startMode := 0, inUse := 0 }

/-- Every A/B region is empty. DESIGN CHOICE: log entry 114. -/
def Tack.reset : Tack :=
  { device := none, header := TackRegion.reset StoreHeader.reset, owner := TackRegion.reset [], saved := TackRegion.reset []
    defects := TackRegion.reset [], retired := TackRegion.reset [], faultLog := TackRegion.reset [] }

/-- Bring-up at stage 0, just after RESET_N has risen with 56 V present and PWR_EN high (R491, R542). -/
def Boot.reset : Boot :=
  { part := .u8200f, phase := .bringUp, inputPresent := true, pwrEn := true, resetN := true, stagesDone := 0, degraded := false
    fast := false, nextFull := false, identityBad := false, readyHerd := 0, herdInvalid := false, unlisted := [], stageStart := 0, log := []
    prev := [], romVersion := 0, deviceId := 0, tack := Tack.reset, tackFw := none, tackCfg := none, fw := none, cfg := none
    toAppend := [], mapRegion := 0
    copyYard := none, rcvLo := 0, rcvHi := 0, rcvLen := 0, rcvInstall := false, rcvBusy := false, rcvStatus := 0
    handover := none }

def Dev.reset : Dev :=
  { boot := Boot.reset, sync := Sync.reset, power := Power.reset, regs := Regs.reset, slots := Slots.reset, rings := []
    events := EventRing.reset, faults := Faults.reset, badStalls := [], columns := [], moves := [], goneStables := []
    pads := [], serve := Serve.reset, indexes := [], embs := [], tiers := Tiers.reset, shed := Shed.reset
    halter := Link.reset, drove := [], groom := Groom.reset, mgmt := Mgmt.reset, fresh := 0 }

/-- The module right after reset: nothing formed, no ring enabled, no command waiting. A table that is not listed holds its
reset record (`Ring.reset`, `Link.reset` and so on). -/
def State.reset : State := { clock := { herd := 0 }, mem := [], dev := Dev.reset, pending := [] }

end Sys2Proof.Machine
end

