-- ==== Sys2Proof/Machine/Ops.lean ====
section
/-! DEFINITION. The named operations that every command's meaning is built from: addressed memory, the working record, status
codes, rings and events, free values, and the wrapper that turns a working record into a next state. -/

namespace Sys2Proof.Machine

open Host

/-! ### Addressed memory -/

/-- The spaces of the one memory: R53's SPACE codes 0 to 11, the codebook store of a stack's base die (R137), and a stall's weight stream buffer
(R87): its two halves at offsets 0 and 4,096, and at 8,192 the half in which the next stream begins. -/
abbrev spManger := 0
abbrev spTrough := 1
abbrev spScratch := 2
abbrev spLoft := 3
abbrev spBay := 4
abbrev spStack := 5
abbrev spBarn := 6
abbrev spShed := 7
abbrev spCommons := 8
abbrev spHost := 9
abbrev spMerge := 10
abbrev spDrove := 11
abbrev spCodebook := 12
abbrev spWeights := 13

/-- Key of byte `off` of unit `unit` of space `sp`. -/
def memKey (sp unit off : Nat) : Nat := (sp * 2 ^ 20 + unit) * 2 ^ 64 + off

def keySpace (k : Nat) : Nat := k / 2 ^ 84
def keyUnit (k : Nat) : Nat := k / 2 ^ 64 % 2 ^ 20
def keyOff (k : Nat) : Nat := k % 2 ^ 64

/-- One byte; a key that is not listed reads `Memory.unlisted`. -/
def memRead (m : Memory) (k : Nat) : Byte := tget Memory.unlisted k m

/-- One byte written; the canonical form is kept. -/
def memWrite (k : Nat) (b : Byte) : Memory → Memory
  | [] => if b = Memory.unlisted then [] else [(k, b)]
  | (j, c) :: r =>
    if k < j then (if b = Memory.unlisted then (j, c) :: r else (k, b) :: (j, c) :: r)
    else if k = j then (if b = Memory.unlisted then r else (k, b) :: r)
    else (j, c) :: memWrite k b r

/-- Writes in order, the first first. -/
def memWriteAll (m : Memory) (ws : List Cell) : Memory := ws.foldl (fun a w => memWrite w.1 w.2 a) m

/-! ### The working record -/

/-- What a command's meaning works on: the state it started from, the device as changed so far, and the bytes written so far,
newest first. -/
structure W where
  st : State
  dev : Dev
  log : List Cell

def W.of (s : State) : W := { st := s, dev := s.dev, log := [] }

/-- The herd count at which the command acts. -/
def W.herd (w : W) : Nat := w.st.clock.herd

def W.peek (w : W) (k : Nat) : Byte :=
  match tget? k w.log with
  | some b => b
  | none => memRead w.st.mem k

def W.poke (k : Nat) (b : Byte) (w : W) : W := { w with log := (k, b) :: w.log }

def W.peeks (w : W) (k n : Nat) : Bytes := (List.range n).map fun i => w.peek (k + i)

/-- A field of `n` bytes in memory. -/
def W.peekN (w : W) (k n : Nat) : Nat := ofLe (w.peeks k n)

def W.pokes (k : Nat) : Bytes → W → W
  | [], w => w
  | b :: r, w => W.pokes (k + 1) r (w.poke k b)

def W.pokeN (k n v : Nat) (w : W) : W := w.pokes k (leBytes n v)

/-- The state that a command leaves which began in `s`: the device as changed, and memory with the bytes written. Clock and queue are those of `s`. -/
def W.leave (s : State) (w : W) : State := { s with mem := memWriteAll s.mem w.log.reverse, dev := w.dev }

/-- The herd count is never set back. It is a number without a bound: no rule says what it does past 2^64 (R41; DESIGN CHOICE: log entry 127). -/
def Clock.advance (h : Nat) (c : Clock) : Clock := { herd := max c.herd h }

def W.when (c : Bool) (f : W → W) (w : W) : W := if c then f w else w

def W.each (l : List α) (f : α → W → W) (w : W) : W := l.foldl (fun a x => f x a) w

/-- A free value (see Config), never the same count twice. -/
def W.fresh (w : W) : Nat × W := (w.dev.fresh, { w with dev := { w.dev with fresh := w.dev.fresh + 1 } })

/-- `n` bytes whose content the spec leaves undefined. -/
def W.freeBytes (n : Nat) (w : W) : Bytes × W :=
  ((List.range n).map fun i => Config.freeByte (w.dev.fresh + i), { w with dev := { w.dev with fresh := w.dev.fresh + n } })

/-! ### Records of the device, changed in place -/

def W.boot (f : Boot → Boot) (w : W) : W := { w with dev := { w.dev with boot := f w.dev.boot } }
def W.sync (f : Sync → Sync) (w : W) : W := { w with dev := { w.dev with sync := f w.dev.sync } }
def W.power (f : Power → Power) (w : W) : W := { w with dev := { w.dev with power := f w.dev.power } }
def W.regs (f : Regs → Regs) (w : W) : W := { w with dev := { w.dev with regs := f w.dev.regs } }
def W.cfg (f : CfgCheck → CfgCheck) (w : W) : W := w.regs fun r => { r with cfg := f r.cfg }
def W.slots (f : Slots → Slots) (w : W) : W := { w with dev := { w.dev with slots := f w.dev.slots } }
def W.events (f : EventRing → EventRing) (w : W) : W := { w with dev := { w.dev with events := f w.dev.events } }
def W.faults (f : Faults → Faults) (w : W) : W := { w with dev := { w.dev with faults := f w.dev.faults } }
def W.serve (f : Serve → Serve) (w : W) : W := { w with dev := { w.dev with serve := f w.dev.serve } }
def W.tiers (f : Tiers → Tiers) (w : W) : W := { w with dev := { w.dev with tiers := f w.dev.tiers } }
def W.shed (f : Shed → Shed) (w : W) : W := { w with dev := { w.dev with shed := f w.dev.shed } }
def W.halter (f : Link → Link) (w : W) : W := { w with dev := { w.dev with halter := f w.dev.halter } }
def W.groom (f : Groom → Groom) (w : W) : W := { w with dev := { w.dev with groom := f w.dev.groom } }
def W.mgmt (f : Mgmt → Mgmt) (w : W) : W := { w with dev := { w.dev with mgmt := f w.dev.mgmt } }

def Dev.ring (d : Dev) (r : Nat) : Ring := tget Ring.reset r d.rings
def W.ring (r : Nat) (f : Ring → Ring) (w : W) : W := { w with dev := { w.dev with rings := tput r (f (w.dev.ring r)) w.dev.rings } }

def Dev.port (d : Dev) (p : Nat) : Link := tget Link.reset p d.drove
def W.port (p : Nat) (f : Link → Link) (w : W) : W := { w with dev := { w.dev with drove := tput p (f (w.dev.port p)) w.dev.drove } }

def Dev.pad? (d : Dev) (p : Nat) : Option Paddock := tget? p d.pads
/-- Changes paddock `p`, if it exists. -/
def W.pad (p : Nat) (f : Paddock → Paddock) (w : W) : W :=
  match w.dev.pad? p with
  | some q => { w with dev := { w.dev with pads := tput p (f q) w.dev.pads } }
  | none => w

/-- Changes the running step of paddock `p`, if one runs. -/
def W.step (p : Nat) (f : Step → Step) (w : W) : W := w.pad p fun q => { q with step := q.step.map f }

def Dev.step? (d : Dev) (p : Nat) : Option Step := (d.pad? p).bind (·.step)

/-- Changes the index of identity `id`. -/
def W.index (id : Nat) (f : Index → Index) (w : W) : W :=
  { w with dev := { w.dev with indexes := w.dev.indexes.map fun x => if x.desc.indexId = id then f x else x } }

def Dev.index? (d : Dev) (id : Nat) : Option Index := d.indexes.find? (·.desc.indexId = id)

def W.emb (h : Nat) (f : Emb → Emb) (w : W) : W :=
  { w with dev := { w.dev with embs := w.dev.embs.map fun x => if x.handle = h then f x else x } }

def Dev.emb? (d : Dev) (h : Nat) : Option Emb := d.embs.find? (·.handle = h)
def Dev.embById? (d : Dev) (id : Nat) : Option Emb := d.embs.find? (·.desc.embId = id)

def Dev.request? (d : Dev) (n : Nat) : Option Request := d.serve.requests.find? (·.number = n)
def W.request (n : Nat) (f : Request → Request) (w : W) : W :=
  w.serve fun v => { v with requests := v.requests.map fun r => if r.number = n then f r else r }

/-! ### The part (R5, R10) -/

/-- S of R15: logical stalls in a logical stable. -/
def Part.S : Part → Nat
  | .u6400c => 80
  | _ => 100

/-- PARTS bit of R45. -/
def Part.bit : Part → Nat
  | .u8200f => 0
  | .u8100s => 1
  | .u6400c => 2

def Part.hasBarn : Part → Bool
  | .u8200f => true
  | _ => false

def Part.ports : Part → Nat
  | .u6400c => 4
  | _ => 12

def Part.lockstep : Part → Bool
  | .u6400c => false
  | _ => true

def Part.shedChannels : Part → Nat
  | .u8200f => 24
  | .u8100s => 12
  | .u6400c => 6

def Dev.S (d : Dev) : Nat := d.boot.part.S

/-! ### The tack store (R484, R485) -/

/-- SEQ `x` is higher than `y`, also past the wrap of its 4 bytes. DESIGN CHOICE: log entry 114. -/
def seqHigher (x y : Nat) : Bool := let n := (x + 2 ^ 32 - y % 2 ^ 32) % 2 ^ 32; n ≠ 0 && decide (n < 2 ^ 31)

/-- Copy A is the current one: its CRC is valid, and copy B has none or no higher SEQ. -/
def TackRegion.onA (r : TackRegion α) : Bool := r.a.crcOk && !(r.b.crcOk && seqHigher r.b.seq r.a.seq)

/-- The current copy: the one with a valid CRC and the higher SEQ; none where no copy is valid. -/
def TackRegion.current? (r : TackRegion α) : Option (TackCopy α) := if r.onA then some r.a else if r.b.crcOk then some r.b else none

/-- Contents of the current copy. -/
def TackRegion.get (r : TackRegion α) (empty : α) : α := ((r.current?).map (·.held)).getD empty


/-- A write goes to the other copy, with SEQ one higher. -/
def TackRegion.write (x : α) (r : TackRegion α) : TackRegion α :=
  let c : TackCopy α := { seq := (((r.current?).map (·.seq)).getD 0 + 1) % 2 ^ 32, crcOk := true, held := x }
  if r.onA then { r with b := c } else { r with a := c }

/-- A write that is cut short leaves the current copy intact, and the other one invalid. -/
def TackRegion.cut (r : TackRegion α) : TackRegion α :=
  if r.onA then { r with b := { r.b with crcOk := false } } else { r with a := { r.a with crcOk := false } }

def Boot.header (b : Boot) : StoreHeader := b.tack.header.get StoreHeader.reset
def Boot.startCount (b : Boot) : Nat := b.header.startCount
def Boot.startMode (b : Boot) : Nat := b.header.startMode
def Boot.ownerKey (b : Boot) : Bytes := b.tack.owner.get []
def Boot.training (b : Boot) : List Nat := b.tack.saved.get []
def Boot.defects (b : Boot) : List DefectEntry := b.tack.defects.get []
def Boot.retired (b : Boot) : List Nat := b.tack.retired.get []
def Boot.logCopy (b : Boot) : List Bytes := b.tack.faultLog.get []

def Boot.setHeader (f : StoreHeader → StoreHeader) (b : Boot) : Boot := { b with tack := { b.tack with header := b.tack.header.write (f b.header) } }
def Boot.setOwner (k : Bytes) (b : Boot) : Boot := { b with tack := { b.tack with owner := b.tack.owner.write k } }
def Boot.setTraining (l : List Nat) (b : Boot) : Boot := { b with tack := { b.tack with saved := b.tack.saved.write l } }
def Boot.setDefects (l : List DefectEntry) (b : Boot) : Boot := { b with tack := { b.tack with defects := b.tack.defects.write l } }
def Boot.setRetired (l : List Nat) (b : Boot) : Boot := { b with tack := { b.tack with retired := b.tack.retired.write l } }
def Boot.setLogCopy (l : List Bytes) (b : Boot) : Boot := { b with tack := { b.tack with faultLog := b.tack.faultLog.write l } }

/-- Writes under way when the power goes are cut short: bit `i` of `cuts` for region `i`. -/
def Tack.cut (cuts : Nat) (t : Tack) : Tack :=
  { t with
    header := if cuts.testBit 0 then t.header.cut else t.header, owner := if cuts.testBit 1 then t.owner.cut else t.owner
    saved := if cuts.testBit 2 then t.saved.cut else t.saved, defects := if cuts.testBit 3 then t.defects.cut else t.defects
    retired := if cuts.testBit 4 then t.retired.cut else t.retired, faultLog := if cuts.testBit 5 then t.faultLog.cut else t.faultLog }

/-! ### Time (R41 to R43) -/

/-- Whole herd ticks that `c` cycles take: 21 cycles are 8 ticks (R42). -/
def ticksOfCycles (c : Nat) : Nat := c * 8 / 21

/-- A launch point: a multiple of 2,048 ticks (R43). -/
def isLaunchPoint (h : Nat) : Bool := h % 2048 = 0

/-- The first launch point at or after `h`. -/
def nextLaunchPoint (h : Nat) : Nat := alignUp h 2048

/-! ### Status codes (R436, R506) -/

inductive Status where
  | done | queued | alreadyComplete | cancelled | notFound | notCancellable | badRequest | badCommand | unitAbsent | denied
  | planFormat | planDigest | planPart | planStalls | shareMissing | planNotLoaded | planFull | residentMismatch | planVaries
  | late | stepFailed | arithOverflow | gatherSpill
  | paddockBusy | stableUnavailable | stableTaken | shareConflict | shareFull | paddockGone | paddockShrunk
  | requestsFull | tableAbsent | adapterAbsent | kvFull | grammarFull | grammarMismatch | inputTooLong | tableFormat
  | tableFull | grammarFormat | adapterFormat | adapterFull
  | indexFormat | indexLive | indexLost | generationStale | embFormat | embLive | embLost | indexBusy
  | dataCheck | allocConflict | allocFull | allocReadOnly | allocPinned | addressInvalid | migrateBusy | alreadyRetired
  | retireFull | badPage | readOnly | badRange | tagBusy | queueReset | linkDown | badCommandStorage
  | imageFormat | imageSignature | imageKind | storeWrite | handoverBusy | handoverState | handoverAborted | groomFailed
  | groomTarget | attestIdentity | topologyMismatch
deriving DecidableEq, Repr

def Status.code : Status → Nat
  | .done => 0x00 | .queued => 0x01 | .alreadyComplete => 0x02 | .cancelled => 0x03 | .notFound => 0x04
  | .notCancellable => 0x05 | .badRequest => 0x06 | .badCommand => 0x07 | .unitAbsent => 0x08 | .denied => 0x09
  | .planFormat => 0x10 | .planDigest => 0x11 | .planPart => 0x12 | .planStalls => 0x13 | .shareMissing => 0x14
  | .planNotLoaded => 0x15 | .planFull => 0x16 | .residentMismatch => 0x17 | .planVaries => 0x18 | .late => 0x19
  | .stepFailed => 0x1A | .arithOverflow => 0x1B | .gatherSpill => 0x1C
  | .paddockBusy => 0x20 | .stableUnavailable => 0x21 | .stableTaken => 0x22 | .shareConflict => 0x23 | .shareFull => 0x24
  | .paddockGone => 0x25 | .paddockShrunk => 0x26
  | .requestsFull => 0x30 | .tableAbsent => 0x31 | .adapterAbsent => 0x32 | .kvFull => 0x33 | .grammarFull => 0x34
  | .grammarMismatch => 0x35 | .inputTooLong => 0x36 | .tableFormat => 0x37 | .tableFull => 0x38 | .grammarFormat => 0x39
  | .adapterFormat => 0x3A | .adapterFull => 0x3B
  | .indexFormat => 0x40 | .indexLive => 0x41 | .indexLost => 0x42 | .generationStale => 0x43 | .embFormat => 0x44
  | .embLive => 0x45 | .embLost => 0x46 | .indexBusy => 0x47
  | .dataCheck => 0x50 | .allocConflict => 0x51 | .allocFull => 0x52 | .allocReadOnly => 0x53 | .allocPinned => 0x54
  | .addressInvalid => 0x55 | .migrateBusy => 0x56 | .alreadyRetired => 0x57 | .retireFull => 0x58 | .badPage => 0x59
  | .readOnly => 0x5A | .badRange => 0x5B | .tagBusy => 0x5C | .queueReset => 0x5D | .linkDown => 0x5E
  | .badCommandStorage => 0x5F
  | .imageFormat => 0x70 | .imageSignature => 0x71 | .imageKind => 0x72 | .storeWrite => 0x73 | .handoverBusy => 0x74
  | .handoverState => 0x75 | .handoverAborted => 0x76 | .groomFailed => 0x77 | .groomTarget => 0x78
  | .attestIdentity => 0x79 | .topologyMismatch => 0x7A

/-! ### The Halter link, device to host -/

/-- The link is UP, at the full or at half rate (R412). -/
def Link.isUp (l : Link) : Bool := l.state = 2 || l.state = 3

/-- A link trains: its sequence numbers begin anew, and the receive buffer of the other side is empty. -/
def Link.start (state credits : Nat) (l : Link) : Link :=
  { Link.reset with state := state, credits := credits, toSend := l.toSend, replays := l.replays, rxReplays := l.rxReplays }

/-- A transaction header (R415). -/
def txHeader (op flags tag len addr : Nat) : Bytes :=
  leBytes 1 op ++ leBytes 1 flags ++ leBytes 2 tag ++ leBytes 4 len ++ leBytes 8 addr

/-- The 252 bytes of a Halter flit that its CRC covers (R413). -/
def flitHead (ftype flags seq ack credits : Nat) (body : Bytes) : Bytes :=
  leBytes 1 ftype ++ leBytes 1 flags ++ leBytes 2 seq ++ leBytes 2 ack ++ leBytes 2 credits ++ fit 244 body

/-- The 256 bytes of a Halter flit. -/
def flitBytes (ftype flags seq ack credits : Nat) (body : Bytes) : Bytes :=
  let b := flitHead ftype flags seq ack credits body
  b ++ leBytes 4 (crc32 b)

/-- Classes of what is sent to the host, first to last: HOST_OUT data, records (completions, stream entries, events), the data of commands, and the
muster record that MUSTER_CTL asks for (R429). -/
abbrev clHostOut := 0
abbrev clRecord := 1
abbrev clData := 2
abbrev clMuster := 3

/-- The link is UP and credits cover the flits of a transaction. -/
def Link.takes (tx : Bytes) (l : Link) : Bool := l.isUp && decide (ceilDiv tx.length 244 ≤ l.credits)

/-- `x` is sent no later than one of class `cls` and key `key` that comes after it. -/
def Waiting.before (cls key : Nat) (x : Waiting) : Bool := decide (x.cls < cls) || (x.cls = cls && decide (x.key ≤ key))

/-- Puts one transaction into DATA flits, which are kept for replay, the newest 1,024 (R414). The rest of the last BODY is padding (R415). -/
def Link.emit (tx : Bytes) (l : Link) : Link :=
  let bodies := chunks 244 tx
  let flits := (List.range bodies.length).map fun i =>
    ((l.txNext + i) % 65536, flitBytes 1 0 ((l.txNext + i) % 65536) l.rxLast (if i = 0 then l.freed else 0) (bodies.getD i []))
  let kept := l.sent ++ flits
  { l with
    sent := kept.drop (kept.length - 1024), txNext := (l.txNext + bodies.length) % 65536
    credits := l.credits - bodies.length, freed := if bodies.isEmpty then l.freed else 0 }

def hostKey (a : Nat) : Nat := memKey spHost 0 a

/-- Sends a transaction; the bytes of a WRITE are then in host memory (DEDUCED: log entry 137). -/
def W.emit (tx : Bytes) (w : W) : W :=
  let w := w.halter (Link.emit tx)
  if fld tx 0 1 = 1 then w.pokes (hostKey (fld tx 8 8)) (tx.drop 16) else w

/-- Puts a transaction among those that wait, after all that go before it. -/
def Link.enqueue (cls key : Nat) (tx : Bytes) (l : Link) : Link :=
  { l with toSend := l.toSend.takeWhile (·.before cls key) ++ { cls := cls, key := key, bytes := tx } :: l.toSend.dropWhile (·.before cls key) }

/-- A transaction is sent at once if the link takes it and nothing that goes before it waits; otherwise it waits in the order of R429. -/
def W.sendTx (cls key : Nat) (tx : Bytes) (w : W) : W :=
  if w.dev.halter.takes tx && w.dev.halter.toSend.all (fun x => !x.before cls key) then w.emit tx
  else w.halter (Link.enqueue cls key tx)

/-- Sends what waits, in order, while credits last. -/
def W.drainTx : Nat → W → W
  | 0, w => w
  | n + 1, w =>
    match w.dev.halter.toSend with
    | [] => w
    | x :: r => if w.dev.halter.takes x.bytes then W.drainTx n ((w.emit x.bytes).halter fun l => { l with toSend := r }) else w

/-- A WRITE of HOST_OUT data to the granule at key `k` waits. -/
def Dev.hostWaits (d : Dev) (k : Nat) : Bool :=
  d.halter.toSend.any fun x => x.cls = clHostOut && decide (hostKey (fld x.bytes 8 8) < k + 64) && decide (k < hostKey (fld x.bytes 8 8) + fld x.bytes 4 4)

/-- Data that paddock `p` was to send to the host is sent no more. -/
def W.dropHostOut (p : Nat) (w : W) : W := w.halter fun l => { l with toSend := l.toSend.filter fun x => x.cls ≠ clHostOut || x.key % 64 ≠ p }

/-- A MESSAGE with vector `v` (R415). -/
def W.message (cls v : Nat) (w : W) : W := w.sendTx cls 0 (txHeader 4 0 0 0 v)

/-- The parts of `b` that WRITE transactions carry, as offsets and bytes: at most 4,096 bytes each, and no last part below 4 bytes but where `b` itself is
shorter (R415; DEDUCED: log entry 137). -/
def hostParts (b : Bytes) : List (Nat × Bytes) :=
  let r := b.length % 4096
  let cut := if 4096 < b.length && 0 < r && r < 4 then b.length - r - 4 else b.length
  let l := chunks 4096 (b.take cut)
  ((List.range l.length).map fun i => (4096 * i, l.getD i [])) ++ (if cut < b.length then [(cut, b.drop cut)] else [])

/-- Bytes written to host memory from address `a`, in WRITE transactions (R415). -/
def W.writeHost (cls key a : Nat) (b : Bytes) (w : W) : W :=
  W.each (hostParts b) (fun x w => w.sendTx cls key (txHeader 1 0 0 x.2.length (a + x.1) ++ x.2)) w

/-- Records written to host memory. -/
def W.toHost (a : Nat) (b : Bytes) (w : W) : W := w.writeHost clRecord 0 a b

/-- Class of a completion: a record, but behind the data of its own command where that waits (R421, R429; DEDUCED: log entry 137). -/
def Dev.doneClass (d : Dev) (data : Bool) : Nat := if data && d.halter.toSend.any (·.cls = clData) then clData else clRecord

/-! ### Completions (R421) -/

/-- The 32 bytes of a completion entry. -/
def Completion.bytes (r : Nat) (phase : Bool) (c : Completion) : Bytes :=
  leBytes 2 (r % 64 + (if phase then 0x8000 else 0)) ++ leBytes 2 c.status ++ leBytes 4 c.cmdId ++ leBytes 8 c.herd ++
  leBytes 2 c.index ++ leBytes 2 0 ++ leBytes 4 c.result.length ++ leBytes 8 c.value

/-- Writes a completion to the host: the result bytes, then the entry, then the MESSAGE; PHASE inverts at the wrap. -/
def W.deliver (r : Nat) (c : Completion) (w : W) : W :=
  let g := w.dev.ring r
  let w := w.writeHost clData 0 c.resultAt c.result
  let cls := w.dev.doneClass !c.result.isEmpty
  let w := w.writeHost cls 0 (g.cpl + 32 * g.cplTail) (c.bytes r g.phase)
  let w := w.ring r fun g => { g with cplTail := (g.cplTail + 1) % 256, phase := if g.cplTail = 255 then !g.phase else g.phase }
  w.message cls r

/-- A completion is written at once while the link is UP, and otherwise waits in order (R417). -/
def W.post (r : Nat) (c : Completion) (w : W) : W :=
  if w.dev.halter.isUp then w.deliver r c else w.ring r fun g => { g with heldCpl := g.heldCpl ++ [c] }

/-- The outstanding command at submission index `i` of ring `r`. -/
def Dev.outstanding? (d : Dev) (r i : Nat) : Option Outstanding := (d.ring r).out.find? (·.index = i)

/-- Commands whose completion is not yet written (R420). -/
def Ring.outstanding (g : Ring) : Nat := g.out.length + g.heldCpl.length

/-- Completes the command at submission index `i` of ring `r` with a status, a VALUE and result bytes, of which those that fit
RESULT_LEN are written (R421). -/
def W.complete (r i : Nat) (st : Status) (value : Nat := 0) (result : Bytes := []) (w : W) : W :=
  match w.dev.outstanding? r i with
  | none => w
  | some o =>
    let w := w.ring r fun g => { g with out := g.out.filter (·.index ≠ i), done := if o.op = 0x12 then o.entry.cmdId.toNat :: g.done else g.done }
    w.post r
      { status := st.code, cmdId := o.entry.cmdId.toNat, herd := w.herd, index := i, value := value
        resultAt := o.entry.result.toNat, result := result.take o.entry.resultLen.toNat }

/-! ### Events (R423) -/

/-- A 64-byte event entry. -/
def eventBytes (kind herd : Nat) (body : Bytes) : Bytes := leBytes 1 kind ++ zeros 7 ++ leBytes 8 herd ++ fit 48 body

def EventRing.used (e : EventRing) : Nat := (e.tail + 1024 - e.head) % 1024

def W.writeEvent (b : Bytes) (w : W) : W :=
  let e := w.dev.events
  let w := w.toHost (e.base + 64 * e.tail) b
  let w := w.events fun e => { e with tail := (e.tail + 1) % 1024 }
  w.message clRecord 64

/-- An event: counted as lost when EVT_EN is clear or the ring is full, held while the link is DOWN (R417, R423, R532). -/
def W.event (kind : Nat) (body : Bytes) (w : W) : W :=
  let e := w.dev.events
  if !e.enable || 1023 ≤ e.used + e.held.length then w.events fun e => { e with lost := (e.lost + 1) % 2 ^ 32 }
  else
    let b := eventBytes kind w.herd body
    if w.dev.halter.isUp then w.writeEvent b else w.events fun e => { e with held := e.held ++ [b] }

/-! ### Stream rings (R422) -/

def Ring.strUsed (g : Ring) : Nat := (g.strTail + 256 - g.strHead) % 256

/-- Writes what the stream store holds for ring `r`, oldest first, while the ring has room and the link is UP. -/
def W.drainStream (r : Nat) : Nat → W → W
  | 0, w => w
  | n + 1, w =>
    let g := w.dev.ring r
    match g.heldStr with
    | [] => w
    | b :: rest =>
      if w.dev.halter.isUp && g.strUsed < 255 then
        let w := w.toHost (g.str + 288 * g.strTail) b
        W.drainStream r n (w.ring r fun g => { g with strTail := (g.strTail + 1) % 256, heldStr := rest })
      else w

/-- A 288-byte stream entry of ring `r`, in commit order. -/
def W.stream (r : Nat) (b : Bytes) (w : W) : W :=
  let w := w.ring r fun g => { g with heldStr := g.heldStr ++ [fit 288 b] }
  w.drainStream r (w.dev.ring r).heldStr.length

/-- Bytes in the stream store, of 32 MiB. -/
def Dev.streamStore (d : Dev) : Nat := sumNat (d.rings.map fun g => 288 * g.2.heldStr.length)

end Sys2Proof.Machine
end

