-- ==== Sys2Proof/Machine/Sha3.lean ====
section
/-! DEFINITION. SHA3-256, the digest of plan images, tables and firmware images (R45, R252, R299, R488). -/

namespace Sys2Proof.Machine

def rotl64 (v n : Nat) : Nat := ((v <<< n) ||| (v >>> (64 - n))) % 2 ^ 64

def lane (a : List Nat) (i : Nat) : Nat := a.getD i 0

def keccakRotations : List Nat :=
  [0, 1, 62, 28, 27, 36, 44, 6, 55, 20, 3, 10, 43, 25, 39, 41, 45, 15, 21, 8, 18, 2, 61, 56, 14]

def keccakRounds : List Nat :=
  [0x0000000000000001, 0x0000000000008082, 0x800000000000808A, 0x8000000080008000, 0x000000000000808B, 0x0000000080000001,
   0x8000000080008081, 0x8000000000008009, 0x000000000000008A, 0x0000000000000088, 0x0000000080008009, 0x000000008000000A] ++
  [0x000000008000808B, 0x800000000000008B, 0x8000000000008089, 0x8000000000008003, 0x8000000000008002, 0x8000000000000080,
   0x000000000000800A, 0x800000008000000A, 0x8000000080008081, 0x8000000000008080, 0x0000000080000001, 0x8000000080008008]

/-- One round of Keccak-f[1600] on 25 lanes, lane x + 5 y. -/
def keccakRound (a : List Nat) (rc : Nat) : List Nat :=
  let c := (List.range 5).map fun x => lane a x ^^^ lane a (x + 5) ^^^ lane a (x + 10) ^^^ lane a (x + 15) ^^^ lane a (x + 20)
  let d := (List.range 5).map fun x => lane c ((x + 4) % 5) ^^^ rotl64 (lane c ((x + 1) % 5)) 1
  let t := (List.range 25).map fun i => rotl64 (lane a i ^^^ lane d (i % 5)) (lane keccakRotations i)
  let b := (List.range 25).map fun i =>
    let x := i % 5
    let y := i / 5
    lane t ((x + 3 * y) % 5 + 5 * x)
  let e := (List.range 25).map fun i =>
    let x := i % 5
    let y := i / 5
    lane b i ^^^ (((2 ^ 64 - 1) ^^^ lane b ((x + 1) % 5 + 5 * y)) &&& lane b ((x + 2) % 5 + 5 * y))
  e.set 0 (lane e 0 ^^^ rc)

def keccakF (a : List Nat) : List Nat := keccakRounds.foldl keccakRound a

/-- Absorbs one block of 136 bytes. -/
def sha3Absorb (a : List Nat) (blk : Bytes) : List Nat :=
  keccakF ((List.range 25).map fun i => if i < 17 then lane a i ^^^ fld blk (8 * i) 8 else lane a i)

def sha3Pad (m : Bytes) : Bytes :=
  let n := 136 - m.length % 136
  if n = 1 then m ++ [0x86] else m ++ [0x06] ++ zeros (n - 2) ++ [0x80]

/-- SHA3-256 of a run of bytes. -/
def sha3 (m : Bytes) : Bytes :=
  let a := (chunks 136 (sha3Pad m)).foldl sha3Absorb (List.replicate 25 0)
  ((List.range 4).map fun i => leBytes 8 (lane a i)).flatten

end Sys2Proof.Machine
end

