-- ==== Sys2Proof/Machine/PlanImage.lean ====
section
/-! DEFINITION. The plan image: header, section table, sections and their entries (R45 to R47, R50 to R54, R558). -/

namespace Sys2Proof.Machine

/-- Kinds of a plan (R45). -/
abbrev pkRetrieve := 1
abbrev pkScore := 5
abbrev pkPhase := 7
abbrev pkService := 8

/-! ### Operation classes (R51) and unit kinds (R52) -/

abbrev cNOP := 0x00
abbrev cPASS := 0x01
abbrev cVEC := 0x02
abbrev cSELECT8 := 0x03
abbrev cSELECT := 0x04
abbrev cCOMPACT := 0x05
abbrev cMOVE := 0x06
abbrev cBAYTABLE := 0x08
abbrev cBAYFETCH := 0x09
abbrev cBAYHOP := 0x0A
abbrev cBAYHAMMING := 0x0B
abbrev cBAYGATHER := 0x0C
abbrev cBAYDECODE := 0x0D
abbrev cBAYQUEUEOUT := 0x0E
abbrev cMERGE := 0x10
abbrev cTOKENIZE := 0x11
abbrev cDETOKENIZE := 0x12
abbrev cMASK := 0x13
abbrev cSHEDREAD := 0x14
abbrev cBARNREAD := 0x15
abbrev cBARNWRITE := 0x16
abbrev cDROVESEND := 0x18
abbrev cDROVERECV := 0x19
abbrev cHOSTOUT := 0x1A
abbrev cRANDOM := 0x1B
abbrev cREPEAT := 0x3E
abbrev cEND := 0x3F

abbrev kALL := 0
abbrev kPRE := 1
abbrev kDEC := 2
abbrev kSTABLE := 3
abbrev kDMA := 4
abbrev kBAY := 5
abbrev kMERGE := 6
abbrev kTOKENIZER := 7
abbrev kGRAMMAR := 8
abbrev kSHED := 9
abbrev kBARN := 10
abbrev kDROVE := 11
abbrev kHALTER := 12
abbrev kCONTROL := 13

/-- The unit kinds a class may name (R51); none for a reserved class. -/
def classKinds (c : Nat) : Option (List Nat) :=
  if c = cNOP then some (List.range 14)
  else if c = cPASS || c = cVEC || c = cSELECT8 || c = cRANDOM then some [kALL, kPRE, kDEC]
  else if c = cSELECT || c = cCOMPACT then some [kSTABLE]
  else if c = cMOVE then some [kDMA]
  else if decide (8 ≤ c) && decide (c ≤ 14) then some [kBAY]
  else if c = cMERGE then some [kMERGE]
  else if c = cTOKENIZE || c = cDETOKENIZE then some [kTOKENIZER]
  else if c = cMASK then some [kGRAMMAR]
  else if c = cSHEDREAD then some [kSHED]
  else if c = cBARNREAD || c = cBARNWRITE then some [kBARN]
  else if c = cDROVESEND || c = cDROVERECV then some [kDROVE]
  else if c = cHOSTOUT then some [kHALTER]
  else if c = cREPEAT || c = cEND then some [kCONTROL]
  else none

/-- Descriptor index of no descriptor (R50). -/
abbrev noDesc := 0xFFFF

/-! ### Sections (R46) -/

structure Section where
  type : Nat
  required : Bool
  flagsOk : Bool
  off : Nat
  len : Nat
  crc : Nat
deriving DecidableEq, Repr

def sectionTable (b : Bytes) : List Section :=
  let n := fld b 0x2A 2
  let o := fld b 0x2C 4
  (List.range n).map fun i =>
    let e := slice b (o + 16 * i) 16
    { type := fld e 0 2, required := (fld e 2 2).testBit 0, flagsOk := decide (fld e 2 2 ≤ 1), off := fld e 4 4, len := fld e 8 4
      crc := fld e 12 4 }

def knownSection (t : Nat) : Bool := (decide (1 ≤ t) && decide (t ≤ 0x0B)) || t = 0xFF

/-- Ranges (start, end) that do not overlap; an empty range overlaps nothing. -/
def disjoint2 (a b : Nat × Nat) : Bool := decide (a.2 ≤ b.1) || decide (b.2 ≤ a.1) || decide (a.1 = a.2) || decide (b.1 = b.2)

def allDisjoint : List (Nat × Nat) → Bool
  | [] => true
  | r :: rs => rs.all (disjoint2 r) && allDisjoint rs

def noRepeats : List Nat → Bool
  | [] => true
  | x :: r => !r.contains x && noRepeats r

/-- Bytes of the first section of a type, empty when the image has none. -/
def sectionBytes (b : Bytes) (t : Nat) : Bytes :=
  match (sectionTable b).find? (·.type = t) with
  | some s => slice b s.off s.len
  | none => []

/-- Check 1 of R48. -/
def imageHeadOk (b : Bytes) : Bool :=
  fld b 0 4 = 0x4E4C_5055 && fld b 4 2 = 1 && fld b 6 2 = 256 && fld b 0x38 4 = b.length && decide (b.length ≤ 256 * 2 ^ 20) &&
  decide (256 ≤ b.length)

/-- Check 2 of R48. -/
def imageDigestOk (b : Bytes) : Bool := sha3 (b.take 0x60 ++ zeros 32 ++ b.drop 0x80) == slice b 0x60 32

/-- Check 3 of R48. -/
def imageSectionsOk (b : Bytes) : Bool :=
  let ss := sectionTable b
  let o := fld b 0x2C 4
  let table := (o, o + 16 * ss.length)
  let ranges := (0, 256) :: table :: ss.map fun s => (s.off, s.off + s.len)
  decide (table.2 ≤ b.length) && ss.all (fun s => decide (s.off + s.len ≤ b.length) && s.off % 64 = 0 && s.flagsOk) &&
  ss.all (fun s => crc32c (slice b s.off s.len) = s.crc) && noRepeats (ss.map (·.type)) &&
  ss.all (fun s => !s.required || knownSection s.type) && allDisjoint ranges

/-! ### Entries -/

/-- A plan word from its 16 bytes (R50). -/
def parseWord (b : Bytes) : PWord :=
  let v := fld b 0 16
  { slot := bitsOf v 96 32, cls := bitsOf v 90 6, v := v.testBit 89, s := v.testBit 88, l := v.testBit 87, resv := bitsOf v 84 3
    kind := bitsOf v 80 4, mask := bitsOf v 48 32, dst := bitsOf v 32 16, srca := bitsOf v 16 16, srcb := bitsOf v 0 16 }

/-- An operand descriptor from its 32 bytes (R53). -/
def parseDesc (b : Bytes) : Desc :=
  { space := fld b 0 1, format := fld b 1 1, flags := fld b 2 2, length := fld b 4 4, base := fld b 8 8, strideUnit := fld b 16 4
    strideRep := fld b 20 4, deadline := fld b 24 4, binding := fld b 28 2, guard := fld b 30 2 }

/-- A share entry from its 40 bytes (R390, R558). -/
def parseShare (b : Bytes) : Share :=
  { target := fld b 0 1, owner := fld b 1 1, index := fld b 2 2, resv := fld b 4 4, entries := fld b 8 32 }

def parseBinding (b : Bytes) : Binding := { kind := fld b 0 1, region := fld b 1 1, resv := fld b 2 6, ident := fld b 8 8 }

def parseGuard (b : Bytes) : GuardEntry :=
  { guard := fld b 0 2, sources := fld b 2 1, flags := fld b 3 1, word := fld b 4 4, shadow := fld b 8 4, resv := fld b 12 4 }

def parseAlloc (b : Bytes) : AllocEntry :=
  { allocId := fld b 0 4, set := fld b 4 2, flags := fld b 6 1, place := fld b 7 1, length := fld b 8 8, commons := fld b 16 8
    phys := fld b 24 8, master := fld b 32 8, masterSpace := fld b 40 1, stackMask := fld b 41 1, resvZero := allZero (slice b 42 22) }

def parsePrefetch (b : Bytes) : Prefetch :=
  { post := fld b 0 4, src := fld b 4 2, dst := fld b 6 2, layer := fld b 8 2, flags := fld b 10 2, resv := fld b 12 4 }

def parseEnergy (b : Bytes) : EnergyEntry := { word := fld b 0 4, domain := fld b 4 1, estUJ := fld b 8 4, resv := fld b 5 3 + fld b 12 4 }

/-- The plan that an image spells. Its correction factor starts at 1.0 (R474). -/
def parsePlan (b : Bytes) : Plan :=
  { planId := fld b 8 8, version := fld b 0x10 4, kind := fld b 0x14 1, parts := fld b 0x15 1, flags := fld b 0x16 2
    stalls := fld b 0x18 4, prefillStables := fld b 0x1C 2, batch := fld b 0x1E 2, length := fld b 0x20 4, energyMJ := fld b 0x24 4
    peakW := fld b 0x28 2, units := fld b 0x30 4, fromSet := fld b 0x34 2, toSet := fld b 0x36 2, family := fld b 0x3C 4
    digest := slice b 0x60 32
    words := (records 16 (sectionBytes b 1)).map parseWord
    descs := (records 32 (sectionBytes b 2)).map parseDesc
    constants := sectionBytes b 3
    residency := (records 64 (sectionBytes b 4)).map parseAlloc
    prefetch := (records 16 (sectionBytes b 5)).map parsePrefetch
    shares := (records 40 (sectionBytes b 6)).map parseShare
    bindings := (records 16 (sectionBytes b 7)).map parseBinding
    holds := (records 4 (sectionBytes b 8)).map ofLe
    guards := (records 16 (sectionBytes b 9)).map parseGuard
    energy := (records 16 (sectionBytes b 10)).map parseEnergy
    commits := (records 4 (sectionBytes b 11)).map fun e => (fld e 0 2, fld e 2 2)
    k := 0x3F80_0000 }

/-- Every section is a whole number of its entries, and every reserved field of the header is 0. -/
def imageShapeOk (b : Bytes) : Bool :=
  [(1, 16), (2, 32), (4, 64), (5, 16), (6, 40), (7, 16), (8, 4), (9, 16), (10, 16), (11, 4)].all
    (fun p => (sectionBytes b p.1).length % p.2 = 0) && allZero (slice b 0x80 128)

/-! ### Descriptors -/

def Plan.desc? (p : Plan) (i : Nat) : Option Desc := if i = noDesc then none else p.descs[i]?

def Desc.deadlineSet (d : Desc) : Bool := d.flags.testBit 0
def Desc.missZero (d : Desc) : Bool := d.flags.testBit 1
def Desc.commit (d : Desc) : Bool := d.flags.testBit 2
def Desc.bound (d : Desc) : Bool := d.flags.testBit 3
/-- The class bits [15:8] of FLAGS. -/
def Desc.classBits (d : Desc) : Nat := d.flags / 256 % 256
def Desc.fmt (d : Desc) : Nat := fmtCode d.format

/-- Number of repetitions of word `w` of the plan and the period, from the REPEAT that holds it (R54): (1, 0) outside. -/
def Plan.repeatOf (p : Plan) (w : Nat) : Nat × Nat :=
  match (List.range w).reverse.find? fun i => match p.words[i]? with
      | some x => x.cls = cREPEAT && decide (w ≤ i + x.dst)
      | none => false with
  | some i => match p.words[i]? with
    | some x => (x.srca, x.srcb)
    | none => (1, 0)
  | none => (1, 0)

/-- Effective slot of word `w` in repetition `j` (R54). -/
def Plan.effSlot (p : Plan) (w j : Nat) : Nat :=
  match p.words[w]? with
  | some x => x.slot + j * (p.repeatOf w).2
  | none => 0

end Sys2Proof.Machine
end

