-- ==== Sys2Proof/Machine/Slots.lean ====
section
/-! DEFINITION. Slot tables and link maps: entries, what SWAP refuses, throttle levels, changes that wait for a launch point, and who
holds an entry (R152 to R162, R334 to R336, R346, R372, R404, R529, R530). -/

namespace Sys2Proof.Machine

/-! ### Tables by number -/

abbrev tBarn (c : Nat) : Nat := 512 + c
abbrev tShed (c : Nat) : Nat := 544 + c
abbrev tUnit (u : Nat) : Nat := 568 + u
abbrev tMerge := 580
abbrev tTokenizer := 581
abbrev tGrammar := 582
/-- Stands for LINK_CTL in the list of waiting SWAPs. -/
abbrev tLinks := 583

/-- Base of the UNIT block of registers (R519). -/
def bUnit := 0x0003_0000

/-- Key of a register of indirect target `t` (R522). -/
def indKey (t off : Nat) : Nat := (t + 1) * 2 ^ 32 + off

inductive TableKind where
  | pc | barn | shed | drove | shared
deriving DecidableEq, Repr

def tableKind (t : Nat) : TableKind :=
  if t < 512 then .pc else if t < 544 then .barn else if t < 568 then .shed else if t < 580 then .drove else .shared

/-- The table that a share entry names (R390), if TARGET and INDEX lie in range. -/
def shareTable (target index : Nat) : Option Nat :=
  match target with
  | 1 => if index < 512 then some index else none
  | 2 => if index < 32 then some (tBarn index) else none
  | 3 => if index < 24 then some (tShed index) else none
  | 4 => if index < 12 then some (tUnit index) else none
  | 5 => if index = 0 then some tMerge else none
  | 6 => if index = 0 then some tTokenizer else none
  | 7 => if index = 0 then some tGrammar else none
  | _ => none

/-! ### Entries (R154) -/

def entryOwner (v : Nat) : Nat := bitsOf v 12 4
def entryPad (v : Nat) : Nat := bitsOf v 6 6
def mkEntry (owner p : Nat) : Nat := owner * 4096 + p * 64

def oNone := 0
def oBay := 1
def oPaddock := 2
def oLockstep := 3
def oMigrate := 0xA
def oGroom := 0xB
def oCal := 0xC
def oHost := 0xD
def oRemoved := 0xF

/-- PORT0 to PORT7 of a pseudo-channel. -/
def isPort (o : Nat) : Bool := decide (2 ≤ o) && decide (o ≤ 9)

/-- Owner codes that the paddock field goes with. -/
def ownerHasPad (k : TableKind) (o : Nat) : Bool :=
  match k with
  | .pc => o = oBay || isPort o
  | .drove => o = oPaddock || o = oLockstep
  | _ => o = oPaddock

/-- Owner codes of each kind of table (R155, R159, R346, R372, R404). -/
def ownerKnown (k : TableKind) (o : Nat) : Bool :=
  match k with
  | .pc => o ≠ 0xE
  | .barn => [0, 2, 0xA, 0xB, 0xD, 0xF].contains o
  | .shed => [0, 2, 0xA, 0xB, 0xC, 0xD, 0xF].contains o
  | .drove => [0, 2, 3, 0xB, 0xC, 0xD, 0xF].contains o
  | .shared => [0, 2, 0xB, 0xF].contains o

/-- Owner codes that a share entry may give (R390). -/
def shareOwnerOk (k : TableKind) (o : Nat) : Bool := ownerHasPad k o

def tableEntry (m : NMap) (t e : Nat) : Nat := nget m (t * 256 + e)

def tableEntries (m : NMap) (t : Nat) : List Nat := (List.range 256).map (tableEntry m t)

/-! ### What SWAP refuses -/

def pairsEqual (es : List Nat) : Bool := (List.range 128).all fun i => es.getD (2 * i) 0 = es.getD (2 * i + 1) 0

def entriesOk (k : TableKind) (es : List Nat) : Bool :=
  es.all fun v => ownerKnown k (entryOwner v)

/-- At most one paddock in the BAY entries (R153). -/
def oneBayPaddock (es : List Nat) : Bool :=
  match (es.filter fun v => entryOwner v = oBay).map entryPad with
  | [] => true
  | p :: r => r.all (· = p)

def removable (v : Nat) : Bool := isPort (entryOwner v) || entryOwner v = oNone

def removablePairs (es : List Nat) : Nat := ((List.range 128).filter fun i => removable (es.getD (2 * i) 0)).length

def ftlPairs (es : List Nat) : Nat := ((List.range 128).filter fun i => entryOwner (es.getD (2 * i) 0) = 0xC).length

/-- Whether SWAP takes the pending table (R153, R155, R159, R336, R346, R372, R404). -/
def tableValid (t : Nat) (es : List Nat) : Bool :=
  let k := tableKind t
  entriesOk k es &&
  (match k with
   | .pc => pairsEqual es && oneBayPaddock es && decide (16 ≤ removablePairs es)
   | .shed => pairsEqual es && decide (8 ≤ ftlPairs es)
   | .drove => pairsEqual es
   | _ => true)

/-! ### Throttle (R334, R335) -/

/-- The entries of a table with its removable pairs set to REMOVED at level `l`; `r` counts removable pairs. -/
def throttlePairs (l : Nat) : Nat → List Nat → List Nat
  | _, [] => []
  | _, [a] => [a]
  | r, a :: b :: rest =>
    if removable a then
      (if r % 8 < l then mkEntry oRemoved 0 :: mkEntry oRemoved 0 :: throttlePairs l (r + 1) rest
       else a :: b :: throttlePairs l (r + 1) rest)
    else a :: b :: throttlePairs l r rest

def throttled (l : Nat) (es : List Nat) : List Nat := throttlePairs l 0 es

/-- Level entered at or above, by present level, one step at most (R334). -/
def levelUp : Nat → Nat
  | 0 => 85
  | 1 => 88
  | 2 => 91
  | _ => 93

def levelDown : Nat → Nat
  | 1 => 83
  | 2 => 86
  | 3 => 89
  | _ => 91

/-- The level after a reading of `temp` °C. -/
def nextLevel (l temp : Nat) : Nat :=
  if l < 4 && decide (levelUp l ≤ temp) then l + 1 else if 0 < l && decide (temp < levelDown l) then l - 1 else l

def Therm.reset : Therm := { temp := 0, computed := 0, applied := 0, refresh2x := false, trip := false }

def Dev.therm (d : Dev) (s : Nat) : Therm := tget Therm.reset s d.tiers.therm

/-! ### Changes that wait for a launch point (R158) -/

/-- Entries that calibration gives a table: its PORT or PADDOCK entries become CAL, and on a Drove port those of LOCKSTEP and NONE too
(R158, R404, R501, log entry 31). -/
def calibrated (k : TableKind) (es : List Nat) : List Nat :=
  es.map fun v =>
    let o := entryOwner v
    let gives := match k with
      | .pc => isPort o
      | .drove => o = oPaddock || o = oLockstep || o = oNone
      | _ => o = oPaddock
    if gives then mkEntry oCal 0 else v

/-- Entries that a groom test gives a table: its NONE entries become GROOM, or its PORT or PADDOCK entries where it has none
(log entry 32). -/
def groomed (es : List Nat) : List Nat :=
  let none_ := es.any fun v => entryOwner v = oNone
  es.map fun v =>
    let o := entryOwner v
    if (if none_ then o = oNone else o ≠ oBay && o ≠ oMigrate && o ≠ oHost && o ≠ oRemoved) then mkEntry oGroom 0 else v

def removeAll (es : List Nat) : List Nat := es.map fun _ => mkEntry oRemoved 0

/-- Standing fences of a pseudo-channel, a barn channel or a bay (R446): every entry, or the BAY entries, become REMOVED. A unit is
UKIND × 2^56 + UINDEX; kinds 3, 4 and 5 are bays, pseudo-channels and barn channels. -/
def fencedTable (standing : List Nat) (t : Nat) (es : List Nat) : List Nat :=
  match tableKind t with
  | .pc =>
    if standing.contains (4 * 2 ^ 56 + t) then removeAll es
    else if standing.contains (3 * 2 ^ 56 + t) then es.map fun v => if entryOwner v = oBay then mkEntry oRemoved 0 else v
    else es
  | .barn => if standing.contains (5 * 2 ^ 56 + (t - 512)) then removeAll es else es
  | _ => es

/-- The change takes over the pending table: a SWAP, or forming and teardown. -/
def TableChange.swaps (ch : TableChange) : Bool := ch.cause = 0 || ch.cause = 4

/-- What the active table becomes when the change applies: the pending table or the one last swapped, under standing fences, the latest
throttle level and a calibration in progress. -/
def Dev.newTable (d : Dev) (ch : TableChange) (t : Nat) : List Nat :=
  let src := tableEntries (if ch.swaps then ch.copy else d.slots.base) t
  let es := fencedTable d.faults.standing t src
  let cal := ch.cause = 2 || (d.slots.cal.contains t && ch.cause ≠ 3)
  let grm := ch.cause = 6 || (d.slots.grm.contains t && ch.cause ≠ 7)
  let thr := match tableKind t with
    | .pc =>
      let th := d.therm (t / 64)
      throttled (if ch.cause = 1 then th.computed else th.applied) es
    | _ => es
  let thr := if cal then calibrated (tableKind t) thr else thr
  if grm then groomed thr else thr

/-- Paddocks that hold an entry which the change alters, before or after. -/
def Dev.changedPads (d : Dev) (ch : TableChange) : List Nat :=
  let byTable := ch.tables.map fun t =>
    let k := tableKind t
    let old := tableEntries d.slots.act t
    let new := d.newTable ch t
    ((List.range 256).filter fun e => old.getD e 0 ≠ new.getD e 0).map fun e =>
      [old.getD e 0, new.getD e 0].filterMap fun v => if ownerHasPad k (entryOwner v) then some (entryPad v) else none
  let byLink := if ch.links then
      ((d.slots.linkAct ++ ch.linkCopy).filter fun kv => nget d.slots.linkAct kv.1 ≠ nget ch.linkCopy kv.1).map fun kv => kv.2 % 64
    else []
  sortNat ((byTable.map List.flatten).flatten ++ byLink)

def Dev.running (d : Dev) (p : Nat) : Bool := (d.step? p).isSome

/-- A launch of paddock `p` waits while a change alters an entry it holds. -/
def Dev.changeWaits (d : Dev) (p : Nat) : Bool := d.slots.changes.any fun ch => (d.changedPads ch).contains p

def setTable (t : Nat) (es : List Nat) (m : NMap) : NMap :=
  (List.range 256).foldl (fun a e => nput (t * 256 + e) (es.getD e 0) a) m

def addAllNat (l into : List Nat) : List Nat := l.foldl (fun a x => insertNat x a) into

/-- A change of `tables` keeps the pending tables, or link maps, that it brings: later writes to them belong to the next one (R152, R525). -/
def TableChange.keep (s : Slots) (ch : TableChange) : TableChange :=
  if ch.swaps then
    { ch with copy := s.pend.filter fun kv => ch.tables.contains (kv.1 / 256), linkCopy := if ch.links then s.linkPend else [] }
  else ch

/-- A change waits for a launch point. -/
def W.addChange (ch : TableChange) (w : W) : W :=
  let ch := ch.keep w.dev.slots
  w.slots fun s => { s with changes := if s.changes.contains ch then s.changes else s.changes ++ [ch] }

/-- A SWAP of table `t` that no window holds back: refused with TABLE_ERR, or a change for the next launch point (R158, R161). A latched TABLE_ERR
stays until a write of 1 clears it (R513). -/
def W.swapNow (t : Nat) (w : W) : W :=
  if t = tLinks then w.addChange { cause := 0, tables := [], links := true, stack := 0 }
  else if tableValid t (tableEntries w.dev.slots.pend t) then
    w.addChange { cause := 0, tables := [t], links := false, stack := 0 }
  else w.slots fun s => { s with tableErr := insertNat t s.tableErr }

/-! ### Holders -/

/-- The paddock that holds the bay of pseudo-channel `n` (R139). -/
def Dev.bayHolder (d : Dev) (n : Nat) : Option Nat :=
  (d.slots.act.find? fun kv => kv.1 / 256 = n && entryOwner kv.2 = oBay).map fun kv => entryPad kv.2

/-- Paddock `p` holds the BAY entries of every bay of a list: it may be their home (R139, R166, R308; log entry 123). -/
def Dev.holdsBays (d : Dev) (p : Nat) (bays : List Nat) : Bool := bays.all fun b => d.bayHolder b = some p

/-- Every entry of the set `mask` of table `t` has `owner` and paddock `p`. -/
def holdsEntries (m : NMap) (t owner p mask : Nat) : Bool :=
  (List.range 256).all fun e => !mask.testBit e || tableEntry m t e = mkEntry owner p

def holdsLink (m : NMap) (l p mask : Nat) : Bool :=
  (List.range 256).all fun e => !mask.testBit e || nget m (l * 256 + e) = 0x80 + p

/-- Whether paddock `p` holds what a share entry asks for (R60 check 3). -/
def Dev.holdsShare (d : Dev) (p : Nat) (s : Share) : Bool :=
  if s.target = 8 then holdsLink d.slots.linkAct s.index p s.entries
  else match shareTable s.target s.index with
    | some t => holdsEntries d.slots.act t s.owner p s.entries
    | none => false

/-- The paddock holds at least one planned entry of table `t`. -/
def Dev.holdsSome (d : Dev) (t p : Nat) : Bool :=
  d.slots.act.any fun kv => kv.1 / 256 = t && ownerHasPad (tableKind t) (entryOwner kv.2) && entryPad kv.2 = p

/-- Bays of a paddock in the stacks of a BAY mask (R52). -/
def Dev.baysOf (d : Dev) (p mask : Nat) : List Nat :=
  sortNat ((d.slots.act.filter fun kv =>
    decide (kv.1 / 256 < 512) && mask.testBit (kv.1 / 256 / 64) && entryOwner kv.2 = oBay && entryPad kv.2 = p).map (·.1 / 256))

end Sys2Proof.Machine
end

