-- ==== Sys2Proof/Machine/DroveLink.lean ====
section
/-! DEFINITION. Trains of a Drove port and how they are sent (R402, R403). -/

namespace Sys2Proof.Machine

/-- A train before it is numbered. -/
structure Train where
  kind : Nat
  paddock : Nat
  flags : Nat
  channel : Nat
  launch : Nat
  offset : Nat
  data : List Bytes
deriving DecidableEq, Repr

/-- The 256 bytes of a head flit (R402). In a DIGEST head the message of R81 lies in LAUNCH and OFFSET. -/
def headBytes (kind flits paddock flags seq ack credits channel launch offset : Nat) (checks : List Nat) : Bytes :=
  let b := leBytes 1 kind ++ leBytes 1 flits ++ leBytes 1 paddock ++ leBytes 1 flags ++ leBytes 4 seq ++ leBytes 4 ack ++ leBytes 2 credits ++
    leBytes 2 channel ++ leBytes 8 launch ++ leBytes 8 offset ++ fit 216 ((checks.map (leBytes 2)).flatten) ++ zeros 4
  b ++ leBytes 4 (crc32 b)

/-- The four granules of a data flit. -/
def flitGranules (f : Bytes) : List Bytes := (List.range 4).map fun g => slice f (64 * g) 64

def Train.checks (t : Train) : List Nat := ((t.data.map flitGranules).flatten).map granuleCheck

def Train.flits (t : Train) : Nat := 1 + t.data.length

/-- A train as it waits: its head fields and its data flits. -/
def Train.bytes (t : Train) : Bytes :=
  leBytes 1 t.kind ++ leBytes 1 t.data.length ++ leBytes 1 t.paddock ++ leBytes 1 t.flags ++ leBytes 2 t.channel ++ zeros 2 ++
  leBytes 8 t.launch ++ leBytes 8 t.offset ++ t.data.flatten

def parseTrain (b : Bytes) : Train :=
  { kind := fld b 0 1, paddock := fld b 2 1, flags := fld b 3 1, channel := fld b 4 2, launch := fld b 8 8, offset := fld b 16 8
    data := (List.range (fld b 1 1)).map fun i => slice b (24 + 256 * i) 256 }

/-- The newest trains whose flits number at most `n`, oldest first. -/
def keepFlits (n : Nat) : List (Nat × Bytes) → List (Nat × Bytes)
  | [] => []
  | x :: r => if sumNat ((x :: r).map fun y => y.2.length / 256) ≤ n then x :: r else keepFlits n r

/-- Puts a train on the port. -/
def Link.emitTrain (t : Train) (l : Link) : Link :=
  let head := headBytes t.kind t.data.length t.paddock t.flags l.txNext l.rxLast l.freed t.channel t.launch t.offset t.checks
  { l with
    sent := keepFlits 1024 (l.sent ++ [(l.txNext, head ++ t.data.flatten)]), txNext := (l.txNext + 1) % 2 ^ 32
    credits := l.credits - t.flits, freed := 0 }

/-- The active table of the port has slots for a train of `n` flits: under a planned owner, as many consecutive pairs of that owner as the train
takes. Host copies go in background pairs too (R404). `owner` is the entry that names the owner. -/
def Dev.trainSlots (d : Dev) (port owner n : Nat) : Bool :=
  let held := fun (i : Nat) => tableEntry d.slots.act (tUnit port) (2 * (i % 128)) = owner
  !ownerHasPad .drove (entryOwner owner) || (List.range 128).any fun i => (List.range (ceilDiv n 2)).all fun k => held (i + k)

/-- Sends those of the trains `l` that have slots, in order, while credits cover all flits of the next; a port that is not UP sends nothing (R403,
R404). -/
def W.drainTrains (port : Nat) : List Waiting → W → W
  | [], w => w
  | x :: r, w =>
    let t := parseTrain x.bytes
    if (w.dev.port port).state ≠ 2 then w
    else if !w.dev.trainSlots port x.cls t.flits then W.drainTrains port r w
    else if decide (t.flits ≤ (w.dev.port port).credits) then
      W.drainTrains port r (w.port port fun l => { Link.emitTrain t l with toSend := l.toSend.erase x })
    else w

/-- A train of `owner` is sent behind those that wait; on a port that is not UP it is not sent at all (R403). -/
def W.sendTrain (port owner : Nat) (t : Train) (w : W) : W :=
  if (w.dev.port port).state ≠ 2 then w
  else
    let w := w.port port fun l => { l with toSend := l.toSend ++ [{ cls := owner, key := 0, bytes := t.bytes }] }
    w.drainTrains port (w.dev.port port).toSend

/-- The trains that carry bytes `b` of a step (R402, R406): at most 27 data flits each, the last padded; LAST on the last. -/
def trainsOf (paddock channel launch offset : Nat) (b : Bytes) : List Train :=
  let parts := chunks (27 * 256) b
  (List.range parts.length).map fun i =>
    { kind := 1, paddock := paddock, flags := if i + 1 = parts.length then 2 else 0, channel := channel, launch := launch
      offset := offset + i * (27 * 256), data := (chunks 256 (parts.getD i [])).map (fit 256) }

end Sys2Proof.Machine
end

