-- ==== Sys2Proof/Machine/Spans.lean ====
section
/-! DEFINITION. Spans of granted cycles: how long a word takes to use so many pairs or cycles of a slot table or link map from its
slot (R56, R262, R288, R313, R320, R348). -/

namespace Sys2Proof.Machine

/-- Cycles from `start` to the end of the `g`-th grant: `grants` are the frame positions at which grants of `len` cycles begin,
ascending. None where there is none. -/
def spanOf (len : Nat) (grants : List Nat) (start g : Nat) : Option Nat :=
  if g = 0 then some 0
  else
    let o := start % 256
    let first := grants.filter (o ≤ ·)
    match first[g - 1]? with
    | some e => some (e + len - o)
    | none =>
      if grants.isEmpty then none
      else
        let r := g - first.length - 1
        some (256 * (r / grants.length + 1) + grants.getD (r % grants.length) 0 + len - o)

/-- Even entries whose pair has `owner` and paddock `p` in a table. -/
def pairsOf (m : NMap) (t owner p : Nat) : List Nat :=
  ((List.range 128).map (2 * ·)).filter fun e => tableEntry m t e = mkEntry owner p

/-- Entries of a table that belong to paddock `p` as PADDOCK. -/
def cyclesOf (m : NMap) (t p : Nat) : List Nat := (List.range 256).filter fun e => tableEntry m t e = mkEntry oPaddock p

/-- Entries and pairs that a plan's SHARES give in table `t` under `owner`. -/
def Plan.shareMask (p : Plan) (t owner : Nat) : Nat :=
  p.shares.foldl (fun a s => if shareTable s.target s.index = some t && s.owner = owner then a ||| s.entries else a) 0

def Plan.sharePairs (p : Plan) (t owner : Nat) : List Nat :=
  let m := p.shareMask t owner
  ((List.range 128).map (2 * ·)).filter fun e => m.testBit e && m.testBit (e + 1)

def Plan.shareCycles (p : Plan) (t owner : Nat) : List Nat :=
  let m := p.shareMask t owner
  (List.range 256).filter m.testBit

end Sys2Proof.Machine
end

