-- ==== Sys2Proof/Machine/Operands.lean ====
section
/-! DEFINITION. Operands of plan words: the units a word acts on, the address each unit gives, and reads and writes of a step
(R33, R52 to R54, R58, R65, R137, R329, R330, R345, R354, R427, R563). -/

namespace Sys2Proof.Machine

/-! ### Stalls, stables and yards (R15, R31, R52) -/

/-- The yards in which a list of logical stables lies, ascending: the paddock yards. -/
def yardsOf (stables : List Nat) : List Nat := sortNat (stables.map (· / 8))

/-- Stables of the yards that a mask selects. -/
def maskStables (stables : List Nat) (mask : Nat) : List Nat :=
  let ys := yardsOf stables
  stables.filter fun s => match findIdxFrom (· = s / 8) 0 ys with
    | some (i, _) => mask.testBit i
    | none => false

/-- Stables a stall or stable word acts on: all, those lent to prefill, or those lent to decode (R31). `pre` is P. -/
def kindStables (stables : List Nat) (pre kind mask : Nat) : List Nat :=
  let side := if kind = kPRE then stables.take pre else if kind = kDEC then stables.drop pre else stables
  (maskStables stables mask).filter side.contains

/-- Flat numbers of the logical stalls of stables (R15). -/
def stallsOf (S : Nat) (stables : List Nat) : List Nat := (stables.map fun s => (List.range S).map fun t => s * S + t).flatten

/-! ### Issue contexts -/

/-- Words that post the deadline reads of their SRCA rather than consume them. -/
def postsReads (c : Nat) : Bool := c = cBARNREAD || c = cSHEDREAD || c = cDROVERECV

/-- Index of the REPEAT that holds word `w`. -/
def Plan.inRepeat (p : Plan) (w : Nat) : Option Nat :=
  (List.range w).reverse.find? fun i => match p.words[i]? with | some x => x.cls = cREPEAT && decide (w ≤ i + x.dst) | none => false

/-- The first word that posts the reads of descriptor `di`. -/
def Plan.posterOf (p : Plan) (di : Nat) : Option Nat := (findIdxFrom (fun w => postsReads w.cls && w.srca = di) 0 p.words).map (·.1)

/-- One issue of a plan word: the paddock, its step and stables, the word, its index, its repetition and its effective slot. -/
structure Ctx where
  p : Nat
  S : Nat
  stables : List Nat
  mergeBase : Nat
  step : Step
  word : PWord
  w : Nat
  rep : Nat
  slot : Nat

/-- A unit that a word acts on, or one copy of a transfer: its ordinal (R53), the stall, stable or bay that it is, and its
ordinal for a loft operand. -/
structure UnitRef where
  ord : Nat
  loftOrd : Nat
  flat : Nat
  stable : Nat
  bay : Nat
deriving DecidableEq, Repr

/-- Stalls of a stall word. -/
def Ctx.stallUnits (c : Ctx) : List UnitRef :=
  let flats := stallsOf c.S (kindStables c.stables c.step.prefill c.word.kind c.word.mask)
  let low := (minNat? flats).getD 0
  flats.map fun f => { ord := f - low, loftOrd := f % c.S, flat := f, stable := f / c.S, bay := 0 }

/-- Stables of a stable word. -/
def Ctx.stableUnits (c : Ctx) : List UnitRef :=
  let ss := maskStables c.stables c.word.mask
  let low := (minNat? ss).getD 0
  ss.map fun s => { ord := s - low, loftOrd := s - low, flat := 0, stable := s, bay := 0 }

/-- Units of a BAY word. -/
def Ctx.bayUnits (c : Ctx) (d : Dev) : List UnitRef :=
  (d.baysOf c.p c.word.mask).map fun n => { ord := n, loftOrd := n, flat := 0, stable := 0, bay := n }

/-- A shared unit, which uses the loft of the paddock's first stable (log entry 8). -/
def Ctx.sharedUnit (c : Ctx) : UnitRef := { ord := 0, loftOrd := 0, flat := 0, stable := c.stables.headD 0, bay := 0 }

/-- The one copy of a word that makes no copies by yard, stable or stall: ends in a stall's stores are those of the first stable's first stall (log
entry 8). -/
def Ctx.loneUnit (c : Ctx) : UnitRef := { c.sharedUnit with flat := c.stables.headD 0 * c.S }

def perStall (sp : Nat) : Bool := decide (sp ≤ 2)

/-- The stores of a stall: manger, trough, vector scratch and weight stream buffer. -/
def stallStore (sp : Nat) : Bool := perStall sp || sp = spWeights

/-- The copies of a transfer word (R563): per stall, per stable or per DMA engine, by the spaces of its ends. `mask` selects
paddock yards: every one for a word that is no DMA word. -/
def Ctx.copies (c : Ctx) (spaces : List Nat) (mask : Nat) : List UnitRef :=
  let ss := maskStables c.stables mask
  if spaces.any perStall then
    let flats := stallsOf c.S ss
    let low := (minNat? flats).getD 0
    flats.map fun f => { ord := f - low, loftOrd := f % c.S, flat := f, stable := f / c.S, bay := 0 }
  else if spaces.contains spLoft then
    let low := (minNat? ss).getD 0
    ss.map fun s => { ord := s - low, loftOrd := s - low, flat := 0, stable := s, bay := 0 }
  else
    (setBits 32 mask).filter (· < (yardsOf c.stables).length) |>.map fun y =>
      { ord := y, loftOrd := y, flat := 0, stable := 0, bay := 0 }

def allYards : Nat := 2 ^ 32 - 1

/-! ### Addresses -/

/-- Herd count of plan cycle `c`, after the frames held so far (R63, R64). -/
def Step.herdAt (s : Step) (c : Nat) : Nat := s.launch + ticksOfCycles (c + 256 * s.holdFrames)

/-- Base of the region that a BOUND descriptor names (R53, R68, R558). -/
def Step.boundBase (s : Step) (d : Desc) : Nat :=
  if d.bound then ((s.bound[d.binding]?).map (·.base)).getD 0 else 0

/-- A SPACE 11 address as a byte offset: channel and peer paddock apart from the offset in the channel's area (R405). -/
def droveLinear (a : Nat) : Nat := bitsOf a 0 22 * 2 ^ 33 + bitsOf a 32 32

/-- The address that descriptor `d` gives unit `u` (R53, R54). -/
def Ctx.addr (c : Ctx) (d : Desc) (u : UnitRef) : Nat :=
  let a := d.base + c.step.boundBase d + d.strideUnit * (if d.space = spLoft then u.loftOrd else u.ord) + d.strideRep * c.rep
  if d.space = spDrove then droveLinear a else a

/-- Key of a stack address in either form (R329, R330). -/
def stackKey (a : Nat) : Nat :=
  if a.testBit 40 then memKey spStack (bitsOf a 31 9) (bitsOf a 0 31)
  else memKey spStack (bitsOf a 37 3 * 64 + bitsOf a 6 6) (bitsOf a 12 25 * 64 + bitsOf a 0 6)

/-- Key of byte `a` of the window of bay `bay` (R137): the codebook store is one per stack. -/
def bayKey (bay a : Nat) : Nat :=
  if a < 0x10_0000 then memKey spBay bay a else memKey spCodebook (bay / 64) (a - 0x10_0000)

/-- Bytes of an allocation: under PC_LOCAL LENGTH is that of each pseudo-channel (R351). -/
def AllocEntry.bytes (a : AllocEntry) : Nat := if a.place = 1 then a.length * 64 * popCount 8 a.stackMask else a.length

/-- Placement of commons page `page`: tier and address (R354). Pages lie at their first placement until they are moved. -/
def Dev.commonsPlace (d : Dev) (page : Nat) : Option (Nat × Nat) :=
  match d.tiers.allocs.find? fun a => decide (a.entry.commons / 65536 ≤ page) && decide (page < (a.entry.commons + a.entry.bytes) / 65536) with
  | some a => (tget? (page - a.entry.commons / 65536) a.place).map fun x => (x.1, x.2)
  | none => none

/-- Key of the byte at commons address `a` in a page placed at (tier, address). -/
def placeKey (pl : Nat × Nat) (a : Nat) : Nat :=
  if pl.1 = spStack then stackKey (pl.2 + a % 65536) else memKey pl.1 0 (pl.2 + a % 65536)

/-- Key of an address of a shared space. `place` gives the placement of commons pages. -/
def Dev.sharedKey (d : Dev) (hostBase mergeBase sp a : Nat) : Nat :=
  if sp = spStack then stackKey a
  else if sp = spCommons then
    match d.commonsPlace (a / 65536) with
    | some pl => placeKey pl a
    | none => memKey spCommons 0 a
  else if sp = spHost then hostKey (hostBase + a)
  else if sp = spMerge then memKey spMerge 0 (mergeBase + a)
  else memKey sp 0 a

/-- Key of byte `a` of space `sp` as unit `u` of the word sees it. -/
def Ctx.key (c : Ctx) (d : Dev) (sp : Nat) (u : UnitRef) (a : Nat) : Nat :=
  if perStall sp then memKey sp u.flat a
  else if sp = spLoft then memKey spLoft u.stable a
  else if sp = spBay then (if c.word.kind = kBAY then bayKey u.bay a else bayKey (bitsOf a 21 9) (bitsOf a 0 21))
  else if sp = spCommons then
    -- the map that the step bound at its launch (R356)
    match tget? (a / 65536) c.step.commons with
    | some pl => placeKey pl a
    | none => d.sharedKey c.step.batch.window c.mergeBase sp a
  else d.sharedKey c.step.batch.window c.mergeBase sp a

/-- The stretches of keys of `n` bytes from the place that a descriptor gives unit `u`: granule by granule where a space is interleaved or placed by
page. -/
def Ctx.runsOf (c : Ctx) (dev : Dev) (d : Desc) (n : Nat) (u : UnitRef) : List (Nat × Nat) :=
  let a := c.addr d u
  if d.space = spDrove then []
  else if d.space = spStack || d.space = spCommons then
    (List.range (ceilDiv (a % 64 + n) 64)).map fun i =>
      let lo := max a (a / 64 * 64 + 64 * i)
      (c.key dev d.space u lo, min (a / 64 * 64 + 64 * i + 64) (a + n) - lo)
  else [(c.key dev d.space u a, n)]

/-- The stretches that descriptor `di` gives unit `u`. -/
def Ctx.stretches (c : Ctx) (dev : Dev) (di : Nat) (u : UnitRef) : List (Nat × Nat) :=
  match c.step.plan.desc? di with
  | none => []
  | some d => c.runsOf dev d d.length u

/-! ### Bay windows of others (R139) -/

/-- The bay that an address of a SPACE 4 end names, where the paddock does not hold it. -/
def Ctx.foreignBay (c : Ctx) (dev : Dev) (d : Desc) (u : UnitRef) : Option Nat :=
  if d.space = spBay && c.word.kind ≠ kBAY then
    (let n := bitsOf (c.addr d u) 21 9
     if dev.bayHolder n = some c.p then none else some n)
  else none

/-- The bays, among those that the ends `ds` of a copy name, that the paddock does not hold. -/
def Ctx.foreignEnds (c : Ctx) (dev : Dev) (ds : List Desc) (u : UnitRef) : List Nat := ds.filterMap fun d => c.foreignBay dev d u

/-- The bay in whose window key `k` lies, where paddock `p` does not hold it. The codebook store is one of 64 bays: it is foreign to a paddock
that holds none of them. -/
def Dev.foreignKey (d : Dev) (p k : Nat) : Option Nat :=
  if keySpace k = spBay then (if d.bayHolder (keyUnit k) = some p then none else some (keyUnit k))
  else if keySpace k = spCodebook then
    (if (List.range 64).any fun i => d.bayHolder (keyUnit k * 64 + i) = some p then none else some (keyUnit k * 64))
  else none

def countForeign (n : Nat) (w : W) : W := w.slots fun s => { s with foreign := nadd n 1 s.foreign }

/-! ### Reads of a step -/

/-- One byte as a word of the step sees it: what the step's earlier words wrote to a committed destination (R65), else memory. -/
def Ctx.peek (c : Ctx) (w : W) (k : Nat) : Byte :=
  match tget? k c.step.staged with
  | some b => b
  | none => w.peek k

/-- A word in the REPEAT of the word that posted the reads of `di` finds those of its own repetition; any other word finds those of the last one
that read the granule (R54, R349). -/
def Ctx.findsRep (c : Ctx) (di r : Nat) : Bool :=
  match c.step.plan.posterOf di with
  | some i => c.step.plan.inRepeat i ≠ c.step.plan.inRepeat c.w || r = c.rep
  | none => r = c.rep

/-- The repetition whose reads of granule `g` of source `di` the word finds, and whether they landed: the copy of the granule's first byte + 64,
or none where they missed. -/
def Ctx.posted (c : Ctx) (di g : Nat) : Option (Option Nat) :=
  let hits := (c.step.landed.filterMap fun l => if l.1 = di && l.2.2.1 = g && c.findsRep di l.2.1 then some (l.2.1, some l.2.2.2) else none) ++
    c.step.missed.filterMap fun m => if m.1 = di && m.2.2 = g && c.findsRep di m.2.1 then some (m.2.1, none) else none
  (hits.foldl (fun (a : Option (Nat × Option Nat)) x => match a with
    | some y => if y.1 < x.1 then some x else a
    | none => some x) none).map (·.2)

/-- The copy of a granule of a deadline source: landed elsewhere, missed (none: reads zeros), or in place (R58, R349, R374). -/
def Ctx.landedKey (c : Ctx) (di k : Nat) : Option Nat :=
  match c.posted di (k / 64 * 64) with
  | some (some l) => some (l + k % 64 - 64)
  | some none => none
  | none => some k

/-- `n` bytes of source descriptor `di`, from byte `off` of the area that unit `u` addresses. A bay that the paddock does not hold reads zeros
(R139). -/
def Ctx.read (c : Ctx) (w : W) (di : Nat) (u : UnitRef) (off n : Nat) : Bytes :=
  match c.step.plan.desc? di with
  | none => zeros n
  | some d =>
    let a := c.addr d u + off
    if (c.foreignBay w.dev d u).isSome then zeros n
    else (List.range n).map fun i =>
      let k := c.key w.dev d.space u (a + i)
      if d.deadlineSet then (match c.landedKey di k with | some j => c.peek w j | none => 0) else c.peek w k

def Ctx.readN (c : Ctx) (w : W) (di : Nat) (u : UnitRef) (off n : Nat) : Nat := ofLe (c.read w di u off n)

/-- Bytes by offset of an area, as numbers, for the element layouts of R116 and R117. -/
def Ctx.reader (c : Ctx) (w : W) (di : Nat) (u : UnitRef) (i : Nat) : Nat := ((c.read w di u i 1).headD 0).toNat

/-- Granule keys of the sources of a read in the stacks, barn memory, shed or commons. -/
def Ctx.granules (c : Ctx) (dev : Dev) (di : Nat) (u : UnitRef) : List Nat :=
  match c.step.plan.desc? di with
  | none => []
  | some d =>
    if decide (d.space < spStack) || decide (d.space > spCommons) then []
    else
      let a := c.addr d u
      (List.range (ceilDiv (a % 64 + d.length) 64)).map fun i => c.key dev d.space u (a / 64 * 64 + 64 * i)

/-! ### Writes of a step

A meaning of a word first makes its list of writes from what it reads, and these are applied together. A committed destination
(R65) stays with the step until its boundary; SPACE 9 is written during the step (R429). -/

/-- Bytes of DST at offset `off` for unit `u`, as (key, byte). -/
def Ctx.put (c : Ctx) (dev : Dev) (di : Nat) (u : UnitRef) (off : Nat) (b : Bytes) : List Host.Cell :=
  match c.step.plan.desc? di with
  | none => []
  | some d =>
    let a := c.addr d u + off
    (List.range b.length).map fun i => (c.key dev d.space u (a + i), b.getD i 0)

def pokeAll (ws : List Host.Cell) (w : W) : W := ws.foldl (fun a x => a.poke x.1 x.2) w

/-- Interleaved address of a key of the stacks (R330). -/
def stackAddr (k : Nat) : Nat :=
  let n := keyUnit k
  let p := keyOff k
  n / 64 * 2 ^ 37 + p / 64 * 4096 + n % 64 * 64 + p % 64

/-- Key `k` lies in commons page `page` as it is placed now. -/
def Dev.inPage (d : Dev) (page k : Nat) : Bool :=
  match d.commonsPlace page with
  | some (t, b) => keySpace k = t && (if t = spStack then stackAddr k else keyOff k) / 65536 = b / 65536
  | none => false

/-- A write into memory clears the failing check of the granules it touches (R333) and marks a page that is being copied dirty (R357). -/
def W.wrote (ws : List Host.Cell) (w : W) : W :=
  let w := if w.dev.tiers.badGranules.isEmpty then w
    else w.tiers fun t => { t with badGranules := t.badGranules.filter fun g => !ws.any fun x => decide (x.1 / 64 * 64 = g) }
  if w.dev.tiers.migrations.isEmpty then w
  else
    let d := w.dev
    w.tiers fun t => { t with migrations := t.migrations.map fun m =>
      if m.place.isSome && ws.any fun x => d.inPage m.page x.1 then { m with dirty := true } else m }

/-- The granule at key `k` fails its check: it was lost, or it lies in a pseudo-channel, barn channel or shed channel under a standing
fence (R333, R342, R446). -/
def Dev.granuleBad (d : Dev) (k : Nat) : Bool :=
  d.tiers.badGranules.contains (k / 64 * 64) ||
  (!d.faults.standing.isEmpty &&
    (if keySpace k = spStack then d.faults.standing.contains (4 * 2 ^ 56 + keyUnit k)
     else if keySpace k = spBarn then d.faults.standing.contains (5 * 2 ^ 56 + bitsOf (keyOff k) 6 5)
     else if keySpace k = spShed then d.faults.standing.contains (6 * 2 ^ 56 + keyOff k / 4096 % d.boot.part.shedChannels)
     else false))

/-- Failing granules among those read (R151, R333). -/
def failing (d : Dev) (gs : List Nat) : List Nat := if d.tiers.badGranules.isEmpty && d.faults.standing.isEmpty then [] else gs.filter d.granuleBad

/-- Failing granules among those that a word reads: a page retired since the launch fails as it did (R341). -/
def Ctx.failing (c : Ctx) (d : Dev) (gs : List Nat) : List Nat :=
  if c.step.oldBad.isEmpty then Machine.failing d gs else gs.filter fun k => d.granuleBad k || c.step.oldBad.contains (k / 64 * 64)

/-- Mapping granules of the shed that writes touch. -/
def shedGranules (ws : List Host.Cell) : List Nat := sortNat ((ws.filter fun x => keySpace x.1 = spShed).map fun x => keyOff x.1 / 4096)

/-- Changes every outstanding storage command. -/
def W.storageCmds (f : StorageCmd → StorageCmd) (w : W) : W :=
  w.shed fun s => { s with queues := s.queues.map fun (x : Nat × Queue) => (x.1, { x.2 with out := x.2.out.map f }) }

/-- READs accepted before place `n` that still wait for granule `g` will return what stands there now (R381). -/
def W.keepReads (n g : Nat) (w : W) : W :=
  let waits := fun (c : StorageCmd) => c.op = 1 && decide (c.seq < n) && c.todo.contains g && !c.saved.any fun x => x.1 = g
  if w.dev.shed.queues.any fun x => x.2.out.any waits then
    let k := memKey spShed 0 (g * 4096)
    let old := (g, w.peeks k 4096, failing w.dev ((List.range 64).map fun i => k + 64 * i))
    w.storageCmds fun c => if waits c then { c with saved := old :: c.saved } else c
  else w

/-- Puts effects on shed granules into the write buffer at place `n` of the acceptance order (R378, R381). -/
def W.bufferAs (n : Nat) (gs : List Nat) (discard : Bool) (w : W) : W :=
  let new := gs.map fun g => Buffered.mk g n discard (w.peeks (memKey spShed 0 (g * 4096)) 4096)
  if gs.isEmpty then w else W.each gs (W.keepReads n) (w.shed fun s => { s with buffer := s.buffer ++ new })

/-- Place in the acceptance order: by herd count, then by queue number, then in the order of fetching; writes of the device's own come after the
storage commands of their herd tick (R378, R379, R385). -/
def Shed.place (s : Shed) (h q : Nat) : Nat := (h * 16 + q) * 2 ^ 32 + s.nextSeq % 2 ^ 32

/-- The same at the next place, for a write of the device's own. -/
def W.buffer (gs : List Nat) (w : W) : W :=
  if gs.isEmpty then w
  else (w.bufferAs (w.dev.shed.place w.herd 15) gs false).shed fun s => { s with nextSeq := s.nextSeq + 1 }

/-- Writes into memory, with all that follows from them. -/
def W.store (ws : List Host.Cell) (w : W) : W := (pokeAll ws (w.buffer (shedGranules ws))).wrote ws

/-- A fence stands around paddock `p` (R443). -/
def Dev.fenced (d : Dev) (p : Nat) : Bool := d.faults.fences.any fun f => f.1 = p

/-- Spaces that the paddocks share: the stacks, barn memory, the shed, the commons, host memory and the merge store. -/
def sharedSpace (sp : Nat) : Bool := decide (spStack ≤ sp) && decide (sp ≤ spMerge)

/-- What a step sees at a key: what it has staged, else memory. -/
def Step.peek (s : Step) (w : W) (k : Nat) : Byte :=
  match tget? k s.staged with
  | some b => b
  | none => w.peek k

/-- The stretches of consecutive keys that cells fill, as (key, length). -/
def runs (ws : List Host.Cell) : List (Nat × Nat) :=
  ws.foldl (fun a x => match a with
    | (k, n) :: r => if x.1 = k + n then (k, n + 1) :: r else (x.1, 1) :: a
    | [] => [(x.1, 1)]) []

def runsMeet (a b : Nat × Nat) : Bool := decide (a.1 < b.1 + b.2) && decide (b.1 < a.1 + a.2)

/-- What is left outside `r` of a stretch that is not present yet. -/
def cutRun (r : Nat × Nat) (x : Nat × Nat × Option Nat) : List (Nat × Nat × Option Nat) :=
  if !runsMeet r (x.1, x.2.1) then [x]
  else
    (if x.1 < r.1 then [(x.1, r.1 - x.1, x.2.2)] else []) ++
    (if r.1 + r.2 < x.1 + x.2.1 then [(r.1 + r.2, x.1 + x.2.1 - (r.1 + r.2), x.2.2)] else [])

/-- Stretches that something has written are present, and hold no zeros of a miss (R57, R236). -/
def Step.filled (rs : List (Nat × Nat)) (s : Step) : Step :=
  if s.unready.isEmpty && s.zeroed.isEmpty then s
  else
    let cut := fun (u : List (Nat × Nat × Option Nat)) => rs.foldl (fun u r => (u.map (cutRun r)).flatten) u
    { s with unready := cut s.unready, zeroed := (cut (s.zeroed.map fun x => (x.1, x.2, none))).map fun x => (x.1, x.2.1) }

/-- Stretches that are present from cycle `ready` on, or once something has written them. -/
def Step.awaits (ready : Option Nat) (rs : List (Nat × Nat)) (s : Step) : Step :=
  { s.filled rs with unready := (rs.map fun r => (r.1, r.2, ready)) ++ (s.filled rs).unready }

/-- A read from barn memory that is posted and has not arrived keeps the bytes that stand before a later write of the step (R347). -/
def W.captureReads (p : Nat) (ws : List Host.Cell) (w : W) : W :=
  match w.dev.step? p with
  | none => w
  | some s =>
    let hit := fun (x : Posted) => keySpace x.src = spBarn && x.data.isNone && ws.any fun y => decide (y.1 / 64 * 64 = x.src)
    if !s.posted.any hit then w
    else w.step p fun s' => { s' with
      posted := s'.posted.map fun x => if hit x then { x with data := some ((List.range x.len).map fun i => s.peek w (x.src + x.skip + i)) } else x }

/-- Leaves bytes for a step: staged where their destination is committed, else in memory. -/
def W.leaveBytes (p : Nat) (stage : Bool) (ws : List Host.Cell) (w : W) : W :=
  let w := (w.captureReads p ws).step p (Step.filled (runs ws))
  if stage then w.step p fun s => { s with staged := ws.reverse ++ s.staged } else w.store ws

/-- Cells of consecutive keys, joined: the first key and the bytes. -/
def cellRuns (ws : List Host.Cell) : List (Nat × Bytes) :=
  ws.foldr (fun x a => match a with
    | (k, b) :: r => if x.1 + 1 = k then (x.1, x.2 :: b) :: r else (x.1, [x.2]) :: a
    | [] => [(x.1, [x.2])]) []

/-- Sends the writes of a word to the host, in the order of deadlines and then paddocks; data without a deadline is due at once (R429; the last: DEDUCED,
log entry 137). -/
def Ctx.sendHost (c : Ctx) (d : Desc) (ws : List Host.Cell) (w : W) : W :=
  let due := if d.deadlineSet then c.step.herdAt (d.deadline + c.rep * (c.step.plan.repeatOf c.w).2) else w.herd
  let w := w.step c.p fun s => { Step.filled (runs ws) s with hostOut := ws.reverse ++ s.hostOut }
  W.each (cellRuns ws) (fun x w => w.writeHost clHostOut (due * 64 + c.p) (keyOff x.1) x.2) w

/-- Applies the writes of a word to its destination `di`. Under a fence nothing leaves the paddock for the host or a shared store (R443). -/
def Ctx.apply (c : Ctx) (di : Nat) (ws : List Host.Cell) (w : W) : W :=
  match c.step.plan.desc? di with
  | none => w
  | some d =>
    if sharedSpace d.space && w.dev.fenced c.p then w
    else if d.space = spHost then c.sendHost d ws w
    else w.leaveBytes c.p d.commit ws

/-! ### CRCs of committed granules (R80) -/

/-- CRC-32C of `b` after the bytes whose CRC-32C is `c`. -/
def crcAfter (c : Nat) (b : Bytes) : Nat := (b.foldl (crcByte 0x82F6_3B78) (c ^^^ 0xFFFF_FFFF)) ^^^ 0xFFFF_FFFF

/-- Address of a granule as the digest takes it: its byte address in its space, interleaved in the stacks (log entry 23). -/
def digestAddr (k : Nat) : Nat := (if keySpace k = spStack then stackAddr k else keyOff k) % 2 ^ 64

/-- Continues the CRC of unit `writer` over the granule at key `k`. The map holds each CRC plus one: a unit that has written nothing is not in it. -/
def crcGranule (peek : Nat → Byte) (writer k : Nat) (m : NMap) : NMap :=
  nput writer (1 + crcAfter (nget m writer - 1) (leBytes 8 (digestAddr k) ++ (List.range 64).map fun i => peek (k + i))) m

end Sys2Proof.Machine
end

