-- ==== Sys2Proof/Machine/Flags.lean ====
section
/-! DEFINITION. The sticky flags and counts of a step: overflow flags, guard flags and their counts (R120, R122, R125, R126, R150). -/

namespace Sys2Proof.Machine

/-- An FP32 accumulator that is an infinity or NaN sets OVF_ACC (R120). -/
def accOverflowed (v : Nat) : Bool := f32IsNaN v || f32IsInf v

def addAll (l : List Nat) (into : List Nat) : List Nat := l.foldl (fun a x => insertNat x a) into

/-- Sets OVF_ACC on the stalls `l` (R120). -/
def Step.addOvfAcc (l : List Nat) (s : Step) : Step := { s with ovfAcc := addAll l s.ovfAcc }

/-- Sets OVF_CVT on the stalls `l` (R120). -/
def Step.addOvfCvt (l : List Nat) (s : Step) : Step := { s with ovfCvt := addAll l s.ovfCvt }

/-- Guard flag `g` of stall `flat` (R122). -/
def Step.guardSet (s : Step) (flat g : Nat) : Bool := s.guards.contains (flat * 256 + g)

/-- A guarded pass has issued: flag `g` of each of its stalls takes the value found there (R122). -/
def Step.setGuards (g : Nat) (found : List (Nat × Bool)) (s : Step) : Step :=
  let keys := found.map fun f => f.1 * 256 + g
  let kept := s.guards.filter fun k => !keys.contains k
  { s with guards := addAll ((found.filter (·.2)).map fun f => f.1 * 256 + g) kept }

/-- Entry of the GUARDS section that names word `w` as its guarded pass. -/
def Plan.guardOf (p : Plan) (w : Nat) : Option (Nat × GuardEntry) := findIdxFrom (fun g => g.guard ≠ 0 && g.word = w) 0 p.guards

/-- The step policy entry (R123). -/
def Plan.policy (p : Plan) : Option GuardEntry := p.guards.find? (·.guard = 0)

/-- OVF_REJECT fires at the boundary: the policy asks for it and an overflow flag is set on any stall or bay (R126, R150). -/
def Step.ovfRejects (s : Step) : Bool :=
  match s.plan.policy with
  | some g => g.flags.testBit 1 && (!s.ovfAcc.isEmpty || !s.ovfCvt.isEmpty || !s.bayOvf.isEmpty)
  | none => false

end Sys2Proof.Machine
end

