-- ==== Sys2Proof/Machine/Philox.lean ====
section
/-! DEFINITION. Philox4×32-10 and the counter fields of R75 and R76. -/

namespace Sys2Proof.Machine

/-- One round on counter words (x0, x1, x2, x3) under key (k0, k1). -/
def philoxRound (x : Nat × Nat × Nat × Nat) (k : Nat × Nat) : Nat × Nat × Nat × Nat :=
  let p0 := 0xD251_1F53 * x.1
  let p1 := 0xCD9E_8D57 * x.2.2.1
  ((p1 / 2 ^ 32 ^^^ x.2.1) ^^^ k.1, p1 % 2 ^ 32, (p0 / 2 ^ 32 ^^^ x.2.2.2) ^^^ k.2, p0 % 2 ^ 32)

def philoxLoop : Nat → Nat × Nat × Nat × Nat → Nat × Nat → Nat × Nat × Nat × Nat
  | 0, x, _ => x
  | n + 1, x, k => philoxLoop n (philoxRound x k) ((k.1 + 0x9E37_79B9) % 2 ^ 32, (k.2 + 0xBB67_AE85) % 2 ^ 32)

/-- The four words of one evaluation (R74). -/
def philox (key counter : Nat) : List Nat :=
  let x := philoxLoop 10 (bitsOf counter 0 32, bitsOf counter 32 32, bitsOf counter 64 32, bitsOf counter 96 32)
    (bitsOf key 0 32, bitsOf key 32 32)
  [x.1, x.2.1, x.2.2.1, x.2.2.2]

abbrev purposeSampling := 1
abbrev purposeRounding := 2

/-- The counter of R75. -/
def philoxCounter (purpose stream position draw : Nat) : Nat :=
  purpose % 256 * 2 ^ 120 + stream % 2 ^ 40 * 2 ^ 64 + position % 2 ^ 32 * 2 ^ 32 + draw % 2 ^ 32

/-- Word `i` of the draw `d`. -/
def drawWord (key purpose stream position d i : Nat) : Nat := (philox key (philoxCounter purpose stream position d)).getD i 0

/-- The 16-bit draw of element `e` of a conversion by the stall of flat number `flat` at effective slot `slot` (R131). -/
def roundingDraw (seed flat slot e : Nat) : Nat :=
  bitsOf (drawWord seed purposeRounding flat slot (e / 8) (e % 8 / 2)) (16 * (e % 2)) 16

end Sys2Proof.Machine
end

