-- ==== Sys2Proof/Machine/TextRules.lean ====
section
/-! DEFINITION. Tokenizer tables, UTF-8 and tokenizing, the length limit, stop strings and holding, grammar images and their masks
(R252 to R277), as functions of bytes. -/

namespace Sys2Proof.Machine

/-! ### Tokenizer tables (R252, R253) -/

/-- The table image's fields by name. -/
def tokId (b : Bytes) : Nat := fld b 0x08 8
def tokVocab (b : Bytes) : Nat := fld b 0x10 4
def tokByteBase (b : Bytes) : Nat := fld b 0x14 4
def tokUnk (b : Bytes) : Nat := fld b 0x18 4
def tokEos (b : Bytes) : Nat := fld b 0x1C 4
def tokPad (b : Bytes) : Nat := fld b 0x2C 4
def tokMark (b : Bytes) : Nat := fld b 0x30 4
def tokMaxLen (b : Bytes) : Nat := fld b 0x34 2

/-- KIND of token `t`: 0 NORMAL, 1 BYTE, 2 SPECIAL, 3 UNUSED. -/
def tokKind (b : Bytes) (t : Nat) : Nat := fld b (fld b 0x38 4 + 8 * t + 5) 1
def tokLen (b : Bytes) (t : Nat) : Nat := fld b (fld b 0x38 4 + 8 * t + 4) 1
/-- String of token `t`. -/
def tokString (b : Bytes) (t : Nat) : Bytes := slice b (fld b 0x3C 4 + fld b (fld b 0x38 4 + 8 * t) 4) (tokLen b t)

/-! ### UTF-8 (R255) -/

/-- Ranges of the bytes that follow lead byte `b` in a well-formed sequence; none for a byte that starts none. -/
def utf8Tail (b : Nat) : Option (List (Nat × Nat)) :=
  let c := (0x80, 0xBF)
  if b < 0x80 then some []
  else if b < 0xC2 then none
  else if b < 0xE0 then some [c]
  else if b = 0xE0 then some [(0xA0, 0xBF), c]
  else if b = 0xED then some [(0x80, 0x9F), c]
  else if b < 0xF0 then some [c, c]
  else if b = 0xF0 then some [(0x90, 0xBF), c, c]
  else if b < 0xF4 then some [c, c, c]
  else if b = 0xF4 then some [(0x80, 0x8F), c, c]
  else none

/-- What stands at the front of a text: a character, a maximal subpart that the next byte breaks off, or a prefix of a well-formed
sequence that the end of the text breaks off; with its length. -/
inductive Seg where
  | char (n : Nat)
  | bad (n : Nat)
  | part (n : Nat)
deriving DecidableEq, Repr

def segTail : List (Nat × Nat) → Bytes → Nat → Seg
  | [], _, n => .char n
  | _ :: _, [], n => .part n
  | r :: rs, b :: bs, n => if decide (r.1 ≤ b.toNat) && decide (b.toNat ≤ r.2) then segTail rs bs (n + 1) else .bad n

def segAt : Bytes → Seg
  | [] => .part 0
  | b :: bs => match utf8Tail b.toNat with
    | none => .bad 1
    | some t => segTail t bs 1

def Seg.len : Seg → Nat
  | .char n | .bad n | .part n => n

/-- A text cut into characters, maximal subparts and the incomplete rest. `fuel` is the number of its bytes. -/
def segments : Nat → Bytes → List (Seg × Bytes)
  | 0, _ => []
  | _ + 1, [] => []
  | fuel + 1, b :: bs =>
    let s := segAt (b :: bs)
    (s, (b :: bs).take s.len) :: segments fuel ((b :: bs).drop s.len)

def Seg.isChar : Seg → Bool
  | .char _ => true
  | _ => false

def Seg.isPart : Seg → Bool
  | .part _ => true
  | _ => false

def utf8Valid (b : Bytes) : Bool := (segments b.length b).all fun s => s.1.isChar

/-- The valid but incomplete sequence at the end of a text, of at most 3 bytes (R257, R267). -/
def incompleteTail (b : Bytes) : Bytes :=
  match (segments b.length b).getLast? with
  | some s => if s.1.isPart then s.2 else []
  | none => []

/-! ### The load check of a table (R253) -/

def tokIndices (b : Bytes) : List Nat := List.range (tokVocab b)

def bytesDistinct : List Bytes → Bool
  | [] => true
  | x :: r => !r.contains x && bytesDistinct r

def tableOk (b : Bytes) : Bool :=
  let v := tokVocab b
  let eo := fld b 0x38 4
  let so := fld b 0x3C 4
  let sl := fld b 0x40 4
  let specials := [tokUnk b, tokEos b, fld b 0x20 4, fld b 0x24 4, fld b 0x28 4, tokPad b, tokMark b]
  let normals := (tokIndices b).filter fun t => tokKind b t = 0
  decide (128 ≤ b.length) && fld b 0 4 = 0x4B4F_544E && fld b 4 2 = 1 && fld b 6 2 = 0 && fld b 0x36 2 = 0
  && allZero (slice b 0x68 24) && fld b 0x44 4 = b.length && decide (b.length ≤ 24 * 2 ^ 20) && decide (sl ≤ 16 * 2 ^ 20)
  && decide (512 ≤ v) && decide (v ≤ 262144) && decide (1 ≤ tokMaxLen b) && decide (tokMaxLen b ≤ 128)
  && decide (eo + 8 * v ≤ b.length) && decide (so + sl ≤ b.length)
  && sha3 (b.take 0x48 ++ zeros 32 ++ b.drop 0x68) == slice b 0x48 32
  && decide (tokByteBase b + 256 ≤ v) && specials.all (fun t => decide (t < v) && tokKind b t = 2 && tokLen b t = 0)
  && (tokIndices b).all (fun t =>
      decide (tokKind b t ≤ 3) && decide (tokLen b t ≤ 128) && fld b (eo + 8 * t + 6) 2 = 0
      && decide (fld b (eo + 8 * t) 4 + tokLen b t ≤ sl)
      && (tokKind b t = 0 || tokKind b t = 1 || tokLen b t = 0))
  && (List.range 256).all (fun i => let t := tokByteBase b + i
      tokKind b t = 1 && tokLen b t = 1 && tokString b t == [BitVec.ofNat 8 i])
  && normals.all (fun t => decide (1 ≤ tokLen b t) && decide (tokLen b t ≤ tokMaxLen b) && utf8Valid (tokString b t))
  && bytesDistinct (normals.map (tokString b))

/-! ### Tokenizing (R256, R258) -/

/-- The longest NORMAL string that the text begins with, as (token, length). -/
def longestMatch (b : Bytes) (text : Bytes) : Option (Nat × Nat) :=
  (tokIndices b).foldl (fun best t =>
    if tokKind b t = 0 && (tokString b t).isPrefixOf text && decide ((match best with | some x => x.2 | none => 0) < tokLen b t) then
      some (t, tokLen b t)
    else best) none

/-- Tokens of a text whose invalid parts stand as they are; an invalid part gives the byte token of each of its bytes. -/
def matchTokens (b : Bytes) : Nat → Bytes → List Nat
  | 0, _ => []
  | _ + 1, [] => []
  | fuel + 1, x :: xs =>
    let text := x :: xs
    let s := segAt text
    let bytes := fun n => (text.take n).map fun y => tokByteBase b + y.toNat
    if s.isChar then
      match longestMatch b text with
      | some (t, n) => t :: matchTokens b fuel (text.drop n)
      | none => bytes s.len ++ matchTokens b fuel (text.drop s.len)
    else bytes s.len ++ matchTokens b fuel (text.drop s.len)

/-- Tokens of `text`, its carry, and INVALID of R260. -/
def tokenizeText (b : Bytes) (replace final : Bool) (text : Bytes) : List Nat × Bytes × Nat :=
  let carry := if final then [] else incompleteTail text
  let body := text.take (text.length - carry.length)
  let segs := segments body.length body
  let bad := segs.filter fun s => !s.1.isChar
  if replace then
    let t := (segs.map fun s => if s.1.isChar then s.2 else [0xEF, 0xBF, 0xBD]).flatten
    (matchTokens b t.length t, carry, bad.length)
  else (matchTokens b body.length body, carry, sumNat (bad.map fun s => s.2.length))

/-- The length limit of R264: the kept tokens and REMOVED. -/
def lengthLimit (c protect mark : Nat) (toks : List Nat) : List Nat × Nat :=
  let n := toks.length
  if n ≤ c then (toks, 0)
  else (toks.take protect ++ [mark] ++ toks.drop (n - (c - protect - 1)), n - c + 1)

/-! ### Detokenizing (R266, R267) -/

/-- The bytes of a committed token; a stop token gives nothing. -/
def tokenBytes (b : Bytes) (stops : List Nat) (t : Nat) : Bytes :=
  if stops.contains t || decide (tokVocab b ≤ t) then [] else if tokKind b t ≤ 1 then tokString b t else []

/-- Ends of the occurrences of `s` in `text` that lie beyond `from_`, first first. -/
def matchEnds (s text : Bytes) (from_ : Nat) : List Nat :=
  (List.range (text.length + 1)).filter fun e =>
    decide (from_ < e) && decide (s.length ≤ e) && decide (0 < s.length) && (text.drop (e - s.length)).take s.length == s

/-- The winning stop match in pending bytes of which the last ones, from `held` on, are new: (end, length, index). -/
def stopMatch (stops : List Bytes) (pending : Bytes) (held : Nat) : Option (Nat × Nat × Nat) :=
  let cands := ((List.range stops.length).map fun i =>
    (matchEnds (stops.getD i []) pending held).map fun e => (e, (stops.getD i []).length, i)).flatten
  cands.foldl (fun best c =>
    match best with
    | none => some c
    | some x => if decide (c.1 < x.1) || (c.1 = x.1 && decide (x.2.1 < c.2.1)) then some c else some x) none

/-- Length of the longest suffix of `pending` that is a proper prefix of a stop string. -/
def stopPrefixTail (stops : List Bytes) (pending : Bytes) : Nat :=
  maxNat ((List.range 64).filter fun n =>
    decide (n ≤ pending.length) && stops.any fun s => decide (n < s.length) && s.take n == pending.drop (pending.length - n))

/-- What the detokenizer makes of the pending bytes: the chunk's bytes, the bytes it withholds and the stop string matched. -/
def detokenize (stops : List Bytes) (includeStop : Bool) (held new : Bytes) (ends : Bool) : Bytes × Bytes × Option Nat :=
  let pending := held ++ new
  match stopMatch stops pending held.length with
  | some (e, n, i) => (pending.take (if includeStop then e else e - n), [], some i)
  | none =>
    if ends then (pending, [], none)
    else
      let keep := max (stopPrefixTail stops pending) (incompleteTail pending).length
      (pending.take (pending.length - keep), pending.drop (pending.length - keep), none)

/-! ### Grammar images (R270, R271) -/

def gramId (b : Bytes) : Nat := fld b 0x08 8
def gramTable (b : Bytes) : Nat := fld b 0x10 8
def gramStates (b : Bytes) : Nat := fld b 0x18 4
def gramRanges (b : Bytes) : Nat := fld b 0x1C 4
def gramStart (b : Bytes) : Nat := fld b 0x20 4
def gramStackMax (b : Bytes) : Nat := fld b 0x24 1
def gramExitMax (b : Bytes) : Nat := fld b 0x25 1
def gramRangeMax (b : Bytes) : Nat := fld b 0x26 2

structure GRange where
  lo : Nat
  hi : Nat
  next : Nat
  action : Nat
  ret : Nat
  resv : Nat
deriving DecidableEq, Repr

def gramRange (b : Bytes) (i : Nat) : GRange :=
  let e := slice b (fld b 0x2C 4 + 16 * i) 16
  { lo := fld e 0 4, hi := fld e 4 4, next := fld e 8 3, action := fld e 11 1, ret := fld e 12 3, resv := fld e 15 1 }

def gramEntry (b : Bytes) (s : Nat) : Bytes := slice b (fld b 0x28 4 + 8 * s) 8
def gramExit (b : Bytes) (s : Nat) : Bool := (fld (gramEntry b s) 6 2).testBit 0

def gramStateRanges (b : Bytes) (s : Nat) : List GRange :=
  (List.range (fld (gramEntry b s) 4 2)).map fun i => gramRange b (fld (gramEntry b s) 0 4 + i)

/-- Ranges ascending and disjoint, each with LO at most HI. -/
def rangesAscend : List GRange → Bool
  | [] => true
  | [r] => decide (r.lo ≤ r.hi)
  | r :: q :: rs => decide (r.lo ≤ r.hi) && decide (r.hi < q.lo) && rangesAscend (q :: rs)

/-- The load check; `vocab` is that of the table that TABLE_ID names. -/
def grammarOk (b : Bytes) (vocab : Nat) : Bool :=
  let n := gramStates b
  decide (96 ≤ b.length) && fld b 0 4 = 0x4D52_4747 && fld b 4 2 = 1 && fld b 6 2 = 0 && decide (n ≤ 1048576)
  && decide (1 ≤ gramStackMax b) && decide (gramStackMax b ≤ 64) && decide (gramExitMax b ≤ 8)
  && decide (1 ≤ gramRangeMax b) && decide (gramRangeMax b ≤ 4096) && fld b 0x30 4 = b.length && decide (b.length ≤ 32 * 2 ^ 20)
  && allZero (slice b 0x54 12) && sha3 (b.take 0x34 ++ zeros 32 ++ b.drop 0x54) == slice b 0x34 32
  && decide (fld b 0x28 4 + 8 * n ≤ b.length) && decide (fld b 0x2C 4 + 16 * gramRanges b ≤ b.length)
  && decide (gramStart b < n)
  && (List.range n).all (fun s =>
      decide (fld (gramEntry b s) 0 4 + fld (gramEntry b s) 4 2 ≤ gramRanges b) && decide (fld (gramEntry b s) 6 2 ≤ 1)
      && rangesAscend (gramStateRanges b s))
  && (List.range (gramRanges b)).all (fun i => let r := gramRange b i
      decide (r.hi < vocab) && decide (r.next < n) && decide (r.ret < n) && decide (r.action ≤ 3) && r.resv = 0)

/-! ### Chains, masks and transitions (R273, R274) -/

/-- The chain of a context, as states with their numbers `i`. -/
def gramChain (b : Bytes) (exitMax : Nat) : Nat → Nat → List Nat → List (Nat × Nat)
  | i, s, [] => [(i, s)]
  | i, s, r :: rs => if gramExit b s && decide (i < exitMax) then (i, s) :: gramChain b exitMax (i + 1) r rs else [(i, s)]

/-- The chain's ranges in chain order, cut at RANGE_MAX, and whether more exist. -/
def chainRanges (b : Bytes) (g : GContext) : List (Nat × GRange) × Bool :=
  let all := ((gramChain b (gramExitMax b) 0 g.state g.stack).map fun c => (gramStateRanges b c.2).map fun r => (c.1, r)).flatten
  (all.take (gramRangeMax b), decide (gramRangeMax b < all.length))

/-- The transition of range `r` of chain state `i` is possible. -/
def transitionPossible (b : Bytes) (g : GContext) (i : Nat) (r : GRange) : Bool :=
  !(r.action = 1 && g.stack.length - i = gramStackMax b) && !(r.action = 2 && g.stack.length - i = 0)

/-- The transition that token `t` takes, if it is allowed. -/
def transitionOf (b : Bytes) (g : GContext) (t : Nat) : Option (Nat × GRange) :=
  (chainRanges b g).1.find? fun x => decide (x.2.lo ≤ t) && decide (t ≤ x.2.hi) && transitionPossible b g x.1 x.2

/-- The context after token `t`; a token that is not allowed leaves it. -/
def applyToken (b : Bytes) (g : GContext) (t : Nat) : GContext :=
  match transitionOf b g t with
  | none => g
  | some (i, r) =>
    let st := g.stack.drop i
    if r.action = 0 then { g with state := r.next, stack := st }
    else if r.action = 1 then { g with state := r.next, stack := r.ret :: st }
    else if r.action = 2 then { g with state := st.headD g.state, stack := st.drop 1 }
    else { g with stack := st }

/-- Whether token `t` takes an END transition. -/
def endsGrammar (b : Bytes) (g : GContext) (t : Nat) : Bool :=
  match transitionOf b g t with
  | some (_, r) => r.action = 3
  | none => false

def allowed (b : Bytes) (g : GContext) (t : Nat) : Bool := (transitionOf b g t).isSome

/-- Bytes of a bitmap of `n` bytes whose bit `t` is `p t`. -/
def bitmap (n : Nat) (p : Nat → Bool) : Bytes :=
  (List.range n).map fun i => BitVec.ofNat 8 (bitMask ((List.range 8).filter fun j => p (8 * i + j)))

/-! ### Loaded versions (R254, R272) -/

/-- The version current of a table identity. -/
def Serve.currentTable (v : Serve) (id : Nat) : Option TokTable := v.tables.find? fun t => t.tableId = id && t.current
def Serve.tableAt (v : Serve) (id ver : Nat) : Option TokTable := v.tables.find? fun t => t.tableId = id && t.version = ver
def Serve.currentGrammar (v : Serve) (id : Nat) : Option Grammar := v.grammars.find? fun g => g.grammarId = id && g.current
def Serve.grammarAt (v : Serve) (id ver : Nat) : Option Grammar := v.grammars.find? fun g => g.grammarId = id && g.version = ver

end Sys2Proof.Machine
end

