-- ==== Sys2Proof/Machine/Stalls.lean ====
section
/-! DEFINITION. The words of a stall: PASS on its array, VEC, SELECT8 and RANDOM on its vector unit (R82 to R105, R118 to R126, R561,
R562). Each has its load check, its duration and its meaning. -/

namespace Sys2Proof.Machine

/-! ### PASS -/

/-- q and f of R84 for weight and input formats, if the pair is one of R107. -/
def feedRate (fw fa : Nat) : Option (Nat × Nat) :=
  let plain := fun f => fmtIs4 f || fmtIs8 f || f = fBF16
  if fw = fBIN && fa = fBIN then some (8, 1)
  else if fw = fN2 && fmtIs4 fa then some (2, 1)
  else if plain fw && plain fa then
    (let w := max (fmtBits fw) (fmtBits fa)
     some (1, if w = 4 then 1 else if w = 8 then 2 else 4))
  else none

/-- Bytes that the metadata of an input area of K k-values and T tiles takes (R116). -/
def inputMeta (f K T : Nat) : Nat :=
  if fmtIs4 f then (ceilDiv K 16 + ceilDiv K 64) * T * 24 else if fmtIs8 f then ceilDiv K 32 * T * 48 else 0

structure PassShape where
  bank : Nat
  tiles : Nat
  add : Bool
  k : Nat
  q : Nat
  f : Nat
deriving DecidableEq, Repr

/-- Bytes of an input area with its metadata (R85). -/
def inputArea (a : Desc) (tiles : Nat) : Nat := a.length + inputMeta a.fmt (a.length / (tiles * 3 * fmtBits a.fmt)) tiles

/-- The shape of a pass from its descriptors, if they meet R85, R90 and R107. DST's BASE alone gives the banks: its STRIDE_UNIT and STRIDE_REP
are read by nothing (DESIGN CHOICE: log entry 116). -/
def passShape (dst a b : Desc) : Option PassShape :=
  let bank := dst.base % 4
  let tiles := dst.base / 4 % 4 + 1
  let w := fmtBits a.fmt
  match feedRate b.fmt a.fmt with
  | none => none
  | some (q, f) =>
    let k := a.length / (tiles * 3 * w)
    let acc := if b.fmt = fBIN then fACCI else fACC32
    if dst.space = spTrough && decide (dst.base < 32) && decide (bank + tiles ≤ 4) && dst.length = tiles * 2304 && dst.format = acc
        && a.space = spManger && a.base % 64 = 0 && a.length = k * tiles * 3 * w && k % 64 = 0 && decide (0 < k)
        && decide (a.base + inputArea a tiles ≤ 24576)
        && [spLoft, spBay, spStack, spBarn, spCommons].contains b.space && b.length = k / groupK b.fmt * groupSize b.fmt
        && decide (k / q * tiles * f ≤ 4096) then
      some { bank := bank, tiles := tiles, add := dst.base.testBit 4, k := k, q := q, f := f }
    else none

/-- D of R90. -/
def PassShape.duration (s : PassShape) : Nat := s.k / s.q * s.tiles * s.f

def passOf (p : Plan) (w : PWord) : Option (PassShape × Desc × Desc × Desc) :=
  match p.desc? w.dst, p.desc? w.srca, p.desc? w.srcb with
  | some dst, some a, some b => (passShape dst a b).map fun s => (s, dst, a, b)
  | _, _, _ => none

/-- Input element of k-value `k`, tile `m`, row `i` of stall `u`, as fetched. -/
def passInput (c : Ctx) (w : W) (s : PassShape) (fa : Nat) (u : UnitRef) (k m i : Nat) : Fetched :=
  fetchElem fa (c.reader w c.word.srca u) (fun k => inputPlace fa s.k s.tiles k m i) k

def passWeight (c : Ctx) (w : W) (fb : Nat) (u : UnitRef) (k j : Nat) : Fetched :=
  fetchElem fb (c.reader w c.word.srcb u) (fun k => weightPlace fb k j) k

/-- One accumulator over the slices of a pass, in ascending order, each added with one rounding (R91, R118). -/
def passAcc (q : Nat) (x y : Nat → Num) (slices acc : Nat) : Nat :=
  (List.range slices).foldl (fun a s =>
    let sum := (List.range q).foldl (fun t e => t.add ((x (s * q + e)).mul (y (s * q + e)))) (Num.fin true 0 0)
    f32OfNum [a] ((f32Num a).add sum)) acc

def sat32 (v : Int) : Int × Bool :=
  if v > 2 ^ 31 - 1 then (2 ^ 31 - 1, true) else if v < -(2 ^ 31) then (-(2 ^ 31), true) else (v, false)

/-- One 32-bit accumulator of a binary pass (R119), and whether it saturated. -/
def passAccI (x y : Nat → Num) (slices : Nat) (acc : Nat) : Nat × Bool :=
  let r := (List.range slices).foldl (fun (a : Int × Bool) s =>
    let agree := ((List.range 8).filter fun e => x (s * 8 + e) = y (s * 8 + e)).length
    let v := sat32 (a.1 + 2 * (agree : Int) - 8)
    (v.1, a.2 || v.2)) (toSigned 32 acc, false)
  (ofSigned 32 r.1, r.2)

/-- What a pass leaves on one stall: its writes, whether OVF_ACC is due, and whether a guard condition of R121 occurred in the
operands that `sources` selects. -/
def passUnit (c : Ctx) (w : W) (s : PassShape) (fa fb sources : Nat) (u : UnitRef) : List Host.Cell × Bool × Bool :=
  let x := fun k m i => passInput c w s fa u k m i
  let y := fun k j => passWeight c w fb u k j
  let cells := (List.range s.tiles).map fun m => (List.range 24).map fun i => (List.range 24).map fun j =>
    let key := memKey spTrough u.flat ((s.bank + m) * 2304 + (i * 24 + j) * 4)
    let acc := if s.add then ofLe ((List.range 4).map fun b => c.peek w (key + b)) else 0
    let xi := fun k => (x k m i).num
    let yj := fun k => (y k j).num
    if fb = fBIN then
      let r := passAccI xi yj (s.k / 8) acc
      (key, r.1, r.2)
    else
      let r := passAcc s.q xi yj (s.k / s.q) acc
      (key, r, accOverflowed r)
  let flat := (cells.map List.flatten).flatten
  let cond := fun (e : Fetched) => e.excess || e.marked || e.bad
  let inputs := sources.testBit 1 && (List.range s.k).any fun k => (List.range s.tiles).any fun m => (List.range 24).any fun i => cond (x k m i)
  let weights := sources.testBit 0 && (List.range s.k).any fun k => (List.range 24).any fun j => cond (y k j)
  ((flat.map fun e => (List.range 4).map fun b => (e.1 + b, BitVec.ofNat 8 (e.2.1 / 256 ^ b))).flatten, flat.any (·.2.2), inputs || weights)

/-- What the weight stream of `len` bytes leaves in a stall's weight stream buffer: its two halves of 4,096 bytes fill in turn, from the one that
byte 8,192 of the space names, and swap at each 4,096-byte boundary of the stream (R87). -/
def streamBuffer (c : Ctx) (w : W) (len : Nat) (u : UnitRef) : List Host.Cell :=
  let half := (w.peek (memKey spWeights u.flat 8192)).toNat % 2
  let blocks := ceilDiv len 4096
  let first := (blocks - 2) * 4096
  let b := c.read w c.word.srcb u first (len - first)
  (memKey spWeights u.flat 8192, BitVec.ofNat 8 ((half + blocks) % 2)) ::
  (List.range b.length).map fun i => (memKey spWeights u.flat ((half + (first + i) / 4096) % 2 * 4096 + i % 4096), b.getD i 0)

/-- PASS: every stall of the word runs the pass; a shadow word runs on the stalls whose flag is set (R91, R100, R118, R122, R125). -/
def doPass (c : Ctx) (w : W) : W :=
  match passOf c.step.plan c.word with
  | none => w
  | some (s, dst, a, b) =>
    let units := if c.word.s then c.stallUnits.filter fun u => c.step.guardSet u.flat dst.guard else c.stallUnits
    let shape := if c.word.s then { s with add := false } else s
    let entry := c.step.plan.guardOf c.w
    let sources := (entry.map fun g => g.2.sources).getD 0
    let rs := units.map fun u => (u.flat, passUnit c w shape a.fmt b.fmt sources u)
    -- the stream is delivered to every stall of the word, and each granule is checked on arrival
    let bad := if b.deadlineSet then [] else c.failing w.dev (c.stallUnits.map fun u => c.granules w.dev c.word.srcb u).flatten
    let streams := (c.stallUnits.map (streamBuffer c w b.length)).flatten
    let w := (c.apply c.word.dst ((rs.map fun r => r.2.1).flatten) w).store streams
    w.step c.p fun st =>
      let st := { st.addOvfAcc ((rs.filter fun r => r.2.2.1).map (·.1)) with badRead := st.badRead ++ bad }
      if c.word.s then { st with shadowIssues := st.shadowIssues + units.length }
      else if dst.guard = 0 then st
      else
        let st := st.setGuards dst.guard (rs.map fun r => (r.1, r.2.2.2))
        match entry with
        | some (i, _) => { st with guardCount := nadd i ((rs.filter fun r => r.2.2.2).length) st.guardCount }
        | none => st

/-! ### VEC (R102, R103, R562) -/

/-- Operation code of a VEC word: class bits [14:8] of its SRCA. -/
def Desc.vecOp (d : Desc) : Nat := d.classBits % 128

def isF32 (f : Nat) : Bool := f = fFP32 || f = fACC32
def isFloat (f : Nat) : Bool := isF32 f || f = fBF16

/-- Number of elements of an operand of LENGTH `len`. -/
def elemCount (f len : Nat) : Nat := len * 8 / fmtBits f

/-- Whether R102 lists the formats for the operation. -/
def vecFormatsOk (op fa : Nat) (fb : Option Nat) (fd : Nat) : Bool :=
  if decide (1 ≤ op) && decide (op ≤ 7) then isFloat fa && isFloat fd && (match fb with | some f => isFloat f | none => false)
  else if op = 8 then
    fb = none && ((isF32 fa && (fd = fBF16 || fmtIsNarrow fd)) || (isF32 fd && (fa = fBF16 || fmtIsNarrow fa)))
  else if decide (9 ≤ op) && decide (op ≤ 0x0C) then fb = none && isF32 fa && isF32 fd
  else if op = 0x0D || op = 0x0E then fb = none && isF32 fa && isF32 fd
  else if op = 0x0F then fb = none && (isF32 fa || fa = fACCI) && (isF32 fd || fd = fACCI)
  else false

/-- An operand in the trough has a 32-bit format (R562). -/
def troughOk (d : Desc) : Bool := d.space ≠ spTrough || isF32 d.fmt || d.fmt = fACCI

/-- The load check of a VEC word. SRCB and DST lie in SPACE 0 to 3 as SRCA does, a trough operand of another width than 32 bits is refused, and so
are rounding bits in the DST of another operation than CONVERT (DESIGN CHOICE: log entry 116). -/
def vecCheck (p : Plan) (w : PWord) : Bool :=
  match p.desc? w.dst, p.desc? w.srca with
  | some d, some a =>
    let b := p.desc? w.srcb
    let n := elemCount a.fmt a.length
    troughOk a && troughOk d && (match b with | some b => troughOk b | none => true) && decide (a.space ≤ 3) && decide (d.space ≤ 3) && d.classBits = 0 && !a.classBits.testBit 7 && decide (0 < n)
    && (w.srcb = noDesc || b.isSome) && (match b with | some b => decide (b.space ≤ 3) && b.classBits = 0 && b.format / 64 = 0
                                                        && (elemCount b.fmt b.length = n || elemCount b.fmt b.length = 1) | none => true)
    && vecFormatsOk a.vecOp a.fmt (b.map (·.fmt)) d.fmt && a.format / 64 = 0 && (a.vecOp = 8 || d.format / 64 = 0)
  | _, _ => false

def vecDuration (p : Plan) (w : PWord) : Nat :=
  match p.desc? w.srca with
  | none => 0
  | some a =>
    let op := a.vecOp
    let n := ceilDiv (elemCount a.fmt a.length) 32
    if op ≤ 7 then n + 4 else if op = 8 then n + 6 else if op ≤ 0x0C then 2 * n + 12
    else if op = 0x0F then n + 2 else n + 9

/-- Place of element `e` of an area of a narrow format: an input area of one tile in the manger, a weight stream elsewhere (log
entry 9). Element `e` is k-value ⌊e ÷ 24⌋ of line e mod 24. -/
def narrowPlace (f sp n k line : Nat) : Place :=
  if sp = spManger && f ≠ fN2 then inputPlace f (ceilDiv n 24) 1 k 0 line else weightPlace f k line

/-- Bytes of such an area with its metadata. -/
def narrowBytes (f sp n : Nat) : Nat :=
  let k := ceilDiv n 24
  if sp = spManger && f ≠ fN2 then k * 3 * fmtBits f + inputMeta f k 1 else ceilDiv k (groupK f) * groupSize f

/-- Element `e` of a narrow operand of `n` elements, exactly. -/
def narrowNum (c : Ctx) (w : W) (di : Nat) (d : Desc) (u : UnitRef) (n e : Nat) : Num :=
  (fetchElem d.fmt (c.reader w di u) (fun k => narrowPlace d.fmt d.space n k (e % 24)) (e / 24)).num

/-- Element `e` of an operand of `n` elements, as FP32 bits (BF16 and narrow elements widened). -/
def vecElem (c : Ctx) (w : W) (di : Nat) (u : UnitRef) (n e : Nat) : Nat :=
  match c.step.plan.desc? di with
  | none => 0
  | some d =>
    let f := d.fmt
    if f = fBF16 then bf16To32 (c.readN w di u (2 * e) 2)
    else if fmtIsNarrow f then f32OfNum [] (narrowNum c w di d u n e)
    else c.readN w di u (4 * e) 4

/-- Elementwise result of operation `op` as FP32 bits; `old` is the prior content of DST. -/
def vecResult (op a b old : Nat) : Nat :=
  if op = 1 then f32Add a b
  else if op = 2 then f32Sub a b
  else if op = 3 then f32Mul a b
  else if op = 4 then f32Fma a b old
  else if op = 5 then f32Min a b
  else if op = 6 then f32Max a b
  else if op = 7 then (if f32Gt a b then f32One else 0)
  else if decide (9 ≤ op) && decide (op ≤ 0x0C) then f32Trans op a
  else a

/-- The order of R103: lanes first, then a tree of five levels. -/
def sumTree : Nat → List Nat → Nat
  | 0, l => l.headD 0
  | n + 1, l => sumTree n ((List.range (l.length / 2)).map fun i => f32Add (l.getD (2 * i) 0) (l.getD (2 * i + 1) 0))

/-- The sum on 2^t lanes, each from +0 on (DESIGN CHOICE: log entry 139). -/
def laneSum (t : Nat) (vs : List Nat) : Nat :=
  let lanes := (List.range (2 ^ t)).map fun l =>
    ((List.range vs.length).filter fun e => e % 2 ^ t = l).foldl (fun a e => f32Add a (vs.getD e 0)) 0
  sumTree t lanes

/-- The sum of the vector unit, on 32 lanes. -/
def vecSum (vs : List Nat) : Nat := laneSum 5 vs

def f32NegInf : Nat := 0xFF80_0000

def vecMaxAll (vs : List Nat) : Nat :=
  (vs.filter fun v => !f32IsNaN v).foldl (fun a v => if a = f32NegInf then v else f32Max a v) f32NegInf

/-- The bytes of a conversion of `vs` into narrow format `f`, and whether OVF_CVT is due. `draw` is the draw of an element. -/
def encodeNarrow (f sp : Nat) (r : Rounding) (draw : Nat → Nat) (vs : List Nat) : Bytes × Bool :=
  let n := vs.length
  let kk := ceilDiv n 24
  let blk := convertLen f
  let lines := (List.range 24).map fun l => (List.range (ceilDiv kk blk)).map fun b =>
    let ks := ((List.range blk).map (· + b * blk)).filter fun k => decide (k * 24 + l < n)
    let cv := convertBlock f r (fun i => draw ((b * blk + i) * 24 + l)) (ks.map fun k => vs.getD (k * 24 + l) 0)
    let codes := (List.range ks.length).map fun i => cv.codes.getD i 0 * 2 ^ (narrowPlace f sp n (b * blk + i) l).code
    let scales := (List.range cv.scales.length).map fun i =>
      cv.scales.getD i 0 * 2 ^ (8 * (narrowPlace f sp n (b * blk + i * scaleBlock f) l).scale)
    let slots := (List.range (escapeSlots f)).map fun i => cv.slots.getD i 0 * 2 ^ (8 * (narrowPlace f sp n (b * blk) l).slot i)
    (sumNat codes + sumNat scales + sumNat slots, cv.ovf)
  let all := lines.flatten
  (leBytes (narrowBytes f sp n) (sumNat (all.map (·.1))), all.any (·.2))

def Num.isFinite : Num → Bool
  | .fin _ _ _ => true
  | _ => false

/-- A finite narrow element of SRCA whose widening to FP32 is an infinity (R120). -/
def widenOverflows (c : Ctx) (w : W) (a : Desc) (u : UnitRef) (n : Nat) : Bool :=
  fmtIsNarrow a.fmt && (List.range n).any fun e =>
    let x := narrowNum c w c.word.srca a u n e
    x.isFinite && f32IsInf (f32OfNum [] x)

/-- Writes, OVF_CVT and OVF_ACC of a VEC word on one stall. BF16 results but those of a conversion round to nearest even as R102 says. -/
def vecUnit (c : Ctx) (w : W) (a d : Desc) (u : UnitRef) : List Host.Cell × Bool × Bool :=
  let op := a.vecOp
  let n := elemCount a.fmt a.length
  let bOne := match c.step.plan.desc? c.word.srcb with
    | some b => decide (elemCount b.fmt b.length = 1)
    | none => true
  let va := fun e => vecElem c w c.word.srca u n e
  let vb := fun e => if c.word.srcb = noDesc then 0 else vecElem c w c.word.srcb u n (if bOne then 0 else e)
  let out := fun (vs : List Nat) =>
    let r := (fmtRounding d.format).getD .nearest
    let draw := fun e => roundingDraw c.step.batch.seed u.flat c.slot e
    if d.fmt = fBF16 then
      let rs := (List.range vs.length).map fun e =>
        let v := vs.getD e 0
        if op = 8 then bf16Of32 r (if r = .stochastic then draw e else 0) v else (bf16Round .nearest 0 v, false)
      ((rs.map fun x => leBytes 2 x.1).flatten, rs.any (·.2), false)
    else if fmtIsNarrow d.fmt then
      let x := encodeNarrow d.fmt d.space r draw vs
      (x.1, x.2, false)
    else ((vs.map (leBytes 4)).flatten, op = 8 && widenOverflows c w a u n, d.space = spTrough && isF32 d.fmt && vs.any accOverflowed)
  let res := if op = 0x0D then out [vecSum ((List.range n).map va)]
    else if op = 0x0E then out [vecMaxAll ((List.range n).map va)]
    else out ((List.range n).map fun e => vecResult op (va e) (vb e) (if op = 4 then vecElem c w c.word.dst u n e else 0))
  (c.put w.dev c.word.dst u 0 res.1, res.2)

/-- VEC, other than PACK. -/
def doVec (c : Ctx) (w : W) : W :=
  match c.step.plan.desc? c.word.srca, c.step.plan.desc? c.word.dst with
  | some a, some d =>
    let rs := c.stallUnits.map fun u => (u.flat, vecUnit c w a d u)
    let w := c.apply c.word.dst ((rs.map fun r => r.2.1).flatten) w
    w.step c.p fun s => (s.addOvfCvt ((rs.filter fun r => r.2.2.1).map (·.1))).addOvfAcc ((rs.filter fun r => r.2.2.2).map (·.1))
  | _, _ => w

/-! ### The mask of a row (R276, R291) -/

/-- The context `cx` as the step has it. -/
def Step.context (s : Step) (d : Dev) (cx : Nat) : Option GContext :=
  (tget? cx d.serve.contexts).map fun g => match s.contexts.find? fun x => x.1 = cx with
    | some x => { g with state := x.2.1, stack := x.2.2 }
    | none => g

/-- The grammar of context `cx`: the context as the step has it and its image. -/
def Step.grammar (s : Step) (d : Dev) (cx : Nat) : Option (GContext × Bytes) :=
  (s.context d cx).bind fun g => (d.serve.grammarAt g.grammarId g.version).map fun x => (g, x.image)

/-- The table that the step binds. -/
def Step.boundTable (s : Step) (d : Dev) : Option TokTable :=
  (s.bound.find? fun (b : Bound) => b.kind = 4).bind fun (b : Bound) => d.serve.tableAt b.ident b.version

/-- VOCAB of the table that a row's request has pinned, else of the one that the step binds. -/
def Step.rowVocab (s : Step) (d : Dev) (row : Nat) : Option Nat :=
  (match (s.batch.rows[row]?).bind fun r => r.request.bind d.request? with
   | some r => d.serve.tableAt r.tableId r.tableVer
   | none => s.boundTable d).map fun (x : TokTable) => tokVocab x.image

/-- The row's mask allows token `t`; a row of which no MASK word has spoken allows every token. -/
def Step.rowAllows (s : Step) (d : Dev) (row t : Nat) : Bool :=
  match tget? row s.masks with
  | none => true
  | some m =>
    (match s.rowVocab d row with | some v => decide (t < v) | none => true)
    && (match s.grammar d m.2.2 with | some x => allowed x.2 x.1 t | none => true)

/-- A logit as a selecting word takes it: −∞ where the mask of its row disallows token `t` (log entry 124). -/
def Ctx.logit (c : Ctx) (d : Dev) (ord t v : Nat) : Nat :=
  match Config.sampledRow c.step.plan.digest c.w ord c.rep with
  | some row => if c.step.rowAllows d row t then v else f32NegInf
  | none => v

/-- How many units before `ord` a word's unit shares the logits of one row with: each holds a shard of them (log entry 124). -/
def Ctx.shard (c : Ctx) (ord : Nat) : Nat :=
  let row := Config.sampledRow c.step.plan.digest c.w
  ord - ((List.range ord).find? fun i => row i c.rep = row ord c.rep).getD ord

/-! ### SELECT8 (R104, R105) -/

/-- Size in bytes of an element of FP32 or BF16 values. -/
def valueSize (f : Nat) : Nat := if f = fBF16 then 2 else 4

/-- The load check of SELECT8. The earlier list of SRCB lies in the vector scratch too (DESIGN CHOICE: log entry 116). -/
def select8Check (p : Plan) (w : PWord) : Bool :=
  match p.desc? w.dst, p.desc? w.srca with
  | some d, some a =>
    let k := (d.length - 8) / 8
    a.space = spScratch && d.space = spScratch && (a.fmt = fFP32 || a.fmt = fBF16) && decide (0 < a.length) && a.length % valueSize a.fmt = 0
    && d.length = 8 * k + 8 && decide (1 ≤ k) && decide (k ≤ 8) && a.classBits = 0 && d.classBits = 0
    && (match p.desc? w.srcb with
        | some b => b.space = spScratch && b.length = 8 * k + 8 && b.classBits = 0
        | none => w.srcb = noDesc)
  | _, _ => false

def select8Duration (p : Plan) (w : PWord) : Nat :=
  match p.desc? w.srca with
  | some a => ceilDiv (a.length / valueSize a.fmt) 32 + 12 + (if w.srcb = noDesc then 0 else 1)
  | none => 0

/-- A value with its index. -/
abbrev Scored := Nat × Nat

/-- Values equal under R105: +0 and −0 are one value. -/
def sameValue (a b : Nat) : Bool := a = b || f32ZeroPair a b

/-- The order of R105: the larger value first, then the lower index. -/
def before (x y : Scored) : Bool := f32Gt x.1 y.1 || (!f32Gt y.1 x.1 && decide (x.2 < y.2))

/-- What a selector keeps of its new values and of an earlier list of `k` entries: the selected, TIES and COUNT (R105, R240). -/
def selectBest (k : Nat) (vals : List Scored) (old : Option (List Scored × Nat × Nat)) : List Scored × Nat × Nat :=
  let new := vals.filter fun v => !f32IsNaN v.1
  let oldL := match old with | some (l, _, cnt) => l.take cnt | none => []
  let all := sortBy before (oldL ++ new)
  let sel := all.take k
  let count := new.length + (match old with | some (_, _, cnt) => cnt | none => 0)
  let ties := match sel[k - 1]? with
    | some z =>
      ((all.drop k).filter fun x => sameValue x.1 z.1).length
      + (match old with
         | some (l, t, cnt) => if decide (k ≤ cnt) && (match l[k - 1]? with | some y => sameValue y.1 z.1 | none => false) then t else 0
         | none => 0)
    | none => 0
  (sel, ties, count)

/-- The bytes of a result list of `k` entries with its trailer. -/
def selectBytes (k : Nat) (r : List Scored × Nat × Nat) : Bytes :=
  let ent := (List.range k).map fun i => match r.1[i]? with
    | some x => leBytes 4 x.1 ++ leBytes 4 x.2
    | none => leBytes 4 f32NegInf ++ leBytes 4 0xFFFF_FFFF
  ent.flatten ++ leBytes 4 r.2.1 ++ leBytes 4 r.2.2

/-- A result list of `k` entries as read back: entries, TIES and COUNT. -/
def parseSelect (k : Nat) (b : Bytes) : List Scored × Nat × Nat :=
  ((List.range k).map fun i => (fld b (8 * i) 4, fld b (8 * i + 4) 4), fld b (8 * k) 4, fld b (8 * k + 4) 4)

/-- The values of SRCA as FP32 bits with their indices (R104, R239). Token `e` of a row's shard counts on from those of the shards before it. -/
def selectValues (c : Ctx) (w : W) (a : Desc) (u : UnitRef) : List Scored :=
  let n := a.length / valueSize a.fmt
  (List.range n).map fun e => (c.logit w.dev u.ord (e + n * c.shard u.ord) (vecElem c w c.word.srca u 0 e), e + n * u.ord)

def doSelect8 (c : Ctx) (w : W) : W :=
  match c.step.plan.desc? c.word.srca, c.step.plan.desc? c.word.dst with
  | some a, some d =>
    let k := (d.length - 8) / 8
    let ws := c.stallUnits.map fun u =>
      let old := if c.word.srcb = noDesc then none else some (parseSelect k (c.read w c.word.srcb u 0 (8 * k + 8)))
      c.put w.dev c.word.dst u 0 (selectBytes k (selectBest k (selectValues c w a u) old))
    c.apply c.word.dst ws.flatten w
  | _, _ => w

/-! ### RANDOM (R561) -/

/-- The load check of RANDOM: its FORMAT byte is RAW or FP32 and nothing else, rounding bits included (DESIGN CHOICE: log entry 116). -/
def randomCheck (p : Plan) (w : PWord) : Bool :=
  match p.desc? w.dst with
  | some d =>
    decide (d.space ≤ 2) && (d.format = fRAW || d.format = fFP32) && w.srca = noDesc && w.srcb = noDesc
    && decide (2 ≤ d.classBits) && decide (d.classBits ≤ 5)
  | none => false

def randomDuration (p : Plan) (w : PWord) : Nat :=
  match p.desc? w.dst with
  | some d => ceilDiv (d.length / 4) 32 + 12
  | none => 0

/-- A uniform value (x[31:8]) × 2^−24 as FP32 bits (R74). -/
def uniform32 (x : Nat) : Nat := f32OfRat false (x / 256) 1 (-24)

/-- RANDOM. Of a LENGTH that is no multiple of 4 the last 1 to 3 bytes stay as they are (DESIGN CHOICE: log entry 116). -/
def doRandom (c : Ctx) (w : W) : W :=
  match c.step.plan.desc? c.word.dst with
  | some d =>
    let ws := c.stallUnits.map fun u =>
      let vals := (List.range (d.length / 4)).map fun e =>
        let x := drawWord c.step.batch.seed d.classBits u.flat c.slot (e / 4) (e % 4)
        leBytes 4 (if d.format = fFP32 then uniform32 x else x)
      c.put w.dev c.word.dst u 0 vals.flatten
    c.apply c.word.dst ws.flatten w
  | none => w

end Sys2Proof.Machine
end

