-- ==== Sys2Proof/Machine/Selection.lean ====
section
/-! DEFINITION. The selection unit's words SELECT and COMPACT, the sampler's draw, and PACK (R239 to R248, R292). Each word has its
load check, its duration and its meaning. -/

namespace Sys2Proof.Machine

/-! ### Control blocks -/

/-- The `n` bytes of a control block that lies in CONSTANTS, which stand at loft offset 0. -/
def Plan.constBlock (p : Plan) (d : Desc) (n : Nat) : Option Bytes :=
  if d.space = spLoft && !d.bound && decide (d.base + n ≤ p.constants.length) then some (slice p.constants d.base n) else none

/-- Largest of a value that a word's duration takes from its control blocks (R559): `blocks` holds the blocks that CONSTANTS give,
none where the step writes the block, and then `top` stands. -/
def blockMax (blocks : Option (List Bytes)) (off size top : Nat) : Nat :=
  match blocks with
  | some l => maxNat (l.map fun b => fld b off size)
  | none => top

/-! ### SELECT (R240) -/

def selectCheck (p : Plan) (w : PWord) : Bool :=
  match p.desc? w.dst, p.desc? w.srca with
  | some d, some a =>
    let k := (d.length - 8) / 8
    let n := a.length / valueSize a.fmt
    a.space = spLoft && d.space = spLoft && (a.fmt = fFP32 || a.fmt = fBF16) && decide (1 ≤ n) && decide (n ≤ 262144)
    && a.length % valueSize a.fmt = 0 && d.length = 8 * k + 8 && decide (1 ≤ k) && decide (k ≤ 64) && a.classBits = 0 && d.classBits = 0
    && (match p.desc? w.srcb with
        | some b => b.space = spLoft && b.length = 8 * k + 8 && b.classBits = 0
        | none => w.srcb = noDesc)
  | _, _ => false

def selectDuration (p : Plan) (w : PWord) : Nat :=
  match p.desc? w.srca with
  | some a => ceilDiv (a.length / valueSize a.fmt) 32 + 20 + (if w.srcb = noDesc then 0 else 1)
  | none => 0

def doSelect (c : Ctx) (w : W) : W :=
  match c.step.plan.desc? c.word.srca, c.step.plan.desc? c.word.dst with
  | some a, some d =>
    let k := (d.length - 8) / 8
    let ws := c.stableUnits.map fun u =>
      let old := if c.word.srcb = noDesc then none else some (parseSelect k (c.read w c.word.srcb u 0 (8 * k + 8)))
      c.put w.dev c.word.dst u 0 (selectBytes k (selectBest k (selectValues c w a u) old))
    c.apply c.word.dst ws.flatten w
  | _, _ => w

/-! ### COMPACT (R241 to R244) -/

def f32Ge (a b : Nat) : Bool := f32Gt a b || (!f32IsNaN a && !f32IsNaN b && sameValue a b)

/-- Quotient of `a` by a positive finite `b`, rounded to FP32. -/
def f32DivPos (a b : Nat) : Nat :=
  match f32Num a, f32Num b with
  | .nan, _ => f32NaN [a, b]
  | .inf neg, _ => f32Inf neg
  | .fin neg m e, .fin _ q f => f32OfRat neg m q (e - f)
  | _, _ => f32NaN [a, b]

/-- The fields of a COMPACT control block. -/
structure CompactBlock where
  mode : Nat
  transform : Nat
  kMax : Nat
  minKeep : Nat
  thresh : Nat
  temp : Nat
  mass : Nat
  total : Nat
deriving DecidableEq, Repr

def parseCompact (b : Bytes) : CompactBlock :=
  { mode := fld b 0 1, transform := fld b 1 1, kMax := fld b 2 2, minKeep := fld b 4 2, thresh := fld b 8 4, temp := fld b 12 4
    mass := fld b 16 4, total := fld b 20 4 }

def f32Positive (v : Nat) : Bool := f32Gt v 0
def f32Finite (v : Nat) : Bool := !f32IsNaN v && !f32IsInf v

/-- The block meets the table of R241. -/
def compactOk (b : Bytes) : Bool :=
  let c := parseCompact b
  decide (c.mode ≤ 3) && decide (c.transform ≤ 1) && decide (1 ≤ c.kMax) && decide (c.kMax ≤ 64) && decide (c.minKeep ≤ c.kMax)
  && fld b 6 2 = 0 && allZero (slice b 24 8)
  && (!(c.mode = 1 || c.mode = 2) || !f32IsNaN c.thresh)
  && (c.transform = 0 || (f32Positive c.temp && f32Finite c.temp))
  && (c.mode ≠ 3 || (f32Positive c.mass && f32Ge f32One c.mass))
  && !f32IsNaN c.total && !f32Gt 0 c.total

def compactCheck (p : Plan) (w : PWord) : Bool :=
  match p.desc? w.dst, p.desc? w.srca, p.desc? w.srcb with
  | some d, some a, some b =>
    a.space = spLoft && b.space = spLoft && d.space = spLoft && a.length % 4 = 0 && decide (1 ≤ a.length / 4)
    && decide (a.length / 4 ≤ 262144) && a.classBits = 0 && b.classBits = 0 && d.classBits = 0
  | _, _, _ => false

def compactDuration (p : Plan) (w : PWord) (blocks : Option (List Bytes)) : Nat :=
  match p.desc? w.srca with
  | some a =>
    -- 48 + 16 × K_MAX bytes lie in DST (R559)
    let room := match p.desc? w.dst with | some d => min 64 (max 1 ((d.length - 48) / 16)) | none => 64
    2 * ceilDiv (a.length / 4) 32 + blockMax blocks 2 2 room + 24
  | none => 0

/-- The weight of step 3, for the largest value `m`. -/
def compactWeight (c : CompactBlock) (m v : Nat) : Nat :=
  if c.transform = 0 then v
  else if m = f32Inf false then (if v = m then f32One else 0)
  else if v = f32NegInf then 0
  else f32Trans 0x09 (f32DivPos (f32Sub v m) c.temp)

/-- What COMPACT keeps and counts. -/
structure Compacted where
  kept : List (Nat × Nat × Nat)
  flags : Nat
  nValid : Nat
  nans : Nat
  max : Nat
  total : Nat
  selSum : Nat
  outSum : Nat
  ties : Nat
  capped : Nat
deriving DecidableEq, Repr

/-- The shortest prefix of `l` of at least `least` entries whose running sum reaches `target`: its length, none when all falls short. -/
def massPrefix (least target : Nat) : Nat → Nat → List Nat → Option Nat
  | n, run, l =>
    if decide (least ≤ n) && f32Ge run target then some n
    else match l with
      | [] => none
      | x :: r => massPrefix least target (n + 1) (f32Add run x) r

def sumInOrder (l : List Nat) : Nat := l.foldl f32Add 0

/-- R242 on values with their indices. -/
def compact (c : CompactBlock) (vals : List Scored) : Compacted :=
  let valid := vals.filter fun v => !f32IsNaN v.1
  let nans := vals.length - valid.length
  match sortBy before valid with
  | [] => { kept := [], flags := 0, nValid := 0, nans := nans, max := f32NegInf, total := 0, selSum := 0, outSum := 0, ties := 0, capped := 0 }
  | top :: rest =>
    let ranked := top :: rest
    let m := top.1
    let wt := compactWeight c m
    let total := vecSum (vals.map fun v => if f32IsNaN v.1 then 0 else wt v.1)
    let bound := f32Sub m c.thresh
    let eligible := fun (v : Scored) => if c.mode = 1 then f32Ge v.1 c.thresh else if c.mode = 2 then f32Ge v.1 bound else true
    let elig := ranked.filter eligible
    let taken0 := elig.take c.kMax
    let short := decide (taken0.length < c.minKeep)
    let taken := if short then taken0 ++ (ranked.filter fun v => !eligible v).take (c.minKeep - taken0.length) else taken0
    let target := f32Mul c.mass (if bitsOf c.total 0 31 = 0 then total else c.total)
    let cut := if c.mode = 3 then massPrefix c.minKeep target 0 0 (taken.map fun v => wt v.1) else some taken.length
    let kept := taken.take (cut.getD taken.length)
    let sel := sumInOrder (kept.map fun v => wt v.1)
    let out := f32Sub total sel
    { kept := kept.map fun v => (v.1, wt v.1, v.2)
      flags := b2n cut.isNone + 2 * b2n short
      nValid := valid.length, nans := nans, max := m, total := total, selSum := sel
      outSum := if f32Gt 0 out then 0 else out
      ties := match kept.getLast? with
        | some z => (ranked.filter fun v => sameValue v.1 z.1 && !kept.contains v).length
        | none => 0
      capped := elig.length - taken0.length }

/-- The bytes of R243. -/
def compactBytes (c : CompactBlock) (r : Compacted) : Bytes :=
  leBytes 2 r.kept.length ++ leBytes 2 c.kMax ++ leBytes 1 c.mode ++ leBytes 1 r.flags ++ leBytes 2 0 ++ leBytes 4 r.nValid ++
  leBytes 4 r.nans ++ leBytes 4 r.max ++ leBytes 4 r.total ++ leBytes 4 r.selSum ++ leBytes 4 r.outSum ++ leBytes 4 r.ties ++
  leBytes 4 r.capped ++ zeros 8 ++
  ((List.range c.kMax).map fun i => match r.kept[i]? with
    | some e => leBytes 4 e.1 ++ leBytes 4 e.2.1 ++ leBytes 4 e.2.2 ++ zeros 4
    | none => leBytes 4 f32NegInf ++ zeros 4 ++ leBytes 4 0xFFFF_FFFF ++ zeros 4).flatten

/-- The result of a bad control block: BAD_CONTROL over the whole of DST. -/
def compactBad (b : Bytes) (len : Nat) : Bytes := fit len (zeros 4 ++ leBytes 1 (fld b 0 1) ++ leBytes 1 4)

/-- COMPACT. A row's full logits lie in one loft (R291), so that element `e` is token `e`, whatever its INDEX. -/
def doCompact (c : Ctx) (w : W) : W :=
  match c.step.plan.desc? c.word.srca, c.step.plan.desc? c.word.dst with
  | some a, some d =>
    let n := a.length / 4
    let ws := c.stableUnits.map fun u =>
      let b := c.read w c.word.srcb u 0 32
      let blk := parseCompact b
      let vals := (List.range n).map fun e => (c.logit w.dev u.ord e (c.readN w c.word.srca u (4 * e) 4), e + n * u.ord)
      c.put w.dev c.word.dst u 0 (if compactOk b then (compactBytes blk (compact blk vals)).take d.length else compactBad b d.length)
    c.apply c.word.dst ws.flatten w
  | _, _ => w

/-! ### The sampler's draw (R291, R292) -/

/-- A COMPACT result as read back: its kept entries as (value, weight, index). -/
def compactEntries (b : Bytes) : List (Nat × Nat × Nat) :=
  (List.range (min (fld b 0 2) (fld b 2 2))).map fun i => (fld b (48 + 16 * i) 4, fld b (52 + 16 * i) 4, fld b (56 + 16 * i) 4)

/-- The first kept entry whose running sum of weights exceeds `limit`, else the last. -/
def drawEntry (limit : Nat) : Nat → List (Nat × Nat × Nat) → Option (Nat × Nat × Nat)
  | _, [] => none
  | _, [e] => some e
  | run, e :: r => let s := f32Add run e.2.1
    if f32Gt s limit then some e else drawEntry limit s r

/-- The entry that a row draws at output position `pos`. -/
def sampleEntry (sampler seed stream pos : Nat) (b : Bytes) : Option (Nat × Nat × Nat) :=
  let es := compactEntries b
  if sampler = 0 then es.head?
  else
    let u := uniform32 (drawWord seed purposeSampling stream pos 0 0)
    drawEntry (f32Mul u (fld b 24 4)) 0 es

/-- The result of a GREEDY row that SELECT8 and SELECT formed, laid out as the COMPACT result of R291's block. What only COMPACT counts,
no rule states there: TOTAL and OUT_SUM (log entry 124). -/
def greedyResult (k : Nat) (b : Bytes) : Bytes :=
  let (l, _, count) := parseSelect k b
  let blk : CompactBlock := { mode := 0, transform := 1, kMax := 1, minKeep := 1, thresh := 0, temp := f32One, mass := 0, total := 0 }
  match l with
  | [] => zeros 64
  | top :: _ =>
    let free := fun n => Config.unstated n [top.1, top.2, count] % 2 ^ 32
    let wt := compactWeight blk top.1 top.1
    compactBytes blk { kept := if count = 0 then [] else [(top.1, wt, top.2)], flags := 0, nValid := count, nans := 0, max := top.1
                       total := free 0x22, selSum := wt, outSum := free 0x23, ties := 0, capped := 0 }

/-- The COMPACT control block that an admission derives (R291). `p` is P or MIN_P's ratio. -/
def samplerBlock (sampler topK temp p : Nat) : Bytes :=
  let k := if topK = 0 then 64 else topK
  let blk := fun mode kMax temp thresh mass =>
    leBytes 1 mode ++ leBytes 1 1 ++ leBytes 2 kMax ++ leBytes 2 1 ++ leBytes 2 0 ++ leBytes 4 thresh ++ leBytes 4 temp ++
    leBytes 4 mass ++ leBytes 4 0 ++ zeros 8
  if sampler = 0 then blk 0 1 f32One 0 0
  else if sampler = 1 then blk 0 k temp 0 0
  else if sampler = 2 then blk 3 k temp 0 p
  else blk 2 k temp (f32NegLogTimes p temp) 0

/-! ### PACK (R245 to R248) -/

/-- SRCA has FLAGS bit 15: the VEC word is a PACK word. -/
def Plan.isPack (p : Plan) (w : PWord) : Bool :=
  w.cls = cVEC && (match p.desc? w.srca with | some a => a.flags.testBit 15 | none => false)

/-- The block meets the table of R245; `index?` says whether a BINDINGS entry is an index entry. -/
def packOk (index? : Nat → Bool) (b : Bytes) : Bool :=
  let budget := fld b 0 4
  decide (64 ≤ budget) && decide (budget ≤ 65536) && decide (1 ≤ fld b 4 2) && decide (fld b 4 2 ≤ 64) && decide (1 ≤ fld b 6 2)
  && decide (fld b 6 2 ≤ 4096) && decide (fld b 8 1 ≤ 1) && decide (fld b 9 1 ≤ 1) && decide (fld b 16 2 ≤ 4096)
  && decide (fld b 18 2 ≤ 256) && decide (fld b 20 1 ≤ 8) && decide (fld b 21 1 ≤ 8) && allZero (slice b 112 16)
  && (fld b 22 2 = 0xFFFF || index? (fld b 22 2))

def Plan.indexEntry (p : Plan) (i : Nat) : Bool := match p.bindings[i]? with | some b => b.kind = 1 | none => false

/-- CAP of the plan's TOKENIZE block, where it lies in CONSTANTS. -/
def Plan.qTok (p : Plan) : Option Nat :=
  (p.words.filter (·.cls = cTOKENIZE)).findSome? fun w => ((p.desc? w.srcb).bind fun d => p.constBlock d 32).map fun b => fld b 4 4

/-- The load check of a packing block (R245). -/
def Plan.packBlockOk (p : Plan) (b : Bytes) : Bool :=
  packOk p.indexEntry b && (match p.qTok with | some q => decide (fld b 16 2 + q + fld b 18 2 ≤ fld b 0 4) | none => true)

def packCheck (p : Plan) (w : PWord) : Bool :=
  match p.desc? w.dst, p.desc? w.srca with
  | some d, some a =>
    a.space = spLoft && d.space = spLoft && w.srcb = noDesc && a.classBits = 0x80 && d.classBits = 0
  | _, _ => false

def packDuration (p : Plan) (w : PWord) (blocks : Option (List Bytes)) : Nat :=
  match blocks with
  | some l => maxNat (l.map fun b => ceilDiv (fld b 0 4) 16 + 4 * fld b 4 2 + 32)
  | none =>
    -- 64 + 4 × BUDGET + 16 × K_MAX bytes lie in DST (R247, R559); BUDGET is 64 or more and K_MAX 1 or more
    let len := match p.desc? w.dst with | some d => d.length | none => 2 ^ 32
    ceilDiv (min 65536 ((len - 80) / 4)) 16 + 4 * min 64 ((len - 320) / 16) + 32

/-- Stall t0 of each stable of the word, with the stable's ordinal. -/
def Ctx.packUnits (c : Ctx) : List UnitRef :=
  let ss := kindStables c.stables c.step.prefill c.word.kind c.word.mask
  let low := (minNat? ss).getD 0
  ss.map fun s => { ord := s - low, loftOrd := s - low, flat := s * c.S, stable := s, bay := 0 }

/-- Key of the loft byte `add` after the one that lies `off` bytes, signed, from the control block's own. -/
def packKey (u : UnitRef) (a off : Nat) (add : Int) : Nat := memKey spLoft u.stable ((a : Int) + toSigned 32 off + add).toNat

def packRead (c : Ctx) (w : W) (u : UnitRef) (a off : Nat) (add : Int) (n : Nat) : Bytes :=
  (List.range n).map fun i => c.peek w (packKey u a off add + i)

/-- Granules of the head of ranked-list position `r` were missed and read as zeros: the position is passed over and its entry has MISSED set
(R236, R249). `n` is the length of the passage directory. -/
def headMissed (c : Ctx) (u : UnitRef) (a : Nat) (b : Bytes) (n r tokens : Nat) : Bool :=
  let pf := fld b 6 2
  c.step.zeroed.any (runsMeet (packKey u a (fld b 108 4) (8 * n + pf * 4 * r), 4 * min tokens pf))

def tokens4 (b : Bytes) : List Nat := (List.range (b.length / 4)).map fun i => fld b (4 * i) 4

/-- A taken passage: its rank, id, tokens, whether it is cut or long, XSCORE, and whether MARK follows. -/
structure Taken where
  rank : Nat
  id : Nat
  toks : List Nat
  cut : Bool
  long : Bool
  mark : Bool
  xscore : Nat
deriving DecidableEq, Repr

/-- The state of R246's loop. -/
structure Packing where
  room : Nat
  taken : List Taken
  offsets : List Nat
  skipNone : Nat
  skipDup : Nat
  skipBudget : Nat
  stopped : Bool
  ended : Bool
deriving DecidableEq, Repr

/-- One kept entry offered to the prompt. `passage` is the passage word or 0 where the position is passed over or missed, `head` its
head tokens. -/
def packEntry (b : Bytes) (rank id passage xscore : Nat) (head : List Nat) (s : Packing) : Packing :=
  let pf := fld b 6 2
  let minPart := fld b 10 2
  let ol := fld b 20 1
  let cl := fld b 21 1
  let toks := bitsOf passage 48 16
  let off := bitsOf passage 0 48
  if s.ended then s
  else if passage = 0 then { s with skipNone := s.skipNone + 1 }
  else if s.offsets.contains off then { s with skipDup := s.skipDup + 1 }
  else
    let len := min toks pf
    let mark := decide (len < toks)
    let need := ol + len + b2n mark + cl
    let t : Taken := { rank := rank, id := id, toks := head.take len, cut := false, long := decide (pf < toks), mark := mark, xscore := xscore }
    if need ≤ s.room then { s with taken := s.taken ++ [t], offsets := off :: s.offsets, room := s.room - need }
    else if decide (0 < minPart) && decide (ol + minPart + 1 + cl ≤ s.room) then
      let n := s.room - ol - 1 - cl
      { s with taken := s.taken ++ [{ t with toks := head.take n, cut := true, mark := true }], offsets := off :: s.offsets, room := 0, ended := true }
    else
      let s := { s with skipBudget := s.skipBudget + 1 }
      if fld b 9 1 = 1 then { s with stopped := true, ended := true } else s

/-- The blocks' tokens in prompt order, and START of each taken passage by rank. -/
def packLayout (b : Bytes) (at_ : Nat) : List Taken → List Nat × List (Nat × Nat)
  | [] => ([], [])
  | t :: r =>
    let opens := tokens4 (slice b 24 (4 * fld b 20 1))
    let closes := tokens4 (slice b 56 (4 * fld b 21 1))
    let blk := opens ++ t.toks ++ (if t.mark then [fld b 12 4] else []) ++ closes
    let rest := packLayout b (at_ + blk.length) r
    (blk ++ rest.1, (t.rank, at_ + opens.length) :: rest.2)

/-- The tokenizer table that an index names: the version the step bound, else the current one. -/
def Ctx.tableOf (c : Ctx) (d : Dev) (id : Nat) : Option TokTable :=
  match c.step.bound.find? fun b => b.kind = 4 && b.ident = id with
  | some b => d.serve.tableAt id b.version
  | none => d.serve.currentTable id

/-- Length of the row's score array, of which the COMPACT result at loft key `sel` was made: what the plan's word that leaves it there reads, else
what the result counts (R241, R243, R246). -/
def Ctx.rowLength (c : Ctx) (dev : Dev) (sel : Nat) (result : Bytes) : Nat :=
  let p := c.step.plan
  let made := (List.range p.words.length).findSome? fun i => (p.words[i]?).bind fun x =>
    if x.cls = cCOMPACT && ((List.range (p.repeatOf i).1).any fun j =>
        let y := { c with word := x, w := i, rep := j }
        y.stableUnits.any fun u => match p.desc? x.dst with | some d => y.key dev d.space u (y.addr d u) = sel | none => false)
    then (p.desc? x.srca).map fun a => a.length / 4 else none
  made.getD (fld result 8 4 + fld result 12 4)

/-- The prompt record of one row. -/
def packRecord (c : Ctx) (w : W) (u : UnitRef) (a : Nat) (len : Nat) : Bytes :=
  let rd := packRead c w u a
  let b := rd 0 0 128
  let qw := ofLe (rd (fld b 96 4) (-4) 4)
  let q := bitsOf qw 0 21
  let budget := fld b 0 4
  let kMax := fld b 4 2
  let pf := fld b 6 2
  let pl := fld b 16 2
  let sl := fld b 18 2
  if !packOk c.step.plan.indexEntry b || decide (budget < pl + q + sl) then fit len (zeros 16 ++ leBytes 1 0x40)
  else
    let empty := qw.testBit 31
    let sel := rd (fld b 104 4) 0 (48 + 16 * kMax)
    let lhdr := rd (fld b 100 4) 0 16
    let entry := fun (r : Nat) => rd (fld b 100 4) (16 + 16 * r) 16
    let n := c.rowLength w.dev (packKey u a (fld b 104 4) 0) sel
    let bound := if fld b 22 2 = 0xFFFF then none else c.step.bound[fld b 22 2]?
    let table := (bound.bind (·.index)).bind fun ix => c.tableOf w.dev ix.tokenizer
    let known := fun t => match table with
      | some x => if tokVocab x.image ≤ t then tokUnk x.image else t
      | none => t
    let passage := fun (r : Nat) => ofLe (rd (fld b 108 4) (8 * r) 8)
    let lost := fun (r : Nat) => (fld (entry r) 5 1).testBit 1 || headMissed c u a b n r (bitsOf (passage r) 48 16)
    let kept := compactEntries (sel.take 2 ++ leBytes 2 kMax ++ sel.drop 4)
    let offered := (List.range kept.length).map fun i =>
      let e := kept.getD i (0, 0, 0)
      let r := e.2.2 % n
      let le := entry r
      let pw := passage r
      let gone := decide (fld lhdr 4 2 ≤ r) || !f32Finite (fld le 8 4) || pw = 0 || lost r
      let head := (tokens4 (rd (fld b 108 4) (8 * n + pf * 4 * r) (4 * min (bitsOf pw 48 16) pf))).map known
      (i, fld le 0 5, if gone then 0 else pw, e.1, head)
    let start : Packing := { room := if empty then budget else budget - pl - q - sl, taken := [], offsets := [], skipNone := 0, skipDup := 0
                             skipBudget := 0, stopped := false, ended := false }
    -- an empty row takes nothing, and counts what is passed over
    let offered := if empty then offered.filter fun o => o.2.2.1 = 0 else offered
    let s := offered.foldl (fun s o => packEntry b o.1 o.2.1 o.2.2.1 o.2.2.2.1 o.2.2.2.2 s) start
    let ordered := if fld b 8 1 = 1 then s.taken.reverse else s.taken
    let blocks := packLayout b pl ordered
    let prompt := if empty then [] else
      tokens4 (rd (fld b 88 4) 0 (4 * pl)) ++ blocks.1 ++ tokens4 (rd (fld b 96 4) 0 (4 * q)) ++ tokens4 (rd (fld b 92 4) 0 (4 * sl))
    let used := budget - s.room
    let isTaken := fun i => s.taken.any fun t => t.rank = i
    let wts := fun (p : Nat → Bool) => sumInOrder (((List.range kept.length).filter p).map fun i => (kept.getD i (0, 0, 0)).2.1)
    let missed := (List.range (min n (fld lhdr 2 2))).any lost
    let flags := b2n (s.taken.any (·.cut)) + 2 * b2n (s.taken.any (·.long)) + 4 * b2n s.stopped + 8 * b2n empty + 16 * b2n (qw.testBit 30)
      + 32 * b2n missed
    let header := leBytes 4 used ++ leBytes 4 budget ++ leBytes 2 s.taken.length ++ leBytes 2 s.skipBudget ++ leBytes 2 s.skipDup ++
      leBytes 2 s.skipNone ++ leBytes 1 flags ++ zeros 3 ++ leBytes 4 (wts isTaken) ++ leBytes 4 (wts fun i => !isTaken i) ++
      leBytes 4 (fld sel 28 4) ++ leBytes 4 (fld sel 20 4) ++
      leBytes 4 (match bound with | some x => x.epoch | none => 0xFFFF_FFFF) ++
      leBytes 4 (match bound.bind (·.index) with | some x => x.generation | none => 0xFFFF_FFFF) ++ leBytes 4 (fld lhdr 12 4) ++ zeros 16
    let body := ((List.range budget).map fun i => leBytes 4 (if i < used then prompt.getD i 0 else 0)).flatten
    let passages := ((List.range kMax).map fun i => match s.taken[i]? with
      | some t => leBytes 5 t.id ++ leBytes 1 (b2n t.cut + 2 * b2n t.long) ++ leBytes 2 t.toks.length ++
          leBytes 4 (tget 0 t.rank blocks.2) ++ leBytes 4 t.xscore
      | none => leBytes 5 0xFF_FFFF_FFFF ++ zeros 11).flatten
    (header ++ body ++ passages).take len

/-- The MISSED bits of the ranked-list entries whose heads were missed. -/
def packMissed (c : Ctx) (w : W) (u : UnitRef) (a : Nat) : List Host.Cell :=
  let rd := packRead c w u a
  let b := rd 0 0 128
  let sel := rd (fld b 104 4) 0 16
  let n := c.rowLength w.dev (packKey u a (fld b 104 4) 0) sel
  if !packOk c.step.plan.indexEntry b then [] else (List.range n).filterMap fun r =>
    if headMissed c u a b n r (bitsOf (ofLe (rd (fld b 108 4) (8 * r) 8)) 48 16) then
      let k := packKey u a (fld b 100 4) (16 + 16 * r + 5)
      some (k, c.peek w k ||| 2)
    else none

def doPack (c : Ctx) (w : W) : W :=
  match c.step.plan.desc? c.word.srca, c.step.plan.desc? c.word.dst with
  | some a, some d =>
    let ws := c.packUnits.map fun u => c.put w.dev c.word.dst u 0 (packRecord c w u (c.addr a u) d.length)
    let bits := c.packUnits.map fun u => packMissed c w u (c.addr a u)
    c.apply c.word.dst ws.flatten (w.leaveBytes c.p false bits.flatten)
  | _, _ => w

end Sys2Proof.Machine
end

