-- ==== Sys2Proof/Machine/Bays.lean ====
section
/-! DEFINITION. Candidate queues and the words BAY_TABLE and BAY_HAMMING (R136 to R147). -/

namespace Sys2Proof.Machine

/-! ### Candidate queues (R147) -/

/-- A queue entry: node id, EXPANDED, distance code. -/
structure Cand where
  id : Nat
  expanded : Bool
  code : Nat
deriving DecidableEq, Repr

/-- A candidate queue: its capacity, TIES and entries in order. -/
structure CandQueue where
  k : Nat
  ties : Nat
  entries : List Cand
deriving DecidableEq, Repr

def Cand.before (a b : Cand) : Bool := decide (a.code < b.code) || (a.code = b.code && decide (a.id < b.id))

/-- An insertion: the candidate enters, pushes the last out, or is refused, and TIES follows. -/
def CandQueue.insert (c : Cand) (q : CandQueue) : CandQueue :=
  if c.code = 0xFFFF then q
  else if q.entries.length < q.k then { q with entries := insertBy Cand.before c q.entries }
  else match q.entries.getLast? with
    | none => q
    | some z =>
      if c.before z then
        let es := (insertBy Cand.before c q.entries).take q.k
        let z' := (es.getLast?).getD z
        { q with entries := es, ties := if z'.code < z.code then 0 else (q.ties + b2n (z.code = z'.code)) % 2 ^ 32 }
      else { q with ties := (q.ties + b2n (c.code = z.code)) % 2 ^ 32 }

def queueAt (n : Nat) : Nat := 0x2_0000 + n * 512
def queueStateAt (n : Nat) : Nat := 0x2_2000 + n * 8

def parseCand (b : Bytes) : Cand := { id := fld b 0 5, expanded := (fld b 5 1).testBit 0, code := fld b 6 2 }

def Cand.bytes (c : Cand) : Bytes := leBytes 5 c.id ++ leBytes 1 (b2n c.expanded) ++ leBytes 2 c.code

/-- `n` bytes of the window of bay `bay` from `a`, as the step sees them. -/
def Ctx.bayRead (c : Ctx) (w : W) (bay a n : Nat) : Bytes := (List.range n).map fun i => c.peek w (bayKey bay (a + i))

def bayWrite (bay a : Nat) (b : Bytes) : List Host.Cell := (List.range b.length).map fun i => (bayKey bay (a + i), b.getD i 0)

/-- Queue `n` of bay `bay`. -/
def Ctx.queue (c : Ctx) (w : W) (bay n : Nat) : CandQueue :=
  let s := c.bayRead w bay (queueStateAt n) 8
  let k := min (fld s 4 1) 64
  { k := k, ties := fld s 0 4, entries := (List.range (min (fld s 5 1) k)).map fun i => parseCand (c.bayRead w bay (queueAt n + 8 * i) 8) }

/-- The bytes that a queue leaves in its window: its entries and its state word. -/
def CandQueue.writes (bay n : Nat) (q : CandQueue) : List Host.Cell :=
  bayWrite bay (queueAt n) (q.entries.map Cand.bytes).flatten ++
  bayWrite bay (queueStateAt n) (leBytes 4 q.ties ++ leBytes 1 q.k ++ leBytes 1 q.entries.length ++ zeros 2)

/-! ### Window ranges (R137) -/

/-- Whether `n` bytes at offset `a` lie within the ranges of the bay window: those that touch are one. -/
def windowOk (a n : Nat) : Bool :=
  [(0, 0x1_4000), (0x2_0000, 0x2_2080), (0x10_0000, 0x20_0000)].any
    fun r => decide (r.1 ≤ a) && decide (a + n ≤ r.2)

/-! ### BAY_TABLE (R144) -/

def tableDs (a : Desc) : Nat := (a.length - 8) / 64

def bayTableCheck (p : Plan) (w : PWord) : Bool :=
  match p.desc? w.dst, p.desc? w.srca, p.desc? w.srcb with
  | some d, some a, some b =>
    let ds := tableDs a
    a.space = spBay && b.space = spBay && d.space = spBay && a.length = 64 * ds + 8 && decide (1 ≤ ds) && decide (ds ≤ 32)
    && decide (0x10_0000 ≤ b.base) && decide (a.base + a.length ≤ 0x1_0000) && (d.base = 0x1_0000 || d.base = 0x1_2000)
    && d.classBits % 64 = 0 && decide (d.classBits < 128) && a.classBits = 0 && b.classBits = 0
  | _, _, _ => false

def bayTableDuration (p : Plan) (w : PWord) : Nat :=
  match p.desc? w.srca with
  | some a => 32 * tableDs a + 128
  | none => 0

/-- One distance of phase 1: `inner` selects the negated inner product. -/
def tableDistance (inner : Bool) (qs xs : List Nat) : Nat :=
  let r := (List.range qs.length).foldl (fun acc e =>
    let q := qs.getD e 0
    let x := xs.getD e 0
    if inner then f32Fma q x acc else f32Fma (f32Sub q x) (f32Sub q x) acc) 0
  if inner && !f32IsNaN r then (if r.testBit 31 then r - 2 ^ 31 else r + 2 ^ 31) else r

/-- A non-negative FP32 value rounded to the nearest integer, ties to even; infinity gives 256. -/
def f32RoundInt (v : Nat) : Nat :=
  match f32Num v with
  | .fin _ m e =>
    let d := pow2 (-e)
    let n := m * pow2 e
    let fl := n / d
    let r := n % d
    if decide (d < 2 * r) || (2 * r = d && fl % 2 = 1) then fl + 1 else fl
  | _ => 256

def minVal (l : List Nat) : Nat :=
  match l with
  | [] => 0
  | x :: r => r.foldl (fun a v => if f32Gt a v then v else a) x

def maxVal (l : List Nat) : Nat :=
  match l with
  | [] => 0
  | x :: r => r.foldl (fun a v => if f32Gt v a then v else a) x

/-- The 8,192 table bytes and the pair (Ω, σ) of a query and a codebook. Under a σ that rounds to 0 the quotients that are no number or infinite give
255 (DESIGN CHOICE: log entry 147). -/
def distanceTable (inner : Bool) (ds : Nat) (query codebook : Bytes) : Bytes × Nat × Nat :=
  let el := fun (b : Bytes) i => bf16To32 (fld b (2 * i) 2)
  let t := (List.range 32).map fun j => (List.range 256).map fun c =>
    tableDistance inner ((List.range ds).map fun e => el query (j * ds + e)) ((List.range ds).map fun e => el codebook ((j * 256 + c) * ds + e))
  let fin := t.map (·.filter f32Finite)
  let m := fin.map minVal
  let spans := (List.range 32).map fun j => f32Sub (maxVal (fin.getD j [])) (m.getD j 0)
  let r := maxVal ((List.range 32).filterMap fun j => if (fin.getD j []).isEmpty then none else some (spans.getD j 0))
  let s0 := f32DivPos r (f32OfRat false 255 1 0)
  let sigma := if bitsOf r 0 31 = 0 || !f32Finite s0 then f32One else s0
  let omega := m.foldl f32Add 0
  let bytes := (List.range 32).map fun j => (t.getD j []).map fun v =>
    if f32Finite v then BitVec.ofNat 8 (min 255 (f32RoundInt (f32DivPos (f32Sub v (m.getD j 0)) sigma))) else (255 : Byte)
  (bytes.flatten, omega, sigma)

/-- BAY_TABLE. The codebook is 16,384 × ds bytes from SRCB on, whatever its LENGTH (DESIGN CHOICE: log entry 147). -/
def doBayTable (c : Ctx) (w : W) : W :=
  match c.step.plan.desc? c.word.srca, c.step.plan.desc? c.word.dst with
  | some a, some d =>
    let ds := tableDs a
    let rs := (c.bayUnits w.dev).map fun u =>
      let r := distanceTable (d.flags.testBit 14) ds (c.read w c.word.srca u 0 (64 * ds)) (c.read w c.word.srcb u 0 (16384 * ds))
      (c.put w.dev c.word.dst u 0 r.1, c.put w.dev c.word.srca u (64 * ds) (leBytes 4 r.2.1 ++ leBytes 4 r.2.2))
    let w := c.apply c.word.dst (rs.map (·.1)).flatten w
    c.apply c.word.srca (rs.map (·.2)).flatten w
  | _, _ => w

/-- The distance code of a 32-byte code under a table of 8,192 bytes (R145). -/
def tableCode (table code : Bytes) : Nat :=
  sumNat ((List.range 32).map fun j => fld table (j * 256 + fld code j 1) 1)

/-! ### BAY_HAMMING (R143) -/

/-- Distance code of two sketches of 1,024 bits. -/
def hamming (x y : Bytes) : Nat := popCount 1024 (ofLe x ^^^ ofLe y)

def bayHammingCheck (p : Plan) (w : PWord) : Bool :=
  match p.desc? w.dst, p.desc? w.srca, p.desc? w.srcb with
  | some d, some a, some b =>
    let q := b.length / 128
    a.space = spBay && b.space = spBay && d.space = spBay && a.length % 136 = 0 && b.length = 128 * q && decide (1 ≤ q) && decide (q ≤ 16)
    && decide (0x2_0000 ≤ d.base) && (d.base - 0x2_0000) % 512 = 0 && decide ((d.base - 0x2_0000) / 512 + q ≤ 16)
    && a.classBits = 0 && b.classBits = 0 && d.classBits = 0
  | _, _, _ => false

def bayHammingDuration (p : Plan) (w : PWord) : Nat :=
  match p.desc? w.srca, p.desc? w.srcb with
  | some a, some b => a.length / 136 * (b.length / 128) + 4
  | _, _ => 0

def doBayHamming (c : Ctx) (w : W) : W :=
  match c.step.plan.desc? c.word.srca, c.step.plan.desc? c.word.srcb, c.step.plan.desc? c.word.dst with
  | some a, some b, some d =>
    let ws := (c.bayUnits w.dev).map fun u =>
      let q0 := (c.addr d u - 0x2_0000) / 512
      (List.range (b.length / 128)).map fun q =>
        let query := c.read w c.word.srcb u (128 * q) 128
        let r := (List.range (a.length / 136)).foldl (fun (s : CandQueue) i =>
          let e := c.read w c.word.srca u (136 * i) 136
          s.insert { id := fld e 0 5, expanded := false, code := hamming (slice e 8 128) query }) (c.queue w u.bay (q0 + q))
        r.writes u.bay (q0 + q)
    c.apply c.word.dst (ws.map List.flatten).flatten w
  | _, _, _ => w

end Sys2Proof.Machine
end

