-- ==== Sys2Proof/Machine/IndexRecords.lean ====
section
/-! DEFINITION. The records of an index by address, node ids and states, filters, sketches and codes, and the traversal as a
function of its block (R163 to R185, R190 to R197). -/

namespace Sys2Proof.Machine

/-! ### Node ids and states (R164, R172) -/

def nodeId (shard part slot : Nat) : Nat := shard * 2 ^ 33 + part * 2 ^ 24 + slot
def idSlot (i : Nat) : Nat := bitsOf i 0 24
def idPart (i : Nat) : Nat := bitsOf i 24 9
def idShard (i : Nat) : Nat := bitsOf i 33 7

abbrev sentinelId := 0xFF_FFFF_FFFF
abbrev noEpoch := 0xFFFF_FFFF

inductive NodeState where
  | absent | live | tombstoned
deriving DecidableEq, Repr

/-- State of a node for a step bound to epoch `e`. -/
def nodeState (ins del e : Nat) : NodeState := if e < ins then .absent else if e < del then .live else .tombstoned

/-! ### Descriptors (R168) -/

def parseIndexDesc (b : Bytes) : IndexDesc :=
  { large := fld b 6 1 = 2, metric := fld b 7 1, indexId := fld b 8 8, generation := fld b 0x10 4, dim := fld b 0x14 2, ds := fld b 0x16 1
    vecFormat := fld b 0x17 1, partCap := fld b 0x18 4, shard := fld b 0x1C 1, cbHalf := fld b 0x1D 1, partMask := fld b 0x20 64
    period := fld b 0x60 4, vrec := fld b 0x64 4, created := fld b 0x68 8, phdrBase := fld b 0x70 8, scanBase := fld b 0x78 8
    adjBase := fld b 0x80 8, vpoolBase := fld b 0x88 8, vecBase := fld b 0x90 8, psgBase := fld b 0x98 8, cbBase := fld b 0xA0 8
    projBase := fld b 0xA8 8, vecSpace := fld b 0xB0 1, psgSpace := fld b 0xB1 1, cbSpace := fld b 0xB2 1, projSpace := fld b 0xB3 1
    vecStride := fld b 0xB4 4, tokenizer := fld b 0xB8 8 }

/-! ### Where the records lie (R167, R169, R170, R179, R180, R183) -/

def IndexDesc.z (d : IndexDesc) : Nat := if d.large then 64 else 192
def IndexDesc.phdrKey (d : IndexDesc) (b : Nat) : Nat := memKey spStack b d.phdrBase
def IndexDesc.scanKey (d : IndexDesc) (b s : Nat) : Nat := memKey spStack b (d.scanBase + s * d.z)
def IndexDesc.adjKey (d : IndexDesc) (b s : Nat) : Nat :=
  if d.large then memKey spBarn 0 (d.adjBase + (b * d.partCap + s) * 192) else memKey spStack b (d.adjBase + s * 192)
def IndexDesc.poolKey (d : IndexDesc) (b p : Nat) : Nat :=
  if d.large then memKey spBarn 0 (d.vpoolBase + (b * d.vrec + p) * 192) else memKey spStack b (d.vpoolBase + p * 192)
def IndexDesc.vecAddr (d : IndexDesc) (b s : Nat) : Nat := d.vecBase + (b * d.partCap + s) * d.vecStride
def IndexDesc.parts (d : IndexDesc) : List Nat := setBits 512 d.partMask

/-- Fields of a scan record (R170, R171). -/
structure ScanRec where
  code : Bytes
  attr : Nat
  ins : Nat
  del : Nat
  passage : Nat
  norm : Nat
deriving DecidableEq, Repr

def parseScan (large : Bool) (b : Bytes) : ScanRec :=
  let o := if large then 32 else 128
  { code := b.take o, attr := fld b o 8, ins := fld b (o + 8) 4, del := fld b (o + 12) 4, passage := fld b (o + 16) 8, norm := fld b (o + 24) 4 }

def ScanRec.bytes (large : Bool) (r : ScanRec) : Bytes :=
  fit (if large then 32 else 128) r.code ++ leBytes 8 r.attr ++ leBytes 4 r.ins ++ leBytes 4 r.del ++ leBytes 8 r.passage ++ leBytes 4 r.norm ++
  zeros (if large then 4 else 36)

/-- An adjacency record (R179). -/
structure AdjRec where
  edges : List Nat
  epoch : Nat
  prev : Nat
  degree : Nat
  pool : Bool
deriving DecidableEq, Repr

def parseAdj (b : Bytes) : AdjRec :=
  { edges := (List.range 32).map fun i => fld b (5 * i) 5, epoch := fld b 160 4, prev := fld b 164 4, degree := fld b 168 1
    pool := (fld b 169 1).testBit 0 }

/-- The valid edges, none for a malformed record. -/
def AdjRec.valid (r : AdjRec) : Option (List Nat) := if 32 < r.degree then none else some (r.edges.take r.degree)

def AdjRec.bytes (r : AdjRec) : Bytes :=
  ((List.range 32).map fun i => leBytes 5 (r.edges.getD i sentinelId)).flatten ++ leBytes 4 r.epoch ++ leBytes 4 r.prev ++
  leBytes 1 r.degree ++ leBytes 1 (b2n r.pool) ++ zeros 22

/-- What R180 says of a record at a depth of the chain for epoch `e`: its edges serve, no edges, or the pool record to read next. -/
inductive ChainStep where
  | serves
  | empty
  | next (p : Nat)
deriving DecidableEq, Repr

def chainStep (e depth : Nat) (r : AdjRec) : ChainStep :=
  if r.epoch ≤ e then .serves else if r.prev = noEpoch || depth = 2 then .empty else .next r.prev

/-- The record whose edges serve, from the main record; `main` and `pool` read records. -/
def chainRec (e : Nat) (main : AdjRec) (pool : Nat → AdjRec) : Option AdjRec :=
  match chainStep e 0 main with
  | .serves => some main
  | .empty => none
  | .next p => let r := pool p
    match chainStep e 1 r with
    | .serves => some r
    | .empty => none
    | .next p => let r := pool p
      match chainStep e 2 r with
      | .serves => some r
      | _ => none

/-! ### Filters (R181, R182) -/

/-- A term's result and whether it counts as malformed. -/
def filterTerm (b : Bytes) (t attr : Nat) : Bool × Bool :=
  let o := 8 + 24 * t
  let form := fld b o 1
  let lsb := fld b (o + 1) 1
  let width := fld b (o + 2) 1
  if form = 0 || decide (4 < form) || width = 0 || decide (64 < lsb + width) then (false, true)
  else
    let f := bitsOf attr lsb width
    let a := bitsOf (fld b (o + 8) 8) 0 width
    let c := bitsOf (fld b (o + 16) 8) 0 width
    (if form = 1 then f &&& a ≠ 0 else if form = 2 then f &&& a = a else if form = 3 then f = a else decide (a ≤ f) && decide (f ≤ c), false)

/-- Whether a node passes, and the count of malformed terms. -/
def filterEval (b : Bytes) (attr : Nat) : Bool × Nat :=
  let terms := fld b 0 1
  if 4 < terms then (false, 1)
  else
    let ts := (List.range terms).map fun t => filterTerm b t attr
    let r := bitMask ((List.range terms).filter fun t => (ts.getD t (false, false)).1)
    ((fld b 2 2).testBit r, (ts.filter (·.2)).length)

/-! ### The traversal (R190 to R197) -/

/-- A traversal block's header, pending list and visited filter. -/
structure Trav where
  kBeam : Nat
  kRes : Nat
  f : Nat
  lag : Nat
  mode : Nat
  entryUse : Nat
  scanNext : Nat
  scanEnd : Nat
  query : Nat
  hop : Nat
  expanded : Nat
  scored : Nat
  pendDrop : Nat
  fetchIdle : Nat
  foreign : Nat
  converged : Nat
  adjMissed : Nat
  malformed : Nat
  pending : List Nat
  visited : Nat
deriving DecidableEq, Repr

/-- From the bytes 0 to 0x33F and the visited filter of a block. -/
def parseTrav (b filter : Bytes) : Trav :=
  { kBeam := fld b 0 1, kRes := fld b 1 1, f := fld b 2 1, lag := fld b 3 1, mode := fld b 4 1, entryUse := fld b 5 1
    scanNext := fld b 8 4, scanEnd := fld b 12 4, query := fld b 16 4, hop := fld b 20 2, expanded := fld b 22 2, scored := fld b 24 2
    pendDrop := fld b 26 2, fetchIdle := fld b 28 2, foreign := fld b 30 2, converged := fld b 32 2, adjMissed := fld b 34 2
    malformed := fld b 38 2
    pending := (List.range (min (fld b 36 2) 128)).map fun i => fld b (0x140 + 4 * i) 4 % 2 ^ 24
    visited := ofLe filter }

def Trav.header (t : Trav) : Bytes :=
  leBytes 1 t.kBeam ++ leBytes 1 t.kRes ++ leBytes 1 t.f ++ leBytes 1 t.lag ++ leBytes 1 t.mode ++ leBytes 1 t.entryUse ++ zeros 2 ++
  leBytes 4 t.scanNext ++ leBytes 4 t.scanEnd ++ leBytes 4 t.query ++ leBytes 2 t.hop ++ leBytes 2 t.expanded ++ leBytes 2 t.scored ++
  leBytes 2 t.pendDrop ++ leBytes 2 t.fetchIdle ++ leBytes 2 t.foreign ++ leBytes 2 t.converged ++ leBytes 2 t.adjMissed ++
  leBytes 2 t.pending.length ++ leBytes 2 t.malformed ++ zeros 24

def Trav.scan (t : Trav) : Bool := t.mode.testBit 1
def Trav.navPass (t : Trav) : Bool := t.mode.testBit 0

/-- The header's ranges (R190); its reserved bytes are tested apart. -/
def Trav.ok (large : Bool) (t : Trav) : Bool :=
  decide (1 ≤ t.kBeam) && decide (t.kBeam ≤ 64) && decide (1 ≤ t.kRes) && decide (t.kRes ≤ 64) && decide (1 ≤ t.f)
  && decide (t.f ≤ if large then 16 else 4) && decide (1 ≤ t.lag) && decide (t.lag ≤ if large then 7 else 1) && decide (t.mode ≤ 3)
  && decide (t.entryUse ≤ 8)

/-- The two bit numbers of a slot (R192). -/
def visitedBits (s : Nat) : Nat × Nat := (s * 0x9E37_79B1 % 2 ^ 32 / 2 ^ 17, s * 0x85EB_CA77 % 2 ^ 32 / 2 ^ 17)

def Trav.seen (t : Trav) (s : Nat) : Bool := t.visited.testBit (visitedBits s).1 && t.visited.testBit (visitedBits s).2

def Trav.markSlot (s : Nat) (t : Trav) : Trav := { t with visited := t.visited ||| 2 ^ (visitedBits s).1 ||| 2 ^ (visitedBits s).2 }

/-- The device's fields at a start (R190, R195). -/
def Trav.start (t : Trav) : Trav :=
  { t with hop := 0, expanded := 0, scored := 0, pendDrop := 0, fetchIdle := 0, foreign := 0, converged := 0xFFFF, adjMissed := 0
           malformed := 0, pending := [], visited := 0 }

def Trav.push (s : Nat) (t : Trav) : Trav :=
  let t := t.markSlot s
  if t.pending.length < 128 then { t with pending := t.pending ++ [s] } else { t with pendDrop := (t.pendDrop + 1) % 65536 }

def Trav.seed (slots : List Nat) (t : Trav) : Trav := slots.foldl (fun t s => t.push s) t

/-- Entry points that a start takes from a partition header. -/
def entryPoints (use : Nat) (phdr : Bytes) : List Nat :=
  let n := fld phdr 20 1
  (List.range (if use = 0 then n else min use n)).map fun i => fld phdr (32 + 4 * i) 4 % 2 ^ 24

def Trav.edge (shard part cap e : Nat) (t : Trav) : Trav :=
  if idShard e ≠ shard || idPart e ≠ part || decide (cap ≤ idSlot e) then { t with foreign := (t.foreign + 1) % 65536 }
  else if t.seen (idSlot e) then t
  else t.push (idSlot e)

/-- The edges that R179 passes over. -/
def strangers (shard part : Nat) (es : List Nat) : Nat := (es.filter fun e => idShard e ≠ shard || idPart e ≠ part).length

/-- Expansion of a node's adjacency; none stands for a malformed record. -/
def Trav.expand (shard part cap : Nat) (es : Option (List Nat)) (t : Trav) : Trav :=
  match es with
  | none => { t with foreign := (t.foreign + 1) % 65536 }
  | some l => l.foldl (fun t e => t.edge shard part cap e) t

/-- Up to `n` slots from the head of the pending list. -/
def Trav.take (n : Nat) (t : Trav) : List Nat × Trav :=
  let got := t.pending.take n
  (got, { t with pending := t.pending.drop n, fetchIdle := (t.fetchIdle + (n - got.length)) % 65536 })

/-- Up to `n` slots of a scan. -/
def Trav.takeScan (n : Nat) (t : Trav) : List Nat × Trav :=
  let m := min n (t.scanEnd - t.scanNext)
  ((List.range m).map (t.scanNext + ·), { t with scanNext := t.scanNext + m, fetchIdle := (t.fetchIdle + (n - m)) % 65536 })

/-- Beam and result queue of a traversal. -/
structure Beams where
  beam : CandQueue
  res : CandQueue
deriving DecidableEq, Repr

/-- One staged record scored (R196): its id, state, whether it passes the filter, and its code. -/
def Trav.score (t : Trav) (id code : Nat) (st : NodeState) (passes : Bool) (q : Beams) : Beams :=
  let c : Cand := { id := id, expanded := false, code := code }
  let beam := st ≠ .absent && !t.scan && (passes || !t.navPass)
  { beam := if beam then q.beam.insert c else q.beam, res := if st = .live && passes then q.res.insert c else q.res }

/-- The selection of R197: the first unexpanded beam entry. -/
def selectBeam (q : CandQueue) : Option (Cand × CandQueue) :=
  match findIdxFrom (fun c => !c.expanded) 0 q.entries with
  | some (i, c) => some (c, { q with entries := q.entries.set i { c with expanded := true } })
  | none => none

/-! ### Sketches and codes (R175, R177) -/

def f32Neg (v : Nat) : Nat := if v.testBit 31 then v - 2 ^ 31 else v + 2 ^ 31

/-- x′ of R175: the vector, or the vector divided by its norm. -/
def unitVector (cosine : Bool) (norm : Nat) (x : List Nat) : List Nat :=
  if cosine then x.map fun v =>
    (if f32Positive norm && f32Finite norm then f32DivPos v norm else Config.unstated 0x20 [v, norm] % 2 ^ 32)
  else x

/-- The sketch of x′ under the projection whose element (row, e) is `proj`, as FP32 bits. -/
def sketchOf (dim : Nat) (proj : Nat → Nat → Nat) (x : List Nat) : Bytes :=
  bitmap 128 fun i => f32Ge ((List.range dim).foldl (fun a e => f32Fma (proj i e) (x.getD e 0) a) 0) 0

/-- The product code of x′; `cent j c e` is element e of centroid c of sub-space j. -/
def codeOf (ds : Nat) (cent : Nat → Nat → Nat → Nat) (x : List Nat) : Bytes :=
  (List.range 32).map fun j =>
    let d := fun c => tableDistance false ((List.range ds).map fun e => x.getD (j * ds + e) 0) ((List.range ds).map fun e => cent j c e)
    let best := (List.range 256).foldl (fun (b : Option (Nat × Nat)) c =>
      let v := d c
      if f32IsNaN v then b
      else match b with
        | none => some (c, v)
        | some x => if f32Gt x.2 v then some (c, v) else b) none
    BitVec.ofNat 8 (match best with | some x => x.1 | none => 0)

/-- Elements of a full vector record as FP32 bits (R183). -/
def vectorElems (fmt dim : Nat) (b : Bytes) : List Nat :=
  (List.range dim).map fun e =>
    if fmt = fFP32 then fld b (4 * e) 4
    else if fmt = fBF16 then bf16To32 (fld b (2 * e) 2)
    else f32OfNum [] (elemNum fN8 (fld b (dim / 32 * 2 + e) 1) (decodeScale fN8 (fld b (2 * (e / 32)) 2)) none)

end Sys2Proof.Machine
end

