-- ==== Sys2Proof/Machine/Search.lean ====
section
/-! DEFINITION. The words of a traversal: BAY_FETCH, BAY_HOP and BAY_QUEUE_OUT (R189 to R201, R207), and the arrival of adjacency
reads (R197, R198). -/

namespace Sys2Proof.Machine

/-! ### The bound index of a word -/

/-- What a BOUND descriptor binds: the bound entry and its index descriptor. -/
def Ctx.boundIndex (c : Ctx) (di : Nat) : Option (Bound × IndexDesc) :=
  match c.step.plan.desc? di with
  | some d => if d.bound then (c.step.bound[d.binding]?).bind fun b => b.index.map fun x => (b, x) else none
  | none => none

/-- H of the traversal that a word belongs to: the repetitions of its REPEAT, 1 outside any. -/
def Ctx.hops (c : Ctx) : Nat := (c.step.plan.repeatOf c.w).1

/-! ### Blocks -/

def Ctx.trav (c : Ctx) (w : W) (bay block : Nat) : Trav :=
  parseTrav (c.bayRead w bay block 0x340) (c.bayRead w bay (block + 0x1000) 4096)

/-- Header, pending list and visited filter written back. -/
def Trav.writes (bay block : Nat) (t : Trav) : List Host.Cell :=
  bayWrite bay block t.header ++
  bayWrite bay (block + 0x140) ((List.range 128).map fun i => leBytes 4 (t.pending.getD i 0)).flatten ++
  bayWrite bay (block + 0x1000) (leBytes 4096 t.visited)

def ringAt (block hop : Nat) : Nat := block + 0x340 + hop % 8 * 192

/-- Bytes of a pseudo-channel or of barn memory, by key. -/
def Ctx.bytesAt (c : Ctx) (w : W) (k n : Nat) : Bytes := (List.range n).map fun i => c.peek w (k + i)

/-- Granules of `n` bytes at key `k`. -/
def granulesAt (k n : Nat) : List Nat := (List.range (ceilDiv (k % 64 + n) 64)).map fun i => k / 64 * 64 + 64 * i

/-! ### BAY_FETCH (R193 to R195) -/

def Desc.isStart (d : Desc) : Bool := d.flags.testBit 15

/-- What one BAY_FETCH does on one bay. -/
structure Fetched1 where
  writes : List Host.Cell
  slots : List Nat
  malformed : Bool
  foreign : Nat
  bad : List Nat
deriving DecidableEq, Repr

def Step.selectedFor (s : Step) (bay block hop : Nat) : Option Selected :=
  s.selected.find? fun x => x.bay = bay && x.block = block && x.hop = hop

/-- Granules of the records that the chain rule reads after a main record (R180). -/
def chainGranules (e : Nat) (main : AdjRec) (pool : Nat → AdjRec) (key : Nat → Nat) : List Nat :=
  match chainStep e 0 main with
  | .next p => granulesAt (key p) 192 ++ (match chainStep e 1 (pool p) with
    | .next q => granulesAt (key q) 192
    | _ => [])
  | _ => []

/-- The adjacency of the node selected for this hop: its edges (none: malformed), whether it was missed, and the granules read. -/
def Ctx.adjacency (c : Ctx) (w : W) (ix : IndexDesc) (epoch : Nat) (bay block : Nat) (sel : Selected) (adjOff : Nat) :
    Option (List Nat) × Bool × List Nat :=
  if ix.large then
    if sel.state = 1 then ((parseAdj (c.bayRead w bay (ringAt block sel.hop) 192)).valid, false, [])
    else (some [], decide (sel.state = 0), [])
  else
    let main := memKey spStack bay (bitsOf (adjOff + sel.slot * 192) 0 31)
    let rec_ := fun k => parseAdj (c.bytesAt w k 192)
    let r := chainRec epoch (rec_ main) fun p => rec_ (ix.poolKey bay p)
    (match r with | some x => x.valid | none => some [], false,
     granulesAt main 192 ++ chainGranules epoch (rec_ main) (fun p => rec_ (ix.poolKey bay p)) (ix.poolKey bay))

/-- Sketches as BAY_HAMMING takes them, each behind its header with the node id (R143, R170). They follow the scan records in fetch staging
(DEDUCED: log entry 117). -/
def IndexDesc.sketchStaging (ix : IndexDesc) (bay block : Nat) (slots : List Nat) (staged : List Bytes) : List Host.Cell :=
  if ix.large then []
  else bayWrite bay (block + 0xC40) ((List.range slots.length).map fun i =>
    leBytes 5 (nodeId ix.shard bay (slots.getD i 0)) ++ zeros 3 ++ (staged.getD i []).take 128).flatten

/-- One bay's part of a BAY_FETCH at traversal block `block`; `scanOff` and `adjOff` are the addresses that SRCB and SRCA give. -/
def Ctx.fetchBay (c : Ctx) (w : W) (ix : IndexDesc) (epoch bay block scanOff adjOff : Nat) (start : Bool) : Fetched1 :=
  let hdr := c.bayRead w bay block 64
  let t0 := c.trav w bay block
  let stop : Fetched1 := { writes := [], slots := [], malformed := true, foreign := 0, bad := [] }
  if !t0.ok ix.large || fld hdr 6 2 ≠ 0 || !allZero (slice hdr 40 24) then stop
  else
    let seeds := start && !t0.scan
    let phdr := c.bytesAt w (ix.phdrKey bay) 64
    let n := fld phdr 20 1
    if seeds && (n = 0 || decide (8 < n)) then { stop with bad := c.failing w.dev (granulesAt (ix.phdrKey bay) 64) }
    else
      let t := if start then t0.start else t0
      let t := if seeds then t.seed (entryPoints t.entryUse phdr) else t
      let sel := if t.scan || start then none else c.step.selectedFor bay block c.rep
      let adj := sel.map fun s => c.adjacency w ix epoch bay block s adjOff
      let t := match adj with
        | some (es, missed, _) =>
          let t := t.expand ix.shard bay ix.partCap es
          if missed then { t with adjMissed := (t.adjMissed + 1) % 65536 } else t
        | none => t
      let strange := match adj with
        | some (some es, _, _) => strangers ix.shard bay es
        | _ => 0
      let reads := if seeds then t.f - 1 else t.f
      let (slots, t) := if t.scan then t.takeScan reads else t.take reads
      let keyOf := fun s => memKey spStack bay (bitsOf (scanOff + s * ix.z) 0 31)
      let staged := slots.map fun s => c.bytesAt w (keyOf s) ix.z
      let read := (slots.map fun s => granulesAt (keyOf s) ix.z).flatten ++ (match adj with | some a => a.2.2 | none => [])
        ++ (if seeds then granulesAt (ix.phdrKey bay) 64 else [])
      { writes := t.writes bay block ++ bayWrite bay (block + 0x940) staged.flatten ++ ix.sketchStaging bay block slots staged, slots := slots, malformed := false
        foreign := strange, bad := c.failing w.dev read }

def setStaging (bay block fetch : Nat) (slots : List Nat) (l : List Staging) : List Staging :=
  { bay := bay, block := block, fetch := fetch, slots := slots } :: l.filter fun x => !(x.bay = bay && x.block = block)

def doBayFetch (c : Ctx) (w : W) : W :=
  match c.step.plan.desc? c.word.dst, c.step.plan.desc? c.word.srcb, c.boundIndex c.word.srcb with
  | some d, some b, some (bound, ix) =>
    let start := d.isStart && c.rep = 0
    let adj := fun u => match c.step.plan.desc? c.word.srca with | some a => c.addr a u | none => 0
    let known := if start then [] else c.step.travMalformed
    let rs := (c.bayUnits w.dev).filterMap fun u =>
      let block := c.addr d u
      if known.contains (u.bay, block) then none
      else some (u.bay, block, c.fetchBay w ix bound.epoch u.bay block (c.addr b u) (adj u) start)
    let w := c.apply c.word.dst (rs.map fun r => r.2.2.writes).flatten w
    w.step c.p fun s => rs.foldl (fun s r =>
      let (bay, block, f) := r
      let mine := fun (x : Nat × Nat) => x = (bay, block)
      { s with
        travMalformed := (if f.malformed then [(bay, block)] else []) ++ s.travMalformed.filter fun x => !mine x
        travCount := s.travCount + b2n f.malformed
        staging := if f.malformed then s.staging else setStaging bay block c.w f.slots s.staging
        selected := s.selected.filter fun x => !(mine (x.bay, x.block) && (start || x.hop = c.rep))
        foreign := s.foreign + f.foreign
        badRead := s.badRead ++ f.bad }) s
  | _, _, _ => w

/-! ### BAY_HOP (R196, R197) -/

/-- What one BAY_HOP does on one bay. -/
structure Hopped where
  writes : List Host.Cell
  terms : Nat
  chosen : Option Nat
deriving DecidableEq, Repr

/-- One bay's part of a BAY_HOP: queue `q`, table memory at `table` in LARGE. -/
def Ctx.hopBay (c : Ctx) (w : W) (ix : IndexDesc) (epoch bay block q table : Nat) (slots : List Nat) : Hopped :=
  let t0 := c.trav w bay block
  let cleared := fun k => CandQueue.mk k 0 []
  let q0 : Beams := if c.rep = 0 then { beam := cleared t0.kBeam, res := cleared t0.kRes }
    else { beam := c.queue w bay q, res := c.queue w bay (q + 1) }
  let prog := c.bayRead w bay (block + 0x40) 128
  let query := c.bayRead w bay (block + 0xC0) 128
  let tbl := if ix.large then c.bayRead w bay table 8192 else []
  let recs := (List.range slots.length).map fun i => (slots.getD i 0, parseScan ix.large (c.bayRead w bay (block + 0x940 + ix.z * i) ix.z))
  let scored := recs.foldl (fun (s : Beams × Nat) r =>
    let st := nodeState r.2.ins r.2.del epoch
    let fe := filterEval prog r.2.attr
    let code := if ix.large then tableCode tbl r.2.code else hamming r.2.code query
    (t0.score (nodeId ix.shard bay r.1) code st fe.1 s.1, if st = .absent then s.2 else fe.2)) (q0, 0)
  let count := t0.malformed = 0 && decide (0 < scored.2)
  let t := { t0 with scored := (t0.scored + slots.length) % 65536, malformed := if count then scored.2 else t0.malformed }
  let may := !t.scan && decide (c.rep + t.lag ≤ c.hops - 1)
  let sel := if may then selectBeam scored.1.beam else none
  let beam := match sel with | some (_, b) => b | none => scored.1.beam
  let t := { t with
    hop := (t.hop + 1) % 65536
    expanded := (t.expanded + b2n sel.isSome) % 65536
    converged := if may && sel.isNone && t.converged = 0xFFFF then c.rep % 65536 else t.converged }
  { writes := bayWrite bay block t.header ++ beam.writes bay q ++ scored.1.res.writes bay (q + 1)
    terms := if count then scored.2 else 0
    chosen := sel.map fun s => idSlot s.1.id }

/-- A deadline read of `n` bytes from key `src`, staged from key `dst` or taken in place, one posting a granule. -/
def postReads (desc rep deadline : Nat) (miss breach : Bool) (src : Nat) (dst : Option Nat) (n : Nat) : List Posted :=
  (granulesAt src n).map fun g =>
    let lo := max g src
    { desc := desc, rep := rep, deadline := deadline, hasDeadline := true, missZero := miss, breach := breach, src := g, skip := lo - g
      dst := dst.map fun k => k + (lo - src), len := min (g + 64) (src + n) - lo, data := none, stage := false, writer := 0 }

/-- Postings of the unit of kind `kind` and ordinal `n` (R347). -/
def byUnit (kind n : Nat) (l : List Posted) : List Posted := l.map fun x => { x with unit := kind * 2 ^ 32 + n }

/-- New postings, made in plan cycle `cycle` at herd count `herd`; what earlier reads of the same granules left is forgotten, and their copies are
absent until they arrive (R57). -/
def Step.post (cycle herd : Nat) (l : List Posted) (s : Step) : Step :=
  let l := l.map fun x => { x with cycle := cycle, since := herd }
  let fresh := fun (d r g : Nat) => !l.any fun p => p.desc = d && p.rep = r && p.src = g
  let s := s.awaits none (l.filterMap fun p => p.dst.map fun k => (k, p.len))
  { s with
    posted := s.posted ++ l, landed := s.landed.filter fun x => fresh x.1 x.2.1 x.2.2.1
    missed := s.missed.filter fun x => fresh x.1 x.2.1 x.2.2 }

/-- What the word posts at its slot. -/
def Ctx.post (c : Ctx) (l : List Posted) (s : Step) : Step := s.post c.slot (c.step.herdAt c.slot) l

/-- Deadline of descriptor `d` in repetition `j` of word `w` (R193). -/
def Plan.deadlineAt (p : Plan) (w : Nat) (d : Desc) (j : Nat) : Nat := d.deadline + j * (p.repeatOf w).2

/-- The first BAY_FETCH of the plan that names block `block` of bay `bay` in some repetition. -/
def Ctx.fetchNaming (c : Ctx) (d : Dev) (bay block : Nat) : Option Nat :=
  (findIdxFrom (fun (i : Nat × PWord) =>
    let x := { c with word := i.2, w := i.1 }
    i.2.cls = cBAYFETCH && (match c.step.plan.desc? i.2.dst with
      | some t => (x.bayUnits d).any fun u => u.bay = bay && (List.range (c.step.plan.repeatOf i.1).1).any fun j => Ctx.addr { x with rep := j } t u = block
      | none => false)) 0 (c.step.plan.words.zipIdx.map fun y => (y.2, y.1))).map (·.1)

def doBayHop (c : Ctx) (w : W) : W :=
  match c.step.plan.desc? c.word.dst, c.step.plan.desc? c.word.srca with
  | some d, some a =>
    let tableOf := fun u => match c.step.plan.desc? c.word.srcb with | some b => c.addr b u | none => 0
    let rs := (c.bayUnits w.dev).map fun u =>
      let block := c.addr a u
      let q := (c.addr d u - 0x2_0000) / 512
      let st := c.step.staging.find? fun x => x.bay = u.bay && x.block = block
      -- without a BAY_FETCH of the step on the block there is no staged record, and the hop goes on as for one that staged none
      let fetch := match st with | some x => some (x.fetch, x.slots) | none => (c.fetchNaming w.dev u.bay block).map fun i => (i, [])
      let fetchWord := fetch.bind fun x => c.step.plan.words[x.1]?
      let bound := fetchWord.bind fun x => c.boundIndex x.srcb
      let r := if c.step.travMalformed.contains (u.bay, block) then none
        else match fetch, bound with
          | some x, some (b, ix) => some (c.hopBay w ix b.epoch u.bay block q (tableOf u) x.2, ix, fetchWord, x.1)
          | _, _ => let ix := { parseIndexDesc [] with large := decide (c.word.srcb ≠ noDesc) }
            some (c.hopBay w ix 0 u.bay block q (tableOf u) [], ix, none, 0)
      (u, block, q, r)
    let lag := fun (bay block : Nat) => (c.trav w bay block).lag
    let w' := c.apply c.word.dst (rs.map fun r => match r.2.2.2 with | some x => x.1.writes | none => []).flatten w
    w'.step c.p fun s => rs.foldl (fun s r =>
      let (u, block, q, res) := r
      let bad := c.step.travMalformed.contains (u.bay, block)
      let s := { s with lastHop := (u.bay, q, block, bad) :: s.lastHop.filter fun x => !(x.1 = u.bay && x.2.1 = q) }
      match res with
      | none => s
      | some (h, ix, fw, fi) =>
        let s := { s with
          staging := s.staging.map fun x => if x.bay = u.bay && x.block = block then { x with slots := [] } else x
          termsMalformed := s.termsMalformed + h.terms }
        match h.chosen with
        | none => s
        | some slot =>
          let hop := c.rep + lag u.bay block
          -- the adjacency descriptor is SRCA of the traversal's BAY_FETCH
          match fw.bind fun x => (s.plan.desc? x.srca).map fun ad => (x.srca, ad) with
          | none => s
          | some (ai, ad) =>
            let src := if ix.large then memKey spBarn 0 (ad.base + s.boundBase ad + ad.strideUnit * u.ord + ad.strideRep * hop
                + (u.bay * ix.partCap + slot) * 192) else 0
            let s := { s with selected := { bay := u.bay, block := block, hop := hop, slot := slot, depth := 0, src := src, state := 0 } :: s.selected }
            if ix.large then
              c.post (byUnit kBAY u.bay (postReads ai hop (s.plan.deadlineAt fi ad hop) ad.missZero false src (some (bayKey u.bay (ringAt block hop))) 192)) s
            else s) s
  | _, _ => w

/-! ### Arrival of an adjacency record (R180, R197) -/

/-- A record of a chain has arrived whole when none of its granules waits or was missed. -/
def Step.recordHere (s : Step) (x : Selected) : Bool :=
  let ring := bayKey x.bay (ringAt x.block x.hop)
  x.state = 0 && !(s.posted.any fun p => p.rep = x.hop && decide (x.src ≤ p.src + 63) && decide (p.src < x.src + 192)
    && (match p.dst with | some k => decide (ring ≤ k) && decide (k < ring + 192) | none => false))
  && (granulesAt x.src 192).all fun g => s.landed.any fun l => l.2.1 = x.hop && l.2.2.1 = g && l.2.2.2 + x.src = ring + g + 64

/-- The chain rule applied, at plan cycle `cycle` and herd count `herd`, to every record that has arrived whole: it serves, gives no edges, or its pool
record is requested. -/
def chainArrivals (cycle herd : Nat) (peeks : Nat → Nat → Bytes) (s : Step) : Step :=
  s.selected.foldl (fun s x =>
    if !s.recordHere x then s
    else
      let fetch := (s.staging.find? fun y => y.bay = x.bay && y.block = x.block).map (·.fetch)
      let word := fetch.bind fun i => s.plan.words[i]?
      match word.bind fun wd => (s.plan.desc? wd.srca).bind fun ad => (s.bound[ad.binding]?).bind fun b => b.index.map fun ix => (wd, ad, b, ix) with
      | none => s
      | some (wd, ad, b, ix) =>
        let rec_ := parseAdj (peeks (bayKey x.bay (ringAt x.block x.hop)) 192)
        let put := fun y => { s with selected := s.selected.map fun z => if z = x then y else z }
        match chainStep b.epoch x.depth rec_ with
        | .serves => put { x with state := 1 }
        | .empty => put { x with state := 2 }
        | .next p =>
          let src := ix.poolKey x.bay p
          let s := put { x with depth := x.depth + 1, src := src }
          s.post cycle herd (byUnit kBAY x.bay (postReads wd.srca x.hop (s.plan.deadlineAt (fetch.getD 0) ad x.hop) ad.missZero false src
              (some (bayKey x.bay (ringAt x.block x.hop))) 192))) s

/-! ### BAY_QUEUE_OUT (R200, R201) -/

def candSentinel : Bytes := leBytes 5 sentinelId ++ zeros 1 ++ leBytes 2 0xFFFF

/-- The partial list that bay `bay` sends for result queue `q` + 1. -/
def Ctx.partialList (c : Ctx) (w : W) (bay q : Nat) : Bytes :=
  let res := c.queue w bay (q + 1)
  let hop := c.step.lastHop.find? fun x => x.1 = bay && x.2.1 = q
  let t := hop.map fun x => c.trav w bay x.2.2.1
  let bad := match hop with | some x => x.2.2.2 | none => false
  let es := if bad then [] else res.entries
  let flags := match t with
    | some t => b2n (t.converged ≠ 0xFFFF) + 2 * b2n (t.pendDrop ≠ 0) + 4 * b2n (t.adjMissed ≠ 0) + 8 * b2n t.scan
    | none => 0
  leBytes 1 1 ++ leBytes 1 flags ++ leBytes 2 res.k ++ leBytes 2 es.length ++ leBytes 2 bay ++ leBytes 4 (if bad then 0 else res.ties) ++
  leBytes 2 (match t with | some t => t.expanded | none => 0) ++ leBytes 2 (match t with | some t => t.query % 65536 | none => 0) ++
  ((List.range res.k).map fun i => match es[i]? with | some e => e.bytes | none => candSentinel).flatten

def doBayQueueOut (c : Ctx) (w : W) : W :=
  match c.step.plan.desc? c.word.srca with
  | some a =>
    let ws := (c.bayUnits w.dev).map fun u => c.put w.dev c.word.dst u 0 (c.partialList w u.bay ((c.addr a u - 0x2_0000) / 512))
    c.apply c.word.dst ws.flatten w
  | none => w

/-! ### Load checks -/

/-- CONFIG of the index to which a BAY_FETCH is bound; `config` gives it by identity. -/
def Plan.fetchLarge (p : Plan) (config : Nat → Option Bool) (w : PWord) : Option Bool :=
  (p.desc? w.srcb).bind fun b => if b.bound then (p.bindings[b.binding]?).bind fun x => if x.kind = 1 then config x.ident else none else none

def bayFetchCheck (p : Plan) (w : PWord) (large : Option Bool) : Bool :=
  match p.desc? w.dst, p.desc? w.srcb, large with
  | some d, some b, some lg =>
    d.space = spBay && d.base % 8192 = 0 && d.classBits % 128 = 0 && b.space = spStack && b.bound && b.classBits = 0
    && (match p.bindings[b.binding]? with | some x => x.region = 1 | none => false)
    && (match p.desc? w.srca with
        | none => w.srca = noDesc
        | some a => a.bound && a.classBits = 0 && (match p.bindings[a.binding]?, p.bindings[b.binding]? with
            | some x, some y => x.kind = 1 && x.region = 2 && x.ident = y.ident
            | _, _ => false)
          && (if lg then a.space = spBarn && a.deadlineSet && a.deadline = w.slot else a.space = spStack && !a.deadlineSet))
  | _, _, _ => false

def bayFetchDuration (large : Bool) : Nat := if large then 32 else 42

/-- Granules that the span of a fetch must hold BAY pairs for. -/
def bayFetchGranules (large : Bool) : Nat := if large then 16 else 21

def bayHopDuration (w : PWord) : Nat := if w.srcb = noDesc then 20 else 32

def bayHopCheck (p : Plan) (w : PWord) : Bool :=
  match p.desc? w.dst, p.desc? w.srca with
  | some d, some a =>
    let q := (d.base - 0x2_0000) / 512
    d.space = spBay && decide (0x2_0000 ≤ d.base) && (d.base - 0x2_0000) % 512 = 0 && decide (q + 1 < 16) && a.space = spBay && a.base % 8192 = 0
    && d.classBits = 0 && a.classBits = 0
    && (match p.desc? w.srcb with
        | some b => b.space = spBay && (b.base = 0x1_0000 || b.base = 0x1_2000) && b.classBits = 0
        | none => w.srcb = noDesc)
  | _, _ => false

def bayQueueOutCheck (p : Plan) (w : PWord) : Bool :=
  match p.desc? w.dst, p.desc? w.srca with
  | some d, some a =>
    a.space = spBay && decide (0x2_0000 ≤ a.base) && (a.base - 0x2_0000) % 512 = 0 && decide ((a.base - 0x2_0000) / 512 + 1 < 16)
    && d.space = spMerge && w.srcb = noDesc && a.classBits = 0 && d.classBits = 0
  | _, _ => false

end Sys2Proof.Machine
end

