-- ==== Sys2Proof/Machine/Merge.lean ====
section
/-! DEFINITION. Result lists and the merge unit's word MERGE (R202 to R205). -/

namespace Sys2Proof.Machine

/-- An entry of an input or result list. -/
structure MergeEntry where
  id : Nat
  flags : Nat
  code : Nat
  score : Nat
  tokens : Nat
deriving DecidableEq, Repr

/-- An input list that is not skipped, by its index. -/
structure MergeList where
  index : Nat
  k : Nat
  count : Nat
  ties : Nat
  entries : List MergeEntry
deriving DecidableEq, Repr

/-- A control block (R202). -/
structure MergeBlock where
  lists : Nat
  kOut : Nat
  pops : Nat
  exact : Bool
  stride : Nat
  query : Nat
deriving DecidableEq, Repr

def parseMerge (b : Bytes) : MergeBlock :=
  { lists := fld b 0 2, kOut := fld b 2 2, pops := fld b 4 2, exact := (fld b 6 2).testBit 0, stride := fld b 8 4, query := fld b 12 4 }

/-- The block meets R202, STRIDE being one 64 bytes or more (DESIGN CHOICE: log entry 116), for a source of `len` bytes and a destination of `dst`. -/
def mergeOk (len dst : Nat) (b : Bytes) : Bool :=
  let m := parseMerge b
  decide (1 ≤ m.lists) && decide (m.lists ≤ 1024) && decide (1 ≤ m.kOut) && decide (m.kOut ≤ 4096) && decide (m.kOut ≤ m.pops)
  && decide (m.pops ≤ 8192) && decide (fld b 6 2 ≤ 1) && decide (0 < m.stride) && m.stride % 64 = 0 && decide (m.lists * m.stride ≤ len) && dst = 16 + 16 * m.kOut

/-- List `i` from its slot; none where it is skipped (R202, R203 step 1). -/
def parseMergeList (exact : Bool) (i : Nat) (b : Bytes) : Option MergeList :=
  let kind := fld b 0 1
  let k := fld b 2 2
  let n := min (fld b 4 2) k
  if kind = 1 && !exact && decide (16 + 8 * k ≤ b.length) then
    some { index := i, k := k, count := fld b 4 2, ties := fld b 8 4
           entries := (List.range n).map fun j => { id := fld b (16 + 8 * j) 5, flags := 0, code := fld b (22 + 8 * j) 2, score := 0, tokens := 0 } }
  else if kind = 2 && (fld b 1 1).testBit 0 = exact && decide (16 + 16 * k ≤ b.length) then
    some { index := i, k := k, count := fld b 4 2, ties := fld b 8 4
           entries := (List.range n).map fun j =>
             let e := slice b (16 + 16 * j) 16
             { id := fld e 0 5, flags := fld e 5 1, code := fld e 6 2, score := fld e 8 4, tokens := fld e 12 2 } }
  else none

/-- SCORE as it is ordered: a NaN stands as +∞, which re-scoring writes for it (R206). -/
def mergeScore (v : Nat) : Nat := if f32IsNaN v then f32Inf false else v

/-- Distance or score of `a` is smaller. -/
def mergeLess (exact : Bool) (a b : MergeEntry) : Bool :=
  if exact then f32Gt (mergeScore b.score) (mergeScore a.score) else decide (a.code < b.code)

def mergeSame (exact : Bool) (a b : MergeEntry) : Bool := !mergeLess exact a b && !mergeLess exact b a

/-- Key order: distance or score, then id. -/
def mergeBefore (exact : Bool) (a b : MergeEntry) : Bool := mergeLess exact a b || (mergeSame exact a b && decide (a.id < b.id))

/-- The list whose head is taken next, the lower index among equal keys. -/
def nextHead (exact : Bool) : List MergeList → Option (Nat × MergeEntry)
  | [] => none
  | l :: r =>
    match l.entries, nextHead exact r with
    | [], x => x
    | e :: _, none => some (l.index, e)
    | e :: _, some (i, f) => if mergeBefore exact f e then some (i, f) else some (l.index, e)

def dropHead (i : Nat) (ls : List MergeList) : List MergeList :=
  ls.map fun l => if l.index = i then { l with entries := l.entries.drop 1 } else l

/-- Pops until `k` entries are emitted, the lists are empty or the allowance is used: emitted entries in order, lists and pops left. -/
def mergePops (exact : Bool) (k : Nat) : Nat → List MergeList → List (MergeEntry × Nat) → List (MergeEntry × Nat) × List MergeList × Nat
  | 0, ls, out => (out, ls, 0)
  | n + 1, ls, out =>
    if k ≤ out.length then (out, ls, n + 1)
    else match nextHead exact ls with
      | none => (out, ls, n + 1)
      | some (i, e) => mergePops exact k n (dropHead i ls) (if out.any fun x => x.1.id = e.id then out else out ++ [(e, i)])

/-- Step 5: entries equal to `z` counted, and whether the allowance ran out while such remain. -/
def mergeTies (exact : Bool) (z : MergeEntry) (ids : List Nat) : Nat → List MergeList → Nat → Nat × Bool
  | 0, ls, n => (n, match nextHead exact ls with | some (_, e) => mergeSame exact e z | none => false)
  | p + 1, ls, n =>
    match nextHead exact ls with
    | some (i, e) => if mergeSame exact e z then mergeTies exact z ids p (dropHead i ls) (if ids.contains e.id then n else n + 1) else (n, false)
    | none => (n, false)

/-- A result list (R204) of `k` positions. -/
def resultList (k flags sources ties query : Nat) (es : List (MergeEntry × Nat)) : Bytes :=
  leBytes 1 2 ++ leBytes 1 flags ++ leBytes 2 k ++ leBytes 2 es.length ++ leBytes 2 sources ++ leBytes 4 ties ++ leBytes 4 query ++
  ((List.range k).map fun i => match es[i]? with
    | some (e, s) => leBytes 5 e.id ++ leBytes 1 e.flags ++ leBytes 2 e.code ++ leBytes 4 e.score ++ leBytes 2 e.tokens ++ leBytes 2 s
    | none => leBytes 5 sentinelId ++ zeros 1 ++ leBytes 2 0xFFFF ++ leBytes 4 0x7F80_0000 ++ zeros 2 ++ leBytes 2 0xFFFF).flatten

/-- The merge of the slots `slots` under a good block. -/
def mergeLists (m : MergeBlock) (slots : List Bytes) : Bytes :=
  let ls := (List.range slots.length).filterMap fun i => parseMergeList m.exact i (slots.getD i [])
  let skipped := decide (ls.length < slots.length)
  let r := mergePops m.exact m.kOut m.pops ls []
  let out := r.1
  let rest := r.2.1
  let left := r.2.2
  let full := decide (m.kOut ≤ out.length)
  let more := (nextHead m.exact rest).isSome
  let z := (out.getLast?).map Prod.fst
  let t := match z with
    | some z => if full then mergeTies m.exact z (out.map fun x : MergeEntry × Nat => x.1.id) left rest 0 else (0, false)
    | none => (0, false)
  let carried := match z with
    | some z => if full then sumNat (ls.map fun l =>
        if l.count = l.k && (match l.entries.getLast? with | some e => mergeSame m.exact e z | none => false) then l.ties else 0) else 0
    | none => 0
  let flags := b2n m.exact + 2 * b2n (!full && left = 0 && more) + 4 * b2n t.2 + 8 * b2n (out.any fun x => x.1.flags.testBit 1) + 16 * b2n skipped
  resultList m.kOut flags ls.length (t.1 + carried) m.query out

def mergeCheck (p : Plan) (w : PWord) : Bool :=
  match p.desc? w.dst, p.desc? w.srca, p.desc? w.srcb with
  | some d, some a, some b =>
    a.space = spMerge && b.space = spLoft && [spLoft, spStack, spBarn, spHost, spMerge].contains d.space && a.classBits = 0 && b.classBits = 0
    && d.classBits = 0
  | _, _, _ => false

/-- `blocks` as in `blockMax`. Lists lie 64 bytes apart or more in SRCA's LENGTH `len`, which limits LISTS (R559); K_OUT does not enter the
duration. -/
def mergeDuration (blocks : Option (List Bytes)) (len : Nat) : Nat :=
  match blocks with
  | some l => maxNat (l.map fun b => 48 + ceilDiv (fld b 0 2) 8 + ceilDiv (fld b 4 2) 2)
  | none => 48 + ceilDiv (min 1024 (max 1 (len / 64))) 8 + 4096

def doMerge (c : Ctx) (w : W) : W :=
  match c.step.plan.desc? c.word.srca, c.step.plan.desc? c.word.dst with
  | some a, some d =>
    let u := c.sharedUnit
    let b := c.read w c.word.srcb u 0 16
    let m := parseMerge b
    let out := if mergeOk a.length d.length b then
        mergeLists m ((List.range m.lists).map fun i => c.read w c.word.srca u (i * m.stride) m.stride)
      else resultList ((d.length - 16) / 16) 16 0 0 m.query []
    c.apply c.word.dst (c.put w.dev c.word.dst u 0 out) w
  | _, _ => w

end Sys2Proof.Machine
end

