-- ==== Sys2Proof/Machine/Text.lean ====
section
/-! DEFINITION. The words of the tokenizer and grammar units: TOKENIZE, DETOKENIZE and MASK (R255 to R277, R293). Log entry 11 gives
the operands of DETOKENIZE, which no rule lists. -/

namespace Sys2Proof.Machine

/-! ### TOKENIZE (R260 to R264) -/

structure TokenizeBlock where
  binding : Nat
  cap : Nat
  protect : Nat
  mark : Nat
  inMax : Nat
deriving DecidableEq, Repr

def parseTokenize (b : Bytes) : TokenizeBlock :=
  { binding := fld b 0 2, cap := fld b 4 4, protect := fld b 8 4, mark := fld b 12 4, inMax := fld b 16 4 }

def tokenizeOk (b : Bytes) : Bool :=
  let t := parseTokenize b
  fld b 2 2 = 0 && allZero (slice b 20 12) && decide (1 ≤ t.cap) && decide (t.cap ≤ 1048576) && decide (t.protect + 2 ≤ t.cap)
  && decide (1 ≤ t.inMax) && decide (t.inMax ≤ 1048576)

def tokenizeCheck (p : Plan) (w : PWord) : Bool :=
  match p.desc? w.dst, p.desc? w.srca, p.desc? w.srcb with
  | some d, some a, some b => d.classBits = 0 && a.classBits = 0 && b.classBits = 0
  | _, _, _ => false

/-- Cycles of work (R262). -/
def tokenizeWork (p : Plan) (blocks : Option (List Bytes)) : Nat := 16 + p.batch * (ceilDiv (blockMax blocks 16 4 1048576) 8 + 16)

/-- The live request that a context number names. -/
def Dev.contextRequest (d : Dev) (cx : Nat) : Option Request := if cx = 0xFFFF_FFFF then none else d.request? cx

/-- What one row leaves: its record, and for a row of a request its carry, its tokens and FINAL. -/
structure TokRow where
  record : Bytes
  carry : Option (Nat × Bytes)
  toks : Option (Nat × List Nat × Bool)
deriving DecidableEq, Repr

def tokRecord (t : TokenizeBlock) (pad count removed invalid flags : Nat) (toks : List Nat) : Bytes :=
  leBytes 4 count ++ leBytes 4 removed ++ leBytes 4 invalid ++ leBytes 2 flags ++ zeros 2 ++
  ((List.range t.cap).map fun i => leBytes 4 (if i < count then toks.getD i 0 else pad)).flatten

/-- One row: `e` is its directory entry. A row of a request uses the version that the request pinned. -/
def tokenizeRow (c : Ctx) (w : W) (t : TokenizeBlock) (table : Bytes) (e : Bytes) : TokRow :=
  let flags := fld e 6 2
  let len := fld e 8 4
  let req := w.dev.contextRequest (fld e 12 4)
  let img := match req.bind fun r => w.dev.serve.tableAt r.tableId r.tableVer with | some x => x.image | none => table
  let pad := tokPad img
  let tenant := match req with | some r => r.tenant | none => c.step.batch.tenant
  let option := match tget? tenant w.dev.serve.tenants with | some x => x.replaceInvalid | none => false
  let empty := fun f => { record := tokRecord t pad 0 0 0 f [], carry := none, toks := none : TokRow }
  if flags.testBit 2 then empty 0
  else if t.inMax < len then empty 8
  else
    let final := flags.testBit 0 || req.isNone
    -- the carry of a row is written at the boundary alone (R262)
    let old := match req with | some r => r.carry | none => []
    let text := old ++ c.bytesAt w (hostKey (c.step.batch.window + fld e 0 6)) len
    let (new, carry, invalid) := tokenizeText img (flags.testBit 1 || option) final text
    let cf := 2 * b2n (!old.isEmpty) + 4 * b2n (!carry.isEmpty)
    let keep := req.map fun r => (r.number, carry)
    if final then
      let held := match req with
        | some r => ((c.step.tokens.find? fun x => x.1 = r.number && !x.2.2).map fun x => x.2.1).getD r.heldTokens
        | none => []
      let all := held ++ new
      let (kept, removed) := lengthLimit t.cap t.protect (if t.mark = 0xFFFF_FFFF then tokMark img else t.mark) all
      { record := tokRecord t pad kept.length removed invalid (b2n (removed ≠ 0) + cf) kept, carry := keep
        toks := req.map fun r => (r.number, all, true) }
    else
      let held := match req with
        | some r => ((c.step.tokens.find? fun x => x.1 = r.number).map fun x => x.2.1).getD r.heldTokens
        | none => []
      { record := tokRecord t pad 0 0 invalid (16 + cf) [], carry := keep, toks := req.map fun r => (r.number, held ++ new, false) }

/-- The version that BINDINGS entry `i` of the step binds. -/
def Ctx.boundTable (c : Ctx) (d : Dev) (i : Nat) : Option TokTable :=
  (c.step.bound[i]?).bind fun b => if b.kind = 4 then d.serve.tableAt b.ident b.version else none

def setFirst (k : Nat) (v : α) (l : List (Nat × α)) : List (Nat × α) := (k, v) :: l.filter fun x => x.1 ≠ k

/-- A control block out of range, or one that binds no table, makes the word write nothing (log entry 12). Rows are taken in order,
so that a second buffer of a request follows the first. -/
def doTokenize (c : Ctx) (w : W) : W :=
  let u := c.sharedUnit
  let b := c.read w c.word.srcb u 0 32
  let t := parseTokenize b
  match c.boundTable w.dev t.binding with
  | none => w
  | some table =>
    if !tokenizeOk b then w
    else
      let r := (List.range c.step.plan.batch).foldl (fun (s : Step × List Host.Cell) row =>
        let c' := { c with step := s.1 }
        let out := tokenizeRow c' w t table.image (c.read w c.word.srca u (16 * row) 16)
        let st := s.1
        ({ st with carries := match out.carry with | some x => setFirst x.1 x.2 st.carries | none => st.carries
                   tokens := match out.toks with | some x => setFirst x.1 x.2 st.tokens | none => st.tokens },
         s.2 ++ c.put w.dev c.word.dst u (row * (16 + 4 * t.cap)) out.record)) (c.step, [])
      let w := c.apply c.word.dst r.2 w
      w.step c.p fun s => { s with carries := r.1.carries, tokens := r.1.tokens }

/-! ### MASK (R273 to R276) -/

/-- Bytes of a mask record for V tokens: 16 + 64 × ⌈V ÷ 512⌉. A plan that binds no table gives the stride by its DST, which holds BATCH
records (log entry 125). -/
def maskStride (vocab : Option Nat) (p : Plan) (w : PWord) : Nat :=
  match vocab with
  | some v => 16 + 64 * ceilDiv v 512
  | none => match p.desc? w.dst with | some d => d.length / max 1 p.batch | none => 0

/-- The load check of MASK: DST holds a record per row. -/
def maskCheck (vocab : Option Nat) (p : Plan) (w : PWord) : Bool :=
  match p.desc? w.dst, p.desc? w.srca, p.desc? w.srcb with
  | some d, some a, some b =>
    let n := maskStride vocab p w
    d.classBits = 0 && a.classBits = 0 && b.classBits = 0 && decide (80 ≤ n) && (n - 16) % 64 = 0 && decide (p.batch * n ≤ d.length)
  | _, _, _ => false

/-- Work of MASK at the largest V, up to 262,144 (R253), that LENGTH of DST has room for (R275, R559). -/
def maskWork (p : Plan) (w : PWord) : Nat := p.batch * (min 512 ((maskStride none p w - 16) / 64) + 512 + 24)

def maskRecord (allowed state depth flags : Nat) (bits : Bytes) : Bytes :=
  leBytes 4 allowed ++ leBytes 4 state ++ leBytes 1 depth ++ leBytes 1 flags ++ zeros 6 ++ bits

def doMask (c : Ctx) (w : W) : W :=
  let u := c.sharedUnit
  let stride := maskStride ((c.step.boundTable w.dev).map fun t => tokVocab t.image) c.step.plan c.word
  let vocab := fun row => (c.step.rowVocab w.dev row).getD (8 * (stride - 16))
  let r := (List.range c.step.plan.batch).foldl (fun (s : Step × List Host.Cell) row =>
    let tok := c.readN w c.word.srca u (4 * row) 4
    let cx := c.readN w c.word.srcb u (4 * row) 4
    let st := s.1
    let put := fun b => s.2 ++ c.put w.dev c.word.dst u (row * stride) (b.take stride)
    match st.grammar w.dev cx with
    | some (g, img) =>
      let g := if tok = 0xFFFF_FFFF then g else applyToken img g tok
      let v := vocab row
      let ok := fun t => decide (t < v) && allowed img g t
      let n := ((List.range v).filter ok).length
      let capped := (chainRanges img g).2
      ({ st with contexts := setFirst cx (g.state, g.stack) st.contexts, masks := setFirst row (n, capped, cx) st.masks, capped := st.capped || capped },
       put (maskRecord n g.state g.stack.length (b2n capped) (bitmap (stride - 16) ok)))
    | none =>
      let v := vocab row
      ({ st with masks := setFirst row (v, false, cx) st.masks }, put (maskRecord v 0 0 2 (bitmap (stride - 16) fun t => decide (t < v))))) (c.step, [])
  let w := c.apply c.word.dst r.2 w
  w.step c.p fun s => { s with contexts := r.1.contexts, masks := r.1.masks, capped := r.1.capped }

/-! ### DETOKENIZE (R266 to R269, R277, R293) -/

def detokenizeCheck (p : Plan) (w : PWord) : Bool :=
  match p.desc? w.dst, p.desc? w.srca with
  | some d, some a => d.classBits = 0 && a.classBits = 0
  | _, _ => false

/-- MAX_LEN stands at its largest value, 128. -/
def detokenizeWork (p : Plan) : Nat := p.batch * (8 + 24)

/-- Reasons of R268 and the statuses of R297 and R298. -/
abbrev rStopToken := 1
abbrev rStopString := 2
abbrev rGrammarEnd := 3
abbrev rGrammarStall := 4
abbrev rLength := 5
abbrev rCancelled := 6
abbrev rAborted := 7
abbrev rFailed := 8

/-- A chunk record (R269). -/
def chunkRecord (request token position : Nat) (data : Bytes) (held flags reason stopIndex : Nat) : Bytes :=
  leBytes 4 request ++ leBytes 4 token ++ leBytes 4 position ++ leBytes 2 data.length ++ leBytes 1 held ++ leBytes 1 flags ++
  leBytes 1 reason ++ leBytes 1 stopIndex ++ zeros 14 ++ fit 224 data

/-- Whether data carry an invalid sequence; an incomplete one counts at the end of the request. -/
def invalidUtf8 (final : Bool) (b : Bytes) : Bool :=
  (segments b.length b).any fun s => match s.1 with | .bad _ => true | .part _ => final | .char _ => false

/-- The chunk that releases all held bytes with a reason and no token (R277, R297, R298). -/
def finalChunk (r : Request) (reason : Nat) : Chunk :=
  { request := r.number
    record := chunkRecord r.number 0xFFFF_FFFF r.outTokens r.heldBytes 0 (1 + 2 * b2n (invalidUtf8 true r.heldBytes) + 8 * b2n r.resumedPhase) reason 0xFF
    logprob := zeros 32, held := [], reason := reason, token := none }

/-- A token record (R293). -/
def tokenRecord (request position token weight : Nat) (capped : Bool) (res : Bytes) : Bytes :=
  let total := fld res 20 4
  let q := if f32Positive total && f32Finite total then f32DivPos weight total else Config.unstated 0x21 [weight, total] % 2 ^ 32
  leBytes 4 request ++ leBytes 4 position ++ leBytes 4 token ++ leBytes 4 (f32Trans 0x0A q) ++ leBytes 4 (fld res 24 4) ++
  leBytes 4 (fld res 28 4) ++ leBytes 2 (fld res 0 2) ++ leBytes 1 (b2n ((fld res 5 1).testBit 0) + 2 * b2n capped) ++ zeros 5

/-- The chunk of a request whose row's COMPACT result is `res`. -/
def rowChunk (s : Step) (d : Dev) (row : Nat) (r : Request) (res : Bytes) : Chunk :=
  let mask := tget? row s.masks
  let stalled := (match mask with | some m => m.1 = 0 && r.context.isSome | none => false) || (compactEntries res).isEmpty
  if stalled then finalChunk r rGrammarStall
  else
    match sampleEntry r.sampler r.seed r.stream r.outTokens res, d.serve.tableAt r.tableId r.tableVer with
    | some e, some table =>
      let img := table.image
      let tok := e.2.2
      let stops := (tokEos img) :: r.stopTokens
      let stopTok := stops.contains tok
      let gram := r.context.bind (s.grammar d)
      let gramEnd := match gram with | some (g, x) => endsGrammar x g tok | none => false
      let lengthOut := decide (r.outLimit ≤ r.outTokens + 1)
      let out := detokenize r.stopStrings r.includeStop r.heldBytes (tokenBytes img stops tok) (stopTok || gramEnd || lengthOut)
      let reason := if stopTok then rStopToken else if gramEnd then rGrammarEnd else if out.2.2.isSome then rStopString
        else if lengthOut then rLength else 0
      let final := decide (reason ≠ 0)
      let index := match out.2.2 with
        | some i => i
        | none => if stopTok then (match findIdxFrom (· = tok) 0 r.stopTokens with | some (i, _) => i | none => 0xFF) else 0xFF
      let flags := b2n final + 2 * b2n (invalidUtf8 final out.1) + 4 * b2n out.2.2.isSome + 8 * b2n (final && r.resumedPhase)
      { request := r.number, record := chunkRecord r.number tok r.outTokens out.1 out.2.1.length flags reason index
        logprob := if r.logprobs then tokenRecord r.number r.outTokens tok e.2.1 (match mask with | some m => m.2.1 | none => false) res else zeros 32
        held := out.2.1, reason := reason, token := some tok }
    | _, _ => finalChunk r rGrammarStall

/-- The record of a row that draws no token. -/
def emptyChunk (request : Nat) : Bytes := chunkRecord request 0xFFFF_FFFF 0 [] 0 0 0 0xFF

/-- Entries of a row's result where SELECT8 or SELECT formed it, as a GREEDY plan may (R291). -/
def Plan.selectedBy (p : Plan) (di : Nat) : Option Nat :=
  match p.desc? di with
  | none => none
  | some a => if p.words.any fun w => (w.cls = cSELECT8 || w.cls = cSELECT) && (match p.desc? w.dst with
      | some d => d.space = a.space && d.base = a.base
      | none => false) then some ((a.length / max 1 p.batch - 8) / 8) else none

def doDetokenize (c : Ctx) (w : W) : W :=
  match c.step.plan.desc? c.word.srca with
  | none => w
  | some a =>
    let u := c.sharedUnit
    let n := a.length / max 1 c.step.plan.batch
    let rs := (List.range c.step.plan.batch).map fun row =>
      let drawn := (c.step.batch.rows[row]?).bind fun x =>
        if x.prefill && !x.lastChunk then none else x.request.bind w.dev.request?
      match drawn with
      | some r =>
        let b := c.read w c.word.srca u (row * n) n
        let res := match c.step.plan.selectedBy c.word.srca with
          | some k => if r.sampler = 0 then greedyResult k b else b
          | none => b
        let k := rowChunk c.step w.dev row r res
        (some k, c.put w.dev c.word.dst u (row * 256) k.record)
      | none =>
        let q := ((c.step.batch.rows[row]?).bind (·.request)).getD 0xFFFF_FFFF
        (none, c.put w.dev c.word.dst u (row * 256) (emptyChunk q))
    let w := c.apply c.word.dst (rs.map (·.2)).flatten w
    w.step c.p fun s => { s with chunks := s.chunks ++ rs.filterMap (·.1) }

end Sys2Proof.Machine
end

