-- ==== Sys2Proof/Machine/Gather.lean ====
section
/-! DEFINITION. Embedding rows and the BAY_GATHER word with its operations LOOKUP and UPDATE (R304 to R320, R326). -/

namespace Sys2Proof.Machine

/-! ### Placement (R305, R307) -/

def EmbDesc.bays (e : EmbDesc) : List Nat := setBits 512 e.partMask
def EmbDesc.nb (e : EmbDesc) : Nat := popCount 512 e.partMask
/-- The bay that holds row `r`. -/
def EmbDesc.bayOf (e : EmbDesc) (r : Nat) : Nat := e.bays.getD (r % max 1 e.nb) 0
def EmbDesc.dirKey (e : EmbDesc) (r : Nat) : Nat := memKey spStack (e.bayOf r) (e.dirBase + r / max 1 e.nb * 8)
def EmbDesc.hotKey (e : EmbDesc) (bay h : Nat) : Nat := memKey spStack bay (e.hotBase + h * e.rowStride)
def EmbDesc.tailKey (e : EmbDesc) (r : Nat) : Nat := memKey e.tailSpace 0 (e.tailBase + r * e.rowStride)
def EmbDesc.updatable (e : EmbDesc) : Bool := e.flags.testBit 0
def EmbDesc.stochastic (e : EmbDesc) : Bool := e.flags.testBit 1
def EmbDesc.accState (e : EmbDesc) : Bool := e.flags.testBit 2

def dirHot (v : Nat) : Bool := v.testBit 63
def dirModified (v : Nat) : Bool := v.testBit 62
def dirSlot (v : Nat) : Nat := bitsOf v 0 24
def mkDir (modified : Bool) (slot : Nat) : Nat := 2 ^ 63 + b2n modified * 2 ^ 62 + slot

/-- The lowest free hot slot of a bay (R307). -/
def Emb.freeSlot (e : Emb) (bay : Nat) : Option Nat :=
  let used := (e.taken.filter fun k => k / 2 ^ 24 = bay).map (· % 2 ^ 24)
  -- among n taken slots and one more, one is free
  ((List.range (used.length + 1)).find? fun h => !used.contains h).bind fun h => if h < e.desc.hotSlots then some h else none

def Emb.freeCount (e : Emb) (bay : Nat) : Nat := e.desc.hotSlots - (e.taken.filter fun k => k / 2 ^ 24 = bay).length

/-! ### Row records (R306) -/

/-- Bytes of metadata before the elements. -/
def rowMeta (f dim : Nat) : Nat := if fmtIs4 f then dim / 16 + dim / 64 else if fmtIs8 f then dim / 32 * 2 else 0

def rowLength (f dim : Nat) : Nat := rowMeta f dim + dim * fmtBits f / 8 + 8

def rowPlace (f dim e : Nat) : Place :=
  { code := 8 * rowMeta f dim + fmtBits f * e, scale := if fmtIs8 f then 2 * (e / 32) else e / 16, slot := fun _ => dim / 16 + e / 64 }

/-- Elements of a row record as FP32 bits. -/
def rowElems (f dim : Nat) (b : Bytes) : List Nat :=
  (List.range dim).map fun e =>
    if f = fFP32 then fld b (4 * e) 4
    else if f = fBF16 then bf16To32 (fld b (2 * e) 2)
    else f32OfNum [] (fetchElem f (fun i => fld b i 1) (rowPlace f dim) e).num

def rowAcc (f dim : Nat) (b : Bytes) : Nat := fld b (rowLength f dim - 8) 4

/-- A row record that holds `vs`, with ACC in its trailer. -/
def encodeRow (f dim stride : Nat) (r : Rounding) (draw : Nat → Nat) (vs : List Nat) (acc : Nat) : Bytes :=
  let body :=
    if f = fFP32 then ((List.range dim).map fun e => leBytes 4 (vs.getD e 0)).flatten
    else if f = fBF16 then ((List.range dim).map fun e => leBytes 2 (bf16Of32 r (draw e) (vs.getD e 0)).1).flatten
    else
      let n := convertLen f
      let cs := (List.range (dim / n)).map fun b => convertBlock f r (fun i => draw (b * n + i)) ((vs.drop (b * n)).take n)
      let codes := (cs.map (·.codes)).flatten
      ((cs.map fun c => (c.scales.map (leBytes (if fmtIs8 f then 2 else 1))).flatten).flatten) ++
      ((cs.map fun c => (c.slots.map (leBytes 1)).flatten).flatten) ++
      leBytes (dim * fmtBits f / 8) (sumNat ((List.range dim).map fun e => codes.getD e 0 * 2 ^ (fmtBits f * e)))
  fit stride (body ++ leBytes 4 acc ++ zeros 4)

/-! ### FP32 division and root (R317) -/

def f32Div (a b : Nat) : Nat :=
  match f32Num a, f32Num b with
  | .nan, _ | _, .nan | .inf _, .inf _ => f32NaN [a, b]
  | .inf s, .fin t _ _ => f32Inf (s != t)
  | .fin s _ _, .inf t => b2n (s != t) * 2 ^ 31
  | .fin s m e, .fin t n f =>
    if n = 0 then (if m = 0 then f32NaN [a, b] else f32Inf (s != t))
    else if m = 0 then b2n (s != t) * 2 ^ 31 else f32OfRat (s != t) m n (e - f)

/-- Square root, correctly rounded; of a negative number a NaN. -/
def f32Sqrt (a : Nat) : Nat :=
  match f32Num a with
  | .fin neg m e =>
    if m = 0 then a
    else if neg then f32NaN [a]
    else
      let m := if e % 2 = 0 then m else 2 * m
      let e := if e % 2 = 0 then e else e - 1
      let x := m * 2 ^ 80
      let r := isqrt x
      -- a last bit below the root tells an inexact one
      f32OfRat false (2 * r + b2n (r * r ≠ x)) 1 (e / 2 - 41)
  | .inf false => a
  | _ => f32NaN [a]

/-- Sum of squares in 64 lanes and a tree of six levels. -/
def sumSquares (g : List Nat) : Nat :=
  let lanes := (List.range 64).map fun l =>
    ((List.range g.length).filter fun j => j % 64 = l).foldl (fun a j => f32Add a (f32Mul (g.getD j 0) (g.getD j 0))) 0
  sumTree 6 lanes

/-! ### Control block (R310) -/

structure GatherBlock where
  op : Nat
  spillReject : Bool
  missZero : Bool
  binding : Nat
  entries : Nat
  bags : Nat
  capHot : Nat
  capTail : Nat
  tailWait : Nat
  stage : Nat
  lr : Nat
  eps : Nat
  rule : Nat
deriving DecidableEq, Repr

def parseGather (b : Bytes) : GatherBlock :=
  { op := fld b 0 1, spillReject := (fld b 1 1).testBit 0, missZero := (fld b 1 1).testBit 1, binding := fld b 2 2, entries := fld b 4 2
    bags := fld b 6 2, capHot := fld b 8 2, capTail := fld b 10 2, tailWait := fld b 12 4, stage := fld b 16 4, lr := fld b 20 4
    eps := fld b 24 4, rule := fld b 28 1 }

def GatherBlock.cap (g : GatherBlock) : Nat := g.capHot + g.capTail

/-- Bytes of the output area of a good word. -/
def gatherOut (g : GatherBlock) (dim : Nat) : Nat := 16 + g.bags * (4 * dim + 8)

/-- The block meets R310 for a table; `dst` is the output area's offset. -/
def gatherOk (e : EmbDesc) (dst : Nat) (b : Bytes) : Bool :=
  let g := parseGather b
  decide (g.op ≤ 1) && decide (fld b 1 1 ≤ 3) && decide (1 ≤ g.entries) && decide (g.entries ≤ 4096)
  && (if g.op = 0 then decide (1 ≤ g.bags) && decide (g.bags ≤ 512) else g.bags = 0 && e.updatable)
  && decide (g.capHot ≤ 256) && decide (g.capTail ≤ 256) && decide (g.tailWait ≤ 65535) && decide (g.rule ≤ 1) && allZero (slice b 29 3)
  && (g.op = 0 || g.rule = 0 || e.accState)
  && decide (g.stage + g.cap * (e.rowStride + 8 * g.op) ≤ 0x1_0000) && decide (dst + gatherOut g e.dim ≤ 0x1_0000)

/-- Bytes of an update list entry (R316). -/
def updateEntry (dim : Nat) : Nat := alignUp (16 + 4 * dim) 64

/-! ### Durations (R313, R320) -/

/-- The scan before the reads: ⌈ENTRIES ÷ 8⌉ of a look-up, ⌈L ÷ 64⌉ of an update. -/
def gatherScan (g : GatherBlock) (len : Nat) : Nat := if g.op = 0 then ceilDiv g.entries 8 else ceilDiv len 64

/-- Cycles from a word's slot to its tail deadline; none where the table holds too few BAY pairs. -/
def gatherWait (pairs : List Nat) (g : GatherBlock) (e : EmbDesc) (len slot : Nat) : Option Nat :=
  let s := gatherScan g len
  (spanOf 2 pairs (slot + s) (g.cap + g.capHot * (e.rowStride / 64))).map fun x => s + max x g.tailWait

def gatherDuration (pairs : List Nat) (g : GatherBlock) (e : EmbDesc) (len slot : Nat) : Option Nat :=
  (gatherWait pairs g e len slot).bind fun x =>
    if g.op = 0 then some (x + g.cap * ceilDiv e.dim 64 + 24)
    else
      let y := x + g.cap * (4 * ceilDiv e.dim 64 + 16)
      (spanOf 2 pairs (slot + y) (g.cap * (e.rowStride / 64 + 1))).map fun s => y + s + 24

/-! ### Reading (R311, R317) -/

/-- Pseudo-descriptor under which the tail reads of word `w` are posted. -/
def gatherDesc (w : Nat) : Nat := 0x1_0000 + w

/-- Own entries of a bay as (list index, row), and those with a bad row. -/
def ownEntries (g : GatherBlock) (e : EmbDesc) (bay : Nat) (list : Bytes) : List (Nat × Nat) × List Nat :=
  let size := if g.op = 0 then 8 else updateEntry e.dim
  let all := (List.range g.entries).map fun i => (i, fld list (size * i) 4)
  let own := if e.bays.contains bay then all.filter fun x => e.bayOf x.2 = bay else []
  let alien := if g.op = 0 then [] else (all.filter fun x => !(e.bays.contains bay && e.bayOf x.2 = bay)).map (·.1)
  (own.filter fun x => decide (x.2 < e.rows), (own.filter fun x => decide (e.rows ≤ x.2)).map (·.1) ++ alien)

/-- The first entry of each row. -/
def firstOfRows : List Nat → List (Nat × Nat) → List (Nat × Nat)
  | _, [] => []
  | seen, x :: r => if seen.contains x.2 then firstOfRows seen r else x :: firstOfRows (x.2 :: seen) r

/-- The reads of a bay: each candidate's directory entry decides hot, tail or spilled. -/
def gatherReads (dir : Nat → Nat) (g : GatherBlock) : List (Nat × Nat) → List GatherRead → List Nat → List GatherRead × List Nat
  | [], rs, sp => (rs, sp)
  | x :: r, rs, sp =>
    let hot := dirHot (dir x.2)
    let made := (rs.filter fun y => y.tail != hot).length
    if made < (if hot then g.capHot else g.capTail) then
      gatherReads dir g r (rs ++ [{ entry := x.1, row := x.2, stage := rs.length, tail := !hot }]) sp
    else gatherReads dir g r rs (sp ++ [x.1])

/-- The entries for which a bay would read, in list order: each one, or under UPDATE the first of each row. -/
def gatherCands (g : GatherBlock) (own : List (Nat × Nat)) : List (Nat × Nat) := if g.op = 0 then own else firstOfRows [] own

/-- One bay's plan of reads. -/
def gatherBay (c : Ctx) (w : W) (g : GatherBlock) (e : EmbDesc) (u : UnitRef) (list : Bytes) : GatherBay :=
  let (own, bad) := ownEntries g e u.bay list
  let cands := gatherCands g own
  let dir := fun r => ofLe (c.bytesAt w (e.dirKey r) 8)
  let (rs, sp) := gatherReads dir g (cands.take g.cap) [] []
  { bay := u.bay, reads := rs, spilled := sp ++ (cands.drop g.cap).map (·.1), bad := bad }

/-! ### Finishing (R311, R312, R317, R319) -/

/-- A tail record any of whose granules was missed. -/
def readMissed (s : Step) (wd rep : Nat) (e : EmbDesc) (r : GatherRead) : Bool :=
  r.tail && (granulesAt (e.tailKey r.row) e.rowStride).any fun k => s.missed.contains (gatherDesc wd, rep, k)

def stagedRow (c : Ctx) (w : W) (g : GatherBlock) (e : EmbDesc) (bay : Nat) (r : GatherRead) : Bytes :=
  c.bayRead w bay (g.stage + r.stage * e.rowStride) e.rowStride

def gatherHeader (bad hot tail spilled missed badRows : Nat) : Bytes :=
  leBytes 2 bad ++ leBytes 2 hot ++ leBytes 2 tail ++ leBytes 2 spilled ++ leBytes 2 missed ++ leBytes 2 badRows ++ zeros 4

/-- One term of a partial sum, which is never −0: a product that underflows leaves +0 (R148, R314). -/
def poolAdd (wt x acc : Nat) : Nat :=
  let s := f32Fma wt x acc
  if s = 2 ^ 31 then 0 else s

/-- The output area of a look-up on one bay. -/
def lookupOut (c : Ctx) (w : W) (g : GatherBlock) (e : EmbDesc) (list : Bytes) (b : GatherBay) : Bytes :=
  let bagOf := fun i => fld list (8 * i + 4) 2
  let miss := fun r => readMissed c.step c.w c.rep e r
  let bags := List.range g.bags
  let sums := bags.map fun bag =>
    (b.reads.filter fun r => bagOf r.entry = bag).foldl (fun acc r =>
      let wt := bf16To32 (fld list (8 * r.entry + 6) 2)
      let row := rowElems e.rowFormat e.dim (if miss r then zeros e.rowStride else stagedRow c w g e b.bay r)
      (List.range e.dim).map fun j => poolAdd wt (row.getD j 0) (acc.getD j 0)) (List.replicate e.dim 0)
  let count := fun (l : List Nat) bag => (l.filter fun i => bagOf i = bag).length
  let recs := bags.map fun bag =>
    let mine := b.reads.filter fun r => bagOf r.entry = bag
    leBytes 2 (mine.filter fun r => !miss r).length ++ leBytes 2 (count b.spilled bag) ++ leBytes 2 (mine.filter miss).length ++ leBytes 2 (count b.bad bag)
  gatherHeader 0 (b.reads.filter fun r => !r.tail).length (b.reads.filter (·.tail)).length b.spilled.length (b.reads.filter miss).length b.bad.length ++
  (sums.map fun s => (s.map (leBytes 4)).flatten).flatten ++ recs.flatten

/-- The new elements and ACC of an updated row (R317). -/
def updatedRow (g : GatherBlock) (dim : Nat) (row grad : List Nat) (acc : Nat) : List Nat × Nat :=
  if g.rule = 0 then ((List.range dim).map fun j => f32Sub (row.getD j 0) (f32Mul g.lr (grad.getD j 0)), acc)
  else
    let acc' := f32Add acc (f32Div (sumSquares grad) (f32OfRat false dim 1 0))
    let d := f32Add (f32Sqrt acc') g.eps
    ((List.range dim).map fun j => f32Sub (row.getD j 0) (f32Div (f32Mul g.lr (grad.getD j 0)) d), acc')

/-- STREAM of a stochastic update (R318). -/
def updateStream (handle row : Nat) : Nat := 0x80_0000_0000 + handle * 2 ^ 32 + row

/-- One updated row: a record in the lowest free hot slot, the directory entry and the undo entry. Without a free slot it spills. -/
def updateRow (c : Ctx) (g : GatherBlock) (h : Nat) (list : Bytes) (b : GatherBay) (r : GatherRead) (a : W × List Nat) : W × List Nat :=
  let w := a.1
  match w.dev.emb? h with
  | none => a
  | some e =>
    let d := e.desc
    match e.freeSlot b.bay with
    | none => (w, a.2 ++ [r.entry])
    | some slot =>
      let size := updateEntry d.dim
      let rec_ := if readMissed c.step c.w c.rep d r then zeros d.rowStride else stagedRow c w g d b.bay r
      let grads := (List.range g.entries).filter fun i => fld list (size * i) 4 = r.row
      let grad := grads.foldl (fun acc i => (List.range d.dim).map fun j => f32Add (acc.getD j 0) (fld list (size * i + 16 + 4 * j) 4)) (List.replicate d.dim 0)
      let u := updatedRow g d.dim (rowElems d.rowFormat d.dim rec_) grad (rowAcc d.rowFormat d.dim rec_)
      let new := encodeRow d.rowFormat d.dim d.rowStride (if d.stochastic then .stochastic else .nearest)
        (fun j => roundingDraw c.step.batch.seed (updateStream h r.row) c.slot j) u.1 u.2
      let key := d.dirKey r.row
      let old := ofLe (c.bytesAt w key 8)
      let w := (w.pokes (d.hotKey b.bay slot) new).pokeN key 8 (mkDir true slot)
      let w := w.pokeN (bayKey b.bay (g.stage + g.cap * d.rowStride + 8 * r.stage)) 8 old
      let w := w.emb h fun e => { e with taken := insertNat (b.bay * 2 ^ 24 + slot) e.taken }
      -- the record and its directory entry are committed with the step: they enter the bay's CRC (R65, R80)
      let wrote := granulesAt (d.hotKey b.bay slot) d.rowStride ++ granulesAt key 8
      let w := w.step c.p fun s => { s with crcs := wrote.foldl (fun m k => crcGranule w.peek (kBAY * 2 ^ 32 + b.bay) k m) s.crcs }
      (w.step c.p fun s => { s with undo := { table := h, bay := b.bay, key := key, old := old, newSlot := slot } :: s.undo }, a.2)

/-- The table that a word's control block binds. -/
def Ctx.boundEmb (c : Ctx) (d : Dev) (b : Bytes) : Option (Nat × EmbDesc) :=
  (c.step.bound[fld b 2 2]?).bind fun x => if x.kind = 2 then x.emb.bind fun e => (d.embById? x.ident).map fun t => (t.handle, e) else none

/-- Ends the word on one bay, once its tail reads have landed or are missed. -/
def gatherFinish (c : Ctx) (u : UnitRef) (b : GatherBay) (w : W) : W :=
  let blk := c.read w c.word.srcb u 0 32
  let g := parseGather blk
  match c.boundEmb w.dev blk, c.step.plan.desc? c.word.srca with
  | some (h, e), some a =>
    let list := c.read w c.word.srca u 0 a.length
    let missed := b.reads.any (readMissed c.step c.w c.rep e)
    if missed && !g.missZero then w.step c.p fun s => { s with breached := true }
    else if g.op = 0 then
      let w := c.apply c.word.dst (c.put w.dev c.word.dst u 0 (lookupOut c w g e list b)) w
      w.step c.p fun s => { s with spilled := s.spilled + b.spilled.length, rejectSpill := s.rejectSpill || (g.spillReject && !b.spilled.isEmpty) }
    else
      let r := b.reads.foldl (fun x r => updateRow c g h list b r x) (w, [])
      let spilled := b.spilled.length + r.2.length
      let hdr := gatherHeader 0 (b.reads.filter fun r => !r.tail).length (b.reads.filter (·.tail)).length spilled
        (b.reads.filter (readMissed c.step c.w c.rep e)).length b.bad.length
      let w := c.apply c.word.dst (c.put r.1.dev c.word.dst u 0 hdr) r.1
      w.step c.p fun s => { s with spilled := s.spilled + spilled, rejectSpill := s.rejectSpill || (g.spillReject && decide (0 < spilled)) }
  | _, _ => w

/-! ### Issue -/

/-- One bay's part of a BAY_GATHER word: a bad block, or hot rows into staging and tail reads posted. A bay without tail reads ends
at once. -/
def gatherIssue (c : Ctx) (u : UnitRef) (a : W × List GatherBay × Nat) : W × List GatherBay × Nat :=
  let w := a.1
  let blk := c.read w c.word.srcb u 0 32
  let g := parseGather blk
  match c.step.plan.desc? c.word.dst, c.step.plan.desc? c.word.srca with
  | some d, some sa =>
    let bad := (c.apply c.word.dst (c.put w.dev c.word.dst u 0 (fit d.length (leBytes 2 1))) w, a.2.1, a.2.2)
    match c.boundEmb w.dev blk with
    | none => bad
    | some (_, e) =>
      if !gatherOk e (bitsOf (c.addr d u) 0 21) blk then bad
      else
        let list := c.read w c.word.srca u 0 sa.length
        let b := gatherBay c w g e u list
        let pairs := pairsOf w.dev.slots.act u.bay oBay c.p
        let deadline := c.slot + (gatherWait pairs g e sa.length c.slot).getD g.tailWait
        let dst := fun (r : GatherRead) => bayKey u.bay (g.stage + r.stage * e.rowStride)
        let hot := b.reads.filter fun r => !r.tail
        let hotKey := fun (r : GatherRead) => e.hotKey u.bay (dirSlot (ofLe (c.bytesAt w (e.dirKey r.row) 8)))
        let asked := (gatherCands g (ownEntries g e u.bay list).1).take g.cap
        let read := (asked.map fun x => granulesAt (e.dirKey x.2) 8).flatten ++ (hot.map fun r => granulesAt (hotKey r) e.rowStride).flatten
        let w := hot.foldl (fun x r => x.pokes (dst r) (c.bytesAt w (hotKey r) e.rowStride)) w
        let tails := b.reads.filter (·.tail)
        let posts := (tails.map fun r => postReads (gatherDesc c.w) c.rep deadline g.missZero false (e.tailKey r.row) (some (dst r)) e.rowStride).flatten
        let w := w.step c.p fun s => { c.post (byUnit kBAY u.bay posts) s with badRead := s.badRead ++ c.failing w.dev read }
        if tails.isEmpty then (gatherFinish c u b w, a.2.1, a.2.2) else (w, a.2.1 ++ [b], max a.2.2 deadline)
  | _, _ => a

def doGather (c : Ctx) (w : W) : W :=
  let r := (c.bayUnits w.dev).foldl (fun a u => gatherIssue c u a) (w, [], 0)
  if r.2.1.isEmpty then r.1
  else r.1.step c.p fun s => { s with gathers := s.gathers ++ [{ word := c.w, rep := c.rep, slot := c.slot, deadline := r.2.2, units := r.2.1 }] }

/-- Whether the blocks of a BAY_GATHER word ask for UPDATE: OP of the first bay that the word names. -/
def Ctx.isUpdate (c : Ctx) (w : W) : Bool :=
  match c.bayUnits w.dev with
  | u :: _ => fld (c.read w c.word.srcb u 0 32) 0 1 = 1
  | [] => false

def gatherCheck (p : Plan) (w : PWord) : Bool :=
  match p.desc? w.dst, p.desc? w.srca, p.desc? w.srcb with
  | some d, some a, some b => d.space = spBay && a.space = spBay && b.space = spBay && d.classBits = 0 && a.classBits = 0 && b.classBits = 0
  | _, _, _ => false

end Sys2Proof.Machine
end

