-- ==== Sys2Proof/Machine/BayDecode.lean ====
section
/-! DEFINITION. BAY_DECODE: decode weight products and attention on the bays (R132, R149, R150, R288). -/

namespace Sys2Proof.Machine

def fmtIsWeight (f : Nat) : Bool := fmtIsNarrow f
def fmtIsActivation (f : Nat) : Bool := f = fBF16 || f = fF8A || f = fN8

/-- FLAGS bit 15 of DST selects ATTEND. -/
def Desc.attend (d : Desc) : Bool := d.flags.testBit 15

/-- The shape of a product: K, the number of streams of 24 rows and of 24 columns, and the number of rows. -/
structure DecodeShape where
  k : Nat
  rowStreams : Nat
  colStreams : Nat
  rows : Nat
deriving DecidableEq, Repr

/-- Bytes of a stream of `k` k-values (R117). -/
def streamBytes (f k : Nat) : Nat := ceilDiv k (groupK f) * groupSize f

/-- The shape that the three LENGTHs give: activations and weights lie as R117 streams, a row or column of each in a column of its
stream (R132), and DST holds the rows' results one after another (log entry 13). -/
def decodeShape (d a b : Desc) : Option DecodeShape :=
  let kA := a.length / groupSize a.fmt * groupK a.fmt
  let kB := b.length / groupSize b.fmt * groupK b.fmt
  let results := d.length / valueSize d.fmt
  ((List.range 64).map (· + 1)).findSome? fun m =>
    let k := kA / m
    let n := kB / max 1 k
    let rows := results / max 1 (24 * n)
    if decide (0 < k) && decide (0 < n) && decide (0 < rows) && m * streamBytes a.fmt k = a.length && n * streamBytes b.fmt k = b.length
        && rows * 24 * n * valueSize d.fmt = d.length && ceilDiv rows 24 = m && k % groupK b.fmt = 0 then
      some { k := k, rowStreams := m, colStreams := n, rows := rows }
    else none

def bayDecodeCheck (p : Plan) (w : PWord) : Bool :=
  match p.desc? w.dst, p.desc? w.srca, p.desc? w.srcb with
  | some d, some a, some b =>
    a.space = spBay && b.space = spStack && d.space = spBay && fmtIsActivation a.fmt && a.classBits = 0 && b.classBits = 0
    && d.classBits % 128 = 0 && (isF32 d.fmt || d.fmt = fBF16)
    && (if d.attend then fmtIsActivation b.fmt else fmtIsWeight b.fmt && (decodeShape d a b).isSome)
  | _, _, _ => false

/-- Granules that the word reads, and its products. An ATTEND word counts the elements of SRCB, which is laid out for L_cap. -/
def decodeWork (p : Plan) (w : PWord) : Nat × Nat :=
  match p.desc? w.dst, p.desc? w.srca, p.desc? w.srcb with
  | some d, some a, some b =>
    (ceilDiv b.length 64,
     if d.attend then elemCount b.fmt b.length
     else match decodeShape d a b with | some s => s.k * (24 * s.colStreams) * s.rows | none => 0)
  | _, _, _ => (0, 0)

/-- Duration with S_G over `pairs` (R288); `ctxCap` is L_cap. -/
def bayDecodeDuration (pairs : List Nat) (ctxCap : Nat) (p : Plan) (w : PWord) (slot : Nat) : Option Nat :=
  let x := decodeWork p w
  let attend := match p.desc? w.dst with | some d => d.attend | none => false
  (spanOf 2 pairs slot x.1).map fun s => max s (ceilDiv x.2 256) + 24 + (if attend then 3 * ceilDiv ctxCap 16 else 0)

/-- One result: the exact sum of the products within one scale block of the weights, then one rounding, in ascending k-value. -/
def decodeAcc (block k : Nat) (x y : Nat → Num) : Nat :=
  (List.range (ceilDiv k block)).foldl (fun acc s =>
    let ks := ((List.range block).map (· + s * block)).filter (· < k)
    f32OfNum [acc] ((f32Num acc).add (ks.foldl (fun t e => t.add ((x e).mul (y e))) (Num.fin true 0 0)))) 0

/-- The results of FP32 bits as DST's FORMAT has them. The draws of a bay take its number as STREAM (DESIGN CHOICE, log entry 142). -/
def decodeBytes (c : Ctx) (d : Desc) (u : UnitRef) (vals : List Nat) : Bytes :=
  let mode := (fmtRounding d.format).getD .nearest
  if d.fmt = fBF16 then
    ((List.range vals.length).map fun e => leBytes 2 (bf16Of32 mode (roundingDraw c.step.batch.seed u.bay c.slot e) (vals.getD e 0)).1).flatten
  else (vals.map (leBytes 4)).flatten

/-- A product on one bay: DST bytes, whether a guard condition of R121 occurred in the weights, and whether a result overflowed. -/
def decodeBay (c : Ctx) (w : W) (s : DecodeShape) (d a b : Desc) (u : UnitRef) : Bytes × Bool × Bool :=
  let aBytes := streamBytes a.fmt s.k
  let bBytes := streamBytes b.fmt s.k
  let x := fun r => fun k => (fetchElem a.fmt (fun i => c.reader w c.word.srca u (r / 24 * aBytes + i)) (fun k => weightPlace a.fmt k (r % 24)) k).num
  let y := fun j => fun k => fetchElem b.fmt (fun i => c.reader w c.word.srcb u (j / 24 * bBytes + i)) (fun k => weightPlace b.fmt k (j % 24)) k
  let cols := List.range (24 * s.colStreams)
  let vals := (List.range s.rows).map fun r => cols.map fun j => decodeAcc (scaleBlock b.fmt) s.k (x r) fun k => (y j k).num
  let flat := vals.flatten
  let guard := cols.any fun j => (List.range s.k).any fun k => let e := y j k; e.excess || e.marked || e.bad
  (decodeBytes c d u flat, guard, flat.any accOverflowed)

/-- Length of the row that an ATTEND word attends: the positions below it are read (R288). A decode row has the tokens before its next position; the
tokens of a prefill row's chunk count. 0 where the word attends no row of the batch. -/
def Ctx.attendLength (c : Ctx) (u : UnitRef) : Nat :=
  match (Config.attendRow c.step.plan.digest c.w u.ord c.rep).bind fun r => c.step.batch.rows[r]? with
  | some r => if r.prefill then r.position + r.count else r.position
  | none => 0

/-- One bay's attention: its operands where the plan's layout places them (log entry 13). -/
structure Attention where
  digest : Bytes
  layout : List Nat
  length : Nat
  a : Desc
  b : Desc

def Ctx.attention (c : Ctx) (d a b : Desc) (u : UnitRef) : Attention :=
  { digest := c.step.plan.digest, layout := [c.w, c.rep, d.format, a.format, b.format, d.length, a.length, b.length], length := c.attendLength u
    a := a, b := b }

def Attention.depth (x : Attention) : Nat := Config.attendDepth x.digest x.layout

/-- Operand and place of an element: the query's lies in SRCA, keys and values in SRCB. -/
def Attention.operand (x : Attention) (part : Nat) : Desc := if part = 0 then x.a else x.b

/-- An element of the query, of a key or of a value, where `rd` reads the byte at an offset of the operand. Nothing lies past its LENGTH. -/
def Attention.elem (x : Attention) (rd : Nat → Nat) (part r p k : Nat) : Fetched :=
  let d := x.operand part
  let at_ := Config.attendPlace x.digest x.layout part r p k
  fetchElem d.fmt (fun i => if at_.1 + i < d.length then rd (at_.1 + i) else 0) (fun k => weightPlace d.fmt k at_.2.1) at_.2.2

/-- Bytes of SRCB in which an element of a key or a value lies, its scale included. -/
def Attention.bytesOf (x : Attention) (part r p k : Nat) : List Nat :=
  let at_ := Config.attendPlace x.digest x.layout part r p k
  let y := weightPlace x.b.fmt at_.2.2 at_.2.1
  ((List.range (ceilDiv (fmtBits x.b.fmt) 8)).map (at_.1 + y.code / 8 + ·)) ++
  (if fmtIs8 x.b.fmt then [at_.1 + y.scale, at_.1 + y.scale + 1] else [])

/-- Keys and values, as (part, result, position, element), that the word reads: none at or beyond the row's length (R288). -/
def Attention.reads (x : Attention) (results : Nat) : List (Nat × Nat × Nat × Nat) :=
  ((List.range results).map fun r => ((List.range x.length).map fun p => (2, r, p, 0) :: (List.range x.depth).map fun k => (1, r, p, k)).flatten).flatten

/-- Weights of a result's positions: the softmax of its scaled scores, by the operations of R102 on 16 lanes (R149). -/
def Attention.weights (x : Attention) (q kv : Nat → Nat) (r : Nat) : List Nat :=
  let scale := (Config.attendScale x.digest x.layout).toNat
  let scores := (List.range x.length).map fun p =>
    f32Mul scale (decodeAcc (scaleBlock x.b.fmt) x.depth (fun k => (x.elem q 0 r p k).num) fun k => (x.elem kv 1 r p k).num)
  let top := vecMaxAll scores
  let es := scores.map fun s => f32Trans 0x09 (f32Sub s top)
  let inv := f32Trans 0x0B (laneSum 4 es)
  es.map fun e => f32Mul e inv

/-- A result: the weighted sum of the values in ascending position. -/
def Attention.result (x : Attention) (q kv : Nat → Nat) (r : Nat) : Nat :=
  let ws := x.weights q kv r
  decodeAcc (scaleBlock x.b.fmt) x.length (fun p => f32Num (ws.getD p 0)) fun p => (x.elem kv 2 r p 0).num

/-- Granules of SRCB that an ATTEND word reads: those that hold a byte of a position below the row's length. -/
def Ctx.attendGranules (c : Ctx) (dev : Dev) (d a b : Desc) (u : UnitRef) : List Nat :=
  let x := c.attention d a b u
  let at_ := c.addr b u % 64
  let gs := c.granules dev c.word.srcb u
  let used := (((x.reads (d.length / valueSize d.fmt)).map fun y => x.bytesOf y.1 y.2.1 y.2.2.1 y.2.2.2).flatten).filter (· < b.length)
  (sortNat (used.map fun i => (at_ + i) / 64)).filterMap fun g => gs[g]?

/-- One bay of an ATTEND word: DST's bytes, whether a guard condition of R121 occurred in the keys and values read, and whether a result
overflowed. -/
def attendBay (c : Ctx) (w : W) (d a b : Desc) (u : UnitRef) : Bytes × Bool × Bool :=
  let x := c.attention d a b u
  let n := d.length / valueSize d.fmt
  let q := c.reader w c.word.srca u
  let kv := c.reader w c.word.srcb u
  let vals := (List.range n).map (x.result q kv)
  let guard := (x.reads n).any fun y => let e := x.elem kv y.1 y.2.1 y.2.2.1 y.2.2.2; e.excess || e.marked || e.bad
  (decodeBytes c d u vals, guard, vals.any accOverflowed)

def Step.decoded (l : List (Nat × Bool × Bool)) (s : Step) : Step :=
  { s with
    bayGuard := addAll ((l.filter fun x => x.2.1).map (·.1)) s.bayGuard
    bayOvf := addAll ((l.filter fun x => x.2.2).map (·.1)) s.bayOvf }

def doBayDecode (c : Ctx) (w : W) : W :=
  match c.step.plan.desc? c.word.dst, c.step.plan.desc? c.word.srca, c.step.plan.desc? c.word.srcb with
  | some d, some a, some b =>
    let units := c.bayUnits w.dev
    let read := (units.map fun u => if d.attend then c.attendGranules w.dev d a b u else c.granules w.dev c.word.srcb u).flatten
    let w := w.step c.p fun s => { s with badRead := s.badRead ++ c.failing w.dev read }
    let results := fun (f : UnitRef → Bytes × Bool × Bool) =>
      let rs := units.map fun u => (u, f u)
      let w := c.apply c.word.dst (rs.map fun r => c.put w.dev c.word.dst r.1 0 r.2.1).flatten w
      w.step c.p (Step.decoded (rs.map fun r => (r.1.bay, r.2.2.1, r.2.2.2)))
    if d.attend then results (attendBay c w d a b)
    else match decodeShape d a b with
      | none => w
      | some s => results (decodeBay c w s d a b)
  | _, _, _ => w

end Sys2Proof.Machine
end

