-- ==== Sys2Proof/Machine/Moves.lean ====
section
/-! DEFINITION. Transfer words: MOVE, BARN_READ, BARN_WRITE, SHED_READ, DROVE_SEND, DROVE_RECV and HOST_OUT (R348 to R350, R374 to
R378, R405 to R407, R429, R563). -/

namespace Sys2Proof.Machine

/-! ### MOVE (R348, R563) -/

/-- One copy: its writes. The window of a bay that the paddock does not hold reads zeros and takes no write. -/
def moveCopy (c : Ctx) (w : W) (d a : Desc) (u : UnitRef) : List Host.Cell :=
  let b := c.read w c.word.srca u 0 a.length
  if (c.foreignBay w.dev d u).isSome then [] else c.put w.dev c.word.dst u 0 b

/-- The unit that writes the copy of a posted read from key `src` to key `dst`: the barn or shed channel of the granule that lies there, the port,
the bay or the DMA engine (R80; which channel it is no rule says: DESIGN CHOICE, log entry 23). -/
def Ctx.postWriter (c : Ctx) (dev : Dev) (src dst : Nat) : Nat :=
  let chan := fun (k : Nat) =>
    if keySpace k = spShed then keyOff k / 4096 % dev.boot.part.shedChannels else if keySpace k = spBarn then bitsOf (keyOff k) 6 5 else 0
  c.word.kind * 2 ^ 32 +
    (if c.word.kind = kSHED || c.word.kind = kBARN then (if keySpace src = spShed || keySpace src = spBarn then chan src else chan dst) else 0)

/-- Postings of a word whose copies go to a destination that is committed or not. -/
def Ctx.staged (c : Ctx) (dev : Dev) (d : Desc) (l : List Posted) : List Posted :=
  l.map fun x => { x with stage := d.commit, writer := c.postWriter dev x.src (x.dst.getD 0) }

/-- The copies of a word whose ends are DST and SRCA. -/
def Ctx.ends (c : Ctx) (d a : Desc) (mask : Nat) : List UnitRef := c.copies [d.space, a.space] mask

/-- Writes that must have reached barn memory, the write buffer of the shed or the link by the deadline of DST (R350, R378, R429), one
posting a granule. The bytes themselves are written at the issue. -/
def Ctx.postWrites (c : Ctx) (dev : Dev) (d : Desc) (n : Nat) (us : List UnitRef) : List Posted :=
  if d.deadlineSet && [spBarn, spShed, spHost].contains d.space then
    (us.map fun u => byUnit c.word.kind u.ord
      (postReads c.word.dst c.rep (c.step.plan.deadlineAt c.w d c.rep) false true (c.key dev d.space u (c.addr d u)) none n)).flatten
  else []

def doCopies (c : Ctx) (mask : Nat) (w : W) : W :=
  match c.step.plan.desc? c.word.dst, c.step.plan.desc? c.word.srca with
  | some d, some a =>
    let us := c.ends d a mask
    let ws := (us.map (moveCopy c w d a)).flatten
    let read := if a.deadlineSet then [] else (us.map (c.granules w.dev c.word.srca)).flatten
    let foreign := (us.map (c.foreignEnds w.dev [a, d])).flatten
    let bad := c.failing w.dev read
    let posts := c.postWrites w.dev d a.length us
    let w := W.each foreign countForeign (c.apply c.word.dst ws w)
    -- what the link has taken already has met its deadline (R429)
    let waiting := posts.filter fun x => keySpace x.src ≠ spHost || w.dev.hostWaits x.src
    w.step c.p fun s =>
      let s := c.post waiting s
      { s with badRead := s.badRead ++ bad }
  | _, _ => w

def doMove (c : Ctx) (w : W) : W := doCopies c c.word.mask w

/-- R378: a shed destination. -/
def shedDstOk (d : Desc) : Bool := d.base % 4096 = 0 && d.length % 4096 = 0 && d.deadlineSet && d.commit

def moveCheck (p : Plan) (w : PWord) : Bool :=
  match p.desc? w.dst, p.desc? w.srca with
  | some d, some a =>
    d.length = a.length && w.srcb = noDesc && d.space ≠ spDrove && a.space ≠ spDrove && d.classBits = 0 && a.classBits = 0
    && (d.space ≠ spShed || shedDstOk d) && (d.space ≠ spBarn || (d.deadlineSet && decide (d.deadline ≤ p.length)))
  | _, _ => false

/-! ### Capacity of the route of a MOVE (R33, R348, R529) -/

def bridgeLink (a b : Nat) : Nat :=
  let pairs := [(0, 1), (0, 2), (0, 3), (1, 2), (1, 3), (2, 3), (0, 4), (0, 5), (1, 4), (1, 5), (2, 4), (2, 5), (3, 4), (3, 5), (4, 5)]
  match findIdxFrom (fun x : Nat × Nat => x = (min a b, max a b)) 0 pairs with
  | some (i, _) => 104 + i
  | none => 118

/-- A resource of a route: a mapped link in one direction, or the pairs of a pseudo-channel for one stack port. -/
inductive Res where
  | link (l : Nat) (inward : Bool)
  /-- stall port or stable link, which belongs to the paddock (R529) -/
  | own (bytes unit : Nat) (inward : Bool)
  | pc (n port : Nat)
deriving DecidableEq, Repr

/-- Link of the stack port through which yard `y` (die × 8 + yard) reaches stack `s`: its own on its home die, else the one of the yard there whose
position matches (R25, R33). -/
def stackPort (y s : Nat) : Nat := 40 + (s / 2 * 8 + y % 8) * 2 + s % 2

/-- The mesh links of die `die` from the router of yard `x` to that of yard `y`: along the row, then along the column (R33, R529). Each carries each
way on its own: `true` towards the higher column or row. -/
def meshPath (die x y : Nat) : List Res :=
  let (r, c, r', c') := (x / 4, x % 4, y / 4, y % 4)
  ((List.range' (min c c') (max c c' - min c c')).map fun i => Res.link (die * 10 + r * 3 + i) (decide (c < c'))) ++
  (if r = r' then [] else [Res.link (die * 10 + 6 + c') (decide (r < r'))])

/-- The links between the yard router at position `x` of die `a` and that at position `y` of die `b`: each die's mesh between the yard and the die's
bridge, and the one bridge link. On a hub die, 4 or 5, the units hang on the bridge (R32, R33; where the bridge of a field die hangs no rule says: log
entry 119). -/
def dieRoute (a x b y : Nat) : List Res :=
  let at_ := fun (die : Nat) => (Config.bridgeYard die).toNat
  if a = b then meshPath a x y
  else (if a < 4 then meshPath a x (at_ a) else []) ++ [Res.link (bridgeLink a b) (decide (a < b))] ++ (if b < 4 then meshPath b (at_ b) y else [])

/-- What a stretch of `n` bytes of a shared end at key `k` takes on its way to or from yard `y`: the place from which copies to other yards take
another way, resource and bytes. A stack is left and entered at the port of the yard whose position matches, so copies to yards at other positions part
at the stack; those from a hub die part in the mesh (R33, R88). Ends in barn memory, the shed and host memory follow their own rules (R348, R429). -/
def legOf (y : Nat) (inward : Bool) (k n : Nat) : List (Nat × Res × Nat) :=
  let way := fun (die : Nat) => if inward then dieRoute die (y % 8) (y / 8) (y % 8) else dieRoute (y / 8) (y % 8) die (y % 8)
  let toStack := fun (s : Nat) => (Res.link (stackPort y s) inward :: way (s / 2)).map fun r => (1 + y % 8, r, n)
  if keySpace k = spStack then (0, Res.pc (keyUnit k) (y % 8), 64) :: toStack (keyUnit k / 64)
  else if keySpace k = spBay || keySpace k = spCodebook then toStack (if keySpace k = spBay then keyUnit k / 64 else keyUnit k)
  else if keySpace k = spMerge then (way 4).map fun r => (0, r, n)
  else []

/-- Yard in which a copy is made. -/
def Ctx.copyYard (c : Ctx) (u : UnitRef) (sp : List Nat) : Nat :=
  if sp.any perStall || sp.contains spLoft then u.stable / 8 else (yardsOf c.stables).getD u.ord 0

/-- What one copy takes, each leg under the key by which copies share it: a source stretch counts once on each resource, and once in all in its
pseudo-channel, and each copy writes its own destination (R88). -/
def copyLegs (c : Ctx) (dev : Dev) (d a : Desc) (u : UnitRef) : List (Nat × Res × Nat) :=
  let y := c.copyYard u [d.space, a.space]
  let n := a.length
  let from_ := c.key dev a.space u (c.addr a u)
  -- the stalls of a stable share its link for one source, and each sends its own bytes out
  let stable := fun (key : Nat) (inward : Bool) => (key, Res.own 128 (2 ^ 20 + u.stable) inward, n)
  let loft := d.space = spLoft || a.space = spLoft
  let shared := fun (x : Desc) (inward : Bool) (key : Nat → Nat → Nat) =>
    let s := c.addr x u
    ((List.range (ceilDiv (s % 64 + n) 64)).map fun i =>
      let k := c.key dev x.space u (s / 64 * 64 + 64 * i)
      (legOf y inward k 64).map fun r => (key k r.1, r.2)).flatten
  (if perStall a.space then (u.flat, Res.own 64 u.flat false, n) :: (if loft then [] else [stable u.flat false])
   else if a.space = spLoft then (if perStall d.space then [] else [stable u.stable false])
   else shared a true fun k t => 2 * (k * 16 + t)) ++
  (if perStall d.space then (u.flat, Res.own 64 u.flat true, n) :: (if loft then [] else [stable (2 ^ 70 + from_) true])
   else if d.space = spLoft then (if perStall a.space then [] else [stable (2 ^ 70 + from_) true])
   else shared d false fun k _ => 2 * (k * 2 ^ 20 + u.ord) + 1)

/-- Two legs are one: the same key on the same resource; a source stretch is read from its pseudo-channel once, through the port of the first
copy that takes it. -/
def sameLeg (x y : Nat × Res × Nat) : Bool :=
  x.1 = y.1 && (match x.2.1, y.2.1 with
    | .pc n _, .pc m _ => n = m && (x.1 % 2 = 0 || x.2.1 = y.2.1)
    | a, b => a = b)

def distinctLegs : List (Nat × Res × Nat) → List (Nat × Res × Nat) → List (Nat × Res × Nat)
  | seen, [] => seen
  | seen, x :: r => distinctLegs (if seen.any (sameLeg x) then seen else x :: seen) r

/-- Bytes on each resource, a source stretch counted once. -/
def resourceLoad (legs : List (Nat × Res × Nat)) : List (Res × Nat) :=
  (distinctLegs [] legs).foldl (fun (acc : List (Res × Nat)) x =>
    match acc.find? fun y => decide (y.1 = x.2.1) with
    | some y => (y.1, y.2 + x.2.2) :: acc.filter fun z => decide (z.1 ≠ y.1)
    | none => (x.2.1, x.2.2) :: acc) []

def linkWidth (l : Nat) : Nat := if l < 104 then 256 else 768

/-- Cycles that a resource needs for `n` bytes from `slot`; none where the paddock's shares hold none of it. -/
def resCycles (p : Plan) (slot : Nat) (r : Res) (n : Nat) : Option Nat :=
  match r with
  | .own bytes _ _ => some (ceilDiv n bytes)
  | .link l _ =>
    let m := p.shares.foldl (fun a s => if s.target = 8 && s.index = l then a ||| s.entries else a) 0
    spanOf 1 ((List.range 256).filter m.testBit) slot (ceilDiv n (linkWidth l))
  | .pc k port => spanOf 2 (p.sharePairs k (2 + port)) slot (ceilDiv n 64)

def moveDuration (c : Ctx) (dev : Dev) (slot : Nat) : Option Nat :=
  match c.step.plan.desc? c.word.dst, c.step.plan.desc? c.word.srca with
  | some d, some a =>
    let legs := ((c.ends d a c.word.mask).map (copyLegs c dev d a)).flatten
    ((resourceLoad legs).foldl (fun (acc : Option Nat) x =>
      match acc, resCycles c.step.plan slot x.1 x.2 with
      | some m, some n => some (max m n)
      | _, _ => none) (some 0)).map (· + 24)
  | _, _ => none

/-! ### BARN_READ and BARN_WRITE (R349, R350) -/

/-- Postings of source descriptor `ai` for a copy, into the area that DST gives it from byte `shift` on: granule by granule, since both ends may be
interleaved or placed by page. -/
def Ctx.postPages (c : Ctx) (dev : Dev) (ai : Nat) (a d : Desc) (u : UnitRef) (shift : Nat) : List Posted :=
  let s := c.addr a u
  let t := c.addr d u + shift
  byUnit c.word.kind u.ord ((List.range (ceilDiv (s % 64 + a.length) 64)).map fun i =>
    let lo := max s (s / 64 * 64 + 64 * i)
    let hi := min (s / 64 * 64 + 64 * i + 64) (s + a.length)
    postReads ai c.rep (c.step.plan.deadlineAt c.w a c.rep) a.missZero false (c.key dev a.space u lo) (some (c.key dev d.space u (t + (lo - s)))) (hi - lo)).flatten

def doBarnRead (c : Ctx) (w : W) : W :=
  match c.step.plan.desc? c.word.dst, c.step.plan.desc? c.word.srca with
  | some d, some a =>
    let l := ((c.ends d a allYards).map fun u => c.postPages w.dev c.word.srca a d u 0).flatten
    w.step c.p (c.post (c.staged w.dev d l))
  | _, _ => w

def barnReadCheck (p : Plan) (w : PWord) : Bool :=
  match p.desc? w.dst, p.desc? w.srca with
  | some d, some a =>
    (a.space = spBarn || a.space = spCommons) && a.deadlineSet && d.classBits = 0 && a.classBits = 0 && w.srcb = noDesc
    && d.space ≠ spDrove && d.space ≠ spShed && d.space ≠ spHost
  | _, _ => false

def doBarnWrite (c : Ctx) (w : W) : W := doCopies c allYards w

def barnWriteCheck (p : Plan) (w : PWord) : Bool :=
  match p.desc? w.dst, p.desc? w.srca with
  | some d, some a =>
    d.space = spBarn && d.deadlineSet && decide (d.deadline ≤ p.length) && d.length = a.length && w.srcb = noDesc
    && d.classBits = 0 && a.classBits = 0
  | _, _ => false

/-! ### SHED_READ (R374, R375, R377) -/

def shedEntries (p : Plan) (w : PWord) : Nat := match p.desc? w.srcb with | some b => b.length / 8 | none => 0

def shedReadDuration (p : Plan) (w : PWord) : Nat := 16 + ceilDiv (shedEntries p w) 4

def doShedRead (c : Ctx) (w : W) : W :=
  match c.step.plan.desc? c.word.dst, c.step.plan.desc? c.word.srca with
  | some d, some a =>
    let list := c.step.plan.desc? c.word.srcb
    let us := c.copies ([d.space, a.space] ++ (match list with | some b => [b.space] | none => [])) allYards
    let l := (us.map fun u =>
      match list with
      | none => c.postPages w.dev c.word.srca a d u 0
      | some b =>
        let bytes := c.read w c.word.srcb u 0 b.length
        ((List.range (b.length / 8)).map fun i =>
          let off := fld bytes (8 * i) 6
          let n := min 64 (fld bytes (8 * i + 6) 2)
          let s := c.addr a u + off
          let t := c.addr d u + i * a.length
          byUnit c.word.kind u.ord ((List.range n).map fun g =>
            postReads c.word.srca c.rep (c.step.plan.deadlineAt c.w a c.rep) a.missZero false (c.key w.dev a.space u (s + 64 * g))
              (some (c.key w.dev d.space u (t + 64 * g))) 64).flatten).flatten).flatten
    let read := match list with | some _ => (us.map (c.granules w.dev c.word.srcb)).flatten | none => []
    let bad := c.failing w.dev read
    let foreign := match list with | some b => (us.map (c.foreignEnds w.dev [b])).flatten | none => []
    let posts := (c.staged w.dev d l).map fun x => { x with hasDeadline := a.deadlineSet }
    (W.each foreign countForeign w).step c.p fun s =>
      let s := c.post posts s
      { s with varied := s.varied || c.word.v, badRead := s.badRead ++ bad }
  | _, _ => w

def shedReadCheck (p : Plan) (w : PWord) : Bool :=
  match p.desc? w.dst, p.desc? w.srca with
  | some d, some a =>
    (a.space = spShed || a.space = spCommons) && [spLoft, spBay, spStack, spBarn].contains d.space && (a.deadlineSet || w.v)
    && d.classBits = 0 && a.classBits = 0
    && (match p.desc? w.srcb with
        | some b => (b.space = spLoft || b.space = spBay) && b.length % 8 = 0 && a.length % 64 = 0 && b.classBits = 0
        | none => w.srcb = noDesc)
  | _, _ => false

/-! ### DROVE_SEND and DROVE_RECV (R405 to R407) -/

def droveChannel (a : Nat) : Nat := a / 2 ^ 33 % 2 ^ 16
def drovePeer (a : Nat) : Nat := a / 2 ^ 49 % 64
def droveOffset (a : Nat) : Nat := a % 2 ^ 33

def doDroveSend (c : Ctx) (w : W) : W :=
  match c.step.plan.desc? c.word.dst, c.step.plan.desc? c.word.srca with
  | some d, some a =>
    let us := [c.loneUnit]
    let bad := c.failing w.dev (us.map (c.granules w.dev c.word.srca)).flatten
    let trains := (us.map fun u =>
      let x := c.addr d u
      trainsOf (drovePeer x) (droveChannel x) c.step.launch (droveOffset x) (c.read w c.word.srca u 0 a.length)).flatten
    let ports := if w.dev.fenced c.p then [] else (setBits 12 c.word.mask).filter (· < w.dev.boot.part.ports)
    let w := W.each ports (fun port w => W.each trains (W.sendTrain port (mkEntry oPaddock c.p)) w) w
    let w := W.each (us.map (c.foreignEnds w.dev [a])).flatten countForeign w
    w.step c.p fun s => { s with badRead := s.badRead ++ bad }
  | _, _ => w

/-- A SPACE 11 address with its reserved bits zero. -/
def droveBaseOk (d : Desc) : Bool := d.space = spDrove && bitsOf d.base 22 10 = 0

def droveSendCheck (p : Plan) (w : PWord) : Bool :=
  match p.desc? w.dst, p.desc? w.srca with
  | some d, some a => droveBaseOk d && w.srcb = noDesc && d.classBits = 0 && a.classBits = 0 && !d.bound
  | _, _ => false

def doDroveRecv (c : Ctx) (w : W) : W :=
  match c.step.plan.desc? c.word.dst, c.step.plan.desc? c.word.srca with
  | some d, some a =>
    let u := c.loneUnit
    let x := c.addr a u
    let posts := c.staged w.dev d (c.postPages w.dev c.word.srca a d u (droveOffset x))
    let opened := (setBits 12 c.word.mask).map fun port =>
      { port := port, channel := droveChannel x, desc := c.word.srca, rep := c.rep, src := memKey spDrove 0 x : Channel }
    w.step c.p fun s => { c.post posts s with channels := opened ++ s.channels }
  | _, _ => w

def droveRecvCheck (p : Plan) (w : PWord) : Bool :=
  match p.desc? w.dst, p.desc? w.srca with
  | some d, some a =>
    droveBaseOk a && a.deadlineSet && !a.bound && [spLoft, spBay, spStack, spBarn, spMerge].contains d.space && w.srcb = noDesc
    && d.classBits = 0 && a.classBits = 0
  | _, _ => false

/-! ### HOST_OUT (R429) -/

/-- Data goes to the link at the issue and reaches host memory during the step. What the link has not taken by the deadline breaches (R59). -/
def doHostOut (c : Ctx) (w : W) : W := doCopies c allYards w

def hostOutCheck (p : Plan) (w : PWord) : Bool :=
  match p.desc? w.dst, p.desc? w.srca with
  | some d, some a =>
    d.space = spHost && d.deadlineSet && d.commit && d.length = a.length && w.srcb = noDesc && d.classBits = 0 && a.classBits = 0
  | _, _ => false

end Sys2Proof.Machine
end

