-- ==== Sys2Proof/Machine/Faults.lean ====
section
/-! DEFINITION. The fault collector: records, latching, the log, fences, recovery and its queue, the safe state (R440 to R458). -/

namespace Sys2Proof.Machine

/-! ### Units and causes (R441, R442) -/

def unitKey (kind index : Nat) : Nat := kind * 2 ^ 56 + index

/-- Unit kind of such a number, and its index. -/
def fenceKind (u : Nat) : Nat := u / 2 ^ 56
def fenceIndex (u : Nat) : Nat := u % 2 ^ 56

abbrev uStall := 0x01
abbrev uStable := 0x02
abbrev uBay := 0x03
abbrev uPc := 0x04
abbrev uBarn := 0x05
abbrev uShed := 0x06
abbrev uHalter := 0x07
abbrev uDrove := 0x08
abbrev uCore := 0x09
abbrev uMerge := 0x0A
abbrev uTokenizer := 0x0B
abbrev uGrammar := 0x0C
abbrev uFabric := 0x0D
abbrev uStack := 0x0E
abbrev uHub := 0x0F

abbrev caGranuleCheck := 0x0001
abbrev caUncorrectable := 0x0002
abbrev caRetireAdvised := 0x0003
abbrev caLostGranules := 0x0004
abbrev caStoreParity := 0x0010
abbrev caArrivalCheck := 0x0011
abbrev caLinkErrors := 0x0012
abbrev caLinkLost := 0x0013
abbrev caLinkHalf := 0x0014
abbrev caRemapFull := 0x0015
abbrev caShedSpares := 0x0016
abbrev caCoreFault := 0x0018
abbrev caTimingBreach := 0x0020
abbrev caLockMismatch := 0x0021
abbrev caLockTimeout := 0x0022
abbrev caApplyIncomplete := 0x0023
abbrev caStepFailed := 0x0024
abbrev caCfgMismatch := 0x0030
abbrev caSpareLow := 0x0040
abbrev caStackTrip := 0x0050
abbrev caCollector := 0x0051
abbrev caQueueOverflow := 0x0052
abbrev caRecoveryPath := 0x0053
abbrev caStartFault := 0x0054
abbrev caFabric := 0x0055
abbrev caCfgRestore := 0x0056
abbrev caCores := 0x0057
abbrev caRail := 0x0058
abbrev caInjected := 0x00FF

abbrev clNote := 0
abbrev clUnit := 1
abbrev clPage := 2
abbrev clPlan := 3
abbrev clCfg := 4
abbrev clDevice := 5

/-- Class of a cause code; none for a reserved code and for INJECTED, whose class the writer gives. -/
def causeClass (c : Nat) : Option Nat :=
  if decide (1 ≤ c) && decide (c ≤ 4) then some clPage
  else if decide (0x10 ≤ c) && decide (c ≤ 0x18) then some clUnit
  else if decide (0x20 ≤ c) && decide (c ≤ 0x24) then some clPlan
  else if c = 0x30 then some clCfg
  else if c = 0x40 then some clNote
  else if decide (0x50 ≤ c) && decide (c ≤ 0x58) then some clDevice
  else none

/-- What is detected: the cause, the unit, what the record says of it, the paddocks whose running step used the unit or read the
page, and the cycles from detection to the fence; and the attempt and plan of a step that has left its paddock already. -/
structure Detect where
  cause : Nat
  cls : Nat
  ukind : Nat
  uindex : Nat
  detail : Nat
  arg : Nat
  pads : List Nat
  delay : Nat
  attempt : Nat := 0
  planId : Nat := 0
deriving DecidableEq, Repr

/-- Attempt and plan of the step in which the detection fell (R440): the step that it names, else the first running one of the fenced paddocks. -/
def Detect.fellIn (d : Detect) (first : Option Step) : Nat × Nat :=
  if d.attempt ≠ 0 then (d.attempt, d.planId)
  else match first with
    | some s => (s.attempt, s.plan.planId)
    | none => (0, 0)

/-- An uncorrectable report on a page that PAGE_RETIRE can name: the paddocks that read it are held for that command. An uncorrectable
granule of the shed, which has no such command, makes the step replay (R385, R447). -/
def Detect.holdsPage (d : Detect) : Bool := d.cause = 0x0002 && (d.ukind = uPc || d.ukind = uBarn)

/-! ### Stalls and stables (R15, R20, R27 to R29)

A yard is numbered die × 8 + yard, a physical stable yard × 9 + ps, a physical stall stable × 108 + p, a logical stable yard × 8 + s. -/

/-- Good physical stalls of a physical stable, ascending, as bring-up found them. -/
def Dev.goodStalls (d : Dev) (ps : Nat) : List Nat := (List.range 108).filter fun p => !d.badStalls.contains (ps * 108 + p)

/-- Good physical stables of a yard. -/
def Dev.goodStables (d : Dev) (yard : Nat) : List Nat :=
  (List.range' (yard * 9) 9).filter fun ps => decide (d.S ≤ (d.goodStalls ps).length)

/-- Physical stable of a logical stable; none where it is unavailable (R27, R28). -/
def Dev.physStable (d : Dev) (ls : Nat) : Option Nat := (d.goodStables (ls / 8))[ls % 8]?

/-- A logical stable that can be placed in a paddock: it has a physical stable and has not left a paddock in this start (R28, R398). -/
def Dev.stableAvailable (d : Dev) (ls : Nat) : Bool := decide (ls < 256) && (d.physStable ls).isSome && !d.goneStables.contains ls

/-- Physical stall of a flat number: the latest move of a re-formation, else the map of bring-up. -/
def Dev.physStall (d : Dev) (flat : Nat) : Option Nat :=
  match tget? flat d.moves with
  | some x => some x
  | none => (d.physStable (flat / d.S)).bind fun ps => ((d.goodStalls ps)[flat % d.S]?).map fun p => ps * 108 + p

/-- Flat number that a physical stall of logical stable `ls` holds now. -/
def Dev.flatIn (d : Dev) (ls phys : Nat) : Option Nat :=
  (List.range' (ls * d.S) d.S).find? fun f => d.physStall f = some phys

/-- Logical stable that lies in a physical stable. -/
def Dev.logicalOf (d : Dev) (ps : Nat) : Option Nat :=
  (List.range' (ps / 9 * 8) 8).find? fun ls => d.physStable ls = some ps

/-- Spare stalls of a physical stable that can still take a number: good, beyond the first S, never used and not fenced (R29). -/
def Dev.spareStalls (d : Dev) (ps : Nat) : List Nat :=
  (((d.goodStalls ps).drop d.S).map fun p => ps * 108 + p).filter fun x =>
    !d.moves.any (fun m => m.2 = x) && !d.faults.standing.contains (unitKey uStall x)

/-- Every available logical stable. -/
def Dev.available (d : Dev) : List Nat := (List.range 256).filter d.stableAvailable

/-- Physical stable of a yard that holds no logical stable, 0xF where there is none (R528). -/
def Dev.unusedStable (d : Dev) (yard : Nat) : Nat :=
  match (List.range 9).find? fun i => (d.logicalOf (yard * 9 + i)).isNone with
  | some i => i
  | none => 0xF

/-! ### Records (R440, R454) -/

/-- Paddocks with a step running. -/
def Dev.runningPads (d : Dev) : List Nat := (d.pads.filter fun p => p.2.step.isSome).map (·.1)

def FaultRec.unit (r : FaultRec) : Nat := unitKey r.ukind r.uindex

/-- STATE of R456 of a latched record. -/
def FaultRec.state (r : FaultRec) : Nat :=
  1 + 2 * b2n r.causePresent + 4 * b2n r.done + 8 * b2n r.standing + 16 * b2n r.queuedBehind

/-- Bytes 0 to 31: the log record. -/
def FaultRec.logBytes (r : FaultRec) : Bytes :=
  leBytes 1 (0x10 + r.cls) ++ leBytes 1 r.reaction ++ leBytes 2 r.cause ++ leBytes 4 r.seq ++ leBytes 8 r.herd ++ leBytes 8 r.unit ++ leBytes 8 r.detail

/-- The whole record. -/
def FaultRec.bytes (r : FaultRec) : Bytes :=
  r.logBytes ++ leBytes 4 r.arg ++ leBytes 1 r.attempt ++ leBytes 1 r.repeats ++ zeros 2 ++ leBytes 8 (bitMask r.paddocks) ++ leBytes 8 r.planId ++
  leBytes 4 r.state ++ leBytes 4 r.fenceDelay

/-- The safe-state record (R457). -/
def safeRecord (r : FaultRec) (reached : Nat) : Bytes :=
  leBytes 1 0x20 ++ zeros 1 ++ leBytes 2 r.cause ++ leBytes 4 r.seq ++ leBytes 8 reached ++ zeros 8 ++ leBytes 8 r.fenceDelay

def W.appendLog (b : Bytes) (w : W) : W := w.faults fun f => { f with log := (b :: f.log).take 1024, logged := f.logged + 1 }

/-- The lowest free record slot. -/
def Faults.freeSlot (f : Faults) : Option Nat := (List.range 32).find? fun i => (tget? i f.slots).isNone

def W.latch (r : FaultRec) (w : W) : W :=
  w.faults fun f => match f.freeSlot with
    | some i => { f with slots := tput i r f.slots }
    | none => f

/-- Changes the latched record of sequence number `seq`. -/
def W.latched (seq : Nat) (g : FaultRec → FaultRec) (w : W) : W :=
  w.faults fun f => { f with slots := f.slots.map fun x => if x.2.seq = seq then (x.1, g x.2) else x }

/-- A record is latched, logged and sent as an event. -/
def W.record (r : FaultRec) (w : W) : W := ((w.latch r).appendLog r.logBytes).event 1 r.logBytes

/-! ### Safe state (R450) -/

/-- Domains that stay powered: the stack cores and the gatehouse. -/
def safeDomain (n : Nat) : Bool := (decide (40 ≤ n) && decide (n ≤ 47)) || n = 95

/-- What stops when the module stops in hardware: no step goes on or commits, the links are idle, every domain but those of
`safeDomain` is OFF, and the stacks are in self-refresh (R450, R463). -/
def W.stopAll (w : W) : W :=
  let w := { w with dev := { w.dev with
    pads := w.dev.pads.map fun (x : Nat × Paddock) => (x.1, { x.2 with step := none, replay := none, gated := none, decided := [], flying := [] })
    drove := w.dev.drove.map fun (x : Nat × Link) => (x.1, { x.2 with state := 0 }) } }
  let w := w.halter fun l => { l with state := 0 }
  w.power fun p => { p with domains := (List.range 96).map fun n =>
    let x := tget Domain.reset n p.domains
    (n, if n = 95 then x else if safeDomain n then { x with state := max 3 x.state, waking := false } else { x with state := 4, waking := false }) }

/-- The safe state: the record is latched, logged and sent before the links go idle, and the gatehouse appends the safe-state record.
How long the module takes, within 20 µs, is open. -/
def W.safeState (r : FaultRec) (w : W) : W :=
  let w := w.record r
  let (n, w) := w.fresh
  let w := w.appendLog (safeRecord r (w.herd + Config.freeNat n % 8001))
  (w.stopAll).boot fun b => { b with phase := .safe }

/-! ### Reactions (R445, R447) -/

def reLogged := 0
def reReplay := 1
def reStanding := 2
def reHeld := 3
def reRestore := 4
def reSafe := 5

/-- Causes that give a standing fence at once. -/
def standsAtOnce (cause : Nat) : Bool := [caShedSpares, caRemapFull, caLinkLost, caLinkHalf, caCoreFault].contains cause

/-- A standing fence on a unit of this kind is a DEVICE record: fabric, stacks and hub units (R446). -/
def moduleUnit (ukind : Nat) : Bool := ukind = uFabric || ukind = uStack || ukind = uHub

/-- The next sequence number. -/
def W.nextSeq (w : W) : Nat × W := (w.dev.faults.seq, w.faults fun f => { f with seq := (f.seq + 1) % 2 ^ 32 })

/-- Detections named against a unit within the last second, this one included (R440). -/
def W.named (unit : Nat) (w : W) : Nat × W :=
  let near := w.dev.faults.history.filter fun x => decide (w.herd < x.2 + 400_000_000)
  let w := w.faults fun f => { f with history := (unit, w.herd) :: near }
  (satN 8 ((near.filter fun x => x.1 = unit).length + 1), w)

/-- The unit was named in another attempt of a step that is fenced now. -/
def Faults.namedBefore (f : Faults) (unit : Nat) (attempts : List (Nat × Nat)) : Bool :=
  attempts.any fun a => f.named.any fun x => x.1 = unit && x.2.1 = a.1 && x.2.2 ≠ a.2

/-- The step of each fenced running paddock, by the batch it serves, and its attempt. -/
def Dev.attempts (d : Dev) (pads : List Nat) : List (Nat × Nat) :=
  pads.filterMap fun p => (d.step? p).map fun s => (((s.batch.ring * 65536 + s.batch.index) * 64 + p) * 2 ^ 64 + s.batch.accepted, s.attempt)

/-- Puts the fence of record `seq` around `pads`: their steps abandon at their next hold point (R443). -/
def W.fence (pads : List Nat) (seq : Nat) (w : W) : W :=
  let w := w.faults fun f => { f with fences := f.fences ++ pads.map fun p => (p, seq) }
  let h := w.herd
  W.each pads (fun p w => (w.dropHostOut p).step p fun s =>
    -- a hold taken in this same tick is not taken: abandon wins (R101)
    let now := decide (h ≤ s.herdAt s.cycle)
    { s with detected := true, abandon := true, abandonHere := s.abandonHere || now, held := if now then none else s.held }) w

/-- The spare stall that a re-formation scrubs: the one that takes the number. -/
def Dev.scrubsSpare (d : Dev) (unit : Nat) : Bool :=
  d.pads.any fun (x : Nat × Paddock) => match x.2.reform with
    | some f => f.physOld ≠ 0xFF && ((d.spareStalls (f.flat / d.S / 8 * 9 + f.physStable)).head?.map (unitKey uStall)) = some unit
    | none => false

/-- The recovery path: the named unit, the spare stall that a re-formation scrubs, the drover core that runs the recovery, the farrier, the
groom, the fault collector and the gatehouse (R453). Which core runs a recovery no rule says. -/
def Dev.inRecoveryPath (d : Dev) (cur : FaultRec) (unit : Nat) : Bool :=
  (cur.ukind ≠ 0 && unit = cur.unit) || d.scrubsSpare unit || unit = unitKey uCore (Config.recoveryCore cur.seq).toNat
  || [0, 1, 3, 4].any fun i => unit = unitKey uHub i

/-- The device's own part of a reaction begins. A stall under a standing fence re-forms its paddock at the hold point; other standing
fences wait for a launch point. -/
def W.startRecovery (r : FaultRec) (w : W) : W :=
  let w := w.faults fun f => { f with recovering := some r }
  if r.reaction = reStanding then w.faults fun f => { f with toFence := insertNat r.unit f.toFence }
  else if r.reaction = reRestore then w.cfg fun c => { c with restoring := true }
  else w

/-- Start-up, stages 0 to 8 (R452). -/
def Boot.starting (b : Boot) : Bool := (b.phase = .bringUp || b.phase = .imageWait) && decide (b.stagesDone ≤ 8)

/-- The report of the stage that a detection ends carries STOP and the cause (R494). -/
def W.stopStage (status : Nat) (w : W) : W :=
  let h := w.herd
  w.boot fun b => if b.starting then
      let r := StageReport.mk b.stagesDone 2 status 0 ((h - b.stageStart) / 400_000) b.stageStart 0 0
      { b with log := b.log ++ [r] }
    else b

/-- A DEVICE record for a detection: every paddock is fenced (R450). -/
def W.device (d : Detect) (w : W) : W :=
  let w := w.stopStage (if d.cause = caStartFault then d.detail else d.cause)
  let (seq, w) := w.nextSeq
  let (rep, w) := w.named (unitKey d.ukind d.uindex)
  let all := w.dev.pads.map (·.1)
  let first := d.pads.findSome? fun p => w.dev.step? p
  w.safeState
    { cls := clDevice, reaction := reSafe, cause := d.cause, seq := seq, herd := w.herd, ukind := d.ukind, uindex := d.uindex
      detail := d.detail % 2 ^ 64, arg := d.arg, attempt := (d.fellIn first).1
      repeats := if d.ukind = 0 then 1 else rep, paddocks := sortNat all
      planId := (d.fellIn first).2, queuedBehind := false, standing := false, done := false, causePresent := true, fenceDelay := d.delay }

/-- The collector is at work. -/
def Phase.collects : Phase → Bool
  | .bringUp | .imageWait | .run | .standby | .poweringDown => true
  | _ => false

/-- A unit under a standing fence waits to be entered in the defect list, from the next start on (R486). -/
def W.listFence (d : Detect) (w : W) : W :=
  w.boot fun b =>
    let e : DefectEntry := { ukind := d.ukind, source := 3, cause := d.cause, uindex := d.uindex, start := b.startCount + 1 }
    { b with toAppend := b.toAppend ++ [e] }

/-- The groom itself while a service runs, and what the service holds (R452). -/
def Dev.groomHolds (d : Dev) (unit : Nat) : Bool :=
  d.groom.services.any fun s => s.running && (unit = unitKey uHub 4 || s.units.contains unit)

/-- The handover ends without effect: every core that runs the new image returns to the old one (R500). -/
def W.abortHandover (w : W) : W :=
  match w.dev.boot.handover with
  | none => w
  | some h => (w.boot fun b => { b with handover := none }).complete h.ring h.index .handoverAborted

/-- The core is away to load the new image. -/
def Dev.handsOver (d : Dev) (unit : Nat) : Bool :=
  match d.boot.handover with
  | some h => h.away.any fun c => unit = unitKey uCore c
  | none => false

/-- A detection, of any class (R443 to R453). -/
def W.raise (d : Detect) (w : W) : W :=
  let w := w.when (w.dev.boot.phase.collects && d.cls ≠ clNote && w.dev.handsOver (unitKey d.ukind d.uindex)) W.abortHandover
  if !w.dev.boot.phase.collects then w
  else if d.cls = clDevice then w.device d
  else if d.cls ≠ clNote && (w.dev.boot.starting || w.dev.groomHolds (unitKey d.ukind d.uindex)) then
    w.device { d with cause := caStartFault, cls := clDevice, detail := d.cause, arg := min 9 w.dev.boot.stagesDone }
  else
    let (seq, w) := w.nextSeq
    let unit := unitKey d.ukind d.uindex
    let (rep, w) := w.named unit
    let pads := sortNat (if d.cls = clCfg then w.dev.pads.map (·.1) else d.pads)
    let att := w.dev.attempts pads
    let first := pads.findSome? fun p => w.dev.step? p
    let repeats := if d.ukind = 0 then 1 else rep
    let stands := d.cls = clUnit && (decide (3 ≤ repeats) || standsAtOnce d.cause || (d.ukind ≠ 0 && w.dev.faults.namedBefore unit att))
    let w := if d.ukind = 0 then w else w.faults fun f => { f with named := att.map (fun a => (unit, a.1, a.2)) ++ f.named }
    let reaction := if d.cls = clNote then reLogged else if d.cls = clCfg then reRestore else if stands then reStanding
      else if d.holdsPage then reHeld else reReplay
    let r : FaultRec :=
      { cls := d.cls, reaction := reaction, cause := d.cause, seq := seq, herd := w.herd, ukind := d.ukind, uindex := d.uindex
        detail := d.detail % 2 ^ 64, arg := d.arg % 2 ^ 32
        attempt := (d.fellIn first).1
        repeats := repeats, paddocks := if d.cls = clNote then [] else pads
        planId := (d.fellIn first).2
        queuedBehind := false, standing := stands, done := d.cls = clNote, causePresent := stands, fenceDelay := d.delay }
    if d.cls = clNote then w.record r
    -- no entry goes and no paddock shrinks: the module stops (R18, R446; log entry 134)
    else if stands && moduleUnit d.ukind then (w.record r).device { d with cause := if d.ukind = uFabric then caFabric else d.cause, cls := clDevice }
    else
      let w := w.fence pads seq
      let w := if d.holdsPage then w.faults fun f => { f with heldPages := f.heldPages ++ pads.map fun p => (p, d.detail) } else w
      let w := if stands then (w.faults fun f => { f with standing := insertNat unit f.standing }).listFence d else w
      match w.dev.faults.recovering with
      | none => (w.record r).startRecovery r
      | some cur =>
        if w.dev.inRecoveryPath cur unit then
          (w.record r).device { d with cause := caRecoveryPath, cls := clDevice, detail := cur.seq, arg := 0 }
        else if decide (16 ≤ w.dev.faults.queue.length) then
          (w.record r).device { cause := caQueueOverflow, cls := clDevice, ukind := uHub, uindex := 0, detail := seq, arg := 0, pads := [], delay := d.delay }
        else
          let r := { r with queuedBehind := true }
          (w.record r).faults fun f => { f with queue := f.queue ++ [r] }

/-- A detection whose cause has a fixed class. -/
def W.detect (cause ukind uindex detail arg : Nat) (pads : List Nat) (w : W) : W :=
  w.raise { cause := cause, cls := (causeClass cause).getD clNote, ukind := ukind, uindex := uindex, detail := detail, arg := arg, pads := pads, delay := 0 }

/-- A detection that falls in step `s`, which has left its paddock. -/
def W.detectIn (s : Step) (cause ukind uindex detail arg : Nat) (pads : List Nat) (w : W) : W :=
  w.raise { cause := cause, cls := (causeClass cause).getD clNote, ukind := ukind, uindex := uindex, detail := detail, arg := arg, pads := pads, delay := 0
            attempt := s.attempt, planId := s.plan.planId }

/-! ### The end of a recovery (R444, R453) -/

/-- REACTION_DONE; the temporary fence of the record ends; the next record of the queue starts its recovery. -/
def W.endRecovery (w : W) : W :=
  match w.dev.faults.recovering with
  | none => w
  | some r =>
    let w := w.latched r.seq fun x => { x with done := true, causePresent := x.standing }
    let w := w.faults fun f => { f with recovering := none, fences := f.fences.filter fun x => x.2 ≠ r.seq }
    match w.dev.faults.queue with
    | [] => w
    | n :: rest => (w.faults fun f => { f with queue := rest }).startRecovery n

/-- No paddock that the record fences still runs the step that was fenced. -/
def Dev.fencedIdle (d : Dev) (r : FaultRec) : Bool :=
  !d.faults.fences.any fun x => x.2 = r.seq && d.running x.1

/-- Some paddock that the record fences waits for its replay. Where another record fences it too, the replay belongs to the later one. -/
def Dev.replayWaits (d : Dev) (r : FaultRec) : Bool :=
  d.faults.fences.any fun x => x.2 = r.seq && !d.faults.fences.any (fun y => y.1 = x.1 && y.2 ≠ r.seq) &&
    (match d.pad? x.1 with | some q => q.replay.isSome | none => false)

/-- A record whose device part is over without a launch: a paddock held for PAGE_RETIRE is held once it has abandoned; a replay that
nobody waits for; a standing fence whose effect stands; a restore that a sweep has found to match. -/
def Dev.recoveryOver (d : Dev) (r : FaultRec) : Bool :=
  d.fencedIdle r &&
  (if r.reaction = reHeld then true
   else if r.reaction = reReplay then !d.replayWaits r
   else if r.reaction = reStanding then !d.faults.toFence.contains r.unit
   else if r.reaction = reRestore then !d.regs.cfg.restoring
   else false)

def W.finishRecoveries : Nat → W → W
  | 0, w => w
  | n + 1, w =>
    match w.dev.faults.recovering with
    | some r => if w.dev.recoveryOver r then W.finishRecoveries n w.endRecovery else w
    | none => w

/-- Page of tier 5 or 6, or mapping granule of the shed, that holds granule key `k`: unit kind, unit index and address (R333, R340,
R364). -/
def pageOf (shedN k : Nat) : Nat × Nat × Nat :=
  if keySpace k = spStack then (uPc, keyUnit k, 2 ^ 40 + keyUnit k * 2 ^ 31 + keyOff k / 2048 * 2048)
  else if keySpace k = spBarn then
    -- 4 KiB of channel-local space lie every 64 bytes in 128 KiB of address
    (uBarn, bitsOf (keyOff k) 6 5, keyOff k / 131072 * 131072 + bitsOf (keyOff k) 6 5 * 64)
  else (uShed, keyOff k / 4096 % max 1 shedN, keyOff k / 4096 * 4096)

def barnPage (a : Nat) : Nat := a / 131072 * 131072 + bitsOf a 6 5 * 64

/-- The unit in whose store a key lies: kind and index (R441). -/
def Dev.unitOfKey (d : Dev) (k : Nat) : Nat × Nat :=
  let n := keyUnit k
  let sp := keySpace k
  if sp ≤ spScratch then (match d.physStall n with | some x => (uStall, x) | none => (0, 0))
  else if sp = spLoft then (match d.physStable n with | some x => (uStable, x) | none => (0, 0))
  else if sp = spBay then (uBay, n)
  else if sp = spStack then (uPc, n)
  else if sp = spMerge then (uMerge, 0)
  else if sp = spHost then (uHalter, 0)
  else (0, 0)

/-- A granule that steps of `pads` (or, with none, the host) read fails its check: a PAGE record that names the page, with RETIRE_ADVISED
from the second mismatch at the page since the start (R333). `unc`: its check came inverted, and then its kind is UNCORRECTABLE each
time, and in a store without pages the record is ARRIVAL_CHECK with the store's unit in DETAIL (DEDUCED: log entries 56 and 156). -/
def W.badGranule (pads : List Nat) (k : Nat) (unc : Bool) (w : W) : W :=
  let pg := pageOf w.dev.boot.part.shedChannels k
  if keySpace k < spStack || keySpace k > spShed then w.detect caArrivalCheck 0 0 (let u := w.dev.unitOfKey k; unitKey u.1 u.2) 0 pads
  else
    let key := unitKey pg.1 pg.2.2
    let again := w.dev.faults.badPages.contains key
    let w := w.faults fun f => { f with badPages := insertNat key f.badPages }
    w.detect (if unc then caUncorrectable else if again then caRetireAdvised else caGranuleCheck) pg.1 pg.2.1 pg.2.2 0 pads

end Sys2Proof.Machine
end

