-- ==== Sys2Proof/Machine/Bindings.lean ====
section
/-! DEFINITION. What a step binds at launch: the epoch, generation or version of each entry of BINDINGS and the base its BOUND
descriptors are counted from (R68, R70, R558); and a step as it begins. -/

namespace Sys2Proof.Machine

/-- Space and base of region `r` of an index (R168, R558). -/
def IndexDesc.region (d : IndexDesc) (r : Nat) : Option (Nat × Nat) :=
  let adj := if d.large then spBarn else spStack
  match r with
  | 0 => some (spStack, d.phdrBase)
  | 1 => some (spStack, d.scanBase)
  | 2 => some (adj, d.adjBase)
  | 3 => some (adj, d.vpoolBase)
  | 4 => some (d.vecSpace, d.vecBase)
  | 5 => some (d.psgSpace, d.psgBase)
  | 6 => some (d.cbSpace, d.cbBase)
  | 7 => some (d.projSpace, d.projBase)
  | _ => none

/-- Space and base of region `r` of an embedding table (R304, R558). -/
def EmbDesc.region (d : EmbDesc) (r : Nat) : Option (Nat × Nat) :=
  match r with
  | 0 => some (spStack, d.dirBase)
  | 1 => some (spStack, d.hotBase)
  | 2 => some (d.tailSpace, d.tailBase)
  | _ => none

/-- Where slot `slot` of the adapter store of paddock `p` begins (log entry 14). -/
def adapterBase (p slot : Nat) : Nat := 2 ^ 46 + p * 2 ^ 38 + slot * 2 ^ 30

/-- Whether REGION is one that KIND has. -/
def Binding.regionOk (b : Binding) : Bool :=
  match b.kind with
  | 1 => decide (b.region ≤ 7)
  | 2 => decide (b.region ≤ 2)
  | 3 => b.region = 0
  | 4 => b.region = 0
  | _ => false

def Paddock.adapterNow (q : Paddock) (id : Nat) : Option AdapterVersion := q.adapters.find? fun a => a.adapterId = id && a.current

/-- The object that an entry names exists in the module (check 8 of R48). -/
def Dev.bindable (d : Dev) (q : Paddock) (b : Binding) : Bool :=
  match b.kind with
  -- an index whose codebook is being copied is not created yet (R178)
  | 1 => match d.index? b.ident with | some x => x.creating.isNone | none => false
  | 2 => (d.embById? b.ident).isSome
  | 3 => q.adapters.any fun a => a.adapterId = b.ident && !a.unloaded
  | 4 => d.serve.tables.any fun t => t.tableId = b.ident
  | _ => true

/-- What an entry binds now. -/
def Dev.bindOne (d : Dev) (p : Nat) (q : Paddock) (b : Binding) : Bound :=
  let none_ : Bound := { kind := b.kind, region := b.region, ident := b.ident, epoch := 0, version := 0, base := 0, space := 0, index := none, emb := none }
  match b.kind with
  | 1 => match d.index? b.ident with
    | some x =>
      let r := (x.desc.region b.region).getD (0, 0)
      { none_ with epoch := x.epoch, version := x.desc.generation, space := r.1, base := r.2, index := some x.desc }
    | none => none_
  | 2 => match d.embById? b.ident with
    | some x =>
      let r := (x.desc.region b.region).getD (0, 0)
      { none_ with version := x.desc.version, space := r.1, base := r.2, emb := some x.desc }
    | none => none_
  | 3 => match q.adapterNow b.ident with
    | some a => { none_ with version := a.version, space := spCommons, base := adapterBase p a.slot }
    | none => none_
  | 4 => match d.serve.tables.find? fun t => t.tableId = b.ident && t.current with
    | some t => { none_ with version := t.version }
    | none => none_
  | _ => none_

def Dev.bind (d : Dev) (p : Nat) (q : Paddock) (plan : Plan) : List Bound := plan.bindings.map (d.bindOne p q)

/-- A step at plan cycle 0. -/
def Step.start (plan : Plan) (batch : Batch) (launch attempt prefill : Nat) (bound : List Bound) : Step :=
  { plan := plan, batch := batch, launch := launch, cycle := 0, attempt := attempt, bound := bound, prefill := prefill, staged := []
    posted := [], landed := [], missed := [], misses := 0, breached := false, breachNoted := false, detected := false, abandon := false
    abandonHere := false, cancel := [], holdAsked := 0, held := none, holdFrames := 0, guards := [], guardCount := [], shadowIssues := 0, ovfAcc := []
    ovfCvt := [], bayGuard := [], bayOvf := [], travMalformed := [], travCount := 0, staging := [], badRead := [], hostOut := [], foreign := 0
    termsMalformed := 0, stray := 0, late := 0, spilled := 0, rejectSpill := false, capped := false, varied := false, selected := []
    lastHop := [], issued := [], nextPrefetch := 0, channels := [], undo := [], gathers := [], chunks := [], carries := [], tokens := [], contexts := []
    masks := [], crcs := [], unready := [], active := [], commons := [], oldBad := [], zeroed := [], energyUJ := 0, reserved := 0, ended := 0, last := [] }

/-- A batch that no host sent: what a plan is checked with at load. -/
def Batch.blank : Batch :=
  { ring := 0, index := 0, cmdId := 0, family := 0, seed := 0, launch := none, pauseLive := false, window := 0, windowLen := 0, tenant := 0
    accepted := 0, service := 0, ident := 0, epoch := 0, rows := [] }

/-- The issue of word `w` in repetition `j` by a step. -/
def mkCtx (d : Dev) (p : Nat) (q : Paddock) (s : Step) (word : PWord) (w j : Nat) : Ctx :=
  { p := p, S := d.S, stables := q.stables, mergeBase := q.mergeBase, step := s, word := word, w := w, rep := j, slot := s.plan.effSlot w j }

end Sys2Proof.Machine
end

