-- ==== Sys2Proof/Machine/Allocs.lean ====
section
/-! DEFINITION. Allocations of a plan's RESIDENCY section: their rules, where their commons pages are placed, and when they are freed
(R351 to R354). -/

namespace Sys2Proof.Machine

def AllocEntry.shared (a : AllocEntry) : Bool := a.flags.testBit 4
def AllocEntry.pinned (a : AllocEntry) : Bool := a.flags.testBit 3
def AllocEntry.tiers (a : AllocEntry) : Nat := a.flags % 8

/-- Tier named by a TIER flag: 5 stacks, 6 barn memory, 7 shed. -/
def AllocEntry.tier? (a : AllocEntry) : Option Nat :=
  match a.tiers with
  | 1 => some spStack
  | 2 => some spBarn
  | 4 => some spShed
  | _ => none

/-- The entry meets R351, R352 and R354. -/
def AllocEntry.ok (a : AllocEntry) : Bool :=
  decide (a.flags < 32) && decide (a.place ≤ 1) && a.resvZero && [0, 1, 2, 4].contains a.tiers && decide (0 < a.length)
  && a.length % (if a.place = 1 then 2048 else 65536) = 0 && a.commons % 65536 = 0 && decide (a.commons + a.bytes ≤ 2 ^ 46)
  && (!a.pinned || a.tiers ≠ 0) && (a.master = 0 || a.masterSpace = spBarn || a.masterSpace = spShed)
  && (!a.shared || a.tiers = 4 || a.master ≠ 0) && (a.place = 0 || a.stackMask ≠ 0)

/-! ### Placement -/

/-- Mapping granules of the shed (R362). -/
def Part.shedGranules : Part → Nat
  | .u8200f => 7_812_500_000
  | .u8100s => 3_906_250_000
  | .u6400c => 1_953_125_000

/-- Bytes of a tier's address space (R329, R344, R362). -/
def tierBytes (d : Dev) (tier : Nat) : Nat :=
  if tier = spStack then 2 ^ 40 else if tier = spBarn then (if d.boot.part.hasBarn then 2 ^ 41 else 0) else d.boot.part.shedGranules * 4096

/-- First address of a tier at which pages that are not pinned lie: in the shed they lie in the commons pool at its top (R363). -/
def tierStart (d : Dev) (tier : Nat) : Nat := if tier = spShed then alignUp (tierBytes d spShed - d.shed.poolBytes) 65536 else 0

/-- The stretches of a tier in use: (tier, first address, end), stacks in interleaved form. Each page of an allocation, and the regions
of indexes and embedding tables. -/
def stretch (tier a n : Nat) : List (Nat × Nat × Nat) := if n = 0 then [] else [(tier, a, a + n)]

/-- A pc-local range of the bays of a mask, as a range of stack offsets of each stack that holds one. -/
def pcStretch (mask base n : Nat) : List (Nat × Nat × Nat) :=
  let lo := base / 64 * 4096
  let hi := ceilDiv (base + n) 64 * 4096
  ((List.range 8).filter fun s => bitsOf mask (64 * s) 64 ≠ 0).map fun s => (spStack, s * 2 ^ 37 + lo, s * 2 ^ 37 + hi)

/-- `n` bytes from an address of a space, which may be in pc-local form. -/
def spaceStretch (sp a n : Nat) : List (Nat × Nat × Nat) :=
  if sp = spStack && a.testBit 40 then pcStretch (2 ^ bitsOf a 31 9) (bitsOf a 0 31) n else stretch sp a n

/-- Every region of a generation whose passages end at `psg` (R187). -/
def IndexDesc.stretches (d : IndexDesc) (psg : Nat) : List (Nat × Nat × Nat) :=
  let parts := maxNat ((setBits 512 d.partMask).map (· + 1))
  let adj := fun base n => if d.large then stretch spBarn base (512 * n) else pcStretch d.partMask base n
  pcStretch d.partMask d.phdrBase 256 ++ pcStretch d.partMask d.scanBase (d.partCap * d.z) ++ adj d.adjBase (d.partCap * 192) ++
  adj d.vpoolBase (d.vrec * 192) ++ spaceStretch d.vecSpace d.vecBase (parts * d.partCap * d.vecStride) ++
  spaceStretch d.psgSpace d.psgBase psg ++
  (if d.large then spaceStretch d.cbSpace d.cbBase (16384 * d.ds) else spaceStretch d.projSpace d.projBase (2048 * d.dim))

def EmbDesc.stretches (d : EmbDesc) : List (Nat × Nat × Nat) :=
  pcStretch d.partMask d.dirBase (ceilDiv d.rows (max 1 d.nb) * 8) ++ pcStretch d.partMask d.hotBase (d.hotSlots * d.rowStride) ++
  stretch d.tailSpace d.tailBase (d.rows * d.rowStride)

def Alloc.stretches (a : Alloc) : List (Nat × Nat × Nat) := (a.place.map fun p => stretch p.2.1 p.2.2 65536).flatten

/-- Places that migrations copy to, and old copies that steps still read (R356). -/
def Dev.copyStretches (d : Dev) : List (Nat × Nat × Nat) :=
  (d.tiers.migrations.map fun m => match m.place with | some a => stretch m.target a 65536 | none => []).flatten ++
  (d.pads.map fun (x : Nat × Paddock) => ((x.2.step.toList ++ x.2.replay.toList ++ x.2.gated.toList).map fun s =>
    (s.commons.map fun y => stretch y.2.1 y.2.2 65536).flatten).flatten).flatten

/-- The region of the shed's translation map, which no allocation gets: in barn memory from the base that CAPS reports, and on a part without barn
memory in the top pages of every pseudo-channel (R365). -/
def Dev.mapStretches (d : Dev) : List (Nat × Nat × Nat) :=
  let n := 4 * d.boot.part.shedGranules
  if !d.shed.mounted then []
  else if d.boot.part.hasBarn then stretch spBarn d.boot.mapRegion n
  else (List.range 8).map fun s => (spStack, (s + 1) * 2 ^ 37 - alignUp (ceilDiv n 512) 2048 * 64, (s + 1) * 2 ^ 37)

def Dev.stretches (d : Dev) : List (Nat × Nat × Nat) :=
  d.mapStretches ++ d.copyStretches ++ (d.tiers.allocs.map Alloc.stretches).flatten ++ (d.indexes.map fun x =>
    ((x.desc :: x.old.toList ++ (x.pendingGen.map (·.desc)).toList).map fun g => g.stretches x.psgLimit).flatten).flatten ++
  (d.embs.map fun x => x.desc.stretches).flatten

/-- No page of an unpinned allocation lies in the stretches of the stacks and of barn memory (R187; log entry 122). -/
def Dev.pinnable (d : Dev) (l : List (Nat × Nat × Nat)) : Bool :=
  !(l.any fun u => u.1 ≠ spShed && (d.tiers.allocs.filter fun a => !a.entry.pinned).any fun a =>
    a.stretches.any fun y => y.1 = u.1 && decide (y.2.1 < u.2.2) && decide (u.2.1 < y.2.2))

def meets (used : List (Nat × Nat × Nat)) (tier a n : Nat) : Bool := used.any fun u => u.1 = tier && decide (u.2.1 < a + n) && decide (a < u.2.2)

/-- The lowest free address of `n` bytes in `[lo, hi)` of a tier: free space begins at `lo` or where a stretch in use ends. The choice
of the place is the device's (DESIGN CHOICE, log entry 15). -/
def freePlace (used : List (Nat × Nat × Nat)) (tier lo hi n : Nat) : Option Nat :=
  minNat? ((lo :: (used.filter (·.1 = tier)).map fun u => alignUp u.2.2 65536).filter fun a =>
    decide (lo ≤ a) && decide (a + n ≤ hi) && !meets used tier a n)

/-- Places the `n` pages of an allocation one after another; page `i` in the stacks goes to the stack that `stackOf` gives. -/
def placePages (d : Dev) (tier : Nat) (stackOf : Nat → Nat) : Nat → Nat → List (Nat × Nat × Nat) → Option (List (Nat × Nat × Nat))
  | 0, _, _ => some []
  | n + 1, i, used =>
    let lo := if tier = spStack then stackOf i * 2 ^ 37 else tierStart d tier
    let hi := if tier = spStack then lo + 2 ^ 37 else tierBytes d tier
    match freePlace used tier lo hi 65536 with
    | none => none
    | some a => (placePages d tier stackOf n (i + 1) ((tier, a, a + 65536) :: used)).map fun r => (i, tier, a) :: r

/-- Pages of an allocation. -/
def AllocEntry.pages (a : AllocEntry) : Nat := a.bytes / 65536

def AllocEntry.stackList (a : AllocEntry) : List Nat := if a.stackMask = 0 then List.range 8 else setBits 8 a.stackMask

/-- Placement of a pinned allocation, or of one whose base `at_` is known: pages run on from it; in the stacks the pages of a SPREAD
allocation go round the stacks of its mask, and a PC_LOCAL allocation takes one range of every stack (log entry 15). -/
def placedAt (a : AllocEntry) (tier at_ : Nat) : List (Nat × Nat × Nat) :=
  (List.range a.pages).map fun i =>
    if tier ≠ spStack then (i, tier, at_ + 65536 * i)
    else
      let ss := a.stackList
      let n := max 1 ss.length
      if a.place = 1 then
        let each := max 1 (a.pages / n)
        (i, tier, ss.getD (i / each) 0 * 2 ^ 37 + bitsOf at_ 0 31 / 64 * 4096 + i % each * 65536)
      else (i, tier, ss.getD (i % n) 0 * 2 ^ 37 + at_ % 2 ^ 37 + i / n * 65536)

/-- Places an allocation that is not pinned in one tier. -/
def placeIn (d : Dev) (used : List (Nat × Nat × Nat)) (a : AllocEntry) (tier : Nat) : Option (List (Nat × Nat × Nat)) :=
  if tier = spStack && a.place = 1 then
    -- one pc-local range free in every stack of the mask
    let bytes := a.length * 64
    let all := used.filter (·.1 = spStack)
    let cands := 0 :: all.map fun u => alignUp (u.2.2 % 2 ^ 37) 65536
    (minNat? (cands.filter fun o => decide (o + bytes ≤ 2 ^ 37) && a.stackList.all fun s => !meets used spStack (s * 2 ^ 37 + o) bytes)).map
      fun o => placedAt a spStack (o / 64)
  else placePages d tier (fun i => a.stackList.getD (i % max 1 a.stackList.length) 0) a.pages 0 used

/-- Result of creating an allocation. -/
inductive Made where
  | held
  | made (a : Alloc)
  | conflict
  | full
deriving DecidableEq, Repr

/-- Creates what a RESIDENCY entry asks for in paddock `p`, unless it is held with equal fields (R351, R352). A commons range that meets
another allocation's is a conflict too, since a page has one placement. -/
def Dev.makeAlloc (d : Dev) (p : Nat) (a : AllocEntry) : Made :=
  match d.tiers.allocs.find? fun x => x.paddock = p && x.entry.allocId = a.allocId with
  | some x => if x.entry = a then .held else .conflict
  | none =>
    -- SHARED_RO allocations of another paddock with the same fields are shared
    match d.tiers.allocs.find? fun x => x.entry = a && a.shared with
    | some x => .made { x with paddock := p }
    | none =>
      if d.tiers.allocs.any fun x => decide (x.entry.commons < a.commons + a.bytes) && decide (a.commons < x.entry.commons + x.entry.bytes) then .conflict
      else
        let used := d.stretches
        match a.tier? with
        | some t =>
          if a.pinned then
            let pl := placedAt a t a.phys
            if pl.any fun x => (d.tiers.allocs.map Alloc.stretches).flatten.any fun u => u.1 = x.2.1 && decide (u.2.1 < x.2.2 + 65536) && decide (x.2.2 < u.2.2) then .conflict
            else if pl.any fun x => decide (tierBytes d t < x.2.2 + 65536) || meets d.mapStretches x.2.1 x.2.2 65536 then .full
            else .made { entry := a, paddock := p, place := pl, bound := false }
          else match placeIn d used a t with
            | some pl => .made { entry := a, paddock := p, place := pl, bound := false }
            | none => .full
        | none => match [spStack, spBarn, spShed].findSome? (placeIn d used a) with
            | some pl => .made { entry := a, paddock := p, place := pl, bound := false }
            | none => .full

/-- Creates the allocations of a plan in order; none where one conflicts or finds no room, with the status. -/
def Dev.makeAllocs (d : Dev) (p : Nat) : List AllocEntry → Except Status Dev
  | [] => .ok d
  | a :: r =>
    match d.makeAlloc p a with
    | .held => Dev.makeAllocs d p r
    | .conflict => .error .allocConflict
    | .full => .error .allocFull
    | .made x => Dev.makeAllocs { d with tiers := { d.tiers with allocs := d.tiers.allocs ++ [x] } } p r

/-- Allocations that a command in progress holds: those whose pages migrate by a host command. -/
def Dev.commandHolds (d : Dev) (a : Alloc) : Bool :=
  d.tiers.migrations.any fun m => m.cmd.isSome && decide (a.entry.commons / 65536 ≤ m.page) && decide (m.page < (a.entry.commons + a.entry.bytes) / 65536)

/-- A loaded plan of the paddock, or its running or waiting step, names the allocation. -/
def Dev.allocNamed (d : Dev) (a : Alloc) : Bool :=
  match d.pad? a.paddock with
  | none => false
  | some q =>
    let plans := q.plans ++ q.decided.map (·.plan) ++ (q.step.toList ++ q.replay.toList ++ q.gated.toList).map (·.plan)
    plans.any fun p => p.residency.contains a.entry

/-- Ends the migrations of the pages of allocation `a` with CANCELLED (R359). -/
def W.cancelMigrations (a : AllocEntry) (w : W) : W :=
  let mine := fun (m : CommonsMig) => decide (a.commons / 65536 ≤ m.page) && decide (m.page < (a.commons + a.bytes) / 65536)
  let cmds := (w.dev.tiers.migrations.filter mine).filterMap (·.cmd)
  let w := w.tiers fun t => { t with migrations := t.migrations.filter fun m => !mine m }
  W.each cmds.eraseDups (fun c w => w.complete c.1 c.2 .cancelled) w

/-- Frees every allocation that nobody names or holds (R351). -/
def W.freeAllocs (w : W) : W :=
  let gone := w.dev.tiers.allocs.filter fun a => !w.dev.allocNamed a && !w.dev.commandHolds a
  let w := W.each gone (fun a w => w.cancelMigrations a.entry) w
  w.tiers fun t => { t with allocs := t.allocs.filter fun a => !gone.contains a }

/-- Allocation that holds commons address `a`. -/
def Dev.allocAt (d : Dev) (a : Nat) : Option Alloc :=
  d.tiers.allocs.find? fun x => decide (x.entry.commons ≤ a) && decide (a < x.entry.commons + x.entry.bytes)

end Sys2Proof.Machine
end

