-- ==== Sys2Proof/Machine/PlanCheck.lean ====
section
/-! DEFINITION. The checks that a plan image passes before it loads (R45 to R48, R50 to R58, R64, R123, R124, R558, R559) and the
schedule check of R56. -/

namespace Sys2Proof.Machine

/-- What the checks know besides the plan: the device, the paddock and its number. -/
structure LoadEnv where
  dev : Dev
  p : Nat
  pad : Paddock

/-! ### What the paddock holds -/

/-- Entries of a table that the paddock holds, in the active table or in the one that waits for a launch point. -/
def LoadEnv.holds (e : LoadEnv) (t : Nat) : Bool :=
  (e.dev.slots.act ++ e.dev.slots.pend).any fun kv => kv.1 / 256 = t && ownerHasPad (tableKind t) (entryOwner kv.2) && entryPad kv.2 = e.p

/-- Bays that the paddock holds. -/
def LoadEnv.bays (e : LoadEnv) : List Nat :=
  sortNat (((e.dev.slots.act ++ e.dev.slots.pend).filter fun kv =>
    decide (kv.1 / 256 < 512) && entryOwner kv.2 = oBay && entryPad kv.2 = e.p).map (·.1 / 256))

def LoadEnv.yards (e : LoadEnv) : List Nat := yardsOf e.pad.stables

/-- A standing fence around a unit of kind `k`. -/
def Dev.unitFenced (d : Dev) (k i : Nat) : Bool := d.faults.standing.contains (unitKey k i)

/-! ### Checks 4 to 8 -/

/-- Units that UNITS may name (R45). -/
def LoadEnv.unitPresent (e : LoadEnv) (bit : Nat) : Bool :=
  let part := e.dev.boot.part
  match bit with
  | 0 => part.hasBarn
  | 1 => true
  | 2 => !e.dev.unitFenced uGrammar 0
  | 3 => !e.dev.unitFenced uMerge 0
  | 4 => !e.dev.unitFenced uTokenizer 0
  | 5 => part.lockstep
  | 6 => true
  | 7 => decide (part.ports = 12)
  | _ => false

/-- A mask bit of the word names a unit that the part does not have (R52, R362), or a shared unit under a standing fence. -/
def LoadEnv.absentUnit (e : LoadEnv) (w : PWord) : Bool :=
  let part := e.dev.boot.part
  if w.kind = kSHED then decide (0 < bitsOf w.mask 0 24 / 2 ^ part.shedChannels)
  else if w.kind = kDROVE then decide (0 < bitsOf w.mask 0 12 / 2 ^ part.ports)
  else if w.kind = kBARN then !part.hasBarn && decide (0 < w.mask)
  else if w.kind = kMERGE then e.dev.unitFenced uMerge 0
  else if w.kind = kTOKENIZER then e.dev.unitFenced uTokenizer 0
  else if w.kind = kGRAMMAR then e.dev.unitFenced uGrammar 0
  else false

/-- Check 5, with the allocations of R9. -/
def LoadEnv.unitsOk (e : LoadEnv) (p : Plan) : Bool :=
  (setBits 32 p.units).all e.unitPresent && p.words.all (fun w => !e.absentUnit w)
  && (e.dev.boot.part.hasBarn || p.residency.all fun a => !a.flags.testBit 1)

/-- Check 7: entries of the merge, tokenizer and grammar units; and an entry of each such unit that the plan uses (R36). -/
def LoadEnv.sharesOk (e : LoadEnv) (p : Plan) : Bool :=
  (p.shares.all fun s => !(decide (5 ≤ s.target) && decide (s.target ≤ 7)) || (match shareTable s.target s.index with
    | some t => (List.range 256).all fun i => !s.entries.testBit i ||
        tableEntry e.dev.slots.act t i = mkEntry s.owner e.p || tableEntry e.dev.slots.pend t i = mkEntry s.owner e.p
    | none => true))
  && p.words.all fun w =>
    if w.kind = kMERGE then e.holds tMerge
    else if w.kind = kTOKENIZER then e.holds tTokenizer
    else if w.kind = kGRAMMAR then e.holds tGrammar
    else true

/-! ### The units and areas of a word -/

/-- The step that a plan would run as, for addresses and units. -/
def LoadEnv.step (_e : LoadEnv) (p : Plan) : Step := Step.start p Batch.blank 0 0 (if p.prefillStables = 0xFFFF then 0 else p.prefillStables) []

def LoadEnv.ctx (e : LoadEnv) (s : Step) (word : PWord) (w j : Nat) : Ctx := mkCtx e.dev e.p e.pad s word w j

/-- Units of a word, or its copies (R52, R53, R563). -/
def LoadEnv.unitsOf (e : LoadEnv) (c : Ctx) : List UnitRef :=
  let w := c.word
  let sp := [w.dst, w.srca, w.srcb].filterMap fun i => (c.step.plan.desc? i).map (·.space)
  if w.kind ≤ kDEC then (if c.step.plan.isPack w then c.packUnits else c.stallUnits)
  else if w.kind = kSTABLE then c.stableUnits
  else if w.kind = kDMA then c.copies sp w.mask
  else if w.kind = kBAY then
    (e.bays.filter fun n => w.mask.testBit (n / 64)).map fun n => { ord := n, loftOrd := n, flat := 0, stable := 0, bay := n }
  else if w.kind = kDROVE then [c.loneUnit]
  else if decide (kSHED ≤ w.kind) && decide (w.kind ≤ kHALTER) then c.copies sp allYards
  else [c.sharedUnit]

/-- Addresses that descriptor `d` gives the units of a word in every repetition. -/
def LoadEnv.addrs (e : LoadEnv) (c : Ctx) (d : Desc) : List Nat :=
  let us := e.unitsOf c
  let reps := if d.strideRep = 0 then 1 else (c.step.plan.repeatOf c.w).1
  ((List.range reps).map fun j => us.map fun u => Ctx.addr { c with rep := j } d u).flatten

/-- Keys of the first byte of the areas, by unit. -/
def LoadEnv.areas (e : LoadEnv) (c : Ctx) (d : Desc) (reps : List Nat) : List Nat :=
  (reps.map fun j => (e.unitsOf c).map fun u => let c := { c with rep := j }; c.key e.dev d.space u (c.addr d u)).flatten

/-- The stretches that a descriptor names, `n` bytes at every unit in the repetitions `reps`. -/
def LoadEnv.runs (e : LoadEnv) (c : Ctx) (d : Desc) (n : Nat) (reps : List Nat) : List (Nat × Nat) :=
  (reps.map fun j => ((e.unitsOf c).map fun u => Ctx.runsOf { c with rep := j } e.dev d n u).flatten).flatten

/-! ### Header, sections and words -/

def headerOk (p : Plan) : Bool :=
  decide (1 ≤ p.kind) && decide (p.kind ≤ 8) && decide (p.parts < 8) && decide (p.flags < 4) && decide (1 ≤ p.batch)
  && (p.kind = 7 || p.toSet = p.fromSet)
  && p.flags.testBit 0 = p.words.any (·.v) && p.flags.testBit 1 = p.words.any (·.s)

/-- Words ascend in slot; END is the last word and no other, at LENGTH. -/
def wordOrderOk (p : Plan) : Bool :=
  ((List.range (p.words.length - 1)).all fun i => match p.words[i]?, p.words[i + 1]? with
    | some a, some b => decide (a.slot ≤ b.slot) && a.cls ≠ cEND
    | _, _ => true)
  && match p.words.getLast? with
    | some w => w.cls = cEND && w.slot = p.length
    | none => false

/-- R54. -/
def repeatsOk (p : Plan) : Bool :=
  (List.range p.words.length).all fun i => match p.words[i]? with
    | some w => w.cls ≠ cREPEAT || (decide (1 ≤ w.dst) && decide (w.dst ≤ 4096) && decide (1 ≤ w.srca) && decide (1 ≤ w.srcb)
        && decide (i + w.dst < p.words.length)
        && ((List.range w.dst).all fun k => match p.words[i + 1 + k]? with
            | some x => x.cls ≠ cREPEAT && x.cls ≠ cEND
            | none => false))
    | none => true

/-- Class, kind and mask of a word (R50 to R52, R560). -/
def LoadEnv.wordOk (e : LoadEnv) (p : Plan) (w : PWord) : Bool :=
  let ny := e.yards.length
  let side := if p.prefillStables = 0xFFFF then [] else
    yardsOf (if w.kind = kPRE then e.pad.stables.take p.prefillStables else e.pad.stables.drop p.prefillStables)
  w.resv = 0 && (match classKinds w.cls with | some ks => ks.contains w.kind | none => false)
  && (w.cls ≠ cNOP || (w.dst = noDesc && w.srca = noDesc && w.srcb = noDesc))
  && (if w.kind ≤ kDMA then
        w.mask / 2 ^ ny = 0 && (w.kind ≠ kPRE && w.kind ≠ kDEC || (p.prefillStables ≠ 0xFFFF &&
          (setBits 32 w.mask).all fun y => side.contains (e.yards.getD y 0)))
      else if w.kind = kBAY then w.mask / 256 = 0 && (setBits 8 w.mask).all fun s => e.bays.any fun n => n / 64 = s
      else if w.kind = kSHED then w.mask / 2 ^ 24 = 0 && (setBits 24 w.mask).all fun c => e.holds (tShed c)
      else if w.kind = kBARN then (setBits 32 w.mask).all fun c => e.holds (tBarn c)
      else if w.kind = kDROVE then w.mask / 2 ^ 12 = 0 && (setBits 12 w.mask).all fun c => e.holds (tUnit c)
      else w.mask = 1)

/-! ### Bindings, commits and descriptors -/

/-- R166, R308, R558: an index or an embedding table is bound only in its home paddock. -/
def LoadEnv.bindingOk (e : LoadEnv) (b : Binding) : Bool :=
  b.resv = 0 && b.regionOk && (match b.kind with
    | 1 => (match e.dev.index? b.ident with | some x => x.paddock = e.p | none => true)
    | 2 => (match e.dev.embById? b.ident with | some x => x.paddock = e.p | none => true)
    | _ => true)

def Plan.commitsOk (p : Plan) : Bool :=
  p.commits.all fun c => decide (1 ≤ c.1) && decide (c.1 ≤ 3) && (match p.descs[c.2]? with | some d => d.commit | none => false)

/-- A descriptor on its own (R53, R106, R329, R345, R354). -/
def Desc.plainOk (d : Desc) : Bool :=
  fmtKnown d.fmt && (fmtRounding d.format).isSome && bitsOf d.flags 4 4 = 0 && decide (d.space ≤ 11) && decide (d.guard ≤ 255)
  && (!(d.space = spStack || d.space = spBarn) || decide (d.base < 2 ^ 41)) && (d.space ≠ spCommons || d.bound || decide (d.base < 2 ^ 46))

/-- Space of the region that a BOUND descriptor names, where it is known at load. The image of an adapter is reached through the commons
(DESIGN CHOICE: log entry 14). -/
def LoadEnv.boundSpace (e : LoadEnv) (b : Binding) : Option Nat :=
  match b.kind with
  | 1 => ((e.dev.index? b.ident).bind fun x => x.desc.region b.region).map (·.1)
  | 2 => ((e.dev.embById? b.ident).bind fun x => x.desc.region b.region).map (·.1)
  | 3 => some spCommons
  | _ => none

/-- Descriptor indices that PREFETCH names as destinations. -/
def Plan.prefetchDsts (p : Plan) : List Nat := p.prefetch.map (·.dst)

/-- Allocations that hold the commons range, among those held and those the plan creates. -/
def LoadEnv.allocsAt (e : LoadEnv) (p : Plan) (a n : Nat) : List AllocEntry :=
  ((e.dev.tiers.allocs.map (·.entry)) ++ p.residency).filter fun x => decide (x.commons < a + n) && decide (a < x.commons + x.bytes)

/-- Every page of a commons range lies in a pinned allocation of the stacks (R355). -/
def LoadEnv.pinnedRange (e : LoadEnv) (p : Plan) (a n : Nat) : Bool :=
  (List.range (ceilDiv (a % 65536 + max n 1) 65536)).all fun i =>
    (e.allocsAt p (a / 65536 * 65536 + 65536 * i) 65536).any fun x => x.pinned && x.tier? = some spStack

/-- Classes that may name SPACE 10 (R200). -/
def mergeStoreClass (c : Nat) : Bool := c = cBAYQUEUEOUT || c = cMERGE || c = cMOVE || c = cDROVERECV

def spaceBytes (sp : Nat) : Option Nat :=
  match sp with
  | 0 => some 24576
  | 1 => some 9216
  | 2 => some 6144
  | 3 => some (2 ^ 21)
  | _ => none

/-- Pinned allocations, held and to be created: owner, entry and pages. -/
def LoadEnv.pins (e : LoadEnv) (p : Plan) : List (Nat × AllocEntry × List (Nat × Nat × Nat)) :=
  ((e.dev.tiers.allocs.filter (·.entry.pinned)).map fun x => (x.paddock, x.entry, x.place)) ++
  (p.residency.filter (·.pinned)).map fun a => (e.p, a, match a.tier? with | some t => placedAt a t a.phys | none => [])

/-- Addresses that show every page of `n` bytes from `a` of a space: a stack address in pc-local form steps a page each KiB. -/
def pageProbes (sp a n : Nat) : List Nat :=
  let step := if sp = spStack && a.testBit 40 then 1024 else 65536
  a :: ((List.range (n / step)).map fun i => a + step * (i + 1)).filter (decide <| · < a + n) ++ (if n = 0 then [] else [a + n - 1])

/-- Every page of a range of SPACE 5, 6 or 7 lies in a pinned allocation; of a range that is written, in one of the paddock's own that is not
SHARED_RO (R352, R353). -/
def LoadEnv.pinnedAt (e : LoadEnv) (p : Plan) (write : Bool) (sp a n : Nat) : Bool :=
  let pins := e.pins p
  (pageProbes sp a n).all fun x =>
    let y := if sp = spStack then stackAddr (stackKey x) else x
    pins.any fun q => (!write || (q.1 = e.p && !q.2.1.shared)) && q.2.2.any fun pl => pl.2.1 = sp && decide (pl.2.2 ≤ y) && decide (y < pl.2.2 + 65536)

/-- A commons range that is written meets no allocation that is SHARED_RO or another paddock's (R353). -/
def LoadEnv.commonsWritable (e : LoadEnv) (p : Plan) (a n : Nat) : Bool :=
  (e.allocsAt p a n).all (fun x => !x.shared) &&
  e.dev.tiers.allocs.all fun x => x.paddock = e.p || !(decide (x.entry.commons < a + n) && decide (a < x.entry.commons + x.entry.bytes))

/-- Where the `n` bytes at address `a` of a space may lie (R53, R137, R200, R329, R345, R352 to R354). `window` marks a BAY word's own window;
`bound` an address that a binding's region gives. -/
def LoadEnv.placeOk (e : LoadEnv) (p : Plan) (write window bound : Bool) (sp a n : Nat) : Bool :=
  (match spaceBytes sp with | some top => decide (a + n ≤ top) | none => true)
  && (sp ≠ spBay ||
      (if window then a / 2 ^ 21 = 0 && windowOk a (max n 1) && !(write && decide (0x10_0000 ≤ a))
       else a / 2 ^ 30 = 0 && e.bays.contains (bitsOf a 21 9) && windowOk (bitsOf a 0 21) (max n 1)))
  && (sp ≠ spMerge || decide (a + n ≤ e.pad.mergeBytes))
  && (!(sp = spStack || sp = spBarn) || decide (a < 2 ^ 41))
  && (!(sp = spStack || sp = spBarn || sp = spShed) || bound || e.pinnedAt p write sp a (max n 1))
  && (sp ≠ spCommons || (decide (a + n ≤ 2 ^ 46) || bound) && (!write || bound || e.commonsWritable p a (max n 1)))

/-- Every shed address that a BOUND descriptor gives lies below the part's capacity (R363). -/
def LoadEnv.boundShedOk (e : LoadEnv) (p : Plan) (d : Desc) (addrs : List Nat) : Bool :=
  d.space ≠ spShed || !d.bound || (match p.bindings[d.binding]? with
    | some b =>
      let at_ := match b.kind with
        | 1 => (e.dev.index? b.ident).bind fun x => x.desc.region b.region
        | 2 => (e.dev.embById? b.ident).bind fun x => x.desc.region b.region
        | _ => none
      (match at_ with | some r => addrs.all fun a => decide (r.2 + a + max d.length 1 ≤ tierBytes e.dev spShed) | none => true)
    | none => true)

/-- A descriptor at a position of a word: `pos` 0 DST, 1 SRCA, 2 SRCB (R53, R58, R85, R106, R200, R355, R405). A PASS names banks in its trough
descriptor, not bytes. -/
def LoadEnv.descAt (e : LoadEnv) (c : Ctx) (pos di : Nat) (d : Desc) : Bool :=
  let p := c.step.plan
  let w := c.word
  let addrs := e.addrs c d
  let n := max d.length 1
  (d.format / 64 = 0 || (pos = 0 && w.cls ≠ cPASS))
  && (d.guard = 0 || (pos = 0 && w.cls = cPASS))
  && (!d.deadlineSet || [spBarn, spShed, spCommons, spHost, spDrove].contains d.space || p.prefetchDsts.contains di)
  && (d.space ≠ spMerge || mergeStoreClass w.cls)
  && (d.space ≠ spDrove || w.cls = cDROVESEND || w.cls = cDROVERECV || (pos ≠ 0 && p.words.any fun x => x.cls = cDROVERECV && x.srca = di))
  && (!d.bound || (match p.bindings[d.binding]? with
      | some b => b.kind ≠ 4 && (match e.boundSpace b with | some s => d.space = s | none => true)
      | none => false))
  && ((w.cls = cPASS && pos = 0) || addrs.all fun a => e.placeOk p (pos = 0) (w.kind = kBAY) d.bound d.space a d.length)
  && e.boundShedOk p d addrs
  && (!(w.cls = cPASS && pos = 1) || (match passOf p w with
      | some (s, _) => addrs.all fun a => a % 64 = 0 && decide (a + inputArea d s.tiles ≤ 24576)
      | none => true))
  && (d.space ≠ spCommons || pos = 0 || d.deadlineSet || d.bound || addrs.all fun a => e.pinnedRange p a n)

/-- Every descriptor that a word names exists and stands rightly where it is named. -/
def LoadEnv.descsOk (e : LoadEnv) (c : Ctx) : Bool :=
  c.word.cls = cNOP || c.word.cls = cREPEAT || c.word.cls = cEND ||
  [(0, c.word.dst), (1, c.word.srca), (2, c.word.srcb)].all fun x =>
    x.2 = noDesc || (match c.step.plan.desc? x.2 with | some d => e.descAt c x.1 x.2 d | none => false)

/-! ### The class of a word -/

def LoadEnv.config (e : LoadEnv) (id : Nat) : Option Bool := (e.dev.index? id).map (·.desc.large)

/-- VOCAB of the table that the plan binds. -/
def LoadEnv.vocab (e : LoadEnv) (p : Plan) : Option Nat :=
  ((p.bindings.find? (·.kind = 4)).bind fun b => e.dev.serve.currentTable b.ident).map fun t => tokVocab t.image

/-- L_cap of R288: CTX_CAP that the paddock's ladder registers, or before SERVE_SET that of the plan's own token area, which holds CTX_CAP
tokens for each of 65,536 request numbers (R564; log entry 13). -/
def LoadEnv.ctxCap (e : LoadEnv) (p : Plan) : Nat :=
  match e.pad.serving with
  | some s => s.ctxCap
  | none => match p.residency.find? (·.allocId = 0xFFFF_FF04) with
    | some a => a.bytes / (4 * 65536)
    | none => 0

/-- Rules of the word's own chapter. -/
def LoadEnv.classOk (e : LoadEnv) (p : Plan) (w : PWord) : Bool :=
  if w.cls = cPASS then (passOf p w).isSome
  else if w.cls = cVEC then (if p.isPack w then packCheck p w else vecCheck p w)
  else if w.cls = cSELECT8 then select8Check p w
  else if w.cls = cRANDOM then randomCheck p w
  else if w.cls = cSELECT then selectCheck p w
  else if w.cls = cCOMPACT then compactCheck p w
  else if w.cls = cMOVE then moveCheck p w
  else if w.cls = cBAYTABLE then bayTableCheck p w
  else if w.cls = cBAYFETCH then bayFetchCheck p w (p.fetchLarge e.config w)
  else if w.cls = cBAYHOP then bayHopCheck p w
  else if w.cls = cBAYHAMMING then bayHammingCheck p w
  else if w.cls = cBAYGATHER then gatherCheck p w
  else if w.cls = cBAYDECODE then bayDecodeCheck p w
  else if w.cls = cBAYQUEUEOUT then bayQueueOutCheck p w
  else if w.cls = cMERGE then mergeCheck p w
  else if w.cls = cTOKENIZE then tokenizeCheck p w
  else if w.cls = cDETOKENIZE then detokenizeCheck p w
  else if w.cls = cMASK then maskCheck (e.vocab p) p w
  else if w.cls = cSHEDREAD then shedReadCheck p w
  else if w.cls = cBARNREAD then barnReadCheck p w
  else if w.cls = cBARNWRITE then barnWriteCheck p w
  else if w.cls = cDROVESEND then droveSendCheck p w
  else if w.cls = cDROVERECV then droveRecvCheck p w
  else if w.cls = cHOSTOUT then hostOutCheck p w
  else true

/-! ### Control blocks at load (R559) -/

/-- Words that issue before slot `slot`, with their first repetition. -/
def Plan.before (p : Plan) (slot : Nat) : List (Nat × PWord) :=
  ((List.range p.words.length).filterMap fun i => (p.words[i]?).map fun x => (i, x)).filter fun x => decide (x.2.slot < slot) && x.2.cls ≠ cREPEAT && x.2.cls ≠ cNOP && x.2.cls ≠ cEND

/-- Areas of space `sp` that words write before issue `c`, as (key, length), in the order of their slots, each with the CONSTANTS address it is copied from, if it is so
copied. -/
def LoadEnv.writtenBefore (e : LoadEnv) (c : Ctx) (sp : Nat) : List (Nat × Nat × Option Nat) :=
  let p := c.step.plan
  let writers := (p.before c.slot).filterMap fun x => match p.desc? x.2.dst with
    | some t => if t.space = sp then some (x.1, x.2, t) else none
    | none => none
  let all := (writers.map fun x =>
    let y := e.ctx c.step x.2.1 x.1 0
    let reps := (List.range (p.repeatOf x.1).1).filter fun j => decide (p.effSlot x.1 j < c.slot)
    (reps.map fun j => (e.unitsOf y).map fun u =>
      let y := { y with rep := j }
      let src := match p.desc? x.2.1.srca with
        | some a => if x.2.1.cls = cMOVE && a.space = spLoft && !a.bound && decide (y.addr a u + a.length ≤ p.constants.length) then some (y.addr a u) else none
        | none => none
      (p.effSlot x.1 j, y.key e.dev x.2.2.space u (y.addr x.2.2 u), x.2.2.length, src)).flatten).flatten
  (sortBy (fun (a b : Nat × Nat × Nat × Option Nat) => decide (a.1 < b.1)) all).map (·.2)

/-- The `n` bytes at key `k` as CONSTANTS give them: those of the last copy of the writes before; none where a word makes them otherwise. -/
def Plan.bytesGiven (p : Plan) (written : List (Nat × Nat × Option Nat)) (k n : Nat) : Option Bytes :=
  let hits := written.filter fun (z : Nat × Nat × Option Nat) => decide (z.1 < k + n) && decide (k < z.1 + z.2.1)
  if hits.isEmpty then
    (if keySpace k = spLoft && decide (keyOff k + n ≤ p.constants.length) then some (slice p.constants (keyOff k) n) else none)
  else
    let bs := hits.map fun z => match z.2.2 with
      | some a => if decide (z.1 ≤ k) && decide (k + n ≤ z.1 + z.2.1) then some (slice p.constants (a + (k - z.1)) n) else none
      | none => none
    if bs.all Option.isSome then bs.getLast?.join else none

/-- The `n` bytes of the control block `di` of issue `c`, as CONSTANTS give them at each unit; none where the step makes it otherwise. -/
def LoadEnv.blocks (e : LoadEnv) (c : Ctx) (di n : Nat) : Option (List Bytes) :=
  match c.step.plan.desc? di with
  | none => none
  | some d =>
    if d.bound then none
    else
      let written := e.writtenBefore c d.space
      let found := (e.areas c d [c.rep]).eraseDups.map fun k => c.step.plan.bytesGiven written k n
      if found.isEmpty || found.any Option.isNone then none else some (found.filterMap id)

/-- The control blocks of an issue that lie in CONSTANTS themselves, unwritten by the step: those that the load checks (R202, R241, R245). -/
def LoadEnv.constBlocks (e : LoadEnv) (c : Ctx) (di n : Nat) : List Bytes :=
  match c.step.plan.desc? di with
  | none => []
  | some d =>
    if d.bound || d.space ≠ spLoft then []
    else
      let written := e.writtenBefore c spLoft
      ((e.areas c d [c.rep]).eraseDups.filter fun k =>
        decide (keyOff k + n ≤ c.step.plan.constants.length) && !written.any fun z => decide (z.1 < k + n) && decide (k < z.1 + z.2.1)).map fun k =>
          slice c.step.plan.constants (keyOff k) n

/-- The blocks of an issue that lie in CONSTANTS meet their tables, at every unit. -/
def LoadEnv.controlOk (e : LoadEnv) (c : Ctx) : Bool :=
  let p := c.step.plan
  let w := c.word
  if w.cls = cMERGE then
    (match p.desc? w.dst, p.desc? w.srca with | some d, some a => (e.constBlocks c w.srcb 16).all (mergeOk a.length d.length) | _, _ => true)
  else if w.cls = cCOMPACT then (e.constBlocks c w.srcb 32).all compactOk
  else if p.isPack w then (e.constBlocks c w.srca 128).all p.packBlockOk
  else true

/-! ### Durations (R56) -/

/-- The embedding table that a block of a BAY_GATHER names. -/
def LoadEnv.blockEmb (e : LoadEnv) (p : Plan) (g : GatherBlock) : Option EmbDesc :=
  (p.bindings[g.binding]?).bind fun b => if b.kind = 2 then (e.dev.embById? b.ident).map (·.desc) else none

/-- Blocks with every value at its largest, for each table the plan binds and each operation. -/
def LoadEnv.largestGather (e : LoadEnv) (p : Plan) (len : Nat) : List (GatherBlock × EmbDesc) :=
  ((p.bindings.filterMap fun b => if b.kind = 2 then (e.dev.embById? b.ident).map (·.desc) else none).map fun t =>
    [0, 1].map fun op =>
      ({ op := op, spillReject := false, missZero := false, binding := 0, entries := min 4096 (if op = 0 then len / 8 else len / updateEntry t.dim)
         bags := 512, capHot := 256, capTail := 256, tailWait := 65535, stage := 0, lr := 0, eps := 0, rule := 0 : GatherBlock }, t)).flatten

/-- Blocks of a BAY_GATHER issue that CONSTANTS give meet R310 and R316, each at its own unit. -/
def LoadEnv.gatherBlocksOk (e : LoadEnv) (c : Ctx) : Bool :=
  match c.step.plan.desc? c.word.srcb, c.step.plan.desc? c.word.dst with
  | some b, some d =>
    let written := e.writtenBefore c b.space
    (e.unitsOf c).all fun u => match c.step.plan.bytesGiven written (c.key e.dev b.space u (c.addr b u)) 32 with
      | some x => match e.blockEmb c.step.plan (parseGather x) with
          | some t => gatherOk t (bitsOf (c.addr d u) 0 21) x && (fld x 0 1 ≠ 1 || t.updatable)
          | none => false
      | none => true
  | _, _ => true

/-- The locked sequences of an UPDATE on one bay: each record's granules, then its directory entry, in the BAY pairs after the arithmetic
(R320). -/
def LoadEnv.updateLocksAt (e : LoadEnv) (c : Ctx) (bay : Nat) : List (Nat × Nat) :=
  let p := c.step.plan
  if c.word.cls ≠ cBAYGATHER then []
  else
    let len := ((p.desc? c.word.srca).map (·.length)).getD 0
    let gs := match e.blocks c c.word.srcb 32 with
      | some bs => bs.filterMap fun b => (e.blockEmb p (parseGather b)).map fun t => (parseGather b, t)
      | none => e.largestGather p len
    let pairs := p.sharePairs bay oBay
    ((gs.filter fun g => g.1.op = 1).map fun g => match gatherWait pairs g.1 g.2 len c.slot with
      | none => []
      | some x =>
        let y := c.slot + x + g.1.cap * (4 * ceilDiv g.2.dim 64 + 16)
        let n := g.2.rowStride / 64
        (List.range g.1.cap).filterMap fun r => match spanOf 2 pairs y (r * (n + 1) + 1), spanOf 2 pairs y (r * (n + 1) + n) with
          | some a, some b => some (y + a - 2, y + b)
          | _, _ => none).flatten

def LoadEnv.updateLocks (e : LoadEnv) (c : Ctx) : List (Nat × Nat) :=
  ((e.unitsOf c).map fun u => e.updateLocksAt c u.bay).flatten.eraseDups

/-- Cycles of a shared unit's work from `slot` in the cycles that SHARES give. -/
def sharedSpan (p : Plan) (t slot work : Nat) : Option Nat := spanOf 1 (p.shareCycles t oPaddock) slot work

/-- The largest of the values, none where one is missing. -/
def worst (l : List (Option Nat)) : Option Nat := l.foldl (fun a x => match a, x with | some a, some x => some (max a x) | _, _ => none) (some 0)

/-- Duration of an issue; none where no span holds what it needs. REPEAT and END last 0 cycles and occupy no unit: no rule gives them a time
(DESIGN CHOICE: log entry 115). -/
def LoadEnv.duration (e : LoadEnv) (c : Ctx) : Option Nat :=
  let p := c.step.plan
  let w := c.word
  let bays := (e.unitsOf c).map (·.bay)
  if w.cls = cNOP then some 1
  else if w.cls = cREPEAT || w.cls = cEND then some 0
  else if w.cls = cPASS then (passOf p w).map fun s => s.1.duration
  else if w.cls = cVEC then some (if p.isPack w then packDuration p w (e.blocks c w.srca 128) else vecDuration p w)
  else if w.cls = cSELECT8 then some (select8Duration p w)
  else if w.cls = cRANDOM then some (randomDuration p w)
  else if w.cls = cSELECT then some (selectDuration p w)
  else if w.cls = cCOMPACT then some (compactDuration p w (e.blocks c w.srcb 32))
  else if w.cls = cMOVE then moveDuration c e.dev c.slot
  else if w.cls = cBAYTABLE then some (bayTableDuration p w)
  else if w.cls = cBAYFETCH then (p.fetchLarge e.config w).map bayFetchDuration
  else if w.cls = cBAYHOP then some (bayHopDuration w)
  else if w.cls = cBAYHAMMING then some (bayHammingDuration p w)
  else if w.cls = cBAYGATHER then
    (match p.desc? w.srca with
     | some a =>
       let gs := match e.blocks c w.srcb 32 with
         | some bs => bs.filterMap fun b => (e.blockEmb p (parseGather b)).map fun t => (parseGather b, t)
         | none => e.largestGather p a.length
       worst (bays.map fun n => worst (gs.map fun g => gatherDuration (p.sharePairs n oBay) g.1 g.2 a.length c.slot))
     | none => none)
  else if w.cls = cBAYDECODE then
    worst (bays.map fun n => bayDecodeDuration (p.sharePairs n oBay) (e.ctxCap p) p w c.slot)
  else if w.cls = cBAYQUEUEOUT then some 64
  else if w.cls = cMERGE then some (mergeDuration (e.blocks c w.srcb 16) (((p.desc? w.srca).map (·.length)).getD 0))
  else if w.cls = cTOKENIZE then sharedSpan p tTokenizer c.slot (tokenizeWork p (e.blocks c w.srcb 32))
  else if w.cls = cDETOKENIZE then sharedSpan p tTokenizer c.slot (detokenizeWork p)
  else if w.cls = cMASK then sharedSpan p tGrammar c.slot (maskWork p w)
  else if w.cls = cSHEDREAD then some (shedReadDuration p w)
  else some 16

/-! ### Units occupied (R56, R82, R141, R196, R239, R560) -/

/-- Units of the schedule check: a kind of unit and its number. -/
inductive Occ where
  | array (stable : Nat) | vector (stable : Nat) | select (stable : Nat) | dma (yard : Nat)
  | table (bay : Nat) | hamming (bay : Nat) | queues (bay : Nat) | sequencer (bay : Nat) | channel (bay : Nat) | gather (bay : Nat) | decode (bay : Nat)
  | shared (kind : Nat) | shed (c : Nat) | barn (c : Nat) | drove (port : Nat) | control
deriving DecidableEq, Repr

def LoadEnv.occupied (e : LoadEnv) (c : Ctx) : List Occ :=
  let w := c.word
  let ss := kindStables c.stables c.step.prefill w.kind w.mask
  let bays := fun (f : Nat → List Occ) => ((e.unitsOf c).map fun u => f u.bay).flatten
  let nop := w.cls = cNOP
  if w.kind ≤ kDEC then (if nop then ss.map Occ.array ++ ss.map Occ.vector else if w.cls = cPASS then ss.map Occ.array else ss.map Occ.vector)
  else if w.kind = kSTABLE then (maskStables c.stables w.mask).map Occ.select
  else if w.kind = kDMA then (setBits 32 w.mask).map Occ.dma
  else if w.kind = kBAY then
    bays fun n =>
      if nop then [.table n, .hamming n, .queues n, .sequencer n, .channel n, .gather n, .decode n]
      else if w.cls = cBAYTABLE then [.table n]
      else if w.cls = cBAYHAMMING then [.hamming n, .queues n]
      else if w.cls = cBAYFETCH then [.sequencer n, .channel n]
      else if w.cls = cBAYHOP then [if w.srcb = noDesc then .hamming n else .table n, .queues n]
      else if w.cls = cBAYQUEUEOUT then [.queues n]
      else if w.cls = cBAYGATHER then [.gather n]
      else [.decode n]
  else if w.kind = kSHED then (setBits 24 w.mask).map Occ.shed
  else if w.kind = kBARN then (setBits 32 w.mask).map Occ.barn
  else if w.kind = kDROVE then (setBits 12 w.mask).map Occ.drove
  else if w.kind = kCONTROL then (if nop then [.control] else [])
  else [.shared w.kind]

/-! ### The schedule (R54, R56, R58, R64, R194) -/

/-- An issue of the expanded plan: its context, when it ends and what it occupies. -/
structure Issue where
  ctx : Ctx
  stop : Option Nat
  occ : List Occ

/-- The issues of a plan in order of slot. -/
def LoadEnv.issues (e : LoadEnv) (s : Step) : List Issue :=
  let p := s.plan
  let all := (List.range p.words.length).map fun i => match p.words[i]? with
    | some x => if x.cls = cREPEAT || x.cls = cEND then [] else (List.range (p.repeatOf i).1).map fun j => e.ctx s x i j
    | none => []
  (sortBy (fun (a b : Ctx) => decide (a.slot < b.slot)) all.flatten).map fun c =>
    { ctx := c, stop := (e.duration c).map (c.slot + ·), occ := e.occupied c }

/-- No unit is given two words that overlap. -/
def noOverlap : List (Nat × Nat × List Occ) → Bool
  | [] => true
  | x :: r => r.all (fun y => decide (x.2.1 ≤ y.1) || decide (y.2.1 ≤ x.1) || !x.2.2.any y.2.2.contains) && noOverlap r

/-- Locked sequences, as (kind, mask, start, end), open ones and closed ones (R50, R157). -/
structure Locks where
  opened : List (Nat × Nat × Nat × Nat)
  closed : List (Nat × Nat)

def Locks.take (l : Locks) (w : PWord) (start stop : Nat) : Locks :=
  match l.opened.find? fun x => x.1 = w.kind && x.2.1 = w.mask with
  | some x =>
    let rest := l.opened.filter fun y => !(y.1 = w.kind && y.2.1 = w.mask)
    if w.l then { l with opened := (w.kind, w.mask, x.2.2.1, stop) :: rest } else { opened := rest, closed := (x.2.2.1, stop) :: l.closed }
  | none => if w.l then { l with opened := (w.kind, w.mask, start, stop) :: l.opened } else l

def lockedRanges (is : List (PWord × Nat × Nat)) : List (Nat × Nat) :=
  let l := is.foldl (fun (l : Locks) x => l.take x.1 x.2.1 x.2.2) { opened := [], closed := [] }
  l.closed ++ l.opened.map fun x => (x.2.2.1, x.2.2.2)

/-- When the transfer of an issue is over: a write that has a deadline is in flight until then. -/
def transferEnd (c : Ctx) (stop : Nat) : Option Nat :=
  let w := c.word
  if [cMOVE, cHOSTOUT, cBARNWRITE, cBAYQUEUEOUT, cDROVESEND].contains w.cls then
    some (match c.step.plan.desc? w.dst with
      | some d => if d.deadlineSet then max stop (c.step.plan.deadlineAt c.w d c.rep) else stop
      | none => stop)
  else none

/-- R64. -/
def holdsOk (holds : List Nat) (busy : List (Nat × Nat)) : Bool :=
  holds.head? = some 0
  && ((List.range (holds.length - 1)).all fun i => let a := holds.getD i 0; let b := holds.getD (i + 1) 0; decide (a < b) && decide (b ≤ a + 8192))
  && holds.all fun h => busy.all fun x => !(decide (x.1 < h) && decide (h < x.2))

/-- R58: a deadline falls no later than the first consumer's slot; `seen` holds the (descriptor, repetition) pairs consumed before. -/
def consumersOk : List Ctx → List (Nat × Nat) → Bool
  | [], _ => true
  | c :: r, seen =>
    let srcs := if postsReads c.word.cls || c.word.cls = cNOP then [] else [c.word.srca, c.word.srcb].filter fun i => match c.step.plan.desc? i with
      | some d => d.deadlineSet && !seen.contains (i, c.rep)
      | none => false
    srcs.all (fun i => match c.step.plan.desc? i with | some d => decide (c.step.plan.deadlineAt c.w d c.rep ≤ c.slot) | none => true)
    && consumersOk r (srcs.map (fun i => (i, c.rep)) ++ seen)

/-- R194 at one issue. -/
def LoadEnv.fetchOk (e : LoadEnv) (c : Ctx) : Bool :=
  c.word.cls ≠ cBAYFETCH || (match c.step.plan.fetchLarge e.config c.word with
    | some lg => (e.unitsOf c).all fun u => match spanOf 2 (c.step.plan.sharePairs u.bay oBay) c.slot (bayFetchGranules lg) with
        | some n => decide (n ≤ bayFetchDuration lg)
        | none => false
    | none => false)

/-- R193 where CONSTANTS give the traversal header: SRCA is 0xFFFF in SCAN mode and names adjacency records otherwise. -/
def LoadEnv.scanOk (e : LoadEnv) (c : Ctx) : Bool :=
  c.word.cls ≠ cBAYFETCH || (match e.blocks c c.word.dst 8 with
    | some bs => bs.all fun b => (fld b 4 1).testBit 1 = decide (c.word.srca = noDesc)
    | none => true)

/-- R196: the configuration of a BAY_HOP is that of every BAY_FETCH that names the same traversal block on the same bay. -/
def LoadEnv.hopOk (e : LoadEnv) (c : Ctx) : Bool :=
  let p := c.step.plan
  c.word.cls ≠ cBAYHOP || (match p.desc? c.word.srca with
    | none => true
    | some a =>
      let blocks := e.areas c a [c.rep]
      (List.range p.words.length).all fun i => match p.words[i]? with
        | none => true
        | some x => x.cls ≠ cBAYFETCH || (match p.desc? x.dst with
            | none => true
            | some t => p.fetchLarge e.config x = some (decide (c.word.srcb ≠ noDesc))
                || !(e.areas (e.ctx c.step x i 0) t (List.range (p.repeatOf i).1)).any blocks.contains))

/-- R56, R58, R64, R194. -/
def LoadEnv.scheduleOk (e : LoadEnv) (s : Step) : Bool :=
  let is := e.issues s
  let done := is.filterMap fun i => i.stop.map fun t => (i.ctx, t, i.occ)
  let locks := lockedRanges (done.map fun x => (x.1.word, x.1.slot, x.2.1)) ++ (is.map fun i => e.updateLocks i.ctx).flatten
  let passes := (done.filter fun x => x.1.word.cls = cPASS).map fun x => (x.1.slot, x.2.1)
  let moves := done.filterMap fun x => (transferEnd x.1 x.2.1).map fun t => (x.1.slot, t)
  is.all (fun i => i.stop.isSome) && done.all (fun x => decide (x.2.1 ≤ s.plan.length))
  && noOverlap (done.map fun x => (x.1.slot, x.2.1, x.2.2))
  && locks.all (fun l => decide (l.2 ≤ l.1 + 64)) && passes.all (fun l => decide (l.2 ≤ l.1 + 4096))
  && consumersOk (is.map (·.ctx)) [] && is.all (fun i => e.fetchOk i.ctx)
  && is.all (fun i => i.ctx.word.cls ≠ cBAYGATHER || e.gatherBlocksOk i.ctx) && is.all (fun i => e.controlOk i.ctx)
  && is.all (fun i => e.scanOk i.ctx) && is.all (fun i => e.hopOk i.ctx)
  && holdsOk s.plan.holds (passes ++ locks ++ moves)

/-! ### Guards (R123, R124) -/

/-- An entry of the guard section. The policy entry has REPORT_ONLY 0, and a shadow with inputs of its own may have another K (DESIGN CHOICE: log
entry 143). -/
def LoadEnv.guardOk (e : LoadEnv) (s : Step) (g : GuardEntry) : Bool :=
  let p := s.plan
  if g.guard = 0 then g.sources = 0 && g.flags / 4 = 0 && !g.flags.testBit 0 && g.word = 0xFFFF_FFFF && g.shadow = 0xFFFF_FFFF && g.resv = 0
  else
    decide (g.guard ≤ 255) && decide (g.sources ≤ 3) && decide (g.flags ≤ 1) && g.resv = 0 &&
    match p.words[g.word]? with
    | none => false
    | some gw => match passOf p gw with
      | none => false
      | some (shape, gd, ga, gb) =>
        gw.cls = cPASS && !gw.s && gd.guard = g.guard && (gb.fmt = fN2 || fmtIs4 gb.fmt) && !shape.add
        && (if g.flags.testBit 0 then g.shadow = 0xFFFF_FFFF
            else match p.words[g.shadow]? with
              | none => false
              | some sw => match passOf p sw with
                | none => false
                | some (sh, sd, sa, sb) =>
                  let stables := kindStables e.pad.stables s.prefill gw.kind gw.mask
                  sw.cls = cPASS && sw.s && sd.space = gd.space && sd.base = gd.base && sd.length = gd.length && sd.format = gd.format && sd.guard = gd.guard
                  && fmtIs8 sb.fmt && (if g.sources.testBit 1 then fmtIs8 sa.fmt else sa = ga)
                  && decide (gw.slot + shape.duration ≤ sw.slot) && sw.kind = gw.kind && sw.mask = gw.mask && p.inRepeat g.word = p.inRepeat g.shadow
                  && decide (sh.duration ≤ 4096)
                  && (List.range (p.repeatOf g.word).1).all fun j => (List.range p.words.length).all fun i => match p.words[i]? with
                      | none => true
                      | some x => x.cls ≠ cPASS || !(kindStables e.pad.stables s.prefill x.kind x.mask).any stables.contains ||
                          (List.range (p.repeatOf i).1).all fun k => ((i = g.word || i = g.shadow) && k = j)
                            || decide (p.effSlot i k ≤ p.effSlot g.word j) || decide (p.effSlot g.shadow j ≤ p.effSlot i k))

def LoadEnv.guardsOk (e : LoadEnv) (s : Step) : Bool :=
  let p := s.plan
  p.guards.all (e.guardOk s) && noRepeats (p.guards.map (·.guard))
  && (List.range p.words.length).all fun i => match p.words[i]? with
    | some w => !w.s || (p.guards.filter fun g => g.guard ≠ 0 && g.shadow = i).length = 1
    | none => true

/-! ### Reads without a deadline (R377) -/

def LoadEnv.unreadOk (e : LoadEnv) (s : Step) : Bool :=
  let p := s.plan
  let ctxs := (List.range p.words.length).filterMap fun i => (p.words[i]?).map fun x => e.ctx s x i 0
  let reps := fun (c : Ctx) (d : Desc) => List.range (if d.strideRep = 0 then 1 else (p.repeatOf c.w).1)
  let named := fun (c : Ctx) => if [cNOP, cREPEAT, cEND].contains c.word.cls then [] else [c.word.srca, c.word.srcb].filter (· ≠ noDesc)
  ctxs.all fun c => c.word.cls ≠ cSHEDREAD || (match p.desc? c.word.srca, p.desc? c.word.dst with
    | some a, some d =>
      let len := a.length * (match p.desc? c.word.srcb with | some b => b.length / 8 | none => 1)
      let area := e.runs c d len (reps c d)
      a.deadlineSet || ctxs.all fun x => x.w = c.w || (named x).all fun i =>
        i ≠ c.word.srca && i ≠ c.word.dst && (match p.desc? i with
          | some y => !(e.runs x y y.length (reps x y)).any fun k => area.any (runsMeet k)
          | none => true)
    | _, _ => true)

/-! ### Residency and prefetch (R351, R360, R564) -/

/-- The four allocations of a ladder plan. -/
def ladderAllocs : List Nat := [0xFFFF_FF01, 0xFFFF_FF02, 0xFFFF_FF03, 0xFFFF_FF04]

def residencyOk (p : Plan) : Bool :=
  p.residency.all AllocEntry.ok && noRepeats (p.residency.map (·.allocId))
  && (!(p.kind = 2 || p.kind = 3 || p.kind = 4) || ladderAllocs.all fun a => (p.residency.map (·.allocId)).contains a)

/-- Allocation of FROM_SET, or of every set (SET 0), that holds the area of a descriptor. -/
def LoadEnv.inFromSet (e : LoadEnv) (p : Plan) (d : Desc) : Bool :=
  (e.dev.tiers.allocs.map (·.entry) ++ p.residency).any fun a => (a.set = p.fromSet || a.set = 0) &&
    (if d.space = spCommons then decide (a.commons ≤ d.base) && decide (d.base + d.length ≤ a.commons + a.bytes)
     else a.pinned && a.tier? = some d.space &&
      (placedAt a d.space a.phys).any fun pl =>
        let x := if d.space = spStack then stackAddr (stackKey d.base) else d.base
        decide (pl.2.2 ≤ x) && decide (x < pl.2.2 + 65536))

def LoadEnv.prefetchOk (e : LoadEnv) (s : Step) (f : Prefetch) : Bool :=
  let p := s.plan
  let release := f.flags.testBit 1
  f.resv = 0 && decide (f.flags ≤ 3) &&
  (match p.desc? f.src with
   | some a => [spStack, spBarn, spShed, spCommons].contains a.space && a.format / 64 = 0
       && e.placeOk p false false a.bound a.space (a.base + s.boundBase a) a.length
   | none => false)
  && (if f.dst = noDesc then release && decide (f.post ≤ p.length)
      else match p.desc? f.dst with
        | none => false
        | some d =>
          d.deadlineSet && d.space ≠ spMerge && d.space ≠ spDrove && decide (f.post ≤ d.deadline) && decide (d.deadline ≤ p.length)
          && e.placeOk p true false d.bound d.space (d.base + s.boundBase d) d.length
          && (!f.flags.testBit 0 || (p.kind = 7 && e.inFromSet p d))
          && (List.range p.words.length).all fun i => match p.words[i]? with
            | none => true
            | some w =>
              [cNOP, cREPEAT, cEND].contains w.cls || decide (d.deadline ≤ w.slot) ||
              let c := e.ctx s w i 0
              let early := (List.range (p.repeatOf i).1).filter fun j => decide (p.effSlot i j < d.deadline)
              let area := c.runsOf e.dev d d.length c.loneUnit
              [w.srca, w.srcb].all fun k => match p.desc? k with
                | some x => !(e.runs c x x.length early).any fun z => area.any (runsMeet z)
                | none => true)

def ascending : List Nat → Bool
  | a :: b :: r => decide (a ≤ b) && ascending (b :: r)
  | _ => true

/-! ### The checks in order (R48) -/

/-- Bytes of shed writes that the plan stages (R378). -/
def LoadEnv.staged (e : LoadEnv) (s : Step) : Nat :=
  sumNat ((List.range s.plan.words.length).map fun i => match s.plan.words[i]? with
    | some w => if w.cls = cMOVE then (match s.plan.desc? w.dst with
        | some d => if d.space = spShed then d.length * (e.unitsOf (e.ctx s w i 0)).length * (s.plan.repeatOf i).1 else 0
        | none => 0) else 0
    | none => 0)

/-- Check 9, less the rules that name another status. -/
def LoadEnv.formatOk (e : LoadEnv) (img : Bytes) (p : Plan) : Bool :=
  let s := e.step p
  let ctxs := (List.range p.words.length).filterMap fun i => (p.words[i]?).map fun x => e.ctx s x i 0
  imageShapeOk img && headerOk p && wordOrderOk p && repeatsOk p && p.descs.all Desc.plainOk && p.words.all (e.wordOk p)
  && p.bindings.all e.bindingOk && p.commitsOk && residencyOk p && ctxs.all e.descsOk && p.words.all (e.classOk p)
  && p.energy.all (fun x => x.domain < 96 && x.word < p.words.length && x.resv = 0) && ascending (p.prefetch.map (·.post)) && p.prefetch.all (e.prefetchOk s)
  && e.guardsOk s && e.unreadOk s && e.scheduleOk s

/-- The status of the first check that fails; none where the image loads. -/
def LoadEnv.check (e : LoadEnv) (img : Bytes) : Option Status :=
  let p := parsePlan img
  if !imageHeadOk img then some .planFormat
  else if !imageDigestOk img then some .planDigest
  else if !imageSectionsOk img then some .planFormat
  else if !p.parts.testBit e.dev.boot.part.bit then some .planPart
  else if !e.unitsOk p then some .unitAbsent
  else if p.stalls ≠ e.pad.stables.length * e.dev.S then some .planStalls
  else if !e.sharesOk p then some .shareMissing
  else if !p.bindings.all (e.dev.bindable e.pad) then some .notFound
  else
    -- areas and routes in allocations that the plan itself creates are those that they get
    let e := match e.dev.makeAllocs e.p p.residency with | .ok d => { e with dev := d } | .error _ => e
    if !e.formatOk img p then some .planFormat
    else if e.pad.stageBytes < e.staged (e.step p) then some .shareMissing
    else none

end Sys2Proof.Machine
end

