-- ==== Sys2Proof/Machine/Ports.lean ====
section
/-! DEFINITION. Which stores a running word uses: ports and banks on which two scheduled words meet (R83, R86, R138, R146), and results that are not
present yet (R57, R94). -/

namespace Sys2Proof.Machine

/-- Plan cycle of the step at herd count `h`; a hold keeps it. -/
def Step.cycleNow (s : Step) (h : Nat) : Nat :=
  if s.held.isSome then s.cycle else max s.cycle ((h - s.launch) * 21 / 8 - 256 * s.holdFrames)

/-- Units, or copies, that the word acts on. -/
def Ctx.units (c : Ctx) (d : Dev) : List UnitRef :=
  match d.pad? c.p with
  | some q => LoadEnv.unitsOf { dev := d, p := c.p, pad := q } c
  | none => []

/-- A fused multiply-add, which reads what its DST holds (R562). -/
def Ctx.isFma (c : Ctx) : Bool :=
  c.word.cls = cVEC && !c.step.plan.isPack c.word && (match c.step.plan.desc? c.word.srca with | some a => a.vecOp = 4 | none => false)

/-- Descriptors that the word consumes. -/
def Ctx.sources (c : Ctx) : List Nat :=
  ((if postsReads c.word.cls then [c.word.srcb] else [c.word.srca, c.word.srcb]) ++ (if c.isFma then [c.word.dst] else [])).filter fun i =>
    (c.step.plan.desc? i).isSome

/-- Cycles that the issue lasts. -/
def Ctx.duration (c : Ctx) (d : Dev) : Nat :=
  match d.pad? c.p with
  | some q => (LoadEnv.duration { dev := d, p := c.p, pad := q } c).getD 0
  | none => 0

/-! ### Areas by key -/

/-- Banks of the trough that a PASS writes, a stretch a bank. -/
def PassShape.banks (s : PassShape) (flat : Nat) : List (Nat × Nat) :=
  (List.range s.tiles).map fun m => (memKey spTrough flat ((s.bank + m) * 2304), 2304)

/-- The stretches that the word writes on unit `u`: banks for a PASS. -/
def Ctx.written (c : Ctx) (dev : Dev) (u : UnitRef) : List (Nat × Nat) :=
  if c.word.cls = cPASS then
    (match passOf c.step.plan c.word with | some (s, _) => s.banks u.flat | none => [])
  else c.stretches dev c.word.dst u

/-- The stretches that it reads: the input area of a PASS with its metadata. -/
def Ctx.consumed (c : Ctx) (dev : Dev) (u : UnitRef) : List (Nat × Nat) :=
  let plain := (c.sources.map fun i => c.stretches dev i u).flatten
  if c.word.cls = cPASS then
    (match passOf c.step.plan c.word with
     | some (s, _, a, _) => (c.key dev a.space u (c.addr a u), inputArea a s.tiles) :: plain
     | none => plain)
  else plain

/-- What a running word uses of the stores: the stretches it reads and writes, and its load on stall ports, as (stall, into the stall, bytes a
cycle). -/
structure Use where
  cls : Nat
  reads : List (Nat × Nat)
  writes : List (Nat × Nat)
  ports : List (Nat × Bool × Nat)
deriving DecidableEq, Repr

def vectorClass (c : Nat) : Bool := c = cVEC || c = cSELECT8 || c = cRANDOM

/-- Bytes a cycle that a word moves through the port of each of its stalls: the weight stream of a PASS, the copies of a MOVE spread over the cycles of
its route, and the loft operands of a vector word spread over its own (R83; the spreading is a DESIGN CHOICE: log entry 118). -/
def Ctx.stallPorts (c : Ctx) (dev : Dev) (us : List UnitRef) : List (Nat × Bool × Nat) :=
  if c.word.cls = cPASS then
    (match passOf c.step.plan c.word with
     | some (s, _, _, b) => us.map fun u => (u.flat, true, ceilDiv b.length (max 1 s.duration))
     | none => [])
  else if c.word.cls = cMOVE then
    (match c.step.plan.desc? c.word.dst, c.step.plan.desc? c.word.srca with
     | some d, some a =>
       let rate := ceilDiv a.length (max 1 (c.duration dev - 24))
       (if perStall d.space then us.map fun u => (u.flat, true, rate) else []) ++ (if perStall a.space then us.map fun u => (u.flat, false, rate) else [])
     | _, _ => [])
  else if vectorClass c.word.cls then
    let loft := fun (is : List Nat) => sumNat (is.filterMap fun i => (c.step.plan.desc? i).bind fun d => if d.space = spLoft then some d.length else none)
    let rate := fun (n : Nat) => ceilDiv n (max 1 (c.duration dev))
    [(true, loft c.sources), (false, loft [c.word.dst])].foldl (fun l x => if x.2 = 0 then l else l ++ us.map fun u => (u.flat, x.1, rate x.2)) []
  else []

/-- What a word writes on unit `u` beside its DST: the staging of a BAY_GATHER (R310), and Ω and σ of a BAY_TABLE behind its query (R144). -/
def Ctx.writtenBeside (c : Ctx) (w : W) (u : UnitRef) : List (Nat × Nat) :=
  if c.word.cls = cBAYGATHER then
    let blk := c.read w c.word.srcb u 0 32
    let g := parseGather blk
    match c.boundEmb w.dev blk with
    | some (_, e) => [(bayKey u.bay g.stage, g.cap * (e.rowStride + 8 * g.op))]
    | none => []
  else if c.word.cls = cBAYTABLE then
    (match c.step.plan.desc? c.word.srca with | some a => [(bayKey u.bay (c.addr a u + 64 * tableDs a), 8)] | none => [])
  else []

def Ctx.use (c : Ctx) (w : W) : Use :=
  let us := c.units w.dev
  { cls := c.word.cls, reads := (us.map (c.consumed w.dev)).flatten, writes := (us.map fun u => c.written w.dev u ++ c.writtenBeside w u).flatten
    ports := c.stallPorts w.dev us }

/-- A pass whose feed steps are over uses its banks alone, until its results are there (R94). -/
def Use.tail (x : Use) : Use := { x with reads := [], ports := [] }

/-! ### Where two users meet -/

def meetsAny (l : List (Nat × Nat)) (r : Nat × Nat) : Bool := l.any (runsMeet r)

/-- A trough bank serves the array or the vector unit, never both (R83): the banks of the PASS that a vector word uses, and what that word
leaves on the stall. -/
def troughClash (p v : Use) : List (Nat × Nat) :=
  if p.cls = cPASS && vectorClass v.cls then
    let banks := p.writes.filter (meetsAny (v.reads ++ v.writes))
    banks ++ v.writes.filter fun r => banks.any fun b => keyUnit b.1 = keyUnit r.1
  else []

/-- A write into the input area of a running pass (R86): its results on that stall. -/
def inputClash (p x : Use) : List (Nat × Nat) :=
  if p.cls = cPASS then
    let hit := (p.reads.filter fun r => keySpace r.1 = spManger).filter (meetsAny x.writes)
    p.writes.filter fun r => hit.any fun h => keyUnit h.1 = keyUnit r.1
  else []

/-- Stack and half of what a stretch of a codebook store touches. -/
def codebookHalves (r : Nat × Nat) : List (Nat × Nat) :=
  if keySpace r.1 = spCodebook then (List.range (ceilDiv (keyOff r.1 % 0x8_0000 + r.2) 0x8_0000)).map fun i => (keyUnit r.1, keyOff r.1 / 0x8_0000 + i)
  else []

/-- A MOVE into the codebook half that a BAY_TABLE reads (R146): its tables on the bays of that stack. -/
def codebookClash (t x : Use) : List (Nat × Nat) :=
  if t.cls = cBAYTABLE && x.cls = cMOVE then
    let mine := (t.reads.map codebookHalves).flatten
    let hit := ((x.writes.map codebookHalves).flatten).filter mine.contains
    t.writes.filter fun r => hit.any fun h => h.1 = keyUnit r.1 / 64
  else []

/-- Banks of bay local stores that a stretch touches, as bay × 16 + bank: bank b holds the 4 KiB from b × 4,096 (DESIGN CHOICE: log entry 118). -/
def bayBanks (r : Nat × Nat) : List Nat :=
  if keySpace r.1 = spBay && decide (keyOff r.1 < 0x1_0000) then
    (List.range (ceilDiv (keyOff r.1 % 4096 + r.2) 4096)).map fun i => keyUnit r.1 * 16 + keyOff r.1 / 4096 + i
  else []

/-- The part of a stretch that lies in bank `n` of `bayBanks`. -/
def inBank (n : Nat) (r : Nat × Nat) : List (Nat × Nat) :=
  let at_ := bayKey (n / 16) (n % 16 * 4096)
  let lo := max r.1 at_
  let hi := min (r.1 + r.2) (at_ + 4096)
  if lo < hi then [(lo, hi - lo)] else []

/-- Two scheduled users on one bank of a bay (R138): what the first writes there. -/
def bankClash (x y : Use) : List (Nat × Nat) :=
  let theirs := ((y.reads ++ y.writes).map bayBanks).flatten
  (x.writes.map fun r => (((bayBanks r).filter theirs.contains).map fun n => inBank n r).flatten).flatten

/-- Stall ports that carry more than 64 bytes a cycle one way for all the words together (R83): what the words that use them leave on the stall. -/
def portClash (l : List Use) : List (Nat × Nat) :=
  let loads := (l.map (·.ports)).flatten
  let heavy := (loads.map fun x => (x.1, x.2.1)).eraseDups.filter fun k =>
    decide (64 < sumNat ((loads.filter fun x => x.1 = k.1 && x.2.1 = k.2).map (·.2.2)))
  if heavy.isEmpty then []
  else
    (l.map fun u => u.writes.filter fun r => heavy.any fun k => (u.ports.any fun x => x.1 = k.1 && x.2.1 = k.2)
      && (k.2 = false || !stallStore (keySpace r.1) || keyUnit r.1 = k.1)).flatten

/-- The stretches whose content is undefined since `x` meets `y`. -/
def clash (x y : Use) : List (Nat × Nat) :=
  troughClash x y ++ troughClash y x ++ inputClash x y ++ inputClash y x ++ codebookClash x y ++ codebookClash y x ++
  bankClash x y ++ bankClash y x

/-- Free bytes in stretches whose content no rule fixes, for a step of paddock `p`. -/
def W.spoil (p : Nat) (rs : List (Nat × Nat)) (w : W) : W :=
  W.each rs (fun r w =>
    let (b, w) := w.freeBytes r.2
    let ws := (List.range r.2).map fun i => (r.1 + i, b.getD i 0)
    let kept := match w.dev.step? p with | some s => s.staged | none => []
    (w.leaveBytes p true (ws.filter fun x => (tget? x.1 kept).isSome)).leaveBytes p false (ws.filter fun x => (tget? x.1 kept).isNone)) w

/-- The words of a step that still run at cycle `c`, as issues. -/
def Dev.runningWords (d : Dev) (p c : Nat) : List Ctx :=
  match d.pad? p with
  | none => []
  | some q => match q.step with
    | none => []
    | some s => (s.active.filter fun a => decide (c < a.2.2)).filterMap fun a => (s.plan.words[a.1]?).map fun x => mkCtx d p q s x a.1 a.2.1

/-- What the word uses of the stores at cycle `now`: a PASS whose cycles are over still writes its banks. -/
def Ctx.useAt (c : Ctx) (w : W) (now : Nat) : Use := if c.slot + c.duration w.dev ≤ now then (c.use w).tail else c.use w

/-- The words of other paddocks meet those of `c` on the codebook store of a stack alone (R146). -/
def W.codebookClashes (c : Ctx) (w : W) : W :=
  if c.word.cls ≠ cBAYTABLE && c.word.cls ≠ cMOVE then w
  else W.each ((w.dev.pads.map (·.1)).filter (· ≠ c.p)) (fun p w => match w.dev.step? p with
    | none => w
    | some s => W.each (w.dev.runningWords p (s.cycleNow w.herd)) (fun y w =>
        let x := c.use w
        let z := y.use w
        (w.spoil c.p (codebookClash x z)).spoil p (codebookClash z x)) w) w

/-- The word has taken its effect while others run: what they meet on is undefined. -/
def W.clashes (c : Ctx) (w : W) : W :=
  let w := w.codebookClashes c
  let others := w.dev.runningWords c.p c.slot
  if others.isEmpty then w
  else
    let x := c.use w
    let ys := others.map fun y => y.useAt w c.slot
    w.spoil c.p ((ys.map (clash x)).flatten ++ portClash (x :: ys)).eraseDups

/-- A posted transfer writes while words run: into the input area of a running pass (R86), or into a bank of a bay that a word uses (R138). -/
def W.landClash (p : Nat) (ws : List Host.Cell) (w : W) : W :=
  match w.dev.step? p with
  | none => w
  | some s =>
    let x : Use := { cls := cNOP, reads := [], writes := runs ws, ports := [] }
    let now := s.cycleNow w.herd
    let hit := ((w.dev.runningWords p now).map fun y =>
      let y := y.useAt w now
      inputClash y x ++ bankClash x y ++ bankClash y x).flatten
    if hit.isEmpty then w else w.spoil p hit.eraseDups

/-! ### Locked sequences under way (R157) -/

/-- Slot tables from which a locked word keeps background: those of the bays, channels, ports and units that it uses. -/
def Ctx.lockTables (c : Ctx) (dev : Dev) : List Nat :=
  let w := c.word
  if w.kind = kBAY then (c.bayUnits dev).map (·.bay)
  else if w.cls = cMERGE then [tMerge]
  else if w.cls = cTOKENIZE || w.cls = cDETOKENIZE then [tTokenizer]
  else if w.cls = cMASK then [tGrammar]
  else if w.kind = kDROVE then (setBits 12 w.mask).map tUnit
  else
    let rs := ((c.units dev).map fun u => c.stretches dev c.word.dst u ++ (c.sources.map fun i => c.stretches dev i u).flatten).flatten
    ((rs.map fun r =>
      if keySpace r.1 = spStack then [keyUnit r.1]
      else if keySpace r.1 = spBarn then (granulesAt r.1 r.2).map fun k => tBarn (bitsOf (keyOff k) 6 5)
      else if keySpace r.1 = spShed then (granulesAt r.1 r.2).map fun k => tShed (keyOff k / 4096 % dev.boot.part.shedChannels)
      else []).flatten).eraseDups

/-- Arithmetic cycle, from herd count 0, of plan cycle `c`, after the frames held so far (R42, R63). -/
def Step.arithCycle (s : Step) (c : Nat) : Nat := s.launch * 21 / 8 + c + 256 * s.holdFrames

/-! ### Results that are not there yet (R57, R94) -/

/-- The cycle from which what an issue leaves can be read: its end, and 30 cycles more for a PASS. -/
def Ctx.readyAt (c : Ctx) (dev : Dev) : Nat := c.slot + c.duration dev + (if c.word.cls = cPASS then 30 else 0)

/-- The stretches that the issue leaves when it ends. What a word posts is there when it arrives, and reads of barn memory, the shed and host
memory keep the order of their postings (R347). -/
def Ctx.leaves (c : Ctx) (dev : Dev) : List (Nat × Nat) :=
  if postsReads c.word.cls || [cNOP, cREPEAT, cEND].contains c.word.cls then []
  else (((c.units dev).map (c.written dev)).flatten).filter fun r => !(([spBarn, spShed, spHost] : List Nat).contains (keySpace r.1))

/-- The word runs until it ends, and its results are awaited. -/
def W.begin (c : Ctx) (w : W) : W :=
  let ready := c.readyAt w.dev
  let rs := if c.slot < ready then c.leaves w.dev else []
  w.step c.p fun s =>
    let s := { s with active := (if c.slot < ready then [(c.w, c.rep, ready)] else []) ++ s.active.filter fun a => decide (c.slot < a.2.2) }
    if rs.isEmpty then s else s.awaits (some ready) rs

/-- Granules of a source in barn memory or the shed: what a BARN_READ or SHED_READ has to post (R348, R349). The reads of a SHED_READ with a list go
where the list says. -/
def Ctx.postedGranules (c : Ctx) (dev : Dev) (di : Nat) (us : List UnitRef) : List Nat :=
  let listed := match (c.step.plan.posterOf di).bind fun i => c.step.plan.words[i]? with | some x => x.srcb ≠ noDesc | none => false
  if listed || c.step.plan.prefetchDsts.contains di then []
  else ((us.map (c.granules dev di)).flatten).filter fun k => keySpace k = spBarn || keySpace k = spShed

/-- A source of the word is absent (R57): nothing has left it yet, or it lies in barn memory or the shed and no read of it was posted that has
landed or missed. The words of a traversal follow R197 for the adjacency that they post, and a codebook that is being written gives an undefined table
(R146). A guarded result is present from its own pass on, whatever its shadow does later (DEDUCED: log entry 144). -/
def Ctx.absent (c : Ctx) (dev : Dev) : Bool :=
  !([cNOP, cREPEAT, cEND].contains c.word.cls) &&
  (let us := c.units dev
   let walks := [cBAYFETCH, cBAYHOP, cBAYQUEUEOUT].contains c.word.cls
   c.sources.any fun i =>
    (!c.step.unready.isEmpty && us.any fun u => (c.stretches dev i u).any fun r => !(keySpace r.1 = spCodebook) && c.step.unready.any fun x =>
      (match x.2.2 with | some n => decide (c.slot < n) | none => !walks) && runsMeet r (x.1, x.2.1))
    || (!walks && (c.postedGranules dev i us).any fun k => (c.posted i k).isNone))

/-- A consumed source with a missed granule and without MISS_ZERO, or one that is absent (R59). -/
def Ctx.breaches (c : Ctx) (dev : Dev) : Bool :=
  (c.sources.any fun i => match c.step.plan.desc? i with
    | some d => d.deadlineSet && !d.missZero && c.step.missed.any fun m => m.1 = i && c.findsRep i m.2.1 && c.posted i m.2.2 = some none
    | none => false)
  || c.absent dev

/-- Stacks whose DRAM the word reads or writes in planned pairs: of the BAY words the ones that use their pseudo-channel (R141). -/
def Ctx.stacks (c : Ctx) (dev : Dev) : List Nat :=
  if c.word.kind = kBAY then (if [cBAYFETCH, cBAYGATHER, cBAYDECODE].contains c.word.cls then (c.bayUnits dev).map (·.bay / 64) else [])
  else
    (((c.units dev).map fun u => c.stretches dev c.word.dst u ++ (c.sources.map fun i => c.stretches dev i u).flatten).flatten.filter
      fun r => keySpace r.1 = spStack).map fun r => keyUnit r.1 / 64

/-- Doubled refresh before level 4 applies may take a pair of the word, whose access is then absent: whether it does no rule says (R337). -/
def W.losesPair (c : Ctx) (w : W) : Bool × W :=
  let hot := fun s => let t := w.dev.therm s; t.refresh2x && decide (t.applied < 4)
  if (List.range 8).any hot && (c.stacks w.dev).any hot then
    let (f, w) := w.fresh
    (Config.freeNat f % 2 = 1, w)
  else (false, w)

end Sys2Proof.Machine
end

