-- ==== Sys2Proof/Machine/Energy.lean ====
section
/-! DEFINITION. Power domains, the energy window and its check, measurement and throttle (R461 to R482). -/

namespace Sys2Proof.Machine

/-! ### Domains (R462 to R465) -/

/-- The domain's unit is absent from the part (R7). -/
def Part.domainAbsent (part : Part) (n : Nat) : Bool :=
  if decide (68 ≤ n) && decide (n ≤ 71) then !part.hasBarn
  else if decide (72 ≤ n) && decide (n ≤ 75) then decide (part.shedChannels ≤ 6 * (n - 72))
  else if decide (77 ≤ n) && decide (n ≤ 88) then decide (part.ports ≤ n - 77)
  else if n = 92 then !part.lockstep
  else decide (96 ≤ n)

/-- A domain with nothing counted: ON, and OFF where its unit is absent (R7). -/
def Part.domainReset (part : Part) (n : Nat) : Domain := { Domain.reset with state := if part.domainAbsent n then 4 else 0 }

/-- The domain's unit is absent: from the part, or since a standing fence has taken it out of service (R7, R446). -/
def Dev.domainAbsent (d : Dev) (n : Nat) : Bool :=
  d.boot.part.domainAbsent n || (n = 89 && d.unitFenced uTokenizer 0) || (n = 90 && d.unitFenced uGrammar 0) || (n = 91 && d.unitFenced uMerge 0)

/-- A domain. That of an absent unit is held OFF, and its counters stay 0 (R7). -/
def Dev.domain (d : Dev) (n : Nat) : Domain :=
  if d.domainAbsent n then { Domain.reset with state := 4 } else tget Domain.reset n d.power.domains

/-- Changes a domain whose unit is present. -/
def W.domain (n : Nat) (f : Domain → Domain) (w : W) : W :=
  if w.dev.domainAbsent n then w
  else w.power fun p => { p with domains := tput n (f (tget Domain.reset n p.domains)) p.domains }

/-- The plan's own allocation in which a commons area lies. -/
def Plan.commonsOf (p : Plan) (x : Desc) : Option AllocEntry :=
  if x.bound then none else p.residency.find? fun a => decide (a.commons ≤ x.base) && decide (x.base < a.commons + a.bytes)

/-- Tiers, or else the space, in which the area of a descriptor can lie: pages of the commons may lie in any tier, but for those of a pinned allocation
of the plan (DEDUCED: log entry 135). -/
def Plan.tiersOf (p : Plan) (x : Desc) : List Nat :=
  if x.space ≠ spCommons then [x.space]
  else match p.commonsOf x with
    | some a => if a.pinned then a.tier?.toList else [spStack, spBarn, spShed]
    | none => [spStack, spBarn, spShed]

/-- Stacks in which the area of a descriptor can lie. -/
def Plan.stacksOf (p : Plan) (x : Desc) : List Nat :=
  if x.space = spStack then [keyUnit (stackKey x.base) / 64]
  else if (p.tiersOf x).contains spStack then
    let mask := ((p.commonsOf x).map (·.stackMask)).getD 0
    if mask = 0 then List.range 8 else setBits 8 mask
  else []

/-- Die bridges that transfers among yards and stacks of different field dies cross, and between these and units of the hub (R33). -/
def crossings (yards stks : List Nat) (hub : Bool) : List Nat :=
  let dies := yards.map (· / 8) ++ stks.map (· / 2)
  (yards.map fun y => (stks.map fun s => if s / 2 = y / 8 then [] else [48 + y / 8, 48 + s / 2]).flatten).flatten
  ++ (if hub && !dies.isEmpty then 94 :: dies.map (48 + ·) else [])

/-- Domains of the ends of transfers, with what they cross. -/
def Plan.endDomains (p : Plan) (yards stks : List Nat) (hub : Bool) (ends : List Desc) : List Nat :=
  let sts := (ends.map p.stacksOf).flatten ++ stks
  let within := fun (sp : Nat) => ends.any fun x => (p.tiersOf x).contains sp
  let atHub := hub || ([spBarn, spShed, spMerge, spHost].any within)
  yards ++ (sts.map fun s => [32 + s, 40 + s]).flatten ++ crossings yards sts atHub
  ++ (if within spBarn then List.range' 68 4 else []) ++ (if within spShed then List.range' 72 4 else [])
  ++ (if within spHost then [76] else []) ++ (if within spMerge then [91] else [])

/-- Domains that a word occupies or whose ends its transfer crosses, among the yards of a paddock (R466). -/
def wordDomains (stables : List Nat) (p : Plan) (w : PWord) : List Nat :=
  let ends := [w.dst, w.srca, w.srcb].filterMap p.desc?
  let yards := if w.kind ≤ kDMA then yardsOf (maskStables stables w.mask) else if w.kind = kBAY || w.kind = kMERGE then [] else yardsOf stables
  if [cREPEAT, cEND].contains w.cls then []
  else sortNat (p.endDomains yards (if w.kind = kBAY then setBits 8 w.mask else []) (decide (kDMA < w.kind) && w.kind ≠ kBAY) ends
    ++ (if w.kind = kBARN then (setBits 32 w.mask).map fun c => 68 + c / 8 else [])
    ++ (if w.kind = kSHED then (setBits 24 w.mask).map fun c => 72 + c / 6 else [])
    ++ (if w.kind = kHALTER then [76] else [])
    ++ (if w.kind = kDROVE then (setBits 12 w.mask).map (77 + ·) else [])
    ++ (if w.kind = kTOKENIZER then [89] else []) ++ (if w.kind = kGRAMMAR then [90] else []) ++ (if w.kind = kMERGE then [91] else []))

/-- Domains whose ends the transfer of a PREFETCH entry crosses. A DMA engine of the paddock's first yard carries it (log entry 23). -/
def fetchDomains (stables : List Nat) (p : Plan) (f : Prefetch) : List Nat :=
  sortNat (p.endDomains ((yardsOf stables).take 1) [] false ([f.dst, f.src].filterMap p.desc?))

def planDomains (stables : List Nat) (p : Plan) : List Nat :=
  sortNat ((p.words.map (wordDomains stables p)).flatten ++ (p.prefetch.map (fetchDomains stables p)).flatten)

/-- Domains of the unit whose slot table is `t`. -/
def tableDomains (t : Nat) : List Nat :=
  match tableKind t with
  | .pc => [32 + t / 64, 40 + t / 64]
  | .barn => [68 + (t - 512) / 8]
  | .shed => [72 + (t - 544) / 6]
  | .drove => [77 + (t - 568)]
  | .shared => [if t = tMerge then 91 else if t = tTokenizer then 89 else 90]

/-- Domains that paddock `p` holds a unit in, by its stables or by entries of slot tables, or uses in a plan (R468). -/
def Dev.padDomains (d : Dev) (p : Nat) (q : Paddock) : List Nat :=
  let held := (d.slots.act.filter fun kv => [oBay, oPaddock].contains (entryOwner kv.2) && entryPad kv.2 = p).map fun kv => kv.1 / 256
  sortNat (yardsOf q.stables ++ (held.eraseDups.map tableDomains).flatten ++ (q.plans.map (planDomains q.stables)).flatten)

/-- FIRST_USE of a domain in a plan (R466). -/
def firstUse (stables : List Nat) (p : Plan) (n : Nat) : Option Nat :=
  minNat? ((p.words.filter fun w => (wordDomains stables p w).contains n).map (·.slot)
    ++ (p.prefetch.filter fun f => (fetchDomains stables p f).contains n).map (·.post))

/-- Plan cycles in which a step uses a domain, as (start, end): a word until it ends or its transfer is due, a PREFETCH entry until its
deadline (R466). -/
def LoadEnv.uses (e : LoadEnv) (s : Step) (n : Nat) : List (Nat × Nat) :=
  let p := s.plan
  let words := (e.issues s).filterMap fun i =>
    if (wordDomains e.pad.stables p i.ctx.word).contains n then
      let stop := i.stop.getD i.ctx.slot
      some (i.ctx.slot, match p.desc? i.ctx.word.dst with
        | some d => if d.deadlineSet then max stop (p.deadlineAt i.ctx.w d i.ctx.rep) else stop
        | none => stop)
    else none
  let fetches := p.prefetch.filterMap fun f =>
    if (fetchDomains e.pad.stables p f).contains n then some (f.post, match p.desc? f.dst with | some d => d.deadline | none => f.post) else none
  words ++ fetches

/-- The plan cycle of a step's next use of a domain: in the step, or else after its boundary by the smallest FIRST_USE among the paddock's plans
(R466, R467). -/
def LoadEnv.nextUse (e : LoadEnv) (s : Step) (h n : Nat) : Nat :=
  let now := s.cycleNow h
  let us := (e.uses s n).filterMap fun x => if now < x.2 then some x.1 else none
  (minNat? us).getD (s.plan.length + (minNat? (e.pad.plans.filterMap fun p => firstUse e.pad.stables p n)).getD 0)

/-- The gap in which a step stands for a domain: from the end of its last use, or the launch, to its next one in the step, else to the
boundary and on to the smallest FIRST_USE among the paddock's plans; 0 while it is used (R466). -/
def LoadEnv.gap (e : LoadEnv) (s : Step) (n : Nat) : Nat :=
  let us := e.uses s n
  let past := us.filterMap fun x => if x.2 ≤ s.cycle then some x.2 else none
  let last := past.foldl max 0
  if us.any fun x => decide (x.1 ≤ s.cycle) && decide (s.cycle < x.2) then 0
  else match minNat? (us.filterMap fun x => if s.cycle < x.1 then some x.1 else none) with
    | some next => next - last
    | none => s.plan.length - last + (minNat? (e.pad.plans.filterMap fun p => firstUse e.pad.stables p n)).getD 0

/-- The gap of a domain: the smallest over the running steps that use it. -/
def Dev.gap (d : Dev) (n : Nat) : Nat :=
  (minNat? (d.pads.filterMap fun (x : Nat × Paddock) => match x.2.step with
    | some s => if (planDomains x.2.stables s.plan).contains n then some (LoadEnv.gap { dev := d, p := x.1, pad := x.2 } s n) else none
    | none => none)).getD 0

/-- Domains that running steps use. -/
def Dev.usedDomains (d : Dev) : List Nat :=
  sortNat ((d.pads.map fun (x : Nat × Paddock) => match x.2.step with | some s => planDomains x.2.stables s.plan | none => []).flatten)

/-- Whether an allocation, an index or a table lies in a tier. -/
def Dev.tierInUse (d : Dev) (tier : Nat) : Bool := d.stretches.any fun x => x.1 = tier

/-- A port holds a PADDOCK, LOCKSTEP or HOST entry, or a pairing (R464). -/
def Dev.portInUse (d : Dev) (port : Nat) : Bool :=
  (d.slots.act.any fun kv => kv.1 / 256 = tUnit port && [oPaddock, oLockstep, oHost].contains (entryOwner kv.2))
  || d.pads.any fun (x : Nat × Paddock) => match x.2.lockstep with | some l => l.port = port | none => false

/-- The deepest state allowed by R464, and in STANDBY by R470: 0 ON to 4 OFF. -/
def Dev.deepest (d : Dev) (n : Nat) : Nat :=
  let noCopy := d.boot.copyYard.isNone
  let standby := d.boot.phase = .standby
  let off := if noCopy then 3 else 4
  if n < 32 then (if d.boot.copyYard = some n || d.pads.any (fun (x : Nat × Paddock) => (yardsOf x.2.stables).contains n) then 3 else off)
  else if n < 48 then 3
  else if n < 52 || n = 94 then 1
  else if n = 52 then (if standby then 1 else 2)
  else if n < 68 then 3
  else if n < 72 then (if d.tierInUse spBarn || d.shed.mounted then 3 else off)
  else if n < 76 then (if d.tierInUse spShed then 3 else off)
  else if n = 76 then (if d.halter.isUp || standby then 1 else 3)
  else if n < 89 then (if d.portInUse (n - 77) then 1 else off)
  else if n < 94 then 3
  else 0

/-- R464 and the DEPTH_MAX of every paddock that holds or uses the domain (R468). -/
def Dev.deepestNow (d : Dev) (n : Nat) : Nat :=
  d.pads.foldl (fun a (x : Nat × Paddock) => if (d.padDomains x.1 x.2).contains n then min a x.2.depthMax else a) (d.deepest n)

/-- Minimum gap of a state, in cycles (R463): 8 µs, 400 µs and 25 ms at 1,050 cycles a µs. -/
def minGap (state : Nat) : Nat :=
  match state with
  | 0 => 0
  | 1 => 16
  | 2 => 8_400
  | 3 => 420_000
  | _ => 26_250_000

/-- A yard of a paddock that runs, or another domain that its step uses, has its next use in the plan; such a domain follows R466. -/
def Dev.plannedUse (d : Dev) (n : Nat) : Bool := d.usedDomains.contains n

/-- A running step that uses the domain is in a hold, which stops the count to its next use (R97, R467). -/
def Dev.holdsDomain (d : Dev) (n : Nat) : Bool :=
  d.pads.any fun (x : Nat × Paddock) => match x.2.step with
    | some s => s.held.isSome && (planDomains x.2.stables s.plan).contains n
    | none => false

/-! ### Estimates (R474, R475) -/

/-- E_c of a plan: ENERGY_MJ × k rounded up. -/
def Plan.corrected (p : Plan) : Nat :=
  match f32Num p.k with
  | .fin _ m e => if 0 ≤ e then p.energyMJ * m * 2 ^ e.toNat else ceilDiv (p.energyMJ * m) (2 ^ (-e).toNat)
  | _ => p.energyMJ

/-- k after an attempt that measured `m` mJ. -/
def newFactor (k energyMJ m : Nat) : Nat :=
  if energyMJ = 0 then k
  else
    let r := f32Div (f32OfRat false m 1 0) (f32OfRat false energyMJ 1 0)
    let v := f32Add k (f32Div (f32Sub r k) (f32OfRat false 8 1 0))
    let half := f32OfRat false 1 2 0
    let two := f32OfRat false 2 1 0
    if f32Gt half v then half else if f32Gt v two then two else v

/-- ENERGY-section estimate of a domain in µJ: each entry counts once for each issue of its word. -/
def Plan.estimate (p : Plan) (n : Nat) : Nat :=
  sumNat ((p.energy.filter fun e => e.domain = n).map fun e => e.estUJ * (p.repeatOf e.word).1)

/-- Allowance of the window in mJ: W times ms. -/
def Power.allowance (p : Power) : Nat := p.allowW * p.windowMS

def Power.windowTicks (p : Power) : Nat := p.windowMS * 400_000

def Power.windowEnd (p : Power) : Nat := p.windowStart + p.windowTicks

/-- RESERVED in µJ. -/
def Dev.reservedUJ (d : Dev) : Nat :=
  sumNat (d.pads.map fun (x : Nat × Paddock) => match x.2.step with | some s => s.reserved * 1000 - s.energyUJ | none => 0)

/-- BASE in µJ: the last 1 ms of the domains no running step uses, over the rest of the window. -/
def Dev.baseUJ (d : Dev) (herd : Nat) : Nat :=
  let used := d.usedDomains
  let ms := sumNat (d.power.domains.map fun (x : Nat × Domain) => if used.contains x.1 then 0 else sumNat x.2.recent)
  ms * (d.power.windowEnd - herd) / 400_000

/-- An overdraft was carried into the window. -/
def Power.overdrawn (p : Power) : Bool := decide (0 < p.overdraftIn)

/-- Check 6 of R60 for an estimate of `ec` mJ. -/
def Dev.energyCovers (d : Dev) (herd ec : Nat) : Bool :=
  decide (d.power.usedUJ + d.reservedUJ + d.baseUJ herd + ec * 1000 ≤ d.power.allowance * 1000)
  || (decide (d.power.allowance < ec) && d.reservedUJ = 0 && !d.power.overdrawn)

/-- The check for one batch or service step: once a batch larger than an allowance has waited a whole window, every other batch waits,
but no service step. -/
def Dev.energyCheck (d : Dev) (herd : Nat) (b : Batch) (ec : Nat) : Bool :=
  d.energyCovers herd ec &&
  (b.service ≠ 0 || (match d.power.bigBatch with
    | some (r, i, since) => (r = b.ring && i = b.index) || since ≠ 0
    | none => true))

/-- A batch that fails check 6 at `h` with an estimate above a whole allowance is noted with the herd count from which it waits. -/
def W.noteBig (h : Nat) (b : Batch) (ec : Nat) (w : W) : W :=
  if b.service = 0 && decide (w.dev.power.allowance < ec) && w.dev.power.bigBatch.isNone then
    w.power fun p => { p with bigBatch := some (b.ring, b.index, h) }
  else w

def W.forgetBig (b : Batch) (w : W) : W :=
  w.power fun p => { p with bigBatch := match p.bigBatch with
    | some (r, i, s) => if r = b.ring && i = b.index then none else some (r, i, s)
    | none => none }

/-! ### The window (R473, R476) -/

/-- A window ends at `h` and the next begins, with the overdraft carried. A batch above a whole allowance that waited when the window
began has waited through all of it (R475). -/
def Power.nextWindow (h : Nat) (p : Power) : Power :=
  let excess := p.usedUJ - p.allowance * 1000
  { p with
    windowStart := h, usedUJ := excess, overdraftIn := excess
    bigBatch := p.bigBatch.map fun x => (x.1, x.2.1, if x.2.2 ≤ p.windowStart then 0 else x.2.2) }

/-- ENERGY_SET changes of window and allowance apply at a launch point. -/
def W.applyEnergy (h : Nat) (w : W) : W :=
  let w := match w.dev.power.pendAllow with
    | some a => w.power fun p => { p with allowW := a, pendAllow := none }
    | none => w
  match w.dev.power.pendWindow with
  | some ms => (w.power (Power.nextWindow h)).power fun p => { p with windowMS := ms, pendWindow := none }
  | none => w

/-! ### Measurement and throttle (R471, R472, R477) -/

/-- Mean over the last `n` samples of 10 µs exceeds `watts`. -/
def meanAbove (hist : List Nat) (n watts : Nat) : Bool :=
  decide (n ≤ hist.length) && decide (watts * 10 * n < sumNat (hist.take n))

/-- Paddocks with a step running, the one of the highest PEAK_W first, the lower number on a tie (R477). -/
def Dev.byPeak (d : Dev) : List Nat :=
  (sortBy (fun (a b : Nat × Nat) => decide (b.2 < a.2) || (a.2 = b.2 && decide (a.1 < b.1)))
    (d.pads.filterMap fun (x : Nat × Paddock) => x.2.step.map fun s => (x.1, s.plan.peakW))).map (·.1)

/-- Level 2 lasts until the 250 µs mean falls below THROTTLE_W. -/
def Power.level (p : Power) : Nat :=
  if meanAbove p.history 25 1900 then 2
  else if p.thrLevel = 2 && decide (25 ≤ p.history.length) && decide (p.throttleW * 250 ≤ sumNat (p.history.take 25)) then 2
  else if meanAbove p.history 100 p.throttleW then 1
  else 0

/-- Asks for holds after a sample. -/
def W.throttle (w : W) : W :=
  let lv := w.dev.power.level
  let w := w.power fun p =>
    if lv = 1 then
      let fresh := p.thrPads = 0
      { p with thrLevel := 1, thrPads := if fresh then 1 else if 99 ≤ p.thrSamples then p.thrPads + 1 else p.thrPads
               thrSamples := if fresh || 99 ≤ p.thrSamples then 0 else p.thrSamples + 1 }
    else { p with thrLevel := lv, thrPads := 0, thrSamples := 0 }
  let asked := if lv = 2 then w.dev.byPeak else if lv = 1 then w.dev.byPeak.take w.dev.power.thrPads else []
  W.each w.dev.runningPads (fun p w => w.step p fun s => { s with holdAsked := if asked.contains p then (if lv = 2 then 1 else 16) else 0 }) w

/-- Share of a domain's energy that the running step of a paddock takes: all of it alone, else in the ratio of the estimates. Where every
estimate is 0 no rule gives a share: a free value. -/
def Dev.stepShare (d : Dev) (stables : List Nat) (s : Step) (n uj : Nat) (free : Nat) : Nat :=
  if !(planDomains stables s.plan).contains n then 0
  else
    let users := d.pads.filterMap fun (x : Nat × Paddock) => match x.2.step with
      | some t => if (planDomains x.2.stables t.plan).contains n then some (t.plan.estimate n) else none
      | none => none
    if users.length ≤ 1 then uj
    else if sumNat users = 0 then Config.freeNat free % (uj + 1)
    else uj * s.plan.estimate n / sumNat users

def W.chargeSteps (dom : List (Nat × Nat)) (w : W) : W :=
  let (f, w) := w.fresh
  let d := w.dev
  W.each d.runningPads (fun p w => match d.pad? p with
    | some q => w.step p fun s => { s with energyUJ := s.energyUJ + sumNat (dom.map fun x => d.stepShare q.stables s x.1 x.2 f) }
    | none => w) w

/-- What the gatehouse measures in one sample of the input and the rails enters its counters. -/
def W.measure (r : RailSample) (w : W) : W :=
  let part := w.dev.boot.part
  let d := w.dev
  let dom := (r.domainUJ.map fun x => (x.1.val, x.2)).filter fun x => !d.domainAbsent x.1
  let out := (r.outside.map fun x => (x.1.val, x.2)).filter fun x => !d.domainAbsent x.1
  let badIn := decide (r.vinMV < 48_000) || decide (60_000 < r.vinMV)
  w.power fun p => { p with
    vinMV := r.vinMV, inputUJ := p.inputUJ + r.inputUJ, usedUJ := p.usedUJ + r.inputUJ, history := (r.inputUJ :: p.history).take 200
    badInput := if badIn then p.badInput + 1 else 0, underVoltage := decide (r.vinMV < 48_000)
    domains := (List.range 96).map fun n =>
      let x := tget (part.domainReset n) n p.domains
      let uj := tget 0 n dom
      (n, { x with energyUJ := x.energyUJ + uj, recent := (uj :: x.recent).take 100
                   badSamples := if (tget? n out).isSome && x.state ≠ 4 then x.badSamples + 1 else 0 }) }

/-- A sample: the running steps are charged, and throttling and the limits of the rails follow from it, but in the safe state, where the gatehouse
only measures (R450, R471). -/
def W.sample (r : RailSample) (w : W) : W :=
  let w := w.measure r
  let out := (r.outside.map fun x => (x.1.val, x.2)).filter fun x => !w.dev.domainAbsent x.1
  if w.dev.boot.phase = .safe then w else
  let w := (w.chargeSteps ((r.domainUJ.map fun x => (x.1.val, x.2)).filter fun x => !w.dev.domainAbsent x.1)).throttle
  let high := decide (200 ≤ w.dev.power.history.length) && w.dev.power.history.all fun e => decide (19_000 < e)
  let rail := fun (n mv : Nat) (w : W) => w.detect caRail uHub 1 n mv []
  if 10 ≤ w.dev.power.badInput then (rail 0 r.vinMV w).power fun p => { p with inputFault := true }
  else if high then (rail 0 r.vinMV w).power fun p => { p with inputFault := true }
  else match w.dev.power.domains.find? fun (x : Nat × Domain) => decide (2 ≤ x.2.badSamples) with
    | some x => rail (x.1 + 1) (tget 0 x.1 out) w
    | none => w

/-! ### Sleep and wake (R466 to R469, R482) -/

/-- Zeroes every byte whose key `f` picks. -/
def W.wipe (f : Nat → Bool) (w : W) : W :=
  W.each (((w.log ++ w.st.mem).map (·.1)).filter f) (fun k w => w.poke k 0) w

/-- Bytes that a domain loses when it goes OFF. -/
def Dev.domainByte (d : Dev) (n k : Nat) : Bool :=
  if n < 32 then (stallStore (keySpace k) && keyUnit k / d.S / 8 = n) || (keySpace k = spLoft && keyUnit k / 8 = n)
  else decide (68 ≤ n) && decide (n < 72) && keySpace k = spBarn && bitsOf (keyOff k) 6 5 / 8 = n - 68

/-- The Drove port of a domain. -/
def portOf (n : Nat) : Option Nat := if decide (77 ≤ n) && decide (n < 89) then some (n - 77) else none

/-- A domain goes OFF: what its stores hold is lost, and its Drove port is DOWN (R463, R464; log entry 136). -/
def W.domainLost (n : Nat) (w : W) : W :=
  let w := w.wipe (w.dev.domainByte n)
  match portOf n with | some p => w.port p fun l => { l with state := 0 } | none => w

/-- Slot tables whose pending registers lie in a domain that can go OFF. -/
def offTables (n : Nat) : List Nat :=
  if decide (68 ≤ n) && decide (n < 72) then (List.range 8).map fun i => tBarn (8 * (n - 68) + i)
  else if decide (72 ≤ n) && decide (n < 76) then (List.range 6).map fun i => tShed (6 * (n - 72) + i)
  else (portOf n).toList.map tUnit

/-- Register of word `w` of the pending entries of table `t` (R522). -/
def pendKey (t w : Nat) : Nat :=
  match tableKind t with
  | .pc => indKey (1 + t / 64) (0x2_0000 + t % 64 * 0x200 + 4 * w)
  | .barn => indKey 9 (0x1_0000 + (t - 512) * 0x200 + 4 * w)
  | .shed => indKey 10 (0x1_0000 + (t - 544) * 0x200 + 4 * w)
  | _ => bUnit + (t - 568) * 0x400 + 4 * w

/-- The domain's configuration registers are as in the configuration copy again. -/
def W.reload (n : Nat) (w : W) : W :=
  let copy := w.dev.regs.cfg.committed
  W.each (offTables n) (fun t w =>
    let es := ((List.range 128).map fun i => let v := tget 0 (pendKey t i) copy; [v % 65536, v / 65536]).flatten
    w.slots fun s => { s with pend := setTable t es s.pend }) w

/-- A domain is back from OFF: its registers are reloaded, and a Drove port has been recalibrated (R463, R464). -/
def W.backFromOff (n : Nat) (w : W) : W :=
  let w := w.reload n
  match portOf n with | some p => w.port p (Link.start 2 512) | none => w

/-- The state that a domain wakes to; a wake counts once (R482). -/
def W.wakeTo (n state : Nat) (w : W) : W :=
  let x := w.dev.domain n
  let h := w.herd
  if x.state ≤ state then w
  else
    let w := w.domain n fun x => { x with state := state, waking := false, wakes := if x.waking then x.wakes else (x.wakes + 1) % 65536, idleSince := h }
    w.when (x.state = 4 && !w.dev.domainAbsent n) (W.backFromOff n)

/-- Work in the background, or an access, wakes a sleeping domain, which is IDLE while it serves it (R469, R518). -/
def W.wakeFor (n : Nat) (w : W) : W := w.wakeTo n 1

/-- Wake time of a state, in cycles (R463): 2 µs, 80 µs and 2.5 ms at 1,050 cycles a µs. -/
def wakeCycles (state : Nat) : Nat :=
  match state with
  | 0 => 0
  | 1 => 4
  | 2 => 2_100
  | 3 => 84_000
  | _ => 2_625_000

/-- The wake of a domain that running steps use is due: the next use lies no further ahead than the wake time, in plan cycles, which a hold stops
(R467). -/
def Dev.wakeDue (d : Dev) (h n : Nat) : Bool :=
  d.pads.any fun (x : Nat × Paddock) => match x.2.step with
    | some s => (planDomains x.2.stables s.plan).contains n
        && decide (LoadEnv.nextUse { dev := d, p := x.1, pad := x.2 } s h n ≤ s.cycleNow h + wakeCycles (d.domain n).state)
    | none => false

/-- The wake of a domain that sleeps begins; one that running steps use only when it is due. A Drove port that returns from OFF trains. -/
def W.wake (n : Nat) (w : W) : W :=
  let x := w.dev.domain n
  if x.state = 0 || x.waking || (w.dev.plannedUse n && !w.dev.wakeDue w.herd n) then w
  else
    let w := w.domain n fun x => { x with waking := true, wakes := (x.wakes + 1) % 65536 }
    match portOf n with | some p => w.when (x.state = 4 && !w.dev.domainAbsent n) (W.port p fun l => { l with state := 1 }) | none => w

/-- A wake completes: the domain is ON where its use is due, and IDLE otherwise, as while a hold lasts. -/
def W.awake (n : Nat) (w : W) : W :=
  let x := w.dev.domain n
  if x.waking then
    let used := w.dev.plannedUse n && !w.dev.holdsDomain n
    let h := w.herd
    let w := w.domain n fun x => { x with waking := false, state := if used then 0 else 1, idleSince := h }
    w.when (x.state = 4) (W.backFromOff n)
  else w

/-- Where a copy of a commons page lies or goes: its domains. -/
def placeDomains (tier at_ : Nat) : List Nat :=
  if tier = spStack then let s := keyUnit (stackKey at_) / 64; [32 + s, 40 + s]
  else if tier = spBarn then List.range' 68 4 else List.range' 72 4

/-- Domains in which work of the background runs: storage commands and the write buffer, collection, migrations, retired pages, groom services
(R469). -/
def Dev.backgroundDomains (d : Dev) : List Nat :=
  let chan := fun (c : Nat) => 72 + c / 6
  (if d.shed.queues.any (fun x => !x.2.out.isEmpty) then List.range' 72 4 else [])
  ++ (d.shed.buffer.map fun b => chan (b.granule % max 1 d.boot.part.shedChannels))
  ++ ((d.shed.channels.filter fun x => x.2.victim.isSome).map fun x => chan x.1)
  ++ ((d.tiers.migrations.filterMap fun m => m.place.map fun a =>
        placeDomains m.target a ++ (match d.commonsPlace m.page with | some y => placeDomains y.1 y.2 | none => [])).flatten)
  ++ ((d.tiers.retiring.map fun r => if r.tier = spStack then placeDomains spStack r.page else [68 + bitsOf r.page 6 5 / 8]).flatten)
  ++ (((d.groom.services.filter (·.running)).map fun s =>
        (s.units.map fun u => if fenceKind u = uPc then tableDomains (fenceIndex u) else if fenceKind u = uBarn then tableDomains (tBarn (fenceIndex u))
          else if fenceKind u = uDrove then [77 + fenceIndex u] else []).flatten).flatten)

/-- Work of the background wakes the domains in which it runs (R469). -/
def W.wakeBackground (w : W) : W :=
  if w.dev.power.domains.all (fun x => decide (x.2.state ≤ 1)) then w else W.each w.dev.backgroundDomains W.wakeFor w

/-- One state deeper, if the domain may go there and its idle time reaches that state's minimum gap; while background work runs in it, no deeper than
IDLE (R469). A domain of a running step goes by its gap under R466, which must reach that state's minimum gap and which no DEPTH_MAX limits. -/
def W.deepen (n : Nat) (w : W) : W :=
  let x := w.dev.domain n
  let planned := w.dev.plannedUse n
  let top := if planned then w.dev.deepest n else w.dev.deepestNow n
  let h := w.herd
  if !x.waking && !w.dev.holdsDomain n && decide (x.state < top) && (x.state = 0 || !w.dev.backgroundDomains.contains n)
      && (if planned then decide (minGap (x.state + 1) ≤ w.dev.gap n) else decide (minGap (x.state + 1) * 8 ≤ (h - x.idleSince) * 21)) then
    let w := w.domain n fun x => { x with state := x.state + 1 }
    w.when (x.state = 3) (W.domainLost n)
  else w

/-- Domains change state while the module is in RUN or STANDBY. -/
def Phase.sleeps : Phase → Bool
  | .run | .standby | .bringUp | .imageWait => true
  | _ => false

/-- Domains of a paddock that are deeper than NAP: its launch waits until they are awake (R468). -/
def Dev.wakingDomains (d : Dev) (p : Nat) (q : Paddock) : List Nat :=
  (d.padDomains p q).filter fun n => !d.domainAbsent n && decide (2 < (d.domain n).state)

/-- Acceptance of work for a paddock starts the wakes of its domains deeper than NAP (R468); in STANDBY work only queues (R470). -/
def W.wakePad (p : Nat) (w : W) : W :=
  match w.dev.pad? p with
  | some q => if w.dev.boot.phase = .standby then w else W.each (w.dev.wakingDomains p q) W.wake w
  | none => w

/-- At a launch the domains whose first use lies no further ahead than their wake time are ON; the wake of the others starts later
(R467). -/
def W.domainsOn (stables : List Nat) (p : Plan) (w : W) : W :=
  W.each (planDomains stables p) (fun n w =>
    if (firstUse stables p n).getD 0 ≤ wakeCycles (w.dev.domain n).state then w.wakeTo n 0 else w) w

/-- Domains that a word of a step uses are ON when it issues: their wake has started in time (R467). -/
def W.wordOn (c : Ctx) (w : W) : W := W.each (wordDomains c.stables c.step.plan c.word) (fun n w => w.wakeTo n 0) w

/-- At a boundary the domains that no step uses any more go idle. -/
def W.domainsIdle (ns : List Nat) (w : W) : W :=
  let used := w.dev.usedDomains
  let h := w.herd
  W.each (ns.filter fun n => !used.contains n) (fun n w =>
    w.domain n fun x => { x with state := if x.state = 0 then 1 else x.state, idleSince := h }) w

end Sys2Proof.Machine
end

