-- ==== Sys2Proof/Machine/Serving.lean ====
section
/-! DEFINITION. Generation serving: tenants and budgets, requests and how they end, adapters and text objects in use, row formation, the
row area and what a generation step leaves at its boundary (R254, R272, R279 to R303, R564). -/

namespace Sys2Proof.Machine

/-! ### Fields of a command entry (R419, R425) -/

/-- Field of a command at an offset of its entry, from INLINE (bytes 32 to 63). -/
def Outstanding.field (o : Outstanding) (off size : Nat) : Nat := fld o.entry.inline (off - 32) size

def Outstanding.payloadLen (o : Outstanding) : Nat := o.entry.payloadLen.toNat

/-- The payload as the device reads it. -/
def W.payload (o : Outstanding) (w : W) : Bytes := w.peeks (hostKey o.entry.payload.toNat) o.payloadLen

/-! ### Tenants (R294, R295) -/

/-- A tenant that nothing has set. -/
def Tenant.default : Tenant :=
  { budget := 0xFFFF_FFFF, window := 195_312, liveMax := 65_536, rowCap := 65_535, replaceInvalid := false, slices := List.replicate 16 0
    pendBudget := none, pendWindow := none }

def Dev.tenant (d : Dev) (t : Nat) : Tenant := tget Tenant.default t d.serve.tenants

def W.tenant (t : Nat) (f : Tenant → Tenant) (w : W) : W :=
  w.serve fun v => { v with tenants := tput t (f (tget Tenant.default t v.tenants)) v.tenants }

def Tenant.use (t : Tenant) : Nat := sumNat t.slices

/-- The budget test of R294. -/
def Tenant.passes (t : Tenant) : Bool := t.budget = 0xFFFF_FFFF || decide (t.use < t.budget)

def Tenant.charge (n : Nat) (t : Tenant) : Tenant :=
  { t with slices := match t.slices with | [] => [n] | x :: r => (x + n) :: r }

/-- Ticks of a slice: WINDOW ÷ 16 launch points. -/
def Tenant.sliceTicks (t : Tenant) : Nat := t.window / 16 * 2048

/-- Changes of BUDGET and WINDOW take effect; a new layout holds the whole use in its newest slice. -/
def Tenant.settle (t : Tenant) : Tenant :=
  let t := match t.pendBudget with | some b => { t with budget := b, pendBudget := none } | none => t
  match t.pendWindow with
  | some n => { t with window := n, slices := t.use :: List.replicate 15 0, pendWindow := none }
  | none => t

/-! ### Requests -/

def Request.key (r : Request) : Nat := r.number

/-- A pause bit keeps the request out of a step. LATENCY alone does not: it clears at the first formation that places the request. -/
def Request.paused (r : Request) : Bool := r.pauseHost || r.pauseBudget || r.pausePhase

def Dev.livePad (d : Dev) (p : Nat) : List Request := d.serve.requests.filter (·.paddock = p)

def Dev.liveTenant (d : Dev) (t : Nat) : Nat := (d.serve.requests.filter (·.tenant = t)).length

/-- The lowest free number below `n` that a list does not hold. -/
def lowestFree (n : Nat) (used : List Nat) : Option Nat := (List.range (min n (used.length + 1))).find? fun i => !used.contains i

/-- The step has a row for request `n`. -/
def Step.carriesRow (s : Step) (n : Nat) : Bool := s.batch.rows.any fun x => x.request = some n

/-- A request takes part in a step of its paddock that runs, waits for its replay or is held back: the rows of a replay are those of the
attempt (R303). -/
def Dev.inStep (d : Dev) (r : Request) : Bool :=
  match d.pad? r.paddock with
  | some q => (q.step.toList ++ q.replay.toList ++ q.gated.toList).any fun s => s.carriesRow r.number
  | none => false

/-- Changes the steps of paddock `p` that carry request `n`. -/
def W.carrying (p n : Nat) (f : Step → Step) (w : W) : W :=
  let g := fun (s : Step) => if s.carriesRow n then f s else s
  w.pad p fun q => { q with step := q.step.map g, replay := q.replay.map g, gated := q.gated.map g }

/-- Allocation of a ladder plan in paddock `p`. -/
def Dev.ladderAlloc (d : Dev) (p id : Nat) : Option AllocEntry :=
  (d.tiers.allocs.find? fun a => a.paddock = p && a.entry.allocId = id).map (·.entry)

/-- Writes bytes to commons addresses. -/
def W.commonsPokes (a : Nat) (b : Bytes) (w : W) : W :=
  let d := w.dev
  let ws := (List.range b.length).map fun i => (d.sharedKey 0 0 spCommons (a + i), b.getD i 0)
  w.store ws

def W.commonsPeeks (a n : Nat) (w : W) : Bytes := (List.range n).map fun i => w.peek (w.dev.sharedKey 0 0 spCommons (a + i))

/-- Context capacity of a paddock's ladder. -/
def Dev.ctxCap (d : Dev) (p : Nat) : Nat := match (d.pad? p).bind (·.serving) with | some s => s.ctxCap | none => 0

/-- Writes tokens into the request's part of the token area from position `pos` (R564). -/
def W.tokenArea (r : Request) (pos : Nat) (toks : List Nat) (w : W) : W :=
  match w.dev.ladderAlloc r.paddock 0xFFFF_FF04 with
  | some a => w.commonsPokes (a.commons + (r.number * w.dev.ctxCap r.paddock + pos) * 4) ((toks.map (leBytes 4)).flatten)
  | none => w

/-- The input of a request is complete: cut under R264 with C = IN_LIMIT, written to the token area, and the request is READY. -/
def W.inputDone (n : Nat) (toks : List Nat) (w : W) : W :=
  match w.dev.request? n with
  | none => w
  | some r =>
    let mark := if r.mark = 0xFFFF_FFFF then (match w.dev.serve.tableAt r.tableId r.tableVer with | some t => tokMark t.image | none => 0) else r.mark
    let kept := (lengthLimit r.inLimit r.protect mark toks).1
    let w := w.tokenArea r 0 kept
    w.request n fun r => { r with state := .ready, inTokens := kept.length, heldTokens := [], carry := [] }

/-- Tokens of a request's buffers so far, and whether its last buffer was among them. Until then they stand in the token area, as many as
it has room for (R261). -/
def W.requestTokens (n : Nat) (toks : List Nat) (final : Bool) (w : W) : W :=
  if final then w.inputDone n toks
  else
    let w := match w.dev.request? n with | some r => w.tokenArea r 0 (toks.take (w.dev.ctxCap r.paddock)) | none => w
    w.request n fun r => { r with heldTokens := toks }

/-- Tokenizes the buffers of a request that wait, in order, with its pinned table (DESIGN CHOICE, log entry 16). -/
def W.tokenizeBuffers (n : Nat) : List (Bytes × Bool) → W → W
  | [], w => w
  | (b, final) :: rest, w =>
    match w.dev.request? n with
    | none => w
    | some r =>
      match w.dev.serve.tableAt r.tableId r.tableVer with
      | none => w
      | some t =>
        let (new, carry, _) := tokenizeText t.image (w.dev.tenant r.tenant).replaceInvalid final (r.carry ++ b)
        let w := w.request n fun r => { r with carry := carry, buffers := r.buffers.drop 1 }
        W.tokenizeBuffers n rest (w.requestTokens n (r.heldTokens ++ new) final)

/-- Requests of which a step under way tokenizes a buffer: those whose rows its TOKENIZE words have taken, and while one of these words is still
to come every request of the paddock and those that its directory names now (R260, R278; log entry 16). -/
def W.tokenizing (w : W) : List Nat :=
  (w.dev.pads.map fun (x : Nat × Paddock) => ((x.2.step.toList ++ x.2.replay.toList ++ x.2.gated.toList).map fun s =>
    s.carries.map (·.1) ++ s.tokens.map (·.1) ++
    ((List.range s.plan.words.length).map fun i => match s.plan.words[i]? with
      | some y => if y.cls = cTOKENIZE then
          (((List.range (s.plan.repeatOf i).1).filter fun j => !s.issued.contains (i, j)).map fun j =>
            let c := mkCtx w.dev x.1 x.2 s y i j
            (w.dev.serve.requests.filter (·.paddock = x.1)).map (·.number) ++
            (List.range s.plan.batch).map fun row => c.readN w y.srca c.sharedUnit (16 * row + 12) 4).flatten
        else []
      | none => []).flatten).flatten).flatten

/-- At a launch point the buffers that have arrived are tokenized, but not those of a request that takes part in a step under way or of
which such a step tokenizes an earlier buffer. -/
def W.tokenizeWaiting (w : W) : W :=
  let busy := w.tokenizing
  W.each (w.dev.serve.requests.filter fun r => r.state = .input && !r.buffers.isEmpty && !w.dev.inStep r && !busy.contains r.number)
    (fun r w => w.tokenizeBuffers r.number r.buffers) w

/-! ### Versions in use (R254, R272, R300) -/

/-- Version of a new load of identity `id`: one above that of the load before, also where no version is held any more (R431). -/
def nextVersion (counts : NMap) (id : Nat) : Nat := nget counts id + 1

/-- ADAPTER_SLOTS of a paddock, at most 256; no rule says how the ladder's RESIDENCY sizes it. -/
def adapterSlots (p : Nat) : Nat := min 256 (Config.adapterSlots p)

/-- Steps of the paddock, running, gated or waiting for a replay. -/
def Paddock.steps (q : Paddock) : List Step := q.step.toList ++ q.replay.toList ++ q.gated.toList

/-- Steps of the module. -/
def Dev.steps (d : Dev) : List Step := (d.pads.map fun (x : Nat × Paddock) => x.2.steps).flatten

/-- Frees versions of tables, grammars and adapters that are not current and that nobody pins or binds. -/
def W.freeVersions (w : W) : W :=
  let d := w.dev
  let binds := fun (steps : List Step) (kind id ver : Nat) => steps.any fun s => s.bound.any fun b => b.kind = kind && b.ident = id && b.version = ver
  let w := w.serve fun v => { v with
    tables := v.tables.filter fun t => t.current || t.pending || binds d.steps 4 t.tableId t.version || v.requests.any fun r => r.tableId = t.tableId && r.tableVer = t.version
    grammars := v.grammars.filter fun g => g.current || g.pending || v.requests.any fun r => r.grammarId = g.grammarId && r.grammarVer = g.version }
  { w with dev := { w.dev with pads := w.dev.pads.map fun (x : Nat × Paddock) => (x.1, { x.2 with
      adapters := x.2.adapters.filter fun a => (!a.unloaded && (a.current || a.pending)) || binds x.2.steps 3 a.adapterId a.version
        || w.dev.serve.requests.any fun r => r.paddock = x.1 && r.adapterId = a.adapterId && r.adapterVer = a.version }) } }

/-- Version switches that wait take effect at a launch point (R70). -/
def W.switchVersions (w : W) : W :=
  let w := w.serve fun v => { v with
    tables := v.tables.map fun t => if t.pending then { t with pending := false, current := true }
      else if v.tables.any (fun u => u.pending && u.tableId = t.tableId) then { t with current := false } else t
    grammars := v.grammars.map fun g => if g.pending then { g with pending := false, current := true }
      else if v.grammars.any (fun u => u.pending && u.grammarId = g.grammarId) then { g with current := false } else g }
  let w := { w with dev := { w.dev with pads := w.dev.pads.map fun (x : Nat × Paddock) => (x.1, { x.2 with
    adapters := x.2.adapters.map fun (a : AdapterVersion) =>
      let newer := fun (u : AdapterVersion) => u.pending && u.adapterId = a.adapterId && decide (a.version < u.version)
      if a.pending then { a with pending := false, current := !a.unloaded && !x.2.adapters.any newer }
      else if x.2.adapters.any (fun (u : AdapterVersion) => u.pending && u.adapterId = a.adapterId) then { a with current := false } else a }) } }
  w.freeVersions

/-! ### The end of a request (R268, R279, R297, R298) -/

/-- Streams a chunk of request `r` into its ring (R422). -/
def W.streamChunk (r : Request) (c : Chunk) (w : W) : W := w.stream r.ring (c.record ++ c.logprob)

/-- The request is terminal: its number, KV blocks and context are free, what it alone pinned goes, and the completion is among the recent
ones. -/
def W.endRequest (r : Request) (w : W) : W :=
  (w.serve fun v => { v with
    requests := v.requests.filter (·.number ≠ r.number)
    recent := ((r.number, r.admitted, r.tenant) :: v.recent).take 4096
    contexts := match r.context with | some c => tdel c v.contexts | none => v.contexts }).freeVersions

/-- Ends a request with a final chunk that releases its held bytes. -/
def W.closeRequest (r : Request) (reason : Nat) (w : W) : W := (w.streamChunk r (finalChunk r reason)).endRequest r

/-- A completed request by number and admission count. -/
def Dev.recent? (d : Dev) (n admitted : Nat) : Option (Nat × Nat × Nat) := d.serve.recent.find? fun x => x.1 = n && x.2.1 = admitted

/-- A CANCEL of a request by number and admission count (R297): the status that the cancel returns. -/
def W.cancelRequest (n admitted : Nat) (w : W) : Status × W :=
  match w.dev.request? n with
  | some r =>
    if r.admitted ≠ admitted then (if (w.dev.recent? n admitted).isSome then .alreadyComplete else .notFound, w)
    else if w.dev.inStep r then (.queued, w.request n fun r => { r with cancelled := true })
    else (.done, w.closeRequest r rCancelled)
  | none => (if (w.dev.recent? n admitted).isSome then .alreadyComplete else .notFound, w)

/-- Teardown ends every live request of the paddock as ABORTED (R298). -/
def W.abortRequests (p : Nat) (w : W) : W := W.each (w.dev.livePad p) (fun r w => w.closeRequest r rAborted) w

/-! ### Forming the rows of a step (R285 to R287) -/

/-- Effective class of R286. -/
def Request.effClass (r : Request) (age : Nat) : Nat := if age = 0 then r.cls else r.cls - r.waited / age

/-- Order of candidates: effective class, turn of the tenant, admission. -/
def candidateOrder (age ptr : Nat) (l : List Request) : List Request :=
  let byAdm := sortBy (fun (a b : Request) => decide (a.admitted < b.admitted) || (a.admitted = b.admitted && decide (a.number < b.number))) l
  let keyed := byAdm.map fun r =>
    let turn := ((byAdm.takeWhile fun x => x.number ≠ r.number).filter fun x => x.tenant = r.tenant && x.effClass age = r.effClass age).length
    ((r.effClass age * 2 ^ 32 + turn) * 256 + (r.tenant + 256 - ptr) % 256, r)
  (sortBy (fun (a b : Nat × Request) => decide (a.1 < b.1)) keyed).map (·.2)

/-- A tenant that holds ROW_CAP rows is passed over. -/
def capRows (d : Dev) : List (Nat × Nat) → List Request → List Request
  | _, [] => []
  | seen, r :: rest =>
    let n := nget seen r.tenant
    if n < (d.tenant r.tenant).rowCap then r :: capRows d (nput r.tenant (n + 1) seen) rest else capRows d seen rest

/-- Decode candidates of a paddock in order, before ROW_CAP. -/
def Dev.decodeCandidates (d : Dev) (p : Nat) (q : Paddock) (sv : Serving) : List Request :=
  candidateOrder sv.age q.tenantPtr ((d.livePad p).filter fun r => r.state = .decode && !r.paused && (d.tenant r.tenant).passes)

def Dev.prefillCandidates (d : Dev) (p : Nat) (q : Paddock) (sv : Serving) : List Request :=
  candidateOrder sv.age q.tenantPtr ((d.livePad p).filter fun r =>
    (r.state = .ready || r.state = .prefill) && !r.paused && !r.pauseLatency && (d.tenant r.tenant).passes)

/-- The family with the smallest DR of at least `n`. -/
def Serving.familyFor (s : Serving) (n : Nat) : Option Family :=
  (sortBy (fun (a b : Family) => decide (a.dr < b.dr)) s.families).find? fun f => decide (n ≤ f.dr)

/-- LENGTH cycles meet GOAL µs, at 1,050 cycles a µs; 0 is no goal. -/
def goalMet (length goal : Nat) : Bool := goal = 0 || decide (length ≤ goal * 1050)

/-- What a launch decision forms: the family, the decode rows placed, the candidates left out for latency, every candidate not placed, and
the prefill rows. -/
structure Formation where
  family : Family
  placed : List Request
  latency : List Request
  passed : List Request
  prefill : List Request

/-- Forms a generation step of paddock `p`. `match?` gives the LENGTH of the variant that R60 would match for a family. -/
def Dev.form (d : Dev) (p : Nat) (q : Paddock) (sv : Serving) (match? : Nat → Option Nat) : Option Formation :=
  let all := d.decodeCandidates p q sv
  let cands := capRows d [] all
  let maxDr := maxNat (sv.families.map (·.dr))
  let fits := fun n => match sv.familyFor n with
    | some f => match match? f.family with
      | some len => (cands.take n).all fun r => goalMet len (sv.goal.getD r.cls 0)
      | none => false
    | none => false
  let n := ((List.range (min maxDr cands.length + 1)).reverse.find? fits)
  match n with
  | none => none
  | some n => match sv.familyFor n with
    | none => none
    | some f =>
      let waiting := d.prefillCandidates p q sv
      let pre := waiting.take f.pr
      let placed := cands.take n
      some { family := f, placed := placed, latency := if n < f.dr then cands.drop n else []
             passed := (all.filter fun r => !placed.any fun x => x.number = r.number) ++ waiting.drop f.pr, prefill := pre }

def emptyRow (prefill : Bool) : Row := { request := none, prefill := prefill, position := 0, count := 0, lastChunk := false }

/-- No request has a row: nothing launches, but candidates left out for latency receive their bit (R287). -/
def Formation.empty (f : Formation) : Bool := f.placed.isEmpty && f.prefill.isEmpty

/-- The rows of a formation: DR decode rows, then PR prefill rows. -/
def Formation.rows (f : Formation) : List Row :=
  ((List.range f.family.dr).map fun i => match f.placed[i]? with
    | some r => { request := some r.number, prefill := false, position := r.inTokens + r.outTokens, count := 1, lastChunk := false }
    | none => emptyRow false) ++
  ((List.range f.family.pr).map fun i => match f.prefill[i]? with
    | some r =>
      let n := min f.family.pt (r.inTokens - r.prefilled)
      { request := some r.number, prefill := true, position := r.prefilled, count := n, lastChunk := decide (r.inTokens ≤ r.prefilled + n) }
    | none => emptyRow true)

/-- Pause bits and ageing after a formation that launches. -/
def W.formed (p : Nat) (f : Formation) (w : W) : W :=
  let among := fun (l : List Request) (r : Request) => l.any (fun x => x.number = r.number)
  let step := fun (r : Request) =>
    if r.paddock ≠ p then r
    else if among f.placed r then { r with pauseLatency := false, waited := 0 }
    else if among f.passed r then { r with pauseLatency := r.pauseLatency || among f.latency r, waited := r.waited + 1 }
    else { r with waited := 0 }
  w.serve fun v => { v with requests := v.requests.map step }

/-- The LATENCY bits of a formation that does not launch. -/
def W.leftOut (f : Formation) (w : W) : W :=
  w.serve fun v => { v with requests := v.requests.map fun r => if f.latency.any (fun x => x.number = r.number) then { r with pauseLatency := true } else r }

/-! ### The row area (R564) -/

def rowBytes (d : Dev) (x : Row) : Bytes :=
  match x.request.bind d.request? with
  | none => leBytes 4 0xFFFF_FFFF ++ zeros 32 ++ leBytes 4 0xFFFF_FFFF ++ leBytes 2 0xFFFF ++ zeros 2 ++ leBytes 4 0xFFFF_FFFF ++ zeros 80
  | some r =>
    let flags := b2n x.lastChunk + 2 * b2n r.context.isSome + 4 * b2n r.logprobs
    let rank := match (d.pad? r.paddock).bind (fun q => q.adapters.find? fun a => a.adapterId = r.adapterId && a.version = r.adapterVer) with
      | some a => a.rank
      | none => 0
    leBytes 4 r.number ++ leBytes 1 (if x.prefill then 2 else 1) ++ leBytes 1 flags ++ leBytes 1 r.tenant ++ zeros 1 ++ leBytes 4 x.position ++
    leBytes 4 x.count ++ leBytes 8 r.seed ++ leBytes 5 r.stream ++ zeros 3 ++ leBytes 4 (if x.prefill then 0 else r.outTokens) ++
    leBytes 4 (r.context.getD 0xFFFF_FFFF) ++ leBytes 2 (if r.adapterId = 0 then 0xFFFF else r.adapterSlot) ++ leBytes 1 rank ++ zeros 1 ++
    leBytes 4 ((if x.prefill then none else r.lastToken).getD 0xFFFF_FFFF) ++ samplerBlock r.sampler r.topK r.temp r.p ++ zeros 48

def rowArea (d : Dev) (f : Family) (launch : Nat) (rows : List Row) : Bytes :=
  leBytes 2 f.dr ++ leBytes 2 f.pr ++ leBytes 4 f.family ++ leBytes 8 launch ++ zeros 48 ++ (rows.map (rowBytes d)).flatten

/-- Writes the rows of a launch at herd count `launch`. -/
def W.writeRows (p : Nat) (f : Family) (launch : Nat) (rows : List Row) (w : W) : W :=
  match w.dev.ladderAlloc p 0xFFFF_FF01 with
  | some a => w.commonsPokes a.commons (rowArea w.dev f launch rows)
  | none => w

/-- KV blocks of the paddock's pool: its bytes over the block size that the ladder plans fix, which no rule gives. -/
def Dev.kvBlocks (d : Dev) (p : Nat) : Nat :=
  match d.ladderAlloc p 0xFFFF_FF03 with
  | some a => a.bytes / max 1 (Config.kvBlockBytes a.bytes)
  | none => 0

/-- The lowest `n` free KV blocks, if there are so many. -/
def Dev.freeKv (d : Dev) (p n : Nat) : Option (List Nat) :=
  let used := ((d.livePad p).map (·.kv)).flatten
  let free := ((List.range (min (d.kvBlocks p) (used.length + n))).filter fun k => !used.contains k).take n
  if free.length = n then some free else none

/-- Writes the KV block table of a request at its admission. -/
def W.writeKvTable (r : Request) (w : W) : W :=
  match w.dev.ladderAlloc r.paddock 0xFFFF_FF02 with
  | some a => w.commonsPokes (a.commons + r.number * ceilDiv (w.dev.ctxCap r.paddock) 64 * 4) ((r.kv.map (leBytes 4)).flatten)
  | none => w

/-! ### The boundary of a generation step (R65, R283, R294, R297) -/

/-- One row at a boundary that commits: the chunk, the request's progress, its charge, and its end if it has one. -/
def W.commitRow (chunks : List Chunk) (cancelled : List Nat) (x : Row) (w : W) : W :=
  match x.request.bind w.dev.request? with
  | none => w
  | some r =>
    let chunk := if x.prefill && !x.lastChunk then none else chunks.find? fun c => c.request = r.number
    let tok := chunk.bind (·.token)
    let charge := if x.prefill then x.count else b2n tok.isSome
    let w := w.tenant r.tenant (Tenant.charge charge)
    let w := match tok with | some t => w.tokenArea r (r.inTokens + r.outTokens) [t] | none => w
    let r1 := { r with
      prefilled := if x.prefill then r.prefilled + x.count else r.prefilled
      state := if x.prefill then (if x.lastChunk then .decode else .prefill) else r.state
      outTokens := r.outTokens + b2n tok.isSome
      lastToken := match tok with | some t => some t | none => r.lastToken
      heldBytes := match chunk with | some c => c.held | none => r.heldBytes }
    let w := w.request r.number fun _ => r1
    let w := match chunk with | some c => w.streamChunk r1 c | none => w
    let ended := match chunk with | some c => decide (c.reason ≠ 0) | none => false
    if ended then w.endRequest r1
    else if r1.cancelled || cancelled.contains r.number then w.closeRequest r1 rCancelled
    else w

/-- A step failed for good: each of its requests ends FAILED (R297). -/
def W.failRow (x : Row) (w : W) : W :=
  match x.request.bind w.dev.request? with
  | some r => w.closeRequest r rFailed
  | none => w

/-- What TOKENIZE words left for requests: carries and tokens (R257, R261, R262). -/
def W.commitTokens (s : Step) (w : W) : W :=
  let w := W.each s.carries (fun (c : Nat × Bytes) w => w.request c.1 fun r => { r with carry := c.2 }) w
  W.each s.tokens (fun (t : Nat × List Nat × Bool) w => w.requestTokens t.1 t.2.1 t.2.2) w

/-- Grammar contexts after the step's MASK words, with the token of its own row not yet applied (R275). -/
def W.commitContexts (s : Step) (w : W) : W :=
  let set := fun (x : Nat × GContext) =>
    match s.contexts.find? (fun c => c.1 = x.1) with
    | some c => (x.1, { x.2 with state := c.2.1, stack := c.2.2 })
    | none => x
  w.serve fun v => { v with contexts := v.contexts.map set }

/-- Tokens that the prompt records of a step hold: USED of each PACK word's record (R294). -/
def packUsed (e : LoadEnv) (w : W) (s : Step) : Nat :=
  sumNat ((List.range s.plan.words.length).map fun i => match s.plan.words[i]? with
    | some x => if s.plan.isPack x then (match s.plan.desc? x.dst with
        | some d =>
          let c := e.ctx s x i 0
          let used := fun (k : Nat) => ofLe ((List.range 4).map fun b => c.peek w (k + b))
          sumNat ((e.areas c d (List.range (s.plan.repeatOf i).1)).map used)
        | none => 0) else 0
    | none => 0)

/-- The largest number of tokens that the rows of a SCORE step can score: COUNT of each row that its TOKENIZE words tokenize, else the
1,048,576 bytes that a row may hold at most (R259, R260). -/
def scoreBound (e : LoadEnv) (w : W) (s : Step) : Nat :=
  let rows := ((List.range s.plan.words.length).map fun i => match s.plan.words[i]? with
    | some x => if x.cls ≠ cTOKENIZE then [] else match s.plan.desc? x.dst with
      | some d =>
        let c := e.ctx s x i 0
        let n := d.length / max 1 s.plan.batch
        ((List.range (s.plan.repeatOf i).1).map fun j => (List.range s.plan.batch).map fun row =>
          { c with rep := j }.readN w x.dst c.sharedUnit (row * n) 4).flatten
      | none => []
    | none => []).flatten
  if s.plan.words.any (·.cls = cTOKENIZE) then sumNat rows else s.plan.batch * 1048576

/-- Charge of a host batch at its boundary. How many of its rows' tokens a SCORE plan scores, the plan alone knows: a free value within
their number (log entry 126). -/
def W.chargeBatch (p : Nat) (q : Paddock) (s : Step) (w : W) : W :=
  if s.plan.kind = 1 then w.tenant s.batch.tenant (Tenant.charge (packUsed { dev := w.dev, p := p, pad := q } w s))
  else if s.plan.kind = 5 then
    let (n, w) := w.fresh
    w.tenant s.batch.tenant (Tenant.charge (Config.freeNat n % (scoreBound { dev := w.dev, p := p, pad := q } w s + 1)))
  else w

/-- PHASE pause bits clear where the resident set is the one a request was admitted under (R302). -/
def W.phaseResume (p resident : Nat) (w : W) : W :=
  w.serve fun v => { v with requests := v.requests.map fun r =>
    if r.paddock = p && r.pausePhase && r.resident = resident then { r with pausePhase := false, resumedPhase := true } else r }

def W.phasePause (p : Nat) (w : W) : W :=
  w.serve fun v => { v with requests := v.requests.map fun r => if r.paddock = p then { r with pausePhase := true } else r }

/-! ### Engine ratio (R290) -/

/-- PREFILL_STABLES values for which every ladder family has a loaded variant; a plan that does not depend on the ratio fits every value. -/
def Paddock.ratioAllowed (q : Paddock) (sv : Serving) (v : Nat) : Bool :=
  sv.families.all fun f => q.plans.any fun p => p.family = f.family && (p.prefillStables = 0xFFFF || p.prefillStables = v)

def absDiff (a b : Nat) : Nat := (a - b) + (b - a)

/-- The ratio that LOAD chooses: the allowed value nearest the target S × A ÷ (A + B), compared exactly as |v × (A + B) − S × A|. -/
def Dev.ratioTarget (d : Dev) (p : Nat) (q : Paddock) (sv : Serving) : Option Nat :=
  let live := d.livePad p
  let open_ := fun (r : Request) => !r.paused && !r.pauseLatency
  let wp := sumNat ((live.filter fun r => (r.state = .ready || r.state = .prefill) && open_ r).map fun r => r.inTokens - r.prefilled)
  let nd := (live.filter fun r => r.state = .decode && open_ r).length
  let a := wp * sv.pcost
  let b := nd * sv.dcost
  if wp = 0 && nd = 0 then none
  else
    let vs := (List.range (q.stables.length + 1)).filter (q.ratioAllowed sv)
    let dist := fun v => absDiff (v * (a + b)) (q.stables.length * a)
    match vs with
    | [] => none
    | v :: r => some (r.foldl (fun x y => if dist y < dist x then y else x) v)

/-- Firmware's choice at a step boundary of the paddock. -/
def W.ratioStep (p : Nat) (w : W) : W :=
  match w.dev.pad? p with
  | none => w
  | some q => match q.serving with
    | none => w
    | some sv =>
      if !sv.loadMode then w
      else match w.dev.ratioTarget p q sv with
        | none => w.pad p fun q => { q with ratioSeen := (q.prefill, 0) }
        | some v =>
          if v = q.prefill then w.pad p fun q => { q with ratioSeen := (v, 0) }
          else
            let n := if q.ratioSeen.1 = v then q.ratioSeen.2 + 1 else 1
            if sv.hyst ≤ n then w.pad p fun q => { q with prefill := v, ratioSeen := (v, 0) }
            else w.pad p fun q => { q with ratioSeen := (v, n) }

/-! ### At a launch point -/

/-- Settings of SERVE_SET that wait apply; under FIXED the ratio is the host's. -/
def Paddock.settle (q : Paddock) : Paddock :=
  match q.pendServing with
  | some sv => { q with serving := some sv, pendServing := none, prefill := if sv.loadMode then q.prefill else sv.prefillStables }
  | none => q

/-- Tenant changes, BUDGET pause bits, serving settings and versions at a launch point. -/
def W.serveLaunchPoint (w : W) : W :=
  let w := w.serve fun v => { v with tenants := v.tenants.map fun (x : Nat × Tenant) => (x.1, x.2.settle) }
  let d := w.dev
  let w := w.serve fun v => { v with requests := v.requests.map fun r => { r with pauseBudget := !(d.tenant r.tenant).passes } }
  let w := { w with dev := { w.dev with pads := w.dev.pads.map fun (x : Nat × Paddock) => (x.1, x.2.settle) } }
  (w.switchVersions).tokenizeWaiting

end Sys2Proof.Machine
end

