-- ==== Sys2Proof/Machine/Regions.lean ====
section
/-! DEFINITION. Regions of memory that belong to a live index generation, to a current embedding table or to a SHARED_RO allocation, and
whether a host access touches one (R166, R308, R353); writes and reads of a space by address, as the device itself makes them. -/

namespace Sys2Proof.Machine

/-! ### Regions -/

/-- A range of addresses of a space: of one pseudo-channel, or of the whole space, interleaved in the stacks. -/
structure Region where
  space : Nat
  pc : Option Nat
  lo : Nat
  hi : Nat
deriving DecidableEq, Repr

/-- `n` bytes from an address of a space, in either form of R329. -/
def regionAt (sp a n : Nat) : Region :=
  if sp = spStack && a.testBit 40 then { space := sp, pc := some (bitsOf a 31 9), lo := bitsOf a 0 31, hi := bitsOf a 0 31 + n }
  else { space := sp, pc := none, lo := a, hi := a + n }

/-- Byte `k` lies in the region. -/
def Region.hasKey (r : Region) (k : Nat) : Bool :=
  let a := if r.pc.isNone && r.space = spStack then stackAddr k else keyOff k
  keySpace k = r.space && (match r.pc with | some b => keyUnit k = b | none => true) && decide (r.lo ≤ a) && decide (a < r.hi)

/-- The region meets `n` bytes from `a` of a space that is not the stacks. -/
def Region.meetsRange (r : Region) (sp a n : Nat) : Bool := r.space = sp && decide (r.lo < a + n) && decide (a < r.hi)

/-- Regions of one generation of an index; `psg` bytes of passages are in use. -/
def IndexDesc.regions (d : IndexDesc) (psg : Nat) : List Region :=
  let pcl := fun (base n : Nat) => d.parts.map fun b => Region.mk spStack (some b) base (base + n)
  let parts := fun (sp base n : Nat) => d.parts.map fun b => regionAt sp (base + b * n) n
  let adj := fun (base n : Nat) => if d.large then parts spBarn base n else pcl base n
  pcl d.phdrBase 256 ++ pcl d.scanBase (d.partCap * d.z) ++ adj d.adjBase (d.partCap * 192) ++ adj d.vpoolBase (d.vrec * 192) ++
  parts d.vecSpace d.vecBase (d.partCap * d.vecStride) ++ [regionAt d.psgSpace d.psgBase psg] ++
  (if d.large then [regionAt d.cbSpace d.cbBase (16384 * d.ds)] else [regionAt d.projSpace d.projBase (2048 * d.dim)])

/-- Regions of every bound generation of an index. -/
def Index.regions (x : Index) : List Region :=
  x.desc.regions x.psgLimit ++ (match x.old with | some d => d.regions x.psgLimit | none => [])

/-- Directory, hot region and, if it is UPDATABLE, tail of a table's current version. -/
def Emb.regions (x : Emb) : List Region :=
  let d := x.desc
  let pcl := fun (base n : Nat) => d.bays.map fun b => Region.mk spStack (some b) base (base + n)
  pcl d.dirBase (ceilDiv d.rows (max 1 d.nb) * 8) ++ pcl d.hotBase (d.hotSlots * d.rowStride) ++
  (if d.updatable then [regionAt d.tailSpace d.tailBase (d.rows * d.rowStride)] else [])

/-- Pages of an allocation that is read-only from now on. -/
def Alloc.regions (x : Alloc) : List Region :=
  if x.entry.shared && x.bound then x.place.map fun p => regionAt p.2.1 p.2.2 65536 else []

def Dev.indexRegions (d : Dev) : List Region := (d.indexes.map Index.regions).flatten
def Dev.embRegions (d : Dev) : List Region := (d.embs.map Emb.regions).flatten
def Dev.allocRegions (d : Dev) : List Region := (d.tiers.allocs.map Alloc.regions).flatten

/-- The status with which a host access that writes is refused, by what it touches. -/
def Dev.liveStatus (d : Dev) (meets : Region → Bool) : Option Status :=
  if d.indexRegions.any meets then some .indexLive
  else if d.embRegions.any meets then some .embLive
  else if d.allocRegions.any meets then some .allocReadOnly
  else none

/-! ### The device's own accesses -/

/-- Bytes of a space by address: stacks, barn memory, shed, commons or host. -/
def Dev.spaceCells (d : Dev) (sp a : Nat) (b : Bytes) : List Host.Cell :=
  (List.range b.length).map fun i => (d.sharedKey 0 0 sp (a + i), b.getD i 0)

def W.spacePeeks (sp a n : Nat) (w : W) : Bytes := (List.range n).map fun i => w.peek (w.dev.sharedKey 0 0 sp (a + i))

end Sys2Proof.Machine
end

