-- ==== Sys2Proof/Machine/Shed.lean ====
section
/-! DEFINITION. The shed: its translation layer, write buffer and storage queues (R362 to R388). The bytes of the shed in memory are those
that the last effect to start has left; the buffer lists the effects that are not yet on the medium. -/

namespace Sys2Proof.Machine

open Host

/-! ### Capacity (R362, R363) -/

def Dev.shedN (d : Dev) : Nat := d.boot.part.shedChannels

/-- Bytes that the storage queues reach: the commons pool lies above them. -/
def Dev.queueBytes (d : Dev) : Nat := d.boot.part.shedGranules * 4096 - d.shed.poolBytes

/-! ### Channels and blocks (R364 to R368) -/

/-- Spare blocks of a channel at manufacture. -/
def madeSpares (c : Nat) : Nat := 64 + Config.shedExtraSpares c

def ShedChannel.fresh (c : Nat) : ShedChannel := { blocks := [], spares := madeSpares c, victim := none }

def Shed.chan (s : Shed) (c : Nat) : ShedChannel := tget (ShedChannel.fresh c) c s.channels

def W.chan (c : Nat) (f : ShedChannel → ShedChannel) (w : W) : W := w.shed fun s => { s with channels := tput c (f (s.chan c)) s.channels }

def ShedChannel.block? (ch : ShedChannel) (n : Nat) : Option Block := ch.blocks.find? (·.number = n)

/-- The block as it was made where nothing is known of it. -/
def ShedChannel.block (ch : ShedChannel) (n : Nat) : Block := (ch.block? n).getD { number := n, state := 0, erases := 0, granules := [] }

def ShedChannel.putBlock (b : Block) (ch : ShedChannel) : ShedChannel := { ch with blocks := b :: ch.blocks.filter (·.number ≠ b.number) }

def ShedChannel.free (c : Nat) (ch : ShedChannel) : Nat := Config.shedBlocks c - (ch.blocks.filter (·.state ≠ 0)).length

/-- Order of R366 and R367 among blocks: fewer of `key`, then fewer erases, then the lower number. -/
def blockBefore (key : Block → Nat) (a b : Block) : Bool :=
  decide (key a < key b) || (key a = key b && (decide (a.erases < b.erases) || (a.erases = b.erases && decide (a.number < b.number))))

def firstBlock (key : Block → Nat) : List Block → Option Block
  | [] => none
  | b :: r => some (r.foldl (fun x y => if blockBefore key y x then y else x) b)

/-- The lowest block number of the channel that is not listed. -/
def ShedChannel.unlisted (c : Nat) (ch : ShedChannel) : Option Block :=
  let used := ch.blocks.map (·.number)
  (List.range (min (Config.shedBlocks c) (used.length + 1))).find? (fun n => !used.contains n) |>.map ch.block

/-- The free block that the channel opens next. -/
def ShedChannel.nextFree (c : Nat) (ch : ShedChannel) : Option Block :=
  firstBlock (fun _ => 0) ((ch.unlisted c).toList ++ ch.blocks.filter (·.state = 0))

/-- The open block, opened now if none is. -/
def ShedChannel.opened (c : Nat) (ch : ShedChannel) : Option Block :=
  match ch.blocks.find? (·.state = 1) with
  | some b => some b
  | none => (ch.nextFree c).map fun b => { b with state := 1 }

/-- Valid mapping granules of a block: those that the map places in it. -/
def Shed.valid (s : Shed) (b : Block) : List Nat := sortNat (b.granules.filter fun g => nget s.map g = b.number + 1)

/-- Fewer than 16 free blocks (R367). -/
def Dev.urgent (d : Dev) (c : Nat) : Bool := decide ((d.shed.chan c).free c < 16)

/-- One media page of up to four granules into the open block of channel `c`; the rest of the page stays unused. -/
def W.programPage (c : Nat) (gs : List Nat) (w : W) : W :=
  match (w.dev.shed.chan c).opened c with
  | none => w
  | some b =>
    -- number 2^44 names no granule
    let page := (List.range 4).map fun i => gs.getD i (2 ^ 44)
    let b := { b with granules := b.granules ++ page }
    let b := { b with state := if 4096 ≤ b.granules.length then 2 else 1 }
    (w.chan c (ShedChannel.putBlock b)).shed fun s => { s with map := gs.foldl (fun m g => nput g (b.number + 1) m) s.map }

/-- Programs granules page by page. -/
def W.programAll (c : Nat) (gs : List Nat) (w : W) : W := W.each (chunks 4 gs) (fun page w => w.programPage c page) w

/-! ### Plans that go (R49) -/

/-- Completes every queued batch of paddock `p` whose family has no loaded plan any more. -/
def W.dropUnplanned (p : Nat) (w : W) : W :=
  match w.dev.pad? p with
  | none => w
  | some q =>
    let gone := q.batches.filter fun b => !q.plans.any fun x => x.family = b.family
    let w := w.pad p fun q => { q with batches := q.batches.filter fun b => q.plans.any fun x => x.family = b.family }
    W.each gone (fun b w => if b.service = 0 then w.complete b.ring b.index .planNotLoaded else w) w

/-- Unloads the plans of paddock `p` that `f` picks. A running step, and a launch decided already, go on under their own copy. -/
def W.unloadPlans (p : Nat) (f : Plan → Bool) (w : W) : W :=
  ((w.pad p fun q => { q with plans := q.plans.filter fun x => !f x }).dropUnplanned p).freeAllocs

/-- A plan that stages shed writes. -/
def Plan.stagesShed (p : Plan) : Bool := p.words.any fun x => x.kind = kDMA && (match p.desc? x.dst with | some d => d.space = spShed | none => false)

/-! ### Spares (R368, R369) -/

/-- A SHED event with the code of its new state. -/
def W.shedEvent (state : Nat) (w : W) : W := w.event 5 [Config.stateCode state]

/-- The shed is READ_ONLY from now on. -/
def W.shedReadOnly (w : W) : W :=
  if w.dev.shed.readOnly then w
  else
    let w := (w.shed fun s => { s with readOnly := true }).shedEvent 0
    W.each (w.dev.pads.map (·.1)) (fun p w => w.unloadPlans p Plan.stagesShed) w

/-- One spare of channel `c` is used. -/
def W.useSpare (c : Nat) (w : W) : W :=
  let before := (w.dev.shed.chan c).spares
  let w := w.chan c fun ch => { ch with spares := ch.spares - 1 }
  let n := (w.dev.shed.chan c).spares
  let known := w.dev.shed.spareLow
  let w := if decide (4 * n < madeSpares c) && decide (madeSpares c ≤ 4 * before) then
      ((w.shed fun s => { s with spareLow := true }).detect caSpareLow uShed c 0 n []).when (!known) (W.shedEvent 1)
    else w
  if n ≤ 8 && !w.dev.shed.readOnly then (w.detect caShedSpares uShed c 0 n w.dev.runningPads).shedReadOnly else w

/-- A block is retired: its valid granules are written elsewhere. -/
def W.retireBlock (c n : Nat) (w : W) : W :=
  let b := (w.dev.shed.chan c).block n
  let gs := w.dev.shed.valid b
  let w := w.chan c (ShedChannel.putBlock { b with state := 3, granules := [] })
  (w.programAll c gs).useSpare c

/-- The block that holds mapping granule `g` is retired, since the medium code could not correct the granules at `ks`. They move with their checks
inverted (R385): a granule that has moved so gives no uncorrectable read again. -/
def W.shedUncorrectable (g : Nat) (ks : List Nat) (w : W) : W :=
  let new := ks.filter fun k => !w.dev.tiers.badGranules.contains k
  let w := w.when (!new.isEmpty) (W.tiers fun t => { t with badGranules := addAllNat new t.badGranules })
  match nget w.dev.shed.map g with
  | 0 => w
  | n + 1 => w.when (!new.isEmpty) (W.retireBlock (g % w.dev.shedN) n)

/-! ### What is on the medium -/

def Queue.reset : Queue :=
  { sub := 0, cpl := 0, subHead := 0, subTail := 0, compHead := 0, compTail := 0, enable := false, resetting := false, out := [], held := [] }

def W.queue (q : Nat) (f : Queue → Queue) (w : W) : W := w.shed fun s => { s with queues := tput q (f (tget Queue.reset q s.queues)) s.queues }

def Dev.queue (d : Dev) (q : Nat) : Queue := tget Queue.reset q d.shed.queues

/-- Every outstanding storage command with its queue, in acceptance order. -/
def Dev.storage (d : Dev) : List (Nat × StorageCmd) :=
  sortBy (fun (a b : Nat × StorageCmd) => decide (a.2.seq < b.2.seq)) (d.shed.queues.map fun (x : Nat × Queue) => x.2.out.map fun c => (x.1, c)).flatten

/-- Changes the outstanding command of place `seq` in the acceptance order. -/
def W.storageCmd (seq : Nat) (f : StorageCmd → StorageCmd) (w : W) : W :=
  w.shed fun s => { s with queues := s.queues.map fun (x : Nat × Queue) =>
    (x.1, { x.2 with out := x.2.out.map fun c => if c.seq = seq then f c else c }) }

/-- The effect of place `seq` on granule `g` is on the medium: it and the older ones leave the buffer. -/
def W.durable (g seq : Nat) (w : W) : W :=
  let w := w.shed fun s => { s with buffer := s.buffer.filter fun b => b.granule ≠ g || decide (seq < b.seq) }
  let w := w.storageCmd seq fun c => { c with left := c.left.filter (· ≠ g) }
  -- an older command waits for this one, unless this is a write of the device's own
  if w.dev.storage.any fun x => x.2.seq = seq then w
  else w.storageCmds fun c => if c.seq < seq then { c with left := c.left.filter (· ≠ g) } else c

/-- Granules that an earlier WRITE or DISCARD, of any queue, has yet to take up. -/
def Dev.waitsFor (d : Dev) (seq g : Nat) : Bool := d.storage.any fun x => decide (x.2.seq < seq) && x.2.op ≠ 1 && x.2.todo.contains g

/-- The oldest writes of channel `c` that wait to be programmed, one page of them. One that a write accepted before it has yet to precede stays in
the buffer. -/
def Dev.nextPage (d : Dev) (c : Nat) : List Buffered :=
  let l := d.shed.buffer.filter fun b => !b.discard && b.granule % d.shedN = c && !d.waitsFor b.seq b.granule
  -- a granule stands once in a page
  (l.foldl (fun (acc : List Buffered) b => if acc.any (·.granule = b.granule) then acc else acc ++ [b]) []).take 4

/-- A page program ends (R364, R366, R368). -/
def W.pageProgram (c : Nat) (ok : Bool) (w : W) : W :=
  let page := w.dev.nextPage c
  if page.isEmpty then w
  else if ok then
    match (w.dev.shed.chan c).opened c with
    | none => w
    | some _ => W.each page (fun b w => w.durable b.granule b.seq) (w.programPage c (page.map (·.granule)))
  else match (w.dev.shed.chan c).opened c with
    | none => w
    | some b => w.retireBlock c b.number

/-- Discards that wait in the buffer, on the granules of a command that has reached its durable end. -/
def W.discardDurable (c : StorageCmd) (w : W) : W :=
  W.each c.left (fun g w =>
    if (w.dev.shed.buffer.any fun b => b.granule = g && b.seq = c.seq) && !w.dev.waitsFor c.seq g then (w.shed fun s => { s with map := nput g 0 s.map }).durable g c.seq else w) w

/-! ### Storage queues (R379 to R384) -/

def Queue.outstanding (q : Queue) : Nat := q.out.length + q.held.length
def Queue.compUsed (q : Queue) : Nat := (q.compTail + 64 - q.compHead) % 64

def W.writeRecord (q : Nat) (x : Nat × Nat × Nat × Nat) (w : W) : W :=
  let g := w.dev.queue q
  let b := leBytes 1 q ++ leBytes 1 x.1 ++ leBytes 2 x.2.1 ++ leBytes 2 x.2.2.1 ++ leBytes 2 x.2.2.2 ++ leBytes 8 w.herd
  (w.writeHost (w.dev.doneClass true) 0 (g.cpl + 16 * g.compTail) b).queue q fun g => { g with compTail := (g.compTail + 1) % 64 }

/-- Completion records are written while the ring has room and the link is UP. -/
def W.flushQueue (q : Nat) : Nat → W → W
  | 0, w => w
  | n + 1, w =>
    let g := w.dev.queue q
    match g.held with
    | [] => w
    | x :: r =>
      if w.dev.halter.isUp && decide (g.compUsed < 63) then W.flushQueue q n ((w.writeRecord q x).queue q fun g => { g with held := r }) else w

/-- A write of COMP_HEAD. A reset ignores it, but where completions wait for room, for which the reset waits (R384, R385; log entry 48). -/
def Queue.moveHead (v : Nat) (g : Queue) : Queue := if g.resetting && g.held.isEmpty then g else { g with compHead := v }

/-- A completion: tag, status, place in the ring and LOST. -/
def W.storageDone (q tag : Nat) (st : Status) (index lost : Nat) (w : W) : W :=
  let w := w.queue q fun g => { g with held := g.held ++ [(tag, st.code, index, satN 16 lost)] }
  w.flushQueue q (w.dev.queue q).held.length

/-- Mapping granules of `n` bytes from address `a`. -/
def granulesOf (a n : Nat) : List Nat := List.range' (a / 4096) (ceilDiv (a % 4096 + n) 4096)

def Queue.hasTag (q : Queue) (t : Nat) : Bool := q.out.any (fun c => c.entry.tag.toNat = t) || q.held.any fun x => x.1 = t

/-- The status with which a command ends at once (R383), by the order of its table. -/
def Dev.storageStatus (d : Dev) (q op : Nat) (e : StorageEntry) : Option Status :=
  let n := e.length.toNat
  let a := e.shedAddr.toNat
  let writes := op ≠ 1
  let lengthOk := if op = 1 then decide (64 ≤ n) && decide (n ≤ 4_194_304) && n % 64 = 0 && a % 64 = 0
    else decide (4096 ≤ n) && n % 4096 = 0 && a % 4096 = 0 && decide (n ≤ if op = 2 then 4_194_304 else 1_073_741_824)
  let hostOk := if op = 3 then e.hostAddr = 0 else e.hostAddr.toNat % 64 = 0
  if !lengthOk || !hostOk || decide (31 < e.tag.toNat) || decide (1 < e.flags.toNat) || e.reserved ≠ 0 || !allZero e.rest then some .badCommandStorage
  else if d.queueBytes < a + n then some .badRange
  else if (d.queue q).hasTag e.tag.toNat then some .tagBusy
  else if writes && d.shed.readOnly then some .readOnly
  else if writes then d.liveStatus fun r => r.meetsRange spShed a n
  else none

/-- The bytes of granule `g` that a READ asks for, from its host offset on. -/
def readPart (e : StorageEntry) (g : Nat) : Nat × Nat :=
  let a := e.shedAddr.toNat
  let lo := max a (g * 4096)
  (lo, min (a + e.length.toNat) (g * 4096 + 4096) - lo)

/-- A READ is served one mapping granule, as it stood before any effect accepted after the READ (R381): granules that fail their check are written as zeros and counted (R333, R382). -/
def W.serveRead (c : StorageCmd) (g : Nat) (w : W) : W :=
  let (lo, n) := readPart c.entry g
  let keys := (List.range (n / 64)).map fun i => memKey spShed 0 (lo + 64 * i)
  let kept := c.saved.find? fun x => x.1 = g
  let bad := match kept with | some x => keys.filter x.2.2.contains | none => failing w.dev keys
  let bytes := fun (k : Nat) => match kept with | some x => slice x.2.1 (keyOff k - g * 4096) 64 | none => w.peeks k 64
  let data := (keys.map fun k => if bad.contains k then zeros 64 else bytes k).flatten
  let w := w.writeHost clData 0 (c.entry.hostAddr.toNat + (lo - c.entry.shedAddr.toNat)) data
  let w := w.storageCmd c.seq fun c => { c with lost := c.lost + bad.length }
  W.each bad (fun k w => w.badGranule [] k true) w

/-- Room in the write buffer for queue writes: 64 MiB less the paddocks' staging shares (R378). -/
def Dev.bufferRoom (d : Dev) : Bool :=
  let shares := sumNat (d.pads.map fun (x : Nat × Paddock) => x.2.stageBytes)
  decide (d.shed.buffer.length < 16384 - ceilDiv shares 4096)

/-- A READ accepted between places `lo` and `hi` that still waits for granule `g`. -/
def StorageCmd.waitsRead (lo hi g : Nat) (c : StorageCmd) : Bool := c.op = 1 && decide (lo < c.seq) && decide (c.seq < hi) && c.todo.contains g

/-- A WRITE puts one granule into the buffer. Its host data is read now. A later effect of the granule that is there already stands, and only READs
accepted between the two return the data. -/
def W.enterWrite (c : StorageCmd) (g : Nat) (w : W) : W :=
  let w := w.storageCmd c.seq fun c => { c with started := true }
  let data := w.peeks (hostKey (c.entry.hostAddr.toNat + (g * 4096 - c.entry.shedAddr.toNat))) 4096
  match minNat? ((w.dev.shed.buffer.filter fun b => b.granule = g && decide (c.seq < b.seq)).map (·.seq)) with
  | some later => w.storageCmds fun x => if x.waitsRead c.seq later g then { x with saved := (g, data, []) :: x.saved } else x
  | none =>
    let ws := (List.range 4096).map fun i => (memKey spShed 0 (g * 4096 + i), data.getD i 0)
    (pokeAll ws (w.bufferAs c.seq [g] false)).wrote ws

/-- A DISCARD of one granule. -/
def W.enterDiscard (c : StorageCmd) (g : Nat) (w : W) : W :=
  let ws := (List.range 4096).map fun i => (memKey spShed 0 (g * 4096 + i), (0 : Byte))
  (pokeAll ws (w.bufferAs c.seq [g] true)).wrote ws

/-- Every command accepted earlier in the queue has completed, if the command is ORDERED. -/
def Dev.mayStart (d : Dev) (q : Nat) (c : StorageCmd) : Bool :=
  !c.entry.flags.toNat.testBit 0 || !(d.queue q).out.any fun x => decide (x.seq < c.seq)

/-- One granule of a command, if it may go on now. A DISCARD takes effect at once, also ahead of a WRITE accepted before it (R370, R382, R384). -/
def W.advanceGranule (q : Nat) (c : StorageCmd) (g : Nat) (w : W) : W :=
  let d := w.dev
  if !d.mayStart q c || (c.op ≠ 3 && d.waitsFor c.seq g) then w
  else
    let taken := fun (w : W) => w.storageCmd c.seq fun x => { x with todo := x.todo.filter (· ≠ g) }
    if c.op = 1 then
      let w := w.storageCmd c.seq fun x => { x with started := true }
      if d.halter.isUp then taken (w.serveRead c g) else w
    else if c.op = 2 then
      if d.halter.isUp && d.bufferRoom && !d.urgent (g % d.shedN) then taken (w.enterWrite c g) else w
    else taken ((w.storageCmd c.seq fun x => { x with started := true }).enterDiscard c g)

/-- Everything that may go on does, in acceptance order, and wakes the domains in which it runs (R469). A READ is served with what it has kept by
then. -/
def W.runStorage (w : W) : W :=
  W.each w.dev.storage (fun (x : Nat × StorageCmd) w => W.each x.2.todo (fun g w =>
    match (w.dev.queue x.1).out.find? fun c => c.seq = x.2.seq with
    | some c => w.advanceGranule x.1 c g
    | none => w) w) w.wakeBackground

/-- States in which the storage queues are served. -/
def Dev.storageServed (d : Dev) : Bool := (d.boot.phase = .run || d.boot.phase = .standby) && d.shed.mounted

/-- The device fetches the command at SUB_HEAD of queue `q` and accepts it (R379). -/
def W.storageFetch (q op : Nat) (e : StorageEntry) (w : W) : W :=
  let g := w.dev.queue q
  if !w.dev.storageServed || !w.dev.halter.isUp || !g.enable || g.resetting || g.subHead = g.subTail || decide (32 ≤ g.outstanding) then w
  else
    let index := g.subHead
    let w := w.queue q fun g => { g with subHead := (g.subHead + 1) % 64 }
    match w.dev.storageStatus q op e with
    | some st => w.storageDone q e.tag.toNat st index 0
    | none =>
      let gs := granulesOf e.shedAddr.toNat e.length.toNat
      let c : StorageCmd := { op := op, entry := e, index := index, herd := w.herd, seq := w.dev.shed.place w.herd q, started := false, todo := gs
                              left := if op = 1 then [] else gs, lost := 0, saved := [] }
      let c := { c with started := op = 3 && w.dev.mayStart q c }
      let w := w.queue q fun g => { g with out := g.out ++ [c] }
      (w.shed fun s => { s with nextSeq := s.nextSeq + 1 }).runStorage

/-- An outstanding command has reached its end (R382). -/
def W.storageEnd (q tag : Nat) (w : W) : W :=
  match (w.dev.queue q).out.find? fun c => c.entry.tag.toNat = tag with
  | none => w
  | some c =>
    if !c.todo.isEmpty || (c.op = 2 && !c.left.isEmpty) then w
    else
      let w := if c.op = 3 then w.discardDurable c else w
      let w := w.queue q fun g => { g with out := g.out.filter (·.seq ≠ c.seq) }
      let mine := granulesOf c.entry.shedAddr.toNat c.entry.length.toNat
      let w := if c.op = 1 then w else w.storageCmds fun x => if x.seq < c.seq then { x with left := x.left.filter fun g => !mine.contains g } else x
      (w.storageDone q tag (if 0 < c.lost then .dataCheck else .done) c.index c.lost).runStorage

/-- RESET of queue `q`: what has not started completes with QUEUE_RESET and counts as never accepted. -/
def W.queueReset (q : Nat) (w : W) : W :=
  let g := w.dev.queue q
  if g.resetting then w
  else
    let gone := g.out.filter fun c => !c.started
    let w := w.queue q fun g => { g with resetting := true, out := g.out.filter (·.started) }
    (W.each gone (fun c w => w.storageDone q c.entry.tag.toNat .queueReset c.index 0) w).runStorage

/-- No command of a queue in reset is outstanding any more. -/
def W.queueResetOver (q : Nat) (w : W) : W :=
  let g := w.dev.queue q
  if w.dev.boot.phase.collects && g.resetting && g.out.isEmpty && g.held.isEmpty then
    w.queue q fun g => { g with subHead := 0, subTail := 0, compHead := 0, compTail := 0, resetting := false, enable := false }
  else w

/-! ### Garbage collection (R367) -/

def W.collect (c : Nat) (w : W) : W :=
  let ch := w.dev.shed.chan c
  if c < w.dev.shedN && w.dev.shed.mounted && ch.victim.isNone && decide (ch.free c < 64) then
    match firstBlock (fun b => (w.dev.shed.valid b).length) (ch.blocks.filter (·.state = 2)) with
    | none => w
    | some b =>
      let gs := w.dev.shed.valid b
      ((w.programAll c gs).chan c fun ch => { ch with victim := some b.number }).wakeBackground
  else w

/-- An erase of the victim ends: the block is free, or retired. -/
def W.erased (c n : Nat) (ok : Bool) (w : W) : W :=
  if (w.dev.shed.chan c).victim = some n then
    let b := (w.dev.shed.chan c).block n
    if ok then w.chan c fun ch => { (ch.putBlock { b with state := 0, erases := b.erases + 1, granules := [] }) with victim := none }
    else (w.retireBlock c n).chan c fun ch => { ch with victim := none }
  else w

/-! ### Loss of power (R382) -/

/-- What was not on the medium may have taken effect or not, granule by granule: the newest effects that did not are undone. -/
def W.loseBuffer (w : W) : W :=
  let undo := fun (w : W) (g : Nat) =>
    let es := (w.dev.shed.buffer.filter (·.granule = g)).reverse
    (es.foldl (fun (acc : W × Bool) b =>
      if acc.2 then acc
      else
        let (n, w) := acc.1.fresh
        if Config.freeBool n then (w, true) else (w.pokes (memKey spShed 0 (g * 4096)) b.old, false)) (w, false)).1
  let w := (sortNat (w.dev.shed.buffer.map (·.granule))).foldl undo w
  w.shed fun s => { s with buffer := [], queues := [] }

/-- The NAND controller is at work. -/
def Dev.nandOn (d : Dev) : Bool := d.shed.mounted && (match d.boot.phase with | .run | .standby | .poweringDown => true | _ => false)

end Sys2Proof.Machine
end

