-- ==== Sys2Proof/Machine/Index.lean ====
section
/-! DEFINITION. Index objects: creation, updates and cuts, epochs, what an apply or a consolidation step leaves, generations and their
switches (R163 to R230, R433). -/

namespace Sys2Proof.Machine

open Host

/-! ### Descriptors (R168, R187, R188) -/

/-- Bytes of a full-vector record (R183). -/
def vecLength (fmt dim : Nat) : Nat := if fmt = fFP32 then 4 * dim else if fmt = fBF16 then 2 * dim else dim / 16 + dim

/-- Partition after the highest one: what a region indexed by partition extends to. -/
def IndexDesc.partEnd (d : IndexDesc) : Nat := maxNat (d.parts.map (· + 1))

/-- The descriptor's fields are within R168 and R188, and its regions within their tiers and on 64-byte boundaries (R167). -/
def indexDescOk (part : Part) (b : Bytes) : Bool :=
  let d := parseIndexDesc b
  let n := d.parts.length
  let inPc := fun (base bytes : Nat) => base % 64 = 0 && decide (base + bytes ≤ 2 ^ 31)
  let sp := fun (x : Nat) (l : List Nat) => l.contains x
  fld b 0 4 = 0x5844_4E49 && fld b 4 2 = 1 && (fld b 6 1 = 1 || fld b 6 1 = 2) && decide (d.metric ≤ 2) && fld b 0x1E 2 = 0
  && allZero (slice b 0xC0 64) && b.length = 256 && decide (0 < n) && decide (d.shard ≤ 126) && [fN8, fBF16, fFP32].contains d.vecFormat
  && decide (0 < d.partCap) && decide (2_000_000 ≤ d.period) && decide (d.period ≤ 80_000_000)
  && d.vecStride % 64 = 0 && decide (vecLength d.vecFormat d.dim ≤ d.vecStride) && decide (d.vecStride < vecLength d.vecFormat d.dim + 64)
  && inPc d.phdrBase 256 && inPc d.scanBase (d.partCap * d.z) && d.adjBase % 64 = 0 && d.vpoolBase % 64 = 0
  && d.vecBase % 64 = 0 && d.psgBase % 64 = 0
  && (d.vecSpace ≠ spShed || decide (d.vecBase + d.partEnd * d.partCap * d.vecStride ≤ 4096 * part.shedGranules))
  && (d.psgSpace ≠ spShed || decide (d.psgBase < 4096 * part.shedGranules)) && (d.cbSpace ≠ spShed || decide (d.cbBase < 4096 * part.shedGranules))
  && (d.vecSpace ≠ spBarn || decide (d.vecBase + d.partEnd * d.partCap * d.vecStride ≤ 2 ^ 41)) && (d.psgSpace ≠ spBarn || decide (d.psgBase < 2 ^ 41))
  && (if d.large then
        decide (1 ≤ d.ds) && decide (d.ds ≤ 32) && d.dim = 32 * d.ds && decide (d.cbHalf ≤ 1) && decide (d.partCap ≤ 2 ^ 24)
        && decide (d.partCap * n ≤ 2 ^ 33) && d.vecSpace = spShed && d.psgSpace = spShed && sp d.cbSpace [spStack, spBarn, spShed]
        && d.cbBase % 64 = 0 && part.hasBarn && decide (d.adjBase + d.partEnd * d.partCap * 192 ≤ 2 ^ 41)
        && decide (d.vpoolBase + d.partEnd * d.vrec * 192 ≤ 2 ^ 41)
      else
        decide (32 ≤ d.dim) && decide (d.dim ≤ 4096) && d.dim % 32 = 0 && d.ds = 0 && d.cbHalf = 0 && decide (d.partCap ≤ 2 ^ 21)
        && decide (d.partCap * n ≤ 1_000_000_000) && sp d.vecSpace [spStack, spBarn, spShed] && sp d.psgSpace [spBarn, spShed]
        && sp d.projSpace [spStack, spBarn] && d.projBase % 64 = 0 && inPc d.adjBase (d.partCap * 192) && inPc d.vpoolBase (d.vrec * 192))

/-- A SMALL index on a part without barn memory that asks for barn memory (R7, R9). -/
def IndexDesc.needsBarn (d : IndexDesc) : Bool := !d.large && (d.vecSpace = spBarn || d.psgSpace = spBarn || d.projSpace = spBarn)

/-- Stacks whose base die holds a partition. -/
def IndexDesc.stacks (d : IndexDesc) : List Nat := (List.range 8).filter fun s => bitsOf d.partMask (64 * s) 64 ≠ 0

/-- Two LARGE generations would keep different codebooks in one half of one codebook store (R178). -/
def codebooksMeet (a b : IndexDesc) : Bool :=
  a.large && b.large && a.cbHalf = b.cbHalf && (a.stacks.any b.stacks.contains) && !(a.cbSpace = b.cbSpace && a.cbBase = b.cbBase)

/-- Generations of an index that are bound or wait to be. -/
def Index.bound (x : Index) : List IndexDesc := x.desc :: x.old.toList ++ (x.pendingGen.map (·.desc)).toList

/-- Generations that steps bind, though their index be deleted meanwhile. -/
def Dev.boundByStep (d : Dev) : List IndexDesc := (d.steps.map fun s => s.bound.filterMap (·.index)).flatten

def Dev.codebookTaken (d : Dev) (new : IndexDesc) : Bool := (d.indexes.map Index.bound).flatten.any (codebooksMeet new) || d.boundByStep.any (codebooksMeet new)

/-! ### Partition headers and states (R169, R171) -/

def W.partCount (d : IndexDesc) (b : Nat) (w : W) : Nat := w.peekN (d.phdrKey b) 4

/-- Entry points of a partition. -/
def W.entries (d : IndexDesc) (b : Nat) (w : W) : List Nat := entryPoints 0 (w.peeks (d.phdrKey b) 64)

def IndexDesc.stateKey (d : IndexDesc) (b s : Nat) : Nat := d.scanKey b s + if d.large then 40 else 136

def W.insEpoch (d : IndexDesc) (b s : Nat) (w : W) : Nat := w.peekN (d.stateKey b s) 4
def W.delEpoch (d : IndexDesc) (b s : Nat) (w : W) : Nat := w.peekN (d.stateKey b s + 4) 4
def W.nodeAt (d : IndexDesc) (e b s : Nat) (w : W) : NodeState := nodeState (w.insEpoch d b s) (w.delEpoch d b s) e

/-- Bytes written at a key, as the device writes them. -/
def W.put (k : Nat) (b : Bytes) (w : W) : W := w.store ((List.range b.length).map fun i => (k + i, b.getD i 0))

/-- Bytes written at an address of a space. -/
def W.putAt (sp a : Nat) (b : Bytes) (w : W) : W := w.store (w.dev.spaceCells sp a b)

/-- Every slot at or above COUNT holds 0xFFFF_FFFF in both fields of its STATE word, and an empty partition has ENTRIES 1 and ENTRY[0] 0
(R171, R220; log entry 17). -/
def W.prepare (d : IndexDesc) (w : W) : W :=
  W.each d.parts (fun b w =>
    let n := w.partCount d b
    let w := W.each (List.range' n (d.partCap - n)) (fun s w => w.pokes (d.stateKey b s) (List.replicate 8 255)) w
    if n = 0 then (w.put (d.phdrKey b + 20) (leBytes 1 1)).put (d.phdrKey b + 32) (zeros 4) else w) w

/-- Deletes of a generation in stamp order, as its STATE words show them. -/
def W.tombs (d : IndexDesc) (w : W) : List (Nat × Nat × Nat) :=
  sortBy (fun (a b : Nat × Nat × Nat) => decide (a.2.2 < b.2.2))
    (d.parts.map fun b => (List.range (w.partCount d b)).filterMap fun s =>
      if w.delEpoch d b s = noEpoch then none else some (b, s, w.delEpoch d b s)).flatten

/-! ### INDEX_CREATE (R217, R433) -/

structure CreateBlock where
  paddock : Nat
  applyFamily : Nat
  consFamily : Nat
  insCap : Nat
  delCap : Nat
  consSlots : Nat
  psgAppend : Nat
  psgLimit : Nat
deriving DecidableEq, Repr

def parseCreate (b : Bytes) : CreateBlock :=
  { paddock := fld b 0 1, applyFamily := fld b 4 4, consFamily := fld b 8 4, insCap := fld b 12 2, delCap := fld b 14 2, consSlots := fld b 16 4
    psgAppend := fld b 24 8, psgLimit := fld b 32 8 }

/-- R217, with the append point a multiple of 4 not beyond its limit (R174). -/
def createOk (d : IndexDesc) (b : Bytes) : Bool :=
  let c := parseCreate b
  b.length = 64 && allZero (slice b 1 3) && allZero (slice b 20 4) && allZero (slice b 40 24) && decide (1 ≤ c.insCap) && decide (c.insCap ≤ 64)
  && decide (1 ≤ c.delCap) && decide (c.delCap ≤ 1024) && decide (1 ≤ c.consSlots) && decide (2 * (32 * c.insCap + c.consSlots) ≤ d.vrec)
  && c.psgAppend % 4 = 0 && decide (c.psgAppend ≤ c.psgLimit) && decide (c.psgLimit ≤ 2 ^ 48)

def Index.new (d : IndexDesc) (c : CreateBlock) : Index :=
  { desc := d, old := none, paddock := c.paddock, applyFamily := c.applyFamily, consFamily := c.consFamily, insCap := c.insCap, delCap := c.delCap
    consSlots := c.consSlots, psgAppend := c.psgAppend, psgLimit := c.psgLimit, nextPart := d.parts.headD 0, epoch := 0, begun := false, stamped := 0
    openCut := [], closed := [], closedCut := 0, taken := 0, failedCut := none, updates := [], tombLog := [], pool := [], reclaimed := [], reclaimedWait := [], gone := []
    consolidation := none, pendingGen := none, creating := none, lost := false }

/-- The status that refuses a creation. -/
def Dev.createStatus (d : Dev) (accepted : Nat) (payload : Bytes) : Option Status :=
  let desc := payload.take 256
  let blk := payload.drop 256
  let x := parseIndexDesc desc
  if !indexDescOk d.boot.part desc || !createOk x blk || x.created % 2048 ≠ 0 || decide (x.created < accepted + 4096) || (d.index? x.indexId).isSome
      || !d.pinnable (x.stretches (parseCreate blk).psgLimit) then some .indexFormat
  else if x.needsBarn && !d.boot.part.hasBarn then some .unitAbsent
  else if (d.pad? (parseCreate blk).paddock).isNone || !d.holdsBays (parseCreate blk).paddock x.parts then some .notFound
  else if d.codebookTaken x then some .indexLive
  else none

/-- An index keeps its command outstanding while its codebook is copied (R178). -/
def doIndexCreate (w : W) (r : Nat) (o : Outstanding) : W :=
  let b := w.payload o
  match w.dev.createStatus o.herd b with
  | some st => w.complete r o.index st
  | none =>
    let d := parseIndexDesc (b.take 256)
    let w := w.prepare d
    let x := { Index.new d (parseCreate (b.drop 256)) with creating := if d.large then some (r, o.index) else none, tombLog := w.tombs d }
    let w := { w with dev := { w.dev with indexes := w.dev.indexes ++ [x] } }
    if d.large then w else w.complete r o.index .done

/-- Copies the master codebook of a generation into half CB_HALF of the codebook stores of its stacks. -/
def W.copyCodebook (d : IndexDesc) (w : W) : W :=
  let cb := w.spacePeeks d.cbSpace d.cbBase (16384 * d.ds)
  W.each d.stacks (fun s w => w.put (memKey spCodebook s (d.cbHalf * 0x8_0000)) cb) w

def W.codebookDone (id : Nat) (w : W) : W :=
  match w.dev.index? id with
  | none => w
  | some x =>
    match x.creating, x.pendingGen with
    | some (r, i), _ => ((w.copyCodebook x.desc).index id fun x => { x with creating := none }).complete r i .done
    | none, some g => if g.copied then w else (w.copyCodebook g.desc).index id fun x => { x with pendingGen := some { g with copied := true } }
    | none, none => w

/-! ### Acceptance of updates (R209 to R214) -/

abbrev uNotFound := 1
abbrev uDeleted := 2
abbrev uStale := 3
abbrev uPartFull := 4
abbrev uIndexFull := 5
abbrev uUpdateFull := 6
abbrev uPassageFull := 7
abbrev uBadRecord := 8

def updateResult (code part vis id : Nat) : Bytes := leBytes 1 code ++ zeros 1 ++ leBytes 2 part ++ leBytes 4 vis ++ leBytes 5 id ++ zeros 3

/-- LENGTH that an insert record must have. -/
def insertLength (d : IndexDesc) (tokens : Nat) : Nat := alignUp (64 + d.vecStride + 4 * tokens) 16

/-- Bytes that a record takes in the sequence. A record whose LENGTH cannot place the next one ends it; one of unknown KIND takes 16 bytes
(log entry 18). -/
def recordSize (b : Bytes) : Nat :=
  if fld b 0 1 = 1 then (let n := fld b 4 4; if decide (16 ≤ n) && n % 16 = 0 && decide (n ≤ b.length) then n else max 16 b.length) else 16

def insertOk (d : IndexDesc) (b : Bytes) : Bool :=
  let ref := (fld b 1 1).testBit 0
  let tokens := fld b 28 2
  decide (fld b 1 1 ≤ 1) && allZero (slice b 30 34) && fld b 4 4 = insertLength d tokens && decide (insertLength d tokens ≤ b.length)
  && (if ref then tokens = 0 else fld b 16 8 = 0) && (fld b 2 2 = 0xFFFF || (decide (fld b 2 2 < 512) && d.partMask.testBit (fld b 2 2)))

def deleteOk (b : Bytes) : Bool := decide (16 ≤ b.length) && allZero (slice b 1 3) && allZero (slice b 13 3)

/-- The lowest free slot of a partition: a reclaimed one, else COUNT. -/
def W.freeSlot (x : Index) (b : Nat) (w : W) : Option Nat :=
  match minNat? ((x.reclaimed.filter (·.1 = b)).map (·.2)) with
  | some s => some s
  | none => let n := w.partCount x.desc b; if n < x.desc.partCap then some n else none

/-- Herd count of boundary `k` (R69). -/
def IndexDesc.boundary (d : IndexDesc) (k : Nat) : Nat := nextLaunchPoint (d.created + k * d.period)

/-- Cut of a record accepted at herd count `t`: the first `k` with `t` below L_k (R215). -/
def IndexDesc.cutOf (d : IndexDesc) (t : Nat) : Nat :=
  let k := (t - d.created) / max 1 d.period
  if d.boundary k ≤ t then k + 1 else k

/-- The cut of a record accepted at `t` has room for one more of its kind in partition `b`. -/
def Index.room (x : Index) (t : Nat) (insert : Bool) (b : Nat) : Bool :=
  let cut := (x.openCut ++ x.closed).filter fun u => u.insert = insert && u.part = b && x.desc.cutOf u.accepted = x.desc.cutOf t
  decide (cut.length < if insert then x.insCap else x.delCap)

/-- The record waits in its cut: the open one, the one after it, or, for a command that a FENCE has held back, one that is closed already
(log entry 41). -/
def Index.enter (x : Index) (u : UpdateRec) : Index :=
  if x.begun && decide (x.desc.cutOf u.accepted ≤ x.epoch) then { x with closed := x.closed ++ [u] } else { x with openCut := x.openCut ++ [u] }

/-- The first partition at or after NEXT_PART with a free slot and room, and the partition after it. -/
def W.choosePart (x : Index) (t : Nat) (w : W) : Option (Nat × Nat) :=
  let ps := x.desc.parts
  let turn := ps.filter (x.nextPart ≤ ·) ++ ps.filter (· < x.nextPart)
  (turn.find? fun b => (w.freeSlot x b).isSome && x.room t true b).map fun b => (b, ((ps.filter (b < ·)) ++ ps).headD b)

/-- An insert record, tested and handled: its result and, if it is accepted, the record that waits for its stamp. -/
def W.acceptInsert (x : Index) (r i pos t : Nat) (b : Bytes) (w : W) : Bytes × Option UpdateRec × W :=
  let d := x.desc
  let refuse := fun (code part : Nat) => (updateResult code part noEpoch 0, (none : Option UpdateRec), w)
  if !insertOk d b then refuse uBadRecord 0xFFFF
  else
    let named := fld b 2 2
    let chosen := if named = 0xFFFF then w.choosePart x t else some (named, x.nextPart)
    match chosen with
    | none => refuse uIndexFull 0xFFFF
    | some (p, next) =>
      let tokens := fld b 28 2
      let ref := (fld b 1 1).testBit 0
      match w.freeSlot x p with
      | none => refuse uPartFull p
      | some s =>
        if !x.room t true p then refuse uUpdateFull p
        else if !ref && decide (x.psgLimit < x.psgAppend + 4 * tokens) then refuse uPassageFull p
        else
          let passage := if ref then fld b 16 8 else tokens * 2 ^ 48 + x.psgAppend
          let n := w.partCount d p
          let w := if s = n && !x.reclaimed.contains (p, s) then w.put (d.phdrKey p) (leBytes 4 (n + 1)) else w
          let w := w.putAt d.vecSpace (d.vecAddr p s) (slice b 64 d.vecStride)
          let w := if tokens = 0 then w else w.putAt d.psgSpace (d.psgBase + x.psgAppend) (slice b (64 + d.vecStride) (4 * tokens))
          let u : UpdateRec :=
            { insert := true, part := p, slot := s, attr := fld b 8 8, passage := passage, norm := fld b 24 4, ring := r, index := i, pos := pos, accepted := t }
          let w := w.index d.indexId fun x => { x.enter u with
            nextPart := next, psgAppend := if ref then x.psgAppend else x.psgAppend + 4 * tokens
            reclaimed := x.reclaimed.filter (· ≠ (p, s)) }
          (updateResult 0 p noEpoch (nodeId d.shard p s), some u, w)

/-- A delete record, tested in the order NOT_FOUND, STALE_GENERATION, NOT_FOUND, ALREADY_DELETED, UPDATE_FULL. -/
def W.acceptDelete (x : Index) (r i pos t : Nat) (b : Bytes) (w : W) : Bytes × Option UpdateRec × W :=
  let d := x.desc
  let id := fld b 8 5
  let p := idPart id
  let s := idSlot id
  let gen := fld b 4 4
  let refuse := fun (code part : Nat) => (updateResult code part noEpoch id, (none : Option UpdateRec), w)
  if !deleteOk b then refuse uBadRecord 0xFFFF
  else if idShard id ≠ d.shard || !d.partMask.testBit p || decide (d.partCap ≤ s) then refuse uNotFound p
  else if !(gen = d.generation || gen + 1 = d.generation) || (gen + 1 = d.generation && x.gone.contains (p, s)) then refuse uStale p
  else if w.insEpoch d p s = noEpoch then refuse uNotFound p
  else if w.delEpoch d p s ≠ noEpoch || (x.openCut ++ x.closed).any (fun u => !u.insert && u.part = p && u.slot = s) then refuse uDeleted p
  else if !x.room t false p then refuse uUpdateFull p
  else
    let u : UpdateRec := { insert := false, part := p, slot := s, attr := 0, passage := 0, norm := 0, ring := r, index := i, pos := pos, accepted := t }
    (updateResult 0 p noEpoch id, some u, w.index d.indexId fun x => x.enter u)

/-- Handles the records of a payload in order: results, and how many wait for their stamp. -/
def W.acceptRecords (id r i t : Nat) : Nat → Nat → Bytes → W → Bytes × Nat × W
  | 0, _, _, w => ([], 0, w)
  | n + 1, pos, b, w =>
    if b.isEmpty then ([], 0, w)
    else match w.dev.index? id with
      | none => ([], 0, w)
      | some x =>
        let (res, u, w) :=
          if fld b 0 1 = 1 then w.acceptInsert x r i pos t b
          else if fld b 0 1 = 2 then w.acceptDelete x r i pos t b
          else (updateResult uBadRecord 0xFFFF noEpoch 0, none, w)
        let (more, left, w) := W.acceptRecords id r i t n (pos + 1) (b.drop (recordSize b)) w
        (res ++ more, b2n u.isSome + left, w)

/-- The payload carries an insert record. -/
def carriesInsert : Nat → Bytes → Bool
  | 0, _ => false
  | n + 1, b => if b.isEmpty then false else fld b 0 1 = 1 || carriesInsert n (b.drop (recordSize b))

def doIndexUpdate (w : W) (r : Nat) (o : Outstanding) : W :=
  let id := o.field 40 8
  match w.dev.index? id with
  | none => w.complete r o.index .notFound
  | some x =>
    let b := w.payload o
    if w.dev.shed.readOnly && (x.desc.vecSpace = spShed || x.desc.psgSpace = spShed) && carriesInsert b.length b then w.complete r o.index .readOnly
    else
      let (res, left, w) := w.acceptRecords id r o.index o.herd b.length 0 b
      if left = 0 then w.complete r o.index .done 0 res
      else w.index id fun x => { x with updates := x.updates ++ [{ ring := r, index := o.index, left := left, results := res }] }

/-- A record has its final result: VIS_EPOCH, or NOT_FOUND when the index goes (R225). The command completes with its last one. -/
def W.recordDone (id : Nat) (code vis : Nat) (u : UpdateRec) (w : W) : W :=
  let put := fun (c : UpdateCmd) =>
    if c.ring = u.ring && c.index = u.index then
      let o := 16 * u.pos
      { c with left := c.left - 1
               results := c.results.take o ++ leBytes 1 code ++ (c.results.drop (o + 1)).take 3 ++ leBytes 4 vis ++ c.results.drop (o + 8) }
    else c
  let w := w.index id fun x => { x with updates := x.updates.map put }
  match (w.dev.index? id).bind fun x => x.updates.find? fun c => c.ring = u.ring && c.index = u.index && c.left = 0 with
  | some c => (w.index id fun x => { x with updates := x.updates.filter (· ≠ c) }).complete c.ring c.index .done 0 c.results
  | none => w

/-! ### Generations and their release (R178, R185, R228, R230) -/

def Dev.indexBound (d : Dev) (id gen : Nat) : Bool := d.steps.any fun s => s.bound.any fun b => b.kind = 1 && b.ident = id && b.version = gen

/-- The generation before the current one is released when no step is bound to it; its reclaimed slots are free then (R229). -/
def W.releaseOld (id : Nat) (w : W) : W :=
  match w.dev.index? id with
  | none => w
  | some x => match x.old with
    | none => w
    | some g => if w.dev.indexBound id g.generation then w
      else w.index id fun x => { x with old := none, reclaimed := x.reclaimed ++ x.reclaimedWait, reclaimedWait := [] }

def W.releaseOlds (w : W) : W := W.each (w.dev.indexes.map (·.desc.indexId)) W.releaseOld w

/-- An INDEX event: 0 GENERATION, 1 INDEX_LOST (R423). -/
def W.indexEvent (x : Index) (state : Nat) (w : W) : W := w.event 4 (leBytes 8 x.desc.indexId ++ leBytes 1 state ++ leBytes 4 x.desc.generation)

/-- The index enters INDEX_LOST (R342, R446). -/
def W.loseIndex (id : Nat) (w : W) : W :=
  match w.dev.index? id with
  | some x => if x.lost then w else (w.index id fun x => { x with lost := true }).indexEvent x 1
  | none => w

/-- Makes generation `d` current; the one before stays while a step is bound to it. -/
def W.switchIndex (id : Nat) (d : IndexDesc) (w : W) : W :=
  let w := w.index id fun x => { x with old := some x.desc, desc := d }
  let w := match w.dev.index? id with | some x => w.indexEvent x 0 | none => w
  w.releaseOld id

/-- Descriptor of an INDEX_GENERATION: what generations share is kept and GENERATION is one higher (R168, R185). -/
def Index.generationOk (x : Index) (d : IndexDesc) : Bool :=
  let c := x.desc
  d.shard = c.shard && d.large = c.large && d.metric = c.metric && d.dim = c.dim && d.period = c.period && d.created = c.created
  && d.generation = c.generation + 1 && decide (2 * (32 * x.insCap + x.consSlots) ≤ d.vrec)

/-- INDEX_GENERATION. A second one for an index for which one already waits is INDEX_FORMAT (DESIGN CHOICE, log entry 146). -/
def doIndexGeneration (w : W) (r : Nat) (o : Outstanding) : W :=
  let b := w.payload o
  let d := parseIndexDesc b
  match w.dev.index? d.indexId with
  | none => w.complete r o.index .indexFormat
  | some x =>
    if !indexDescOk w.dev.boot.part b || !x.generationOk d || x.pendingGen.isSome || !w.dev.pinnable (d.stretches x.psgLimit) then w.complete r o.index .indexFormat
    else if d.needsBarn && !w.dev.boot.part.hasBarn then w.complete r o.index .unitAbsent
    else if w.dev.codebookTaken d then w.complete r o.index .indexLive
    else w.index d.indexId fun x => { x with pendingGen := some { ring := r, index := o.index, desc := d, baseEpoch := o.field 36 4, copied := !d.large } }

/-- The three conditions of R230. COUNT of the current generation at the base epoch is its COUNT now: while the first two conditions hold
no slot has been allocated since. -/
def W.generationFits (x : Index) (g : PendingGen) (w : W) : Bool :=
  decide (x.stamped ≤ g.baseEpoch) && x.openCut.isEmpty && x.closed.isEmpty
  && x.desc.parts.all fun b => decide (w.partCount x.desc b ≤ w.partCount g.desc b)

/-- At a boundary a host-built generation that is due becomes current, or is stale. It waits for its codebook, for the release of an older
generation and for a consolidation pass (log entry 19). -/
def W.hostGeneration (id : Nat) (w : W) : W :=
  match w.dev.index? id with
  | none => w
  | some x => match x.pendingGen with
    | none => w
    | some g =>
      if !g.copied || x.old.isSome || x.consolidation.isSome then w
      else
        let w := w.index id fun x => { x with pendingGen := none }
        if !x.generationOk g.desc || !w.generationFits x g then w.complete g.ring g.index .generationStale
        else
          let w := (w.prepare g.desc).switchIndex id g.desc
          let tl := w.tombs g.desc
          let samePool := g.desc.vpoolBase = x.desc.vpoolBase
          let w := w.index id fun x => { x with tombLog := tl, lost := false, reclaimed := [], reclaimedWait := [], gone := []
                                                pool := if samePool then x.pool else [] }
          w.complete g.ring g.index .done g.desc.generation

/-! ### Consolidation (R226 to R229) -/

def doIndexConsolidate (w : W) (r : Nat) (o : Outstanding) : W :=
  let id := o.field 40 8
  match w.dev.index? id with
  | none => w.complete r o.index .notFound
  | some x =>
    if x.consolidation.isSome || x.old.isSome then w.complete r o.index .indexBusy
    else w.index id fun x => { x with consolidation := some { ring := r, index := o.index, fixed := false, limits := [], eD := [], next := 0, finish := none, ran := none } }

/-- D of a partition for a given E_D: its deletes up to that epoch that are no entry points. -/
def Index.setD (x : Index) (entries : List Nat) (b eD : Nat) : List Nat :=
  (x.tombLog.filter fun t => t.1 = b && decide (t.2.2 ≤ eD) && !entries.contains t.2.1).map (·.2.1)

/-- The largest E_D at or below E_c for which D stays within 8,192 nodes. D grows with E_D at stamped epochs only. -/
def Index.chooseED (x : Index) (entries : List Nat) (b eC : Nat) : Nat :=
  let steps := sortNat ((x.tombLog.filter fun t => t.1 = b && decide (t.2.2 ≤ eC)).map (·.2.2))
  match steps.find? fun e => decide (8192 < (x.setD entries b e).length) with
  | some e => e - 1
  | none => eC

/-- The pass's first step fixes D and the limit N of each partition. -/
def W.fixPass (id e : Nat) (w : W) : W :=
  match w.dev.index? id with
  | none => w
  | some x => match x.consolidation with
    | some c =>
      if c.fixed then w
      else
        let limits := x.desc.parts.foldl (fun m b => nput b (w.partCount x.desc b) m) []
        let eD := x.desc.parts.foldl (fun m b => nput b (x.chooseED (w.entries x.desc b) b e) m) []
        w.index id fun x => { x with consolidation := some { c with fixed := true, limits := limits, eD := eD } }
    | none => w

/-- At the boundary of a finished pass the generation it has made is current and D is reclaimed. -/
def W.consolidated (id : Nat) (w : W) : W :=
  match w.dev.index? id with
  | none => w
  | some x => match x.consolidation with
    | none => w
    | some c =>
      if (match c.finish with | some f => decide (f ≤ x.epoch) | none => false) then
        let dead := (x.desc.parts.map fun b => (x.setD (w.entries x.desc b) b (nget c.eD b)).map fun s => (b, s)).flatten
        let w := w.index id fun x => { x with
          consolidation := none, gone := dead, reclaimedWait := x.reclaimedWait ++ dead
          tombLog := x.tombLog.filter fun t => !dead.contains (t.1, t.2.1) }
        let w := w.switchIndex id { x.desc with generation := x.desc.generation + 1 }
        w.complete c.ring c.index .done (x.desc.generation + 1)
      else w

/-! ### Epoch boundaries (R69, R215) -/

/-- Number of the next boundary. -/
def Index.nextEpoch (x : Index) : Nat := if x.begun then x.epoch + 1 else 0

/-- Boundary `k` closes the cuts up to `k`, whose records were accepted before it. -/
def Index.closeCuts (k : Nat) (x : Index) : Index :=
  { x with
    epoch := k, begun := true, closed := x.closed ++ x.openCut.filter fun u => decide (x.desc.cutOf u.accepted ≤ k)
    openCut := x.openCut.filter fun u => decide (k < x.desc.cutOf u.accepted), closedCut := k }

/-- Boundary `k` of an index passes: its cut closes, and generations that are due become current. -/
def W.passEpoch (id k : Nat) (w : W) : W := ((w.index id (Index.closeCuts k)).consolidated id).hostGeneration id

def W.epochBoundary (h id : Nat) (w : W) : W :=
  match w.dev.index? id with
  | none => w
  | some x => if h = x.desc.boundary x.nextEpoch then w.passEpoch id x.nextEpoch else w

/-- At a launch point every boundary that has come passes before anything launches: a launch at the boundary binds the new epoch (R69). -/
def W.passEpochs (h : Nat) (w : W) : W :=
  W.each w.dev.indexes (fun x w =>
    let k := (h - x.desc.created) / max 1 x.desc.period
    if decide (x.desc.created ≤ h) && decide (x.nextEpoch ≤ k) then w.passEpoch x.desc.indexId k else w) w

/-! ### INDEX_DELETE (R225) -/

def doIndexDelete (w : W) (r : Nat) (o : Outstanding) : W :=
  let id := o.field 40 8
  match w.dev.index? id with
  | none => w.complete r o.index .notFound
  | some x =>
    let w := W.each (x.closed ++ x.openCut) (fun u w => w.recordDone id uNotFound noEpoch u) w
    let w := match x.consolidation with | some c => w.complete c.ring c.index .notFound | none => w
    let w := match x.pendingGen with | some g => w.complete g.ring g.index .generationStale | none => w
    let w := match x.creating with | some (r, i) => w.complete r i .notFound | none => w
    let w := { w with dev := { w.dev with indexes := w.dev.indexes.filter fun y => y.desc.indexId ≠ id } }
    w.complete r o.index .done

/-! ### The apply step (R218 to R223) -/

/-- Records that an apply step takes of the closed cuts, per partition up to INS_CAP and DEL_CAP. -/
def Index.takes (x : Index) : List UpdateRec :=
  (x.closed.take x.taken).foldl (fun acc u =>
    if (acc.filter fun y => y.insert = u.insert && y.part = u.part).length < (if u.insert then x.insCap else x.delCap) then acc ++ [u] else acc) []

/-- At the launch of an apply or consolidation step the pool records of epochs up to `e` are free. -/
def W.freePool (id e : Nat) (w : W) : W := w.index id fun x => { x with pool := x.pool.filter fun p => decide (e < p.2.2) }

/-- The cut whose apply step is next: the first closed one with records; after a failure the next one, ahead of whose records those of the
failed cut are taken (R223). -/
def Index.nextCut (x : Index) : Nat :=
  let cuts := x.closed.map fun u => x.desc.cutOf u.accepted
  match x.failedCut with
  | some f => (minNat? (cuts.filter (f < ·))).getD (f + 1)
  | none => (minNat? cuts).getD 0

/-- The launch of an apply step fixes what it takes: the closed records up to its cut. -/
def W.startApply (id e : Nat) (w : W) : W :=
  (w.freePool id e).index id fun x =>
    let mine := x.closed.filter fun u => decide (x.desc.cutOf u.accepted ≤ x.nextCut)
    { x with closed := mine ++ x.closed.filter (fun u => decide (x.nextCut < x.desc.cutOf u.accepted)), taken := mine.length, failedCut := none }

/-- The launch of a consolidation step that binds epoch `e`. -/
def W.startConsolidation (id e : Nat) (w : W) : W :=
  ((w.freePool id e).fixPass id e).index id fun x => { x with consolidation := x.consolidation.map fun c => { c with ran := some e } }

/-- Elements of the stored vector of a slot as x′ in BF16, held as FP32 bits (R219). -/
def W.encodeVector (d : IndexDesc) (u : UpdateRec) (w : W) : List Nat :=
  let raw := vectorElems d.vecFormat d.dim (w.spacePeeks d.vecSpace (d.vecAddr u.part u.slot) d.vecStride)
  (unitVector (d.metric = 2) u.norm raw).map fun v => bf16To32 (bf16Of32 .nearest 0 v).1

def W.centroid (d : IndexDesc) (stack j c e : Nat) (w : W) : Nat :=
  bf16To32 (w.peekN (memKey spCodebook stack (d.cbHalf * 0x8_0000 + ((j * 256 + c) * d.ds + e) * 2)) 2)

def W.projection (d : IndexDesc) (i e : Nat) (w : W) : Nat :=
  bf16To32 (ofLe (w.spacePeeks d.projSpace (d.projBase + (i * d.dim + e) * 2) 2))

/-- CODE or SKETCH of a new node, and the distance that its own table or sketch gives to a code. -/
def W.encodeNode (d : IndexDesc) (u : UpdateRec) (w : W) : Bytes × (Bytes → Nat) :=
  let x := w.encodeVector d u
  if d.large then
    let stack := u.part / 64
    let cb := w.peeks (memKey spCodebook stack (d.cbHalf * 0x8_0000)) (16384 * d.ds)
    let query := (x.map fun v => leBytes 2 (v / 65536)).flatten
    -- the metric of the index enters at table build (R177)
    let table := (distanceTable (d.metric ≠ 0) d.ds query cb).1
    (codeOf d.ds (fun j c e => w.centroid d stack j c e) x, tableCode table)
  else
    let sk := sketchOf d.dim (fun i e => w.projection d i e) x
    (sk, hamming sk)

/-- A traversal of partition `b` bound to epoch `e`, without a filter, as a whole: the result queue (R195 to R197, R220). -/
structure Walk where
  d : IndexDesc
  b : Nat
  e : Nat
  hops : Nat
  f : Nat
  kBeam : Nat
  lag : Nat
  score : Bytes → Nat

def Walk.adjacency (x : Walk) (w : W) (s : Nat) : Option (List Nat) :=
  match chainRec x.e (parseAdj (w.peeks (x.d.adjKey x.b s) 192)) fun p => parseAdj (w.peeks (x.d.poolKey x.b p) 192) with
  | some r => r.valid
  | none => some []

/-- State between hops: the traversal, its queues, and the nodes selected for later hops. -/
structure Walking where
  t : Trav
  q : Beams
  sel : List (Nat × Nat)

def Walk.hop (x : Walk) (w : W) (h : Nat) (s : Walking) : Walking :=
  let t := if h = 0 then s.t.start.seed (w.entries x.d x.b) else s.t
  let t := match s.sel.find? (·.1 = h) with
    | some y => t.expand x.d.shard x.b x.d.partCap (x.adjacency w y.2)
    | none => t
  let (slots, t) := t.take (if h = 0 then x.f - 1 else x.f)
  let q := slots.foldl (fun (q : Beams) sl =>
    let r := parseScan x.d.large (w.peeks (x.d.scanKey x.b sl) x.d.z)
    t.score (nodeId x.d.shard x.b sl) (x.score r.code) (nodeState r.ins r.del x.e) true q) s.q
  if h + x.lag + 1 ≤ x.hops then
    match selectBeam q.beam with
    | some (c, beam) => { t := t, q := { q with beam := beam }, sel := (h + x.lag, idSlot c.id) :: s.sel }
    | none => { t := t, q := q, sel := s.sel }
  else { t := t, q := q, sel := s.sel }

def Walk.run (x : Walk) (w : W) : List Cand :=
  let n := w.peekN (x.d.phdrKey x.b + 20) 1
  if n = 0 || decide (8 < n) then []
  else
    let t0 : Trav := parseTrav [] []
    let s0 : Walking := { t := { t0 with kBeam := x.kBeam, kRes := 32, f := x.f, lag := x.lag }
                          q := { beam := CandQueue.mk x.kBeam 0 [], res := CandQueue.mk 32 0 [] }, sel := [] }
    ((List.range x.hops).foldl (fun s h => x.hop w h s) s0).q.res.entries

/-- H, F, K_BEAM and LAG of an apply plan on a bay: the REPEAT that holds its first BAY_FETCH, and the header of the traversal block that
the word names (log entry 20). None where there is no such word or the header breaks R190. -/
def applyWalk (p : Plan) (d : IndexDesc) (b e : Nat) (score : Bytes → Nat) (w : W) : Option Walk :=
  match findIdxFrom (fun (x : PWord) => x.cls = cBAYFETCH) 0 p.words with
  | none => none
  | some (i, word) => match p.desc? word.dst with
    | none => none
    | some y =>
      let t := parseTrav (w.peeks (bayKey b y.base) 64) []
      if { t with kRes := 32, mode := 0, entryUse := 0 }.ok d.large then
        some { d := d, b := b, e := e, hops := (p.repeatOf i).1, f := t.f, kBeam := t.kBeam, lag := t.lag, score := score }
      else none

/-- Candidates of both sources in order, each id once, 32 at most (R220). `earlier` are the inserts placed before in the partition. -/
def neighbours (found : List Cand) (earlier : List (Nat × Bytes)) (score : Bytes → Nat) : List Nat :=
  let all := found.map (fun c => (c.code, c.id)) ++ earlier.map fun (x : Nat × Bytes) => (score x.2, x.1)
  let sorted := sortBy (fun (a b : Nat × Nat) => decide (a.1 < b.1) || (a.1 = b.1 && decide (a.2 < b.2))) all
  ((sorted.map (·.2)).eraseDups).take 32

/-- Writes a new main record of slot `s` stamped `e`, keeping the chain (R222). -/
def W.writeAdj (id : Nat) (d : IndexDesc) (b s e : Nat) (edges : List Nat) (w : W) : W :=
  let main := parseAdj (w.peeks (d.adjKey b s) 192)
  if main.epoch = e then w.put (d.adjKey b s) ({ main with edges := edges, degree := edges.length, pool := false }).bytes
  else
    let used := match w.dev.index? id with
      | some x => (x.pool.filter fun (y : Nat × Nat × Nat) => y.1 = b).map fun (y : Nat × Nat × Nat) => y.2.1
      | none => []
    let p := ((List.range (used.length + 1)).find? fun n => !used.contains n).getD 0
    let w := w.put (d.poolKey b p) ({ main with prev := noEpoch, pool := true }).bytes
    let w := w.put (d.adjKey b s) (AdjRec.mk edges e p edges.length false).bytes
    w.index id fun x => { x with pool := x.pool ++ [(b, p, e)] }

/-- The reverse edge that a neighbour `v`, at position `i` of the new node's list, takes (R221). -/
def W.reverseEdge (id : Nat) (d : IndexDesc) (b e new : Nat) (i v : Nat) (w : W) : W :=
  match (parseAdj (w.peeks (d.adjKey b (idSlot v)) 192)).valid with
  | none => w
  | some es =>
    if es.contains new then w
    else if es.length < 32 then w.writeAdj id d b (idSlot v) e (es ++ [new])
    else if i ≤ 7 then w.writeAdj id d b (idSlot v) e (es.take 31 ++ [new])
    else w

/-- The first writes of an insert of an apply step bound to `e`: its adjacency record and the first `n` reverse edges. -/
def W.insertEdges (id : Nat) (p : Plan) (d : IndexDesc) (e : Nat) (earlier : List (Nat × Bytes)) (u : UpdateRec) (n : Nat) (w : W) : W :=
  let score := (w.encodeNode d u).2
  let found := match applyWalk p d u.part e score w with | some x => x.run w | none => []
  let edges := neighbours found earlier score
  let new := nodeId d.shard u.part u.slot
  let w := w.put (d.adjKey u.part u.slot) (AdjRec.mk edges (e + 1) noEpoch edges.length false).bytes
  W.each (List.range (min n edges.length)) (fun i w => w.reverseEdge id d u.part (e + 1) new i (edges.getD i 0)) w

/-- One insert of an apply step bound to `e`: code, neighbours, its record, the reverse edges, and its scan record last (R219). -/
def W.applyInsert (id : Nat) (p : Plan) (d : IndexDesc) (e : Nat) (earlier : List (Nat × Bytes)) (u : UpdateRec) (w : W) : List (Nat × Bytes) × W :=
  let code := (w.encodeNode d u).1
  let new := nodeId d.shard u.part u.slot
  let w := w.insertEdges id p d e earlier u 32
  let w := w.put (d.scanKey u.part u.slot)
    (ScanRec.bytes d.large { code := code, attr := u.attr, ins := e + 1, del := noEpoch, passage := u.passage, norm := u.norm })
  (earlier ++ [(new, code)], w)

/-- LIVE, TOMB, POOL_USED and STAMP of a partition header (R219). -/
def W.stampHeader (id : Nat) (d : IndexDesc) (b e : Nat) (w : W) : W :=
  match w.dev.index? id with
  | none => w
  | some x =>
    let slots := List.range (w.partCount d b)
    let live := (slots.filter fun s => decide (w.nodeAt d e b s = .live)).length
    let tomb := (slots.filter fun s => decide (w.nodeAt d e b s = .tombstoned)).length
    let used := (x.pool.filter (·.1 = b)).length
    w.put (d.phdrKey b + 4) (leBytes 4 live ++ leBytes 4 tomb ++ leBytes 4 used ++ leBytes 4 e)

/-- Updates of partition `b` in the order in which an apply step takes them: deletes, then inserts. -/
def partOrder (us : List UpdateRec) (b : Nat) : List UpdateRec :=
  let mine := us.filter (·.part = b)
  mine.filter (!·.insert) ++ mine.filter (·.insert)

/-- One update, after the inserts `earlier` of the same partition. -/
def W.applyUpdate (id : Nat) (p : Plan) (d : IndexDesc) (e : Nat) (acc : List (Nat × Bytes) × W) (u : UpdateRec) : List (Nat × Bytes) × W :=
  if u.insert then acc.2.applyInsert id p d e acc.1 u else (acc.1, acc.2.put (d.stateKey u.part u.slot + 4) (leBytes 4 (e + 1)))

/-- The work of an apply step on one partition. -/
def W.applyPart (id : Nat) (p : Plan) (d : IndexDesc) (e : Nat) (us : List UpdateRec) (b : Nat) (w : W) : W :=
  ((partOrder us b).foldl (W.applyUpdate id p d e) ([], w)).2.stampHeader id d b (e + 1)

/-- What a failed apply step leaves of its work on one partition, and the updates whose STATE word it has written. How far it came no rule
says: a free number of updates, and of the reverse edges of the next insert (R223). -/
def W.applyCut (id : Nat) (p : Plan) (d : IndexDesc) (e : Nat) (us : List UpdateRec) (acc : List UpdateRec × W) (b : Nat) : List UpdateRec × W :=
  let (n, w) := acc.2.fresh
  let (m, w) := w.fresh
  let all := partOrder us b
  let k := Config.freeNat n % (all.length + 1)
  let edges := Config.freeNat m % 34
  let r := (all.take k).foldl (W.applyUpdate id p d e) ([], w)
  let w := match all[k]? with
    | some u => if u.insert && edges ≠ 0 then r.2.insertEdges id p d e r.1 u (edges - 1) else r.2
    | none => r.2.stampHeader id d b (e + 1)
  (acc.1 ++ all.take k, w)

/-- The updates `us` are stamped `e` + 1 and have their results. -/
def W.stamped (id e : Nat) (us : List UpdateRec) (w : W) : W :=
  let w := w.index id fun x => { x with
    closed := x.closed.filter fun u => !us.contains u, taken := 0, stamped := max x.stamped (e + 1)
    tombLog := x.tombLog ++ (us.filter (!·.insert)).map fun u => (u.part, u.slot, e + 1) }
  W.each us (fun u w => w.recordDone id 0 (e + 1) u) w

/-- What an apply step bound to epoch `e` leaves at its boundary: the taken records are stamped `e` + 1 and have their results. -/
def W.applyCommit (id e : Nat) (p : Plan) (w : W) : W :=
  match w.dev.index? id with
  | none => w
  | some x =>
    let us := x.takes
    (W.each x.desc.parts (fun b w => w.applyPart id p x.desc e us b) w).stamped id e us

/-- An apply step has failed for good: what it has stamped stays stamped, its other records stay ahead of the next cut, and a PLAN record
names the index and the cut (R223). -/
def W.applyFailed (s : Step) (w : W) : W :=
  let id := s.batch.ident
  let e := s.batch.epoch
  let p := s.plan
  match w.dev.index? id with
  | none => w
  | some x =>
    let r := x.desc.parts.foldl (W.applyCut id p x.desc e x.takes) ([], w)
    let cut := maxNat (x.takes.map fun u => x.desc.cutOf u.accepted)
    let w := if r.1.isEmpty then r.2.index id fun x => { x with taken := 0 } else r.2.stamped id e r.1
    (w.index id fun x => { x with failedCut := some cut }).detectIn s caApplyIncomplete 0 0 id cut []

/-- The apply step of a cut is due (R218): records of a closed cut wait, and after a failure the next cut has closed. -/
def Index.applyDue (x : Index) : Bool :=
  x.begun && x.creating.isNone && !x.closed.isEmpty && (match x.failedCut with | some f => decide (f < x.closedCut) | none => true)

/-- A consolidation step is due: once in an epoch, after its apply step (R227). -/
def Index.consolidateDue (x : Index) : Bool :=
  x.begun && !x.applyDue && (match x.consolidation with | some c => c.finish.isNone && c.ran ≠ some x.epoch | none => false)

/-! ### The consolidation step (R227) -/

/-- The two filter bits of a slot. -/
def consBits (s : Nat) : Nat × Nat := (s * 0x9E37_79B1 % 2 ^ 32 / 2 ^ 14, s * 0x85EB_CA77 % 2 ^ 32 / 2 ^ 14)

def consFilter (l : List Nat) : Nat := l.foldl (fun f s => f ||| 2 ^ (consBits s).1 ||| 2 ^ (consBits s).2) 0

/-- A filter hit that the target's STATE word confirms. -/
def W.inD (d : IndexDesc) (b eD filter : Nat) (entries : List Nat) (s : Nat) (w : W) : Bool :=
  filter.testBit (consBits s).1 && filter.testBit (consBits s).2 && decide (w.delEpoch d b s ≤ eD) && !entries.contains s

/-- One slot of a consolidation step that binds epoch `e`: its edges are those that this epoch finds (R180). -/
def W.consolidateSlot (id : Nat) (d : IndexDesc) (b e eD filter : Nat) (entries : List Nat) (s : Nat) (w : W) : W :=
  let at_ := fun (s : Nat) => chainRec e (parseAdj (w.peeks (d.adjKey b s) 192)) fun p => parseAdj (w.peeks (d.poolKey b p) 192)
  if decide (w.nodeAt d e b s = .absent) then w
  else match (at_ s).bind (·.valid) with
    | none => w
    | some es =>
      let own := fun (v : Nat) => idShard v = d.shard && idPart v = b
      let dead := fun (v : Nat) => own v && w.inD d b eD filter entries (idSlot v)
      if !es.any dead then w
      else
        let u := nodeId d.shard b s
        let kept := es.filter fun v => !dead v
        let fill := (es.filter dead).foldl (fun (acc : List Nat) t =>
          let ts := ((at_ (idSlot t)).bind (·.valid)).getD []
          ts.foldl (fun (acc : List Nat) v =>
            if dead v || (own v && decide (w.nodeAt d e b (idSlot v) = .tombstoned)) || acc.contains v || v = u || decide (32 ≤ acc.length) then acc else acc ++ [v]) acc) kept
        w.writeAdj id d b s (e + 1) fill

/-- What a consolidation step bound to epoch `e` leaves at its boundary. -/
def W.consolidateCommit (id e : Nat) (w : W) : W :=
  match w.dev.index? id with
  | none => w
  | some x => match x.consolidation with
    | none => w
    | some c =>
      let d := x.desc
      let w := W.each d.parts (fun b w =>
        let entries := w.entries d b
        let eD := nget c.eD b
        let filter := consFilter (x.setD entries b eD)
        W.each (List.range' c.next (min x.consSlots (nget c.limits b - c.next))) (fun s w => w.consolidateSlot id d b e eD filter entries s) w) w
      let next := c.next + x.consSlots
      let done := c.limits.all fun (l : Nat × Nat) => decide (l.2 ≤ next)
      w.index id fun x => { x with consolidation := some { c with next := next, finish := if done then some (e + 1) else none } }

end Sys2Proof.Machine
end

