-- ==== Sys2Proof/Machine/Emb.lean ====
section
/-! DEFINITION. Embedding tables as objects: creation, versions, migrations of rows and the remap step, and the undo of updates (R304 to
R308, R319 to R325, R433, R435). -/

namespace Sys2Proof.Machine

open Host

/-! ### Descriptors (R304) -/

def parseEmbDesc (b : Bytes) : EmbDesc :=
  { rowFormat := fld b 6 1, flags := fld b 7 1, embId := fld b 8 8, version := fld b 0x10 4, rows := fld b 0x14 4, dim := fld b 0x18 2
    rowStride := fld b 0x1A 2, hotSlots := fld b 0x1C 4, partMask := fld b 0x20 64, dirBase := fld b 0x60 8, hotBase := fld b 0x68 8
    tailBase := fld b 0x70 8, tailSpace := fld b 0x78 1, updReserve := fld b 0x7A 2, remapPeriod := fld b 0x7C 4, retryMax := fld b 0x80 4 }

/-- Every region of the table lies in its tier: the directory and the hot slots within the 2 GiB of a pseudo-channel (R167), the tail in barn
memory or below the shed's capacity (R363). -/
def EmbDesc.regionsOk (part : Part) (d : EmbDesc) : Bool :=
  d.dirBase % 64 = 0 && decide (d.dirBase + ceilDiv d.rows (max 1 d.nb) * 8 ≤ 2 ^ 31)
  && d.hotBase % 64 = 0 && decide (d.hotBase + d.hotSlots * d.rowStride ≤ 2 ^ 31)
  && d.tailBase % 64 = 0 && decide (d.tailBase + d.rows * d.rowStride ≤ if d.tailSpace = spShed then 4096 * part.shedGranules else 2 ^ 41)

/-- Fields within the table, and the rules that follow it but for the hot rows. -/
def embDescOk (part : Part) (b : Bytes) : Bool :=
  let d := parseEmbDesc b
  b.length = 256 && fld b 0 4 = 0x4C42_5445 && fld b 4 2 = 1 && [fN4, fN4i, fN8, fF8A, fF8B, fBF16, fFP32].contains d.rowFormat && decide (d.flags < 8)
  && decide (1 ≤ d.rows) && decide (64 ≤ d.dim) && decide (d.dim ≤ 4096) && d.dim % 64 = 0 && d.rowStride % 64 = 0 && decide (d.rowStride ≤ 2048)
  && decide (rowLength d.rowFormat d.dim ≤ d.rowStride) && decide (d.hotSlots ≤ 2 ^ 24) && decide (0 < d.nb) && d.regionsOk part
  && (d.tailSpace = spBarn || d.tailSpace = spShed) && fld b 0x79 1 = 0 && decide (400_000 ≤ d.remapPeriod) && decide (d.remapPeriod ≤ 400_000_000)
  && decide (1 ≤ d.retryMax) && decide (d.retryMax ≤ 255) && allZero (slice b 0x84 124) && (!d.updatable || d.tailSpace = spBarn)
  && (!d.accState || d.updatable)

def W.dirEntry (d : EmbDesc) (row : Nat) (w : W) : Nat := w.peekN (d.dirKey row) 8

/-- Hot slots that a directory names, as bay × 2^24 + slot. -/
def W.hotTaken (d : EmbDesc) (w : W) : List Nat :=
  sortNat ((List.range d.rows).filterMap fun r => let v := w.dirEntry d r; if dirHot v then some (d.bayOf r * 2 ^ 24 + dirSlot v) else none)

/-- After the hot rows of the directory, UPD_RESERVE hot slots of each bay remain free. -/
def W.reserveKept (d : EmbDesc) (w : W) : Bool :=
  let taken := w.hotTaken d
  d.bays.all fun b => decide ((taken.filter fun k => k / 2 ^ 24 = b).length + d.updReserve ≤ d.hotSlots)

/-! ### EMB_CREATE -/

def Emb.new (handle pad family : Nat) (d : EmbDesc) (taken : List Nat) : Emb :=
  { handle := handle, desc := d, paddock := pad, remapFamily := family, taken := taken, migrations := [], remapDue := false, pending := none, lost := false
    badPages := [] }

/-- The status that refuses a creation. A 65th table finds no handle: EMB_FORMAT (log entry 21). -/
def W.embCreateStatus (b : Bytes) (w : W) : Option Status :=
  let d := parseEmbDesc (b.take 256)
  let blk := b.drop 256
  if !embDescOk w.dev.boot.part (b.take 256) || blk.length ≠ 16 || !allZero (slice blk 1 3) || !allZero (slice blk 8 8) || (w.dev.embById? d.embId).isSome
      || decide (64 ≤ w.dev.embs.length) then some .embFormat
  else if d.tailSpace = spBarn && !w.dev.boot.part.hasBarn then some .unitAbsent
  else if !w.reserveKept d then some .embFormat
  else if (w.dev.pad? (fld blk 0 1)).isNone || !w.dev.holdsBays (fld blk 0 1) d.bays then some .notFound
  else none

def doEmbCreate (w : W) (r : Nat) (o : Outstanding) : W :=
  let b := w.payload o
  match w.embCreateStatus b with
  | some st => w.complete r o.index st
  | none =>
    let d := parseEmbDesc (b.take 256)
    let h := (lowestFree 64 (w.dev.embs.map (·.handle))).getD 0
    let x := Emb.new h (fld b 256 1) (fld b 260 4) d (w.hotTaken d)
    ({ w with dev := { w.dev with embs := w.dev.embs ++ [x] } }).complete r o.index .done h

/-! ### Migrations (R321, R322, R435) -/

abbrev mDone := 0
abbrev mAlreadyHot := 1
abbrev mAlreadyTail := 2
abbrev mNoSlot := 3
abbrev mMigrating := 4
abbrev mNoRoom := 5
abbrev mBadRow := 6
abbrev mBusy := 7
abbrev mCancelled := 8
abbrev mStarted := 9

/-- The EMB_MIGRATE event that reports the end of a migration. -/
def W.embEvent (x : Emb) (row code : Nat) (w : W) : W := w.event 3 (leBytes 8 x.desc.embId ++ leBytes 4 row ++ leBytes 1 code)

/-- The committed directory entry of a row: what an update of a step that has not committed found there (R319, R327). -/
def W.committedEntry (x : Emb) (row : Nat) (w : W) : Nat :=
  let key := x.desc.dirKey row
  let undos : List Undo := match w.dev.pad? x.paddock with
    | some q => ((q.step.toList ++ q.gated.toList).map fun (s : Step) => s.undo.filter fun u => u.table = x.handle && u.key = key).flatten
    | none => []
  match undos.getLast? with
  | some u => u.old
  | none => w.dirEntry x.desc row

def Dev.listUsed (d : Dev) (stack : Nat) : Nat :=
  sumNat (d.embs.map fun e => (e.migrations.filter fun m => e.desc.bayOf m.row / 64 = stack).length)

/-- Nothing is copied for a row that is not MODIFIED in a hot slot. -/
def demoteCopied (entry : Nat) : Bool := !(dirHot entry && dirModified entry)

/-- One MIGRATE entry: its result, STARTED when a migration begins. -/
def W.migrateEntry (h row kind : Nat) (w : W) : Nat × W :=
  match w.dev.emb? h with
  | none => (mBadRow, w)
  | some x =>
    let d := x.desc
    if d.rows ≤ row || !(kind = 1 || kind = 2) then (mBadRow, w)
    else
      let bay := d.bayOf row
      let entry := w.committedEntry x row
      if kind = 1 && dirHot entry then (mAlreadyHot, w)
      else if kind = 2 && !dirHot entry then (mAlreadyTail, w)
      else if kind = 1 && decide (x.freeCount bay ≤ d.updReserve) then (mNoSlot, w)
      else if x.migrations.any (·.row = row) then (mMigrating, w)
      else if 4096 ≤ w.dev.listUsed (bay / 64) then (mNoRoom, w)
      else
        let slot := if kind = 1 then (x.freeSlot bay).getD 0 else 0
        let m : Migration := { row := row, promote := kind = 1, src := entry, slot := slot, copied := kind = 2 && demoteCopied entry, tries := 0 }
        (mStarted, w.emb h fun e => { e with
          migrations := e.migrations ++ [m], taken := if kind = 1 then insertNat (bay * 2 ^ 24 + slot) e.taken else e.taken })

/-- A result of 8 bytes: the entry with the result code in the place of KIND (log entry 22). -/
def migrateResult (row code : Nat) : Bytes := leBytes 4 row ++ leBytes 1 code ++ zeros 3

def doEmbMigrate (w : W) (r : Nat) (o : Outstanding) : W :=
  match w.dev.embById? (o.field 40 8) with
  | none => w.complete r o.index .notFound
  | some x =>
    let b := w.payload o
    if b.length % 8 ≠ 0 || decide (4096 * 8 < b.length) || (records 8 b).any (fun e => !allZero (slice e 5 3)) then w.complete r o.index .badCommand
    else
      let (res, w) := (records 8 b).foldl (fun (acc : Bytes × W) e =>
        let (code, w) := acc.2.migrateEntry x.handle (fld e 0 4) (fld e 4 1)
        (acc.1 ++ migrateResult (fld e 0 4) code, w)) ([], w)
      w.complete r o.index .done 0 res

/-- The copy of a row ends: PROMOTE from the tail record to MIG_SLOT, DEMOTE from the hot slot to the tail record (R322). -/
def W.embCopied (h row : Nat) (w : W) : W :=
  match w.dev.emb? h with
  | none => w
  | some x => match x.migrations.find? fun m => m.row = row && !m.copied with
    | none => w
    | some m =>
      let d := x.desc
      let hot := d.hotKey (d.bayOf row) (if m.promote then m.slot else dirSlot m.src)
      let w := if m.promote then w.put hot (w.peeks (d.tailKey row) d.rowStride) else w.put (d.tailKey row) (w.peeks hot d.rowStride)
      w.emb h fun e => { e with migrations := e.migrations.map fun y => if y = m then { y with copied := true } else y }

/-- A multiple of REMAP_PERIOD at which a copy is complete (R323). -/
def W.remapTick (h handle : Nat) (w : W) : W :=
  w.emb handle fun e => if h % e.desc.remapPeriod = 0 && e.migrations.any (·.copied) && !e.lost then { e with remapDue := true } else e

/-! ### The remap step (R323) -/

def Emb.freeHot (bay slot : Nat) (e : Emb) : Emb := { e with taken := e.taken.filter (· ≠ bay * 2 ^ 24 + slot) }

def Emb.dropMigration (row : Nat) (e : Emb) : Emb := { e with migrations := e.migrations.filter (·.row ≠ row) }

/-- One complete migration at the boundary of a remap step. -/
def W.remapOne (h : Nat) (m : Migration) (w : W) : W :=
  match w.dev.emb? h with
  | none => w
  | some x =>
    let d := x.desc
    let bay := d.bayOf m.row
    let entry := w.dirEntry d m.row
    let ends := fun (code : Nat) (w : W) => (w.emb h (Emb.dropMigration m.row)).embEvent x m.row code
    if m.promote then
      if entry = m.src then ends mDone (w.put (d.dirKey m.row) (leBytes 8 (mkDir false m.slot)))
      else ends mAlreadyHot (w.emb h (Emb.freeHot bay m.slot))
    else if entry = m.src then
      let w := w.put (d.dirKey m.row) (zeros 8)
      ends mDone (if dirHot entry then w.emb h (Emb.freeHot bay (dirSlot entry)) else w)
    else if m.tries < d.retryMax then
      w.emb h fun e => { e with migrations := e.migrations.map fun y =>
        if y.row = m.row then { y with src := entry, copied := demoteCopied entry, tries := y.tries + 1 } else y }
    else ends mBusy w

/-- Complete migrations that one remap step handles: up to 64 of each bay, in list order. -/
def Emb.remaps (e : Emb) : List Migration :=
  (e.migrations.filter (·.copied)).foldl (fun (acc : List Migration) m =>
    if (acc.filter fun y => e.desc.bayOf y.row = e.desc.bayOf m.row).length < 64 then acc ++ [m] else acc) []

def W.remapCommit (h : Nat) (w : W) : W :=
  match w.dev.emb? h with
  | none => w
  | some x => W.each x.remaps (fun m w => w.remapOne h m) w

/-! ### Updates at the end of a step (R319) -/

/-- The step commits: old hot slots are free. -/
def W.freeOldSlots (s : Step) (w : W) : W :=
  W.each s.undo (fun u w => if dirHot u.old then w.emb u.table (Emb.freeHot u.bay (dirSlot u.old)) else w) w

/-- The step is abandoned or breached: every undo entry is written back, the newest first, and the new slots are free. -/
def W.undoUpdates (s : Step) (w : W) : W :=
  W.each s.undo (fun u w => (w.put u.key (leBytes 8 u.old)).emb u.table (Emb.freeHot u.bay u.newSlot)) w

/-! ### Faults (R325) -/

def W.loseEmb (h : Nat) (w : W) : W := w.emb h fun e => { e with lost := true, remapDue := false }

/-- Row `r` of table `x`, if it is held in the page: its entry names the tail again. Counts the granules of a row that had MODIFIED set. -/
def rowFallback (x : Emb) (bay : Nat) (meets : Nat → Nat → Bool) (acc : W × Nat) (r : Nat) : W × Nat :=
  let d := x.desc
  let v := acc.1.dirEntry d r
  if dirHot v && meets (d.hotBase + dirSlot v * d.rowStride) d.rowStride then
    ((acc.1.put (d.dirKey r) (zeros 8)).emb x.handle (Emb.freeHot bay (dirSlot v)), acc.2 + (if dirModified v then d.rowStride / 64 else 0))
  else acc

/-- The page of stack key `k` meets `n` bytes from a pc-local base. -/
def pageMeets (k base n : Nat) : Bool :=
  let lo := keyOff k / 2048 * 2048
  decide (base < lo + 2048) && decide (lo < base + n)

/-- Rows of table `x` held in the page of stack key `k` fall back to their tail records; counts the granules of updates that this loses. -/
def W.tailRows (x : Emb) (k : Nat) (w : W) : W × Nat :=
  ((List.range x.desc.rows).filter fun r => x.desc.bayOf r = keyUnit k).foldl (rowFallback x (keyUnit k) (pageMeets k)) (w, 0)

/-- Lost pages of hot regions act once no step of the home paddock runs, so that the next launch is the first to read the tails (R327).
Updates that are lost are the lost granules of a record of its own. -/
def W.embSettle (w : W) : W :=
  W.each w.dev.embs (fun x w =>
    let busy := match w.dev.pad? x.paddock with | some q => q.step.isSome || q.gated.isSome | none => false
    if busy then w
    else
      let w := w.emb x.handle fun e => { e with badPages := [] }
      W.each x.badPages (fun k w =>
        let r := w.tailRows x k
        let pg := pageOf w.dev.boot.part.shedChannels k
        r.1.when (decide (0 < r.2)) (W.detect caLostGranules pg.1 pg.2.1 pg.2.2 r.2 [])) w) w

/-- What a loss on the 2 KiB page of stack key `k` does to the tables: a directory page puts the table in EMB_LOST, and rows held in a page of
the hot region fall back to their tail records. -/
def W.embPage (k : Nat) (w : W) : W :=
  (W.each w.dev.embs (fun x w =>
    let d := x.desc
    if !d.bays.contains (keyUnit k) then w
    else if pageMeets k d.dirBase (ceilDiv d.rows (max 1 d.nb) * 8) then w.loseEmb x.handle
    else if pageMeets k d.hotBase (d.hotSlots * d.rowStride) then w.emb x.handle fun e => { e with badPages := insertNat k e.badPages }
    else w) w).embSettle

/-! ### Versions (R324) -/

/-- Ends the migrations of a table with CANCELLED. -/
def W.cancelRows (h : Nat) (w : W) : W :=
  match w.dev.emb? h with
  | none => w
  | some x =>
    let w := W.each x.migrations (fun m w => w.embEvent x m.row mCancelled) w
    let w := W.each (x.migrations.filter (·.promote)) (fun m w => w.emb h (Emb.freeHot (x.desc.bayOf m.row) m.slot)) w
    w.emb h fun e => { e with migrations := [] }

/-- Version `d` becomes current, and the one before is freed. -/
def W.switchVersion (h : Nat) (d : EmbDesc) (w : W) : W :=
  let w := w.cancelRows h
  let taken := w.hotTaken d
  w.emb h fun e => { e with desc := d, taken := taken, remapDue := false }

def Emb.versionOk (e : Emb) (d : EmbDesc) : Bool :=
  let c := e.desc
  d.rows = c.rows && d.dim = c.dim && d.rowFormat = c.rowFormat && d.partMask = c.partMask && decide (c.version < d.version)

def doEmbVersion (w : W) (r : Nat) (o : Outstanding) : W :=
  let b := w.payload o
  let d := parseEmbDesc b
  match w.dev.embById? d.embId with
  | none => w.complete r o.index .notFound
  | some x =>
    if !embDescOk w.dev.boot.part b || !x.versionOk d || x.pending.isSome then w.complete r o.index .embFormat
    else if d.tailSpace = spBarn && !w.dev.boot.part.hasBarn then w.complete r o.index .unitAbsent
    else if !w.reserveKept d then w.complete r o.index .embFormat
    else w.emb x.handle fun e => { e with pending := some (r, o.index, d) }

/-- A host load switches at a launch point at which the home paddock has no step running, no replay pending and no remap step due. -/
def W.embLaunchPoint (w : W) : W :=
  let w := w.embSettle
  W.each w.dev.embs (fun x w => match x.pending, w.dev.pad? x.paddock with
    | some (r, i, d), some q =>
      if q.step.isNone && q.replay.isNone && q.gated.isNone && !x.remapDue then
        let w := (w.switchVersion x.handle d).emb x.handle fun e => { e with pending := none, lost := false }
        w.complete r i .done d.version
      else w
    | _, _ => w) w

/-- A table whose regions `bases` names, as (REGION, offset from the region's base so far), lie at new places. -/
def EmbDesc.moved (d : EmbDesc) (bases : List (Nat × Nat)) : EmbDesc :=
  bases.foldl (fun d x =>
    -- offsets in the stacks are pc-local ones
    if x.1 = 0 then { d with dirBase := d.dirBase + x.2 % 2 ^ 31 } else if x.1 = 1 then { d with hotBase := d.hotBase + x.2 % 2 ^ 31 }
    else { d with tailBase := d.tailBase + x.2 }) d

/-- A learning step commits in VERSION form the regions that it wrote under descriptors bound to a table: they are the table's from now on, and
its version is one higher. -/
def W.commitVersion (id : Nat) (bases : List (Nat × Nat)) (w : W) : W :=
  match w.dev.embById? id with
  | some x => w.switchVersion x.handle { x.desc.moved bases with version := (x.desc.version + 1) % 2 ^ 32 }
  | none => w

def doEmbDelete (w : W) (r : Nat) (o : Outstanding) : W :=
  match w.dev.embById? (o.field 40 8) with
  | none => w.complete r o.index .notFound
  | some x =>
    let w := w.cancelRows x.handle
    let w := match x.pending with | some (pr, i, _) => w.complete pr i .notFound | none => w
    ({ w with dev := { w.dev with embs := w.dev.embs.filter fun e => e.handle ≠ x.handle } }).complete r o.index .done

end Sys2Proof.Machine
end

