-- ==== Sys2Proof/Machine/Tiers.lean ====
section
/-! DEFINITION. Stacks, barn memory and the commons beside the plan: temperature and throttling, retired pages, migration of commons pages,
and the host's reads, writes and copies (R328 to R361, R424, R425). -/

namespace Sys2Proof.Machine

open Host

/-! ### Reads that find a failing granule (R333, R340, R342, R364) -/

/-- A granule that steps of `pads` read failed its check. -/
def W.readFailed (pads : List Nat) (k : Nat) (unc : Bool) (w : W) : W :=
  let w := w.badGranule pads k unc
  if unc && keySpace k = spShed then w.shedUncorrectable (keyOff k / 4096) [k / 64 * 64]
  else if unc && keySpace k = spStack then w.embPage k
  else w

/-- A granule for the copy at `dst` arrives failing its check. One that left an SRAM store is an ARRIVAL_CHECK against the receiver, with the
producer in DETAIL (R331, R442). -/
def W.arrivalFailed (pads : List Nat) (src : Nat) (dst : Option Nat) (unc : Bool) (w : W) : W :=
  if keySpace src < spStack || keySpace src > spShed then
    let from_ := w.dev.unitOfKey src
    let recv := match dst with | some k => w.dev.unitOfKey k | none => (0, 0)
    w.detect caArrivalCheck recv.1 recv.2 (unitKey from_.1 from_.2) 0 pads
  else w.readFailed pads src unc

/-! ### Temperature (R334 to R338) -/

/-- The tables of a stack. -/
def stackTables (s : Nat) : List Nat := List.range' (64 * s) 64

/-- A report of stack `s`: the computed level moves one step at most, and a level that is not in the active tables waits as a change. -/
def W.temperature (s c : Nat) (w : W) : W :=
  let t := w.dev.therm s
  let trip := decide (105 ≤ c)
  let t := { t with temp := c, computed := nextLevel t.computed c, trip := t.trip || trip
                    refresh2x := decide (95 ≤ c) || (t.refresh2x && decide (93 ≤ c)) }
  let w := w.tiers fun x => { x with therm := tput s t x.therm }
  let w := if t.computed ≠ t.applied then w.addChange { cause := 1, tables := stackTables s, links := false, stack := s } else w
  if trip then w.detect caStackTrip uStack s 0 c [] else w

/-- The catastrophic signal of stack `s`. -/
def W.tripStack (s c : Nat) (w : W) : W :=
  (w.tiers fun x => { x with therm := tput s { w.dev.therm s with trip := true } x.therm }).detect caStackTrip uStack s 0 c []

/-! ### Pages that are retired (R340 to R343) -/

/-- Page of tier 5 or 6 that an address names, if it lies in the tier: its first byte's address in the form of records, and the number of
its remap table. -/
def Dev.pageNamed (_d : Dev) (tier a : Nat) : Option (Nat × Nat) :=
  if tier = spStack then
    if a < 2 ^ 41 then
      let k := stackKey a
      some (2 ^ 40 + keyUnit k * 2 ^ 31 + keyOff k / 2048 * 2048, keyUnit k)
    else none
  else if a < 2 ^ 41 then some (barnPage a, 512 + bitsOf a 6 5) else none

/-- Keys of the granules of a page. -/
def pageGranules (tier page : Nat) : List Nat :=
  if tier = spStack then (List.range 32).map fun i => stackKey (page + 64 * i)
  else (List.range 64).map fun i => memKey spBarn 0 (page + 2048 * i)

def remapId (tier page : Nat) : Nat := tier * 2 ^ 48 + page

def tableOfPage (tier page : Nat) : Nat := if tier = spStack then keyUnit (stackKey page) else 512 + bitsOf page 6 5

/-- Entries used in the remap table of a pseudo-channel or a barn channel, pages in work included. -/
def Dev.remapUsed (d : Dev) (table : Nat) : Nat :=
  ((d.tiers.remapped.filter fun x => tableOfPage (x / 2 ^ 48) (x % 2 ^ 48) = table)
    ++ (d.tiers.retiring.filter fun r => tableOfPage r.tier r.page = table).map fun r => r.page).length

def remapMax (tier : Nat) : Nat := if tier = spStack then 128 else 1024

/-- Paddocks that a record holds for a page launch again (R341, R447). -/
def W.releasePage (page : Nat) (w : W) : W := w.faults fun f => { f with heldPages := f.heldPages.filter fun x => x.2 ≠ page }

def doPageRetire (w : W) (r : Nat) (o : Outstanding) : W :=
  let tier := o.field 32 1
  let a := o.field 40 8
  if tier ≠ spStack && tier ≠ spBarn then w.complete r o.index .badCommand
  else if tier = spBarn && !w.dev.boot.part.hasBarn then w.complete r o.index .unitAbsent
  else match w.dev.pageNamed tier a with
    | none => w.complete r o.index .badPage
    | some (page, table) =>
      if w.dev.tiers.remapped.contains (remapId tier page) then (w.releasePage page).complete r o.index .alreadyRetired
      else if w.dev.tiers.retiring.any (fun x => x.tier = tier && x.page = page) then w.complete r o.index .alreadyRetired
      else if remapMax tier ≤ w.dev.remapUsed table then
        let w := if tier = spStack then w.detect caRemapFull uPc table page 0 w.dev.runningPads else w.detect caRemapFull uBarn (table - 512) page 0 w.dev.runningPads
        (w.releasePage page).complete r o.index .retireFull
      else w.tiers fun t => { t with retiring := t.retiring ++ [{ tier := tier, page := page, ring := r, index := o.index, filled := false, lost := [] }] }

/-- The allocation that a granule lies in. -/
def Dev.allocOfKey (d : Dev) (k : Nat) : Option (Alloc × Nat) :=
  d.tiers.allocs.findSome? fun a => (a.place.find? fun p =>
    let r := regionAt p.2.1 p.2.2 65536
    r.hasKey k).map fun p => (a, p.1 * 65536 + ((if keySpace k = spStack then stackAddr k else keyOff k) - p.2.2))

/-- Address of the master copy of a granule, if its allocation has one. -/
def Dev.masterOf (d : Dev) (k : Nat) : Option Nat :=
  match d.allocOfKey k with
  | some (a, off) => if a.entry.master = 0 then none else some (memKey a.entry.masterSpace 0 (a.entry.master + off))
  | none => none

/-- The fill of a page ends: the replacement waits for its launch point, with the addresses that the fill reports lost (R341). -/
def W.pageFilled (page : Nat) (lost : List Nat) (w : W) : W :=
  match w.dev.tiers.retiring.find? fun x => x.page = page && !x.filled with
  | none => w
  | some x =>
    let fill := fun (y : Retire) => if y.tier = x.tier && y.page = x.page then { y with filled := true, lost := lost } else y
    w.tiers fun t => { t with retiring := t.retiring.map fill }

/-- Granules of a page that have no master copy and fail their check, or that the fill reported lost (R342). -/
def Dev.goneGranules (d : Dev) (x : Retire) : List Nat :=
  (pageGranules x.tier x.page).filter fun k =>
    (d.masterOf k).isNone && (d.granuleBad k || x.lost.contains (if x.tier = spStack then stackAddr k else keyOff k))

/-- Address of a granule as a completion lists it. -/
def granuleAt (tier k : Nat) : Nat := if tier = spStack then 2 ^ 40 + keyUnit k * 2 ^ 31 + keyOff k else keyOff k

/-- Steps that run at a remap keep reading the old page: its failing granules fail for them as before (R341). -/
def W.keepBad (bad : List Nat) (w : W) : W :=
  let mark := fun (s : Step) => { s with oldBad := addAllNat bad s.oldBad }
  if bad.isEmpty then w
  else { w with dev := { w.dev with pads := w.dev.pads.map fun (x : Nat × Paddock) =>
    (x.1, { x.2 with step := x.2.step.map mark, gated := x.2.gated.map mark }) } }

/-- A page has been retired where a migration copies from or to: the copy starts again (R359). -/
def W.restartCopies (gs : List Nat) (w : W) : W :=
  let d := w.dev
  let hit := fun (m : CommonsMig) =>
    ((d.commonsPlace m.page).toList ++ (m.place.map fun a => (m.target, a)).toList).any fun pl => gs.any (regionAt pl.1 pl.2 65536).hasKey
  w.tiers fun t => { t with migrations := t.migrations.map fun m => if hit m then { m with copied := false, dirty := false } else m }

/-- The replacement takes the place of the page. Granules with a master copy are taken from it; of the others, those that are lost are zeros
whose check fails, and a record of their own counts them (R342). -/
def W.replacePage (x : Retire) (w : W) : W :=
  let gs := pageGranules x.tier x.page
  let d := w.dev
  let gone := d.goneGranules x
  let w := w.keepBad (gs.filter d.granuleBad)
  let w := W.each gs (fun k w => match d.masterOf k with
    | some m => w.put k (w.peeks m 64)
    | none => if gone.contains k then w.put k (zeros 64) else w) w
  let w := (w.tiers fun t => { t with badGranules := addAllNat gone t.badGranules }).restartCopies gs
  let pg := pageOf d.boot.part.shedChannels (gs.headD 0)
  let w := w.when (!gone.isEmpty) (W.detect caLostGranules pg.1 pg.2.1 pg.2.2 gone.length [])
  -- rows of embedding tables fall back to their tails (R325); an index page with lost granules
  let w := if x.tier = spStack && !gone.isEmpty then w.embPage (gs.headD 0) else w
  W.each (w.dev.indexes.filter fun i => i.regions.any fun r => gone.any r.hasKey) (fun i w => w.loseIndex i.desc.indexId) w

/-- A page of a writable allocation waits for its owner to have no step running (R341). -/
def Dev.remapMay (d : Dev) (x : Retire) : Bool :=
  x.filled && !(pageGranules x.tier x.page).any fun k => match d.allocOfKey k with
    | some (a, _) => !a.entry.shared && d.running a.paddock
    | none => false

/-- Remaps that may apply at a launch point do: the page is in the remap table and the retirement list, the paddocks held for it are
released and the command completes with its lost granules. -/
def W.applyRemaps (w : W) : W :=
  W.each (w.dev.tiers.retiring.filter w.dev.remapMay) (fun x w =>
    let id := remapId x.tier x.page
    let lost := (w.dev.goneGranules x).map (granuleAt x.tier)
    let w := w.replacePage x
    let w := w.tiers fun t => { t with remapped := insertNat id t.remapped, retiring := t.retiring.filter fun y => !(y.tier = x.tier && y.page = x.page) }
    let w := (w.releasePage x.page).boot fun b => b.setRetired (b.retired ++ [id])
    w.complete x.ring x.index .done 0 ((lost.map (leBytes 8)).flatten)) w

/-! ### Migration of commons pages (R356 to R359) -/

/-- A tier flag of R351 as a tier. -/
def flagTier (f : Nat) : Option Nat := match f with | 1 => some spStack | 2 => some spBarn | 4 => some spShed | _ => none

/-- Stacks in which page `i` of an allocation may lie: the stack that SPREAD or PC_LOCAL gives it (R352; log entry 15). -/
def AllocEntry.stackOfPage (a : AllocEntry) (i : Nat) : Nat :=
  let ss := a.stackList
  let n := max 1 ss.length
  if a.place = 1 then ss.getD (i / max 1 (a.pages / n)) 0 else ss.getD (i % n) 0

/-- A place for a commons page in a tier. -/
def Dev.pagePlace (d : Dev) (tier page : Nat) : Option Nat :=
  if tier = spStack then
    match d.allocAt (page * 65536) with
    | some a =>
      let s := a.entry.stackOfPage (page - a.entry.commons / 65536)
      freePlace d.stretches spStack (s * 2 ^ 37) ((s + 1) * 2 ^ 37) 65536
    | none => none
  else freePlace d.stretches tier (tierStart d tier) (tierBytes d tier) 65536

/-- Migrations for which their tier has room take their places, in order (log entry 121), and wake the domains in which they copy (R469). -/
def W.placeMigrations (w : W) : W :=
  (W.each (w.dev.tiers.migrations.filter (·.place.isNone)) (fun m w => match w.dev.pagePlace m.target m.page with
    | some a => w.tiers fun t => { t with migrations := t.migrations.map fun y => if y.page = m.page then { y with place := some a, dirty := false } else y }
    | none => w) w).wakeBackground

/-- Pages of the range that have an allocation, with their allocation. -/
def Dev.rangePages (_d : Dev) (a n : Nat) : List Nat := (List.range (n / 65536)).map (a / 65536 + ·)

def doCommonsMigrate (w : W) (r : Nat) (o : Outstanding) : W :=
  let a := o.field 40 8
  let n := o.field 36 4
  match flagTier (o.field 32 1) with
  | none => w.complete r o.index .badCommand
  | some t =>
    if n % 65536 ≠ 0 || n = 0 then w.complete r o.index .badCommand
    else if t = spBarn && !w.dev.boot.part.hasBarn then w.complete r o.index .unitAbsent
    else if a % 65536 ≠ 0 || decide (2 ^ 46 < a + n) || (w.dev.rangePages a n).any (fun p => match w.dev.allocAt (p * 65536) with
        | some x => x.paddock ≠ o.field 33 1 && !x.entry.shared
        | none => true) then w.complete r o.index .addressInvalid
    else if (w.dev.rangePages a n).any fun p => match w.dev.allocAt (p * 65536) with | some x => x.entry.pinned | none => false then w.complete r o.index .allocPinned
    else if t = spShed && w.dev.shed.readOnly then w.complete r o.index .readOnly
    else
      let pages := (w.dev.rangePages a n).filter fun p => match w.dev.commonsPlace p with | some x => x.1 ≠ t | none => false
      if pages.any fun p => w.dev.tiers.migrations.any (·.page = p) then w.complete r o.index .migrateBusy
      else if pages.isEmpty then w.complete r o.index .done
      else
        let new := pages.map fun p => CommonsMig.mk p t none false false 0 (some (r, o.index))
        (w.tiers fun x => { x with migrations := x.migrations ++ new }).placeMigrations

/-- Whether another page of the command still migrates. -/
def Dev.commandMigrates (d : Dev) (c : Nat × Nat) : Bool := d.tiers.migrations.any fun m => m.cmd = some c

/-- A migration is over: the command completes with its last page, or at once with a status that ends it, and holds the allocation no more
(R351). -/
def W.endMigration (m : CommonsMig) (st : Status) (w : W) : W :=
  let w := w.tiers fun t => { t with migrations := t.migrations.filter (·.page ≠ m.page) }
  match m.cmd with
  | none => w
  | some c =>
    let w := if st = .done then (if w.dev.commandMigrates c then w else w.complete c.1 c.2 .done)
      else (w.tiers fun t => { t with migrations := t.migrations.filter (·.cmd ≠ some c) }).complete c.1 c.2 st
    w.freeAllocs

/-- A copy ends: a clean page waits for its remap, a dirty one is copied again, at most eight times (R357). -/
def W.commonsCopied (page : Nat) (w : W) : W :=
  match w.dev.tiers.migrations.find? fun m => m.page = page && !m.copied && m.place.isSome with
  | none => w
  | some m =>
    if m.dirty then
      if 7 ≤ m.dirtyCount then w.endMigration m .migrateBusy
      else w.tiers fun t => { t with migrations := t.migrations.map fun y => if y.page = page then { y with dirty := false, dirtyCount := y.dirtyCount + 1 } else y }
    else w.tiers fun t => { t with migrations := t.migrations.map fun y => if y.page = page then { y with copied := true } else y }

/-- Steps that have bound an allocation go on reading the old copy of its page, at `pl`; a replay binds what its attempt bound (R356). -/
def W.keepCopy (a : AllocEntry) (page : Nat) (pl : Nat × Nat) (w : W) : W :=
  let keep := fun (s : Step) =>
    if s.plan.residency.contains a && (tget? page s.commons).isNone then { s with commons := s.commons ++ [(page, pl.1, pl.2)] } else s
  { w with dev := { w.dev with pads := w.dev.pads.map fun (x : Nat × Paddock) =>
    (x.1, { x.2 with step := x.2.step.map keep, replay := x.2.replay.map keep, gated := x.2.gated.map keep }) } }

/-- Moves a page: its bytes to the new place, with the checks that fail, and its placement. -/
def W.movePage (m : CommonsMig) (w : W) : W :=
  match w.dev.allocAt (m.page * 65536), m.place with
  | some a, some t =>
    let b := w.spacePeeks spCommons (m.page * 65536) 65536
    let i := m.page - a.entry.commons / 65536
    let old := (w.dev.commonsPlace m.page).getD (m.target, t)
    let bad := ((List.range 1024).filter fun g => w.dev.granuleBad (placeKey old (64 * g))).map fun g => placeKey (m.target, t) (64 * g)
    let w := w.keepCopy a.entry m.page old
    -- paddocks that share a SHARED_RO allocation share its placement
    let w := w.tiers fun x => { x with allocs := x.allocs.map fun y =>
      if y.entry = a.entry then { y with place := y.place.map fun p => if p.1 = i then (i, m.target, t) else p } else y }
    let w := w.store (w.dev.spaceCells m.target t b)
    (w.tiers fun x => { x with badGranules := addAllNat bad x.badGranules }).endMigration m .done
  | some _, none => w
  | none, _ => w.endMigration m .cancelled

/-- The owner of a writable page has no step running and no replay pending (R356). -/
def Dev.pageMayMove (d : Dev) (m : CommonsMig) : Bool :=
  match d.allocAt (m.page * 65536) with
  | some a => a.entry.shared || (match d.pad? a.paddock with | some q => q.step.isNone && q.replay.isNone && q.gated.isNone | none => true)
  | none => true

/-- At a launch point clean copies are remapped; pages found dirty are copied again. -/
def W.applyMigrations (w : W) : W :=
  let closed := w.dev.shed.readOnly
  W.each (w.dev.tiers.migrations.filter fun m => (m.copied && w.dev.pageMayMove m) || (m.target = spShed && closed)) (fun m w =>
    if m.target = spShed && w.dev.shed.readOnly then w.endMigration m .readOnly
    else if m.dirty then
      if 7 ≤ m.dirtyCount then w.endMigration m .migrateBusy
      else w.tiers fun t => { t with migrations := t.migrations.map fun y =>
        if y.page = m.page then { y with dirty := false, copied := false, dirtyCount := y.dirtyCount + 1 } else y }
    else w.movePage m) w

/-- Remaps and migrations at a launch point; a page that moved makes room for another. -/
def W.tiersPoint (w : W) : W := ((w.applyRemaps).applyMigrations).placeMigrations

/-! ### Firmware's own migration (R358) -/

/-- Unpinned commons pages with their present tier and the reads of this period; a page that paddocks share counts once. -/
def Dev.loosePages (d : Dev) : List (Nat × Nat × Nat) :=
  (d.tiers.allocs.map fun a => if a.entry.pinned then [] else
    a.place.map fun p => (a.entry.commons / 65536 + p.1, p.2.1, nget d.tiers.reads (a.entry.commons / 65536 + p.1))).flatten.eraseDups

/-- Ticks of MIG_PERIOD, whose default is 100 ms. -/
def Dev.migTicks (d : Dev) : Nat := if d.tiers.migPeriod = 0 then 40_000_000 else d.tiers.migPeriod

/-- The stack that a commons page lies in, or goes to, whenever it is in the stacks. -/
def Dev.pageStack (d : Dev) (page : Nat) : Option Nat := (d.allocAt (page * 65536)).map fun a => a.entry.stackOfPage (page - a.entry.commons / 65536)

/-- Free places of 64 KiB in a stack. -/
def Dev.stackRoom (d : Dev) (s : Nat) : Nat :=
  let taken := (d.stretches.filter fun u => u.1 = spStack && decide (s * 2 ^ 37 ≤ u.2.1) && decide (u.2.1 < (s + 1) * 2 ^ 37)).map fun u => ceilDiv (u.2.2 - u.2.1) 65536
  2 ^ 21 - sumNat taken

/-- In each stack as many of its least-read pages as the pages `up`, which go there, find too little room for. -/
def Dev.demotions (d : Dev) (up least : List (Nat × Nat × Nat)) : List (Nat × Nat × Nat) :=
  let out := ((List.range 8).map fun s =>
    let mine := fun (l : List (Nat × Nat × Nat)) => l.filter fun x => d.pageStack x.1 = some s
    (mine least).take ((mine up).length - d.stackRoom s)).flatten
  least.filter out.contains

/-- At the end of a period the most-read pages outside the stacks, up to STACK_QUOTA, are to go there; where they find no room, the
least-read pages of the stacks make it. -/
def W.migrateAuto (w : W) : W :=
  let pages := w.dev.loosePages.filter fun x => !w.dev.tiers.migrations.any (·.page = x.1)
  let more := fun (a b : Nat × Nat × Nat) => decide (b.2.2 < a.2.2) || (a.2.2 = b.2.2 && decide (a.1 < b.1))
  let less := fun (a b : Nat × Nat × Nat) => decide (a.2.2 < b.2.2) || (a.2.2 = b.2.2 && decide (a.1 < b.1))
  let up := (sortBy more (pages.filter fun x => x.2.1 ≠ spStack && decide (0 < x.2.2))).take (w.dev.tiers.stackQuota / 65536)
  let down := w.dev.demotions up (sortBy less (pages.filter (·.2.1 = spStack)))
  let below := if w.dev.boot.part.hasBarn then spBarn else spShed
  let make := fun (t : Nat) (x : Nat × Nat × Nat) => CommonsMig.mk x.1 t none false false 0 none
  (w.tiers fun t => { t with reads := [], migrations := t.migrations ++ down.map (make below) ++ up.map (make spStack) }).placeMigrations

/-! ### Host access to device memory (R425) -/

/-- Where HOST_WRITE and HOST_READ reach: SPACE 5, 6 or 8. -/
def Dev.hostRange (d : Dev) (sp a n : Nat) : Option Status :=
  if !([spStack, spBarn, spCommons] : List Nat).contains sp then some .badCommand
  else if sp = spBarn && !d.boot.part.hasBarn then some .unitAbsent
  else if sp = spStack then
    (if decide (2 ^ 41 ≤ a) || (a.testBit 40 && decide (2 ^ 31 < bitsOf a 0 31 + n)) || (!a.testBit 40 && decide (2 ^ 40 < a + n)) then some .addressInvalid else none)
  else if sp = spBarn then (if 2 ^ 41 < a + n then some .addressInvalid else none)
  else if decide (2 ^ 46 < a + n) || (List.range (ceilDiv (a % 65536 + n) 65536)).any (fun i => (d.commonsPlace (a / 65536 + i)).isNone) then some .addressInvalid
  else none

/-- A commons allocation of another paddock than the command names is not reached through it. -/
def Dev.hostOwner (d : Dev) (sp p a : Nat) : Bool :=
  sp ≠ spCommons || (match d.allocAt a with | some x => x.entry.shared || x.paddock = p | none => false)

def Dev.hostKeys (d : Dev) (sp a n : Nat) : List Nat :=
  (List.range (ceilDiv (a % 64 + n) 64)).map fun i => d.sharedKey 0 0 sp (a / 64 * 64 + 64 * i)

def doHostWrite (w : W) (r : Nat) (o : Outstanding) : W :=
  let sp := o.field 32 1
  let a := o.field 40 8
  let b := w.payload o
  let keys := w.dev.hostKeys sp a b.length
  match w.dev.hostRange sp a b.length with
  | some st => w.complete r o.index st
  | none =>
    if !w.dev.hostOwner sp (o.field 33 1) a then w.complete r o.index .addressInvalid
    else match w.dev.liveStatus fun x => keys.any x.hasKey with
      | some st => w.complete r o.index st
      | none => (w.store (w.dev.spaceCells sp a b)).complete r o.index .done

/-- Bytes as observers outside a step see them: what a step has staged is not there yet (R65). A granule that fails its check is not
delivered; what stands in its place at RESULT no rule says: free bytes. -/
def W.hostReadBytes (bad : List Nat) (sp a n : Nat) (w : W) : Bytes × W :=
  let (free, w) := if bad.isEmpty then ([], w) else w.freeBytes n
  ((List.range n).map fun i =>
    let k := w.dev.sharedKey 0 0 sp (a + i)
    if bad.contains (k / 64 * 64) then free.getD i 0 else w.peek k, w)

def doHostRead (w : W) (r : Nat) (o : Outstanding) : W :=
  let sp := o.field 32 1
  let a := o.field 40 8
  let n := o.entry.resultLen.toNat
  match w.dev.hostRange sp a n with
  | some st => w.complete r o.index st
  | none =>
    if !w.dev.hostOwner sp (o.field 33 1) a then w.complete r o.index .addressInvalid
    else
      let bad := failing w.dev (w.dev.hostKeys sp a n)
      let (b, w) := w.hostReadBytes bad sp a n
      let w := W.each bad (fun k w => w.readFailed [] k true) w
      w.complete r o.index (if bad.isEmpty then .done else .dataCheck) 0 b

/-- A copy to the peer of a port, in trains of its HOST pairs (R404, R425). The channel of such a train no rule names: a free value. -/
def doPeerCopy (w : W) (r : Nat) (o : Outstanding) : W :=
  let port := o.field 32 1
  let n := o.field 36 4
  let a := o.field 40 8
  if w.dev.boot.part.ports ≤ port then w.complete r o.index .unitAbsent
  else match w.dev.hostRange spCommons a n with
    | some st => w.complete r o.index st
    | none =>
      if 2 ^ 46 < o.field 48 8 + n then w.complete r o.index .addressInvalid
      else if !(w.dev.port port).isUp then w.complete r o.index .linkDown
      else
        let (f, w) := w.fresh
        let w := W.each (failing w.dev (w.dev.hostKeys spCommons a n)) (fun k w => w.readFailed [] k true) w
        let b := w.spacePeeks spCommons a n
        let trains := trainsOf 0 (Config.freeNat f % 65536) 0 (o.field 48 8) b
        (W.each trains (W.sendTrain port (mkEntry oHost 0)) w).complete r o.index .done

end Sys2Proof.Machine
end

