-- ==== Sys2Proof/Machine/Run.lean ====
section
/-! DEFINITION. The course of a step: when a word may issue, deadlines, arrivals, holds, and the plan words themselves (R54 to R59, R63,
R64, R80, R100, R151, R333, R429). -/

namespace Sys2Proof.Machine

open Host

/-! ### Plan cycles (R63, R64) -/

/-- Issues of a plan, as (word, repetition). -/
def Plan.issueList (p : Plan) : List (Nat × Nat) :=
  ((List.range p.words.length).map fun i => match p.words[i]? with
    | some x => if x.cls = cEND then [] else if x.cls = cREPEAT then [(i, 0)] else (List.range (p.repeatOf i).1).map fun j => (i, j)
    | none => []).flatten

/-- Every word whose slot lies before cycle `c` has issued; after a breach no word issues any more (R57, R59). -/
def Step.upTo (s : Step) (c : Nat) : Bool :=
  s.breached || s.plan.issueList.all fun i => decide (c ≤ s.plan.effSlot i.1 i.2) || s.issued.contains i

/-- The next hold point before the boundary. One that the step stands at counts where the abandon was asked for in the same cycle (R101). -/
def Step.nextHold (s : Step) : Option Nat :=
  s.plan.holds.find? fun h => decide (if s.abandonHere then s.cycle ≤ h else s.cycle < h) && decide (h < s.plan.length)

/-- A hold or an abandon that is asked for takes effect before cycle `c` goes by. -/
def Step.stopsBefore (s : Step) (c : Nat) : Bool :=
  (s.abandon || s.holdAsked ≠ 0) && (match s.nextHold with | some h => decide (h ≤ c) | none => false)

/-- The step can come to cycle `c` now: it is not held, and nothing of the plan lies between. -/
def Step.comesTo (s : Step) (c : Nat) : Bool :=
  s.held.isNone && decide (s.cycle ≤ c) && decide (c ≤ s.plan.length) && s.upTo c && !s.stopsBefore c

/-! ### Reads of a step that find a failing granule (R333, R340, R342, R364) -/

/-- Records the failing granules that the last word of the step read. -/
def W.settleReads (p : Nat) (w : W) : W :=
  match w.dev.step? p with
  | none => w
  | some s =>
    let w := w.step p fun s => { s with badRead := [] }
    W.each (sortNat (s.badRead.map fun k => k / 64 * 64)) (fun k w => w.readFailed [p] k true) w

/-- A breach of the step gives its record once (R59, R442): plan cycle and word index. -/
def W.noteBreach (p word : Nat) (w : W) : W :=
  match w.dev.step? p with
  | none => w
  | some s =>
    if s.breached && !s.breachNoted then
      (w.step p fun s => { s with breachNoted := true }).detect caTimingBreach 0 0 s.cycle word [p]
    else w

/-! ### Deadlines (R58, R311, R360) -/

/-- Bytes that a posted transfer leaves: staged with a committed destination, whose granules enter the CRC of the unit that writes them, else in
memory. The window of a bay that the paddock does not hold takes no write (R139), and under a fence no shared space does (R443). -/
def W.land (p : Nat) (x : Posted) (ws : List Cell) (w : W) : W :=
  match ws.findSome? fun y => w.dev.foreignKey p y.1 with
  | some n => countForeign n w
  | none =>
    if w.dev.fenced p && ws.any (fun y => sharedSpace (keySpace y.1)) then w
    else
    let w := (w.leaveBytes p x.stage ws).landClash p ws
    if !x.stage then w
    else w.step p fun s => { s with
      crcs := (sortNat (ws.map fun y => y.1 / 64 * 64)).foldl (fun m k => crcGranule (s.peek w) x.writer k m) s.crcs }

/-- The unit that writes granule `k` for `u`: its kind and its ordinal among the units of that kind. A channel of barn memory or the shed writes the
granules that lie in it (DESIGN CHOICE: log entry 23). -/
def Ctx.writer (c : Ctx) (dev : Dev) (u : UnitRef) (k : Nat) : Nat :=
  let kind := c.word.kind
  (if kind ≤ kDEC then 0 else kind) * 2 ^ 32 +
  (if kind ≤ kDEC then u.flat else if kind = kSTABLE then u.stable else if kind = kBAY then u.bay
   else if kind = kDMA then c.copyYard u (([c.word.dst, c.word.srca].filterMap fun i => c.step.plan.desc? i).map (·.space))
   else if kind = kBARN || kind = kSHED then c.postWriter dev k k % 2 ^ 32 else 0)

/-- Continues the CRC of each unit over the committed granules that the word wrote: `written` are the keys, `peek` what stands there. -/
def Ctx.crcs (c : Ctx) (dev : Dev) (written : List Nat) (peek : Nat → Byte) (m : NMap) : NMap :=
  match c.step.plan.desc? c.word.dst with
  | none => m
  | some d =>
    if !d.commit || written.isEmpty then m
    else
      let touched := sortNat (written.map fun k => k / 64)
      (c.units dev).foldl (fun m u =>
        let a := c.addr d u
        let gs := ((List.range (ceilDiv (a % 64 + d.length) 64)).map fun i => c.key dev d.space u (a / 64 * 64 + 64 * i)).filter fun k => touched.contains (k / 64)
        gs.foldl (fun m k => crcGranule peek (c.writer dev u k) k m) m) m

/-- Takes into the CRCs what a word has written since `w0`. -/
def W.addCrcs (c : Ctx) (w0 w : W) : W :=
  match w0.dev.step? c.p, w.dev.step? c.p with
  | some s0, some s =>
    let staged := (s.staged.take (s.staged.length - s0.staged.length)).map (·.1)
    let seen := fun (k : Nat) => match tget? k s.hostOut with
      | some b => b
      | none => s.peek w k
    w.step c.p fun s => { s with crcs := c.crcs w.dev (staged ++ s.hostOut.map (·.1)) seen s.crcs, hostOut := [] }
  | _, _ => w

/-- Heads of passages that were missed: the entries of the ranked lists that PACK words still to come will read have MISSED set (R236, R249). -/
def W.markHeads (p : Nat) (w : W) : W :=
  match w.dev.pad? p, w.dev.step? p with
  | some q, some s =>
    if s.zeroed.isEmpty then w
    else W.each (s.plan.issueList.filter fun i => !s.issued.contains i) (fun i w => match s.plan.words[i.1]? with
      | some x => match s.plan.desc? x.srca with
        | some a =>
          if !s.plan.isPack x then w
          else
            let c := mkCtx w.dev p q s x i.1 i.2
            w.leaveBytes p false (c.packUnits.map fun u => packMissed c w u (c.addr a u)).flatten
        | none => w
      | none => w) w
  | _, _ => w

/-- Granules that have not arrived by cycle `c` are missed: with MISS_ZERO they count, and zeros stand where the copy was to lie; without it the copy
stays absent, and a write or a prefetch breaches at once. -/
def W.missBy (p c : Nat) (w : W) : W :=
  match w.dev.step? p with
  | none => w
  | some s =>
    let late := s.posted.filter fun x => x.hasDeadline && decide (x.deadline ≤ c)
    let w := w.step p fun s => { s with
      cycle := max s.cycle c
      posted := s.posted.filter fun x => !(x.hasDeadline && decide (x.deadline ≤ c))
      missed := (late.map fun x => (x.desc, x.rep, x.src)) ++ s.missed
      misses := s.misses + (late.filter (·.missZero)).length
      breached := s.breached || late.any fun x => x.breach && !x.missZero }
    let zero := fun (x : Posted) => match x.dst with
      | some k => (List.range x.len).map fun i => (k + i, (0 : Byte))
      | none => []
    let gone := late.filter (·.missZero)
    let w := W.each gone (fun x w =>
      (w.land p x (zero x)).step p fun s => { s with zeroed := (x.dst.map fun k => (k, x.len)).toList ++ s.zeroed }) w
    if gone.isEmpty then w else w.markHeads p

/-- Ends one bay of a BAY_GATHER word whose tail deadline has come. -/
def W.finishGather (p : Nat) (g : Gather) (b : GatherBay) (w : W) : W :=
  match w.dev.pad? p, w.dev.step? p with
  | some q, some s => match s.plan.words[g.word]? with
    | some x =>
      let c := mkCtx w.dev p q s x g.word g.rep
      match (c.bayUnits w.dev).find? fun u => u.bay = b.bay with
      | some u => ((gatherFinish c u b w).addCrcs c w).noteBreach p g.word
      | none => w
    | none => w
  | _, _ => w

/-- BAY_GATHER words whose tail deadline has come end. -/
def W.gathersBy (p c : Nat) (w : W) : W :=
  match w.dev.step? p with
  | none => w
  | some s =>
    let due := s.gathers.filter fun g => decide (g.deadline ≤ c)
    let w := w.step p fun s => { s with gathers := s.gathers.filter fun g => !decide (g.deadline ≤ c) }
    W.each due (fun g w => W.each g.units (fun b w => w.finishGather p g b) w) w

/-- The next deadline of a step. -/
def Step.nextDeadline (s : Step) : Option Nat :=
  minNat? ((s.posted.filter (·.hasDeadline)).map (·.deadline) ++ s.gathers.map (·.deadline))

/-- The next cycle at which anything of the step happens. -/
def Step.nextStop (s : Step) : Nat :=
  (((s.plan.issueList.filter fun i => !s.issued.contains i).map fun i => s.plan.effSlot i.1 i.2) ++ s.nextHold.toList ++ s.nextDeadline.toList).foldl min
    s.plan.length

/-- Commons pages of source `di` as the units `us` address it: a source that several name is read once (R88). -/
def Ctx.pagesRead (c : Ctx) (us : List UnitRef) (di : Nat) : List Nat :=
  match c.step.plan.desc? di with
  | some d =>
    if d.space = spCommons then ((us.map (c.addr d)).eraseDups.map fun a => List.range' (a / 65536) (ceilDiv (a % 65536 + d.length) 65536)).flatten
    else []
  | none => []

def W.readPages (pages : List Nat) (w : W) : W :=
  if pages.isEmpty then w else w.tiers fun t => { t with reads := pages.foldl (fun m k => nadd k 1 m) t.reads }

/-- Reads of commons pages, which firmware counts: one for each page that the word reads or posts (R358). -/
def Ctx.countPages (c : Ctx) (w : W) : W :=
  let read := if [cNOP, cREPEAT, cEND].contains c.word.cls then [] else [c.word.srca, c.word.srcb]
  let pages := (read.map (c.pagesRead (c.units w.dev))).flatten
  w.readPages pages

/-- A PREFETCH entry as postings (R360, R361): one transfer from SRC to DST, which follows the deadline of DST. -/
def Ctx.prefetchPosts (c : Ctx) (dev : Dev) (f : Prefetch) : List Posted :=
  match c.step.plan.desc? f.dst, c.step.plan.desc? f.src with
  | some d, some a =>
    let u := c.loneUnit
    let s := c.addr a u
    let t := c.addr d u
    let l := ((List.range (ceilDiv (s % 64 + a.length) 64)).map fun i =>
      let lo := max s (s / 64 * 64 + 64 * i)
      let hi := min (s / 64 * 64 + 64 * i + 64) (s + a.length)
      postReads f.dst 0 d.deadline d.missZero true (c.key dev a.space u lo) (some (c.key dev d.space u (t + (lo - s)))) (hi - lo)).flatten
    -- a DMA engine posts and writes them: the one of the paddock's first yard (DESIGN CHOICE: log entry 23)
    l.map fun x => { x with stage := d.commit, writer := kDMA * 2 ^ 32, unit := kDMA * 2 ^ 32 }
  | _, _ => []

/-- Posts the PREFETCH entries that are due by cycle `c`, or before anything else happens. -/
def W.postPrefetch (p c : Nat) (w : W) : W :=
  match w.dev.pad? p, w.dev.step? p with
  | some q, some s =>
    let stop := s.nextStop
    let es := (s.plan.prefetch.drop s.nextPrefetch).takeWhile fun f => decide (f.post ≤ c) || decide (f.post < stop)
    let none_ : PWord := { slot := 0, cls := cNOP, v := false, s := false, l := false, resv := 0, kind := kDMA, mask := 1, dst := noDesc, srca := noDesc, srcb := noDesc }
    let x := mkCtx w.dev p q s none_ s.plan.words.length 0
    let posts := es.map fun f => (f.post, x.prefetchPosts w.dev f)
    if es.isEmpty then w
    else (w.readPages (es.map fun f => x.pagesRead [x.sharedUnit] f.src).flatten).step p fun s =>
      { posts.foldl (fun s y => s.post y.1 (s.herdAt y.1) y.2) s with nextPrefetch := s.nextPrefetch + es.length }
  | _, _ => w

/-- The first posting whose miss breaches by cycle `c`. -/
def Step.firstBreach (s : Step) (c : Nat) : Option Posted :=
  (s.posted.filter fun x => x.hasDeadline && x.breach && !x.missZero && decide (x.deadline ≤ c)).foldl (fun a x =>
    match a with | some y => if x.deadline < y.deadline then some x else a | none => some x) none

/-- A breach at the deadline of a posting names the cycle of the deadline and the word that posted it (R59, R350, R360, R378, R429). -/
def W.deadlineBreach (p c : Nat) (w : W) : W :=
  match w.dev.step? p with
  | none => w
  | some s => match s.firstBreach c with
    | none => w
    | some x => (w.missBy p x.deadline).noteBreach p (((findIdxFrom (fun y => y.dst = x.desc) 0 s.plan.words).map (·.1)).getD 0)

/-- The step comes to plan cycle `c`: every deadline up to it has passed. -/
def W.comeTo (p c : Nat) (w : W) : W :=
  ((((w.postPrefetch p c).deadlineBreach p c).missBy p c).gathersBy p c).postPrefetch p c

/-! ### Arrivals (R58, R151, R197, R331, R347, R360, R377) -/

/-- The 64 bytes that travel for a posting: memory as the step sees it, with the bytes that stood before a later write of the step. -/
def Posted.granule (x : Posted) (peek : Nat → Byte) : Bytes :=
  (List.range 64).map fun i =>
    if decide (x.skip ≤ i) && decide (i < x.skip + x.len) then
      (match x.data with | some d => d.getD (i - x.skip) 0 | none => peek (x.src + i))
    else peek (x.src + i)

/-- The copy of a posting. -/
def Posted.cells (x : Posted) (g : Bytes) : List Cell :=
  match x.dst with
  | some k => (List.range x.len).map fun i => (k + i, g.getD (x.skip + i) 0)
  | none => []

/-- The granule arrives whole. -/
def granuleGood (bad : Bool) (check : Nat) (g : Bytes) : Bool := check = granuleCheck g && !bad

/-- It arrives with its check inverted: an uncorrectable report (R333, R364). -/
def granuleInverted (bad : Bool) (check : Nat) (g : Bytes) : Bool := bad || check = granuleCheck g ^^^ 0xFFFF

/-- A write, whose bytes stand already: it arrives when it has reached its channel. -/
def Posted.isWrite (x : Posted) : Bool := x.breach && x.dst.isNone

/-- Removes the first element equal to `x`. -/
def dropPosted (x : Posted) : List Posted → List Posted
  | [] => []
  | y :: r => if y = x then r else y :: dropPosted x r

/-- The channel whose order of posts a granule keeps: of barn memory, or of the shed for a read (R347, R376). -/
def Dev.postChannel (d : Dev) (x : Posted) : Option Nat :=
  if keySpace x.src = spBarn then some (tBarn (bitsOf (keyOff x.src) 6 5))
  else if keySpace x.src = spShed && !x.isWrite then some (tShed (keyOff x.src / 4096 % d.boot.part.shedChannels))
  else none

/-- Posting `x` at place `n` of the list comes before `y` at place `m`: by the cycle of the post, then by the unit that posted, then as the word made
them (R347, R376). -/
def postedBefore (x y : Posted) (n m : Nat) : Bool :=
  decide (x.cycle < y.cycle) || (x.cycle = y.cycle && (decide (x.unit < y.unit) || (x.unit = y.unit && decide (n < m))))

/-- A channel serves its posts in order: a granule whose channel still owes an earlier one cannot arrive. Shed reads without a deadline take what the
others leave, in their own order (R377). Reads of host memory are served while the link is UP, and writes to it as the link takes them (R417, R429). -/
def Dev.served (d : Dev) (posted : List Posted) (n : Nat) (x : Posted) : Bool :=
  (keySpace x.src ≠ spHost || (d.halter.isUp && !x.isWrite)) &&
  ((d.postChannel x).isNone || posted.zipIdx.all fun y =>
    d.postChannel y.1 ≠ d.postChannel x || y.1.hasDeadline ≠ x.hasDeadline || !postedBefore y.1 x y.2 n)

/-- Where mapping granule `g` lies on the medium: channel, block and media page; none where no block holds it. -/
def Dev.mediaPage (d : Dev) (g : Nat) : Option (Nat × Nat × Nat) :=
  match nget d.shed.map g with
  | 0 => none
  | b + 1 =>
    let c := g % max 1 d.boot.part.shedChannels
    (findIdxFrom (· = g) 0 ((d.shed.chan c).block b).granules.reverse).map fun i => (c, b, (((d.shed.chan c).block b).granules.length - 1 - i.1) / 4)

/-- The granule can have been sensed at herd count `h`: 24 µs have passed since its post, or it lies in the write buffer or on no medium, or a granule
of its media page has been taken before (R376). -/
def Dev.sensed (d : Dev) (taken : List Nat) (h : Nat) (x : Posted) : Bool :=
  keySpace x.src ≠ spShed || x.isWrite || decide (x.since + 9_600 ≤ h)
  || (let g := keyOff x.src / 4096
      d.shed.buffer.any (fun b => b.granule = g) ||
      (match d.mediaPage g with
       | none => true
       | some pg => taken.any fun k => keySpace k = spShed && d.mediaPage (keyOff k / 4096) = some pg))

/-- Granule `n` of those that a paddock's step has posted and waits for, counted in posting order; after them come the shed reads that
were in flight at a boundary. One whose check fails is discarded and recorded. -/
def W.arrive (p n check : Nat) (w : W) : W :=
  match w.dev.pad? p with
  | none => w
  | some q =>
    let posted := match q.step with | some s => s.posted | none => []
    let old := match q.step with | some s => s.oldBad | none => []
    match posted[n]? with
    | some x =>
      let g := x.granule fun k => match q.step with | some s => s.peek w k | none => w.peek k
      let bad := w.dev.granuleBad x.src || old.contains (x.src / 64 * 64)
      let taken := match q.step with | some s => s.landed.map (·.2.2.1) | none => []
      if !w.dev.served posted n x || !w.dev.sensed taken w.herd x then w
      else
        let w := w.step p fun s => { s with posted := dropPosted x s.posted }
        if x.isWrite then w
        else if granuleGood bad check g then
          let w := w.land p x (x.cells g)
          let at_ := match x.dst with | some k => [(x.desc, x.rep, x.src, k + 64 - x.skip)] | none => []
          let w := w.step p fun s => { s with landed := at_ ++ s.landed }
          let seen := w
          let h := w.herd
          w.step p fun s => chainArrivals (s.cycleNow h) h (fun k m => (List.range m).map fun i => s.peek seen (k + i)) s
        else
          let w := w.step p fun s => { s with missed := (x.desc, x.rep, x.src) :: s.missed }
          w.arrivalFailed [p] x.src x.dst (granuleInverted bad check g)
    | none => match q.flying[n - posted.length]? with
      | none => w
      | some x =>
        let g := x.granule w.peek
        let bad := w.dev.granuleBad x.src
        if !w.dev.served q.flying (n - posted.length) x || !w.dev.sensed [] w.herd x then w
        else
        let w := w.pad p fun q => { q with flying := dropPosted x q.flying }
        if granuleGood bad check g then w.store (x.cells g)
        else w.arrivalFailed (if q.step.isSome then [p] else []) x.src x.dst (granuleInverted bad check g)

/-! ### The issue of a word (R57, R59) -/

/-- The issue of word `w` in repetition `j`, if the running step of paddock `p` comes to it now. -/
def Dev.issue? (d : Dev) (p w j : Nat) : Option Ctx :=
  match d.pad? p with
  | none => none
  | some q => match q.step with
    | none => none
    | some s => match s.plan.words[w]? with
      | none => none
      | some x =>
        if s.plan.issueList.contains (w, j) && !s.issued.contains (w, j) && !s.breached && s.comesTo (s.plan.effSlot w j) then
          some (mkCtx d p q s x w j)
        else none

/-- Host reads cannot have arrived while the link is not UP: their granules are missed (R58, R429). -/
def Ctx.missHost (c : Ctx) (w : W) : W :=
  if w.dev.halter.isUp then w
  else W.each c.sources (fun i w => match c.step.plan.desc? i with
    | some d =>
      if d.space = spHost && d.deadlineSet then
        let gs := ((c.units w.dev).map fun u => granulesAt (c.key w.dev spHost u (c.addr d u)) d.length).flatten
        w.step c.p fun s => { s with
          missed := (gs.map fun g => (i, c.rep, g)) ++ s.missed, misses := if d.missZero then s.misses + gs.length else s.misses }
      else w
    | none => w) w

/-- The step comes to a word's cycle, with the host reads that cannot have arrived (R57, R58). -/
def W.atWord (c : Ctx) (w : W) : W :=
  let w := w.comeTo c.p c.slot
  match w.dev.issue? c.p c.w c.rep with
  | none => w
  | some c => c.missHost w

/-- The word issues on a unit at all: a shadow word only where a stall's guard flag is set (R55, R125). -/
def Ctx.issuesOnSome (c : Ctx) : Bool :=
  !c.word.s || (match c.step.plan.desc? c.word.dst with | some d => c.stallUnits.any fun u => c.step.guardSet u.flat d.guard | none => false)

/-- The word has issued: what it wrote since `w0` enters the CRCs, and what it found failing is recorded. -/
def W.wordDone (c : Ctx) (w0 w : W) : W :=
  let w := (w.addCrcs c w0).step c.p fun s => { s with issued := (c.w, c.rep) :: s.issued, varied := s.varied || (c.word.v && c.issuesOnSome) }
  (w.settleReads c.p).noteBreach c.p c.w

/-- Locked sequences that an issue opens or carries on, as (table, first cycle, cycle after the last): a word with L set holds its tables up to
the end of the next word of its kind and mask, and an UPDATE locks each row (R50, R148, R157, R320). -/
def Ctx.locks (c : Ctx) (d : Dev) : List (Nat × Nat × Nat) :=
  let s := c.step
  let at_ := s.arithCycle
  let stop := fun (c : Ctx) => c.slot + c.duration d
  let next : List Ctx := match d.pad? c.p with
    | some q => s.plan.issueList.filterMap fun (i : Nat × Nat) => (s.plan.words[i.1]?).bind fun x =>
        let n := mkCtx d c.p q s x i.1 i.2
        if x.kind = c.word.kind && x.mask = c.word.mask && decide (c.slot < n.slot) then some n else none
    | none => []
  let chain := if c.word.l then
      let e := match next with | n :: r => stop (r.foldl (fun a b => if b.slot < a.slot then b else a) n) | [] => stop c
      (c.lockTables d).map fun t => (t, at_ c.slot, at_ e)
    else []
  let rows := match d.pad? c.p with
    | some q => ((c.bayUnits d).map fun u => (LoadEnv.updateLocksAt { dev := d, p := c.p, pad := q } c u.bay).map fun x => (u.bay, at_ x.1, at_ x.2)).flatten
    | none => []
  chain ++ (if c.word.cls = cBAYGATHER then rows else [])

/-- Locked sequences of the words of running steps that have yet to issue: they are announced (R157). -/
def Dev.announced (d : Dev) : List (Nat × Nat × Nat) :=
  (d.pads.map fun (x : Nat × Paddock) => match x.2.step with
    | none => []
    | some s => ((s.plan.issueList.filter fun i => !s.issued.contains i).map fun i => match s.plan.words[i.1]? with
      | some y => (mkCtx d x.1 x.2 s y i.1 i.2).locks d
      | none => []).flatten).flatten

/-- The word runs until it ends, and background keeps off what it locks. -/
def W.underWay (c : Ctx) (w : W) : W :=
  let w := (w.begin c).wordOn c
  let locks := c.locks w.dev
  if locks.isEmpty then w else w.slots fun t => { t with planLocks := t.planLocks ++ locks }

/-- The issue of a word whose meaning is `f` (R57, R59, R100). -/
def W.issue (c : Ctx) (f : Ctx → W → W) (w : W) : W :=
  let w := w.atWord c
  match w.dev.issue? c.p c.w c.rep with
  | none => w
  | some c =>
    let (lost, w) := w.losesPair c
    if lost || c.breaches w.dev then (w.step c.p fun s => { s with breached := true }).noteBreach c.p c.w
    else
      let w0 := c.countPages w
      (((f c w0).clashes c).underWay c).wordDone c w0

def anyWord (_ : Ctx) (_ : W) : Bool := true

/-- The word does nothing but occupy its units or steer the sequencer (R51, R54, R560). -/
def doNothing (_ : Ctx) (w : W) : W := w

end Sys2Proof.Machine
end

