-- ==== Sys2Proof/Machine/Arbiter.lean ====
section
/-! DEFINITION. The arbiter of the slot tables: what it grants, the background ranking and locked sequences, its counters, and the changes
of a table that apply at a launch point (R152, R156 to R162, R346, R372, R373, R404). Which requester has an access ready at which cycle
no rule says: `Config.ready` and `Config.lockAsked` do (log entry 35). -/

namespace Sys2Proof.Machine

/-! ### Requesters -/

/-- A requester: the planned owner of an entry, a background owner by its code, link control, or unplanned traffic of a stack port. -/
abbrev rqPlanned := 0
abbrev rqLink := 0x10
abbrev rqPort (y : Nat) := 0x20 + y

/-- Planned owners (R155, R159). -/
def plannedOwner (k : TableKind) (o : Nat) : Bool := ownerHasPad k o

/-- The background ranking of a table, best first; `rr` is the port at which the round-robin stands (R156, R159, R346, R373, R404). -/
def backgroundRank (k : TableKind) (urgent : Bool) (rr : Nat) : List Nat :=
  match k with
  | .pc => [oHost, oMigrate, oGroom] ++ (List.range 8).map fun i => rqPort ((rr + i) % 8)
  | .barn => [oHost, oMigrate, oGroom]
  | .shed => if urgent then [oCal, oHost, oMigrate, oGroom] else [oHost, oMigrate, oGroom, oCal]
  | .drove => [rqLink, oHost, oGroom]
  | .shared => [oGroom]

/-- Owners that ask for background locked sequences: the migration engine, the groom and the shed's translation layer (R157, R373). -/
def mayLock (k : TableKind) (who : Nat) : Bool := who = oMigrate || who = oGroom || (k = .shed && who = oCal)

/-! ### Grants -/

/-- Arithmetic cycles from one grant to the next, as a fraction: a pair of cycles, a barn slot, a pair of shed slots, a pair of Drove slots, a
cycle (R42, R153, R159, R344, R371, R401). -/
def grantCycles : TableKind → Nat × Nat
  | .pc => (2, 1)
  | .barn => (84, 43)
  | .shed => (126, 5)
  | .drove => (672, 265)
  | .shared => (1, 1)

/-- Grants begun before herd count `h`. -/
def grantsAt (k : TableKind) (h : Nat) : Nat := ceilDiv (h * 21 * (grantCycles k).2) (8 * (grantCycles k).1)

def grantCycle (k : TableKind) (g : Nat) : Nat := g * (grantCycles k).1 / (grantCycles k).2

/-- Entry that governs grant `g`: frame 0 begins at herd count 0. -/
def grantEntry (k : TableKind) (g : Nat) : Nat :=
  match k with
  | .barn | .shared => g % 256
  | _ => 2 * (g % 128)

/-- Longest background locked sequence in grants: 64 cycles, 32 barn slots, 64 shed slots, 28 Drove slots. -/
def lockMax : TableKind → Nat
  | .pc => 32
  | .barn => 32
  | .shed => 32
  | .drove => 14
  | .shared => 64

/-- What a grant goes to. -/
inductive Grant where
  | nobody
  | planned
  | background (who : Nat)
deriving DecidableEq, Repr

/-- The arbiter of one table: the round-robin position, and the background locked sequence that stands, as owner and grant at which it ends. -/
structure Arbiter where
  rr : Nat
  lock : Option (Nat × Nat)
deriving DecidableEq, Repr

/-- What the arbiter sees at a grant: the table, its entries, whether its channel is urgent, and the planned locked sequences, as cycles. -/
structure ArbView where
  table : Nat
  entries : List Nat
  urgent : Bool
  locks : List (Nat × Nat)

def ArbView.kind (v : ArbView) : TableKind := tableKind v.table

/-- A planned locked sequence is open at grant `g`. -/
def ArbView.locked (v : ArbView) (g : Nat) : Bool :=
  let c := grantCycle v.kind g
  v.locks.any fun l => decide (l.1 ≤ c) && decide (c < l.2)

/-- Length in grants of the locked sequence that `who` asks for; 1 where it asks for none. -/
def ArbView.span (v : ArbView) (g who : Nat) : Nat :=
  if mayLock v.kind who then max 1 (min (Config.lockAsked v.table g who) (lockMax v.kind)) else 1

/-- `who` has an access ready that the arbiter may grant: no planned locked sequence opens within the span that it asks for (R157). -/
def ArbView.mayGrant (v : ArbView) (g who : Nat) : Bool :=
  Config.ready v.table g who && (List.range (v.span g who)).all fun i => !v.locked (g + i)

/-- `x` ranks above `y`. -/
def ranksAbove (l : List Nat) (x y : Nat) : Bool := (l.takeWhile (· ≠ y)).contains x && l.contains y

/-- One grant (R156, R157). -/
def arbitrate (v : ArbView) (g : Nat) (a : Arbiter) : Grant × Arbiter :=
  let k := v.kind
  let o := entryOwner (v.entries.getD (grantEntry k g) 0)
  let a := match a.lock with | some l => if l.2 ≤ g then { a with lock := none } else a | none => a
  let ranks := backgroundRank k v.urgent a.rr
  let own := if plannedOwner k o || o = oNone then [] else [o]
  if o = oRemoved then (.nobody, a)
  else if plannedOwner k o && Config.ready v.table g rqPlanned then (.planned, a)
  else if v.locked g then (.nobody, a)
  else match a.lock with
    | some (h, _) =>
      -- the holder takes what would fall to background, and nobody who ranks above it is granted
      (.background ((own.find? fun x => Config.ready v.table g x && !ranksAbove ranks x h).getD h), a)
    | none => match (own ++ ranks).find? (v.mayGrant g) with
      | none => (.nobody, a)
      | some who =>
        let n := v.span g who
        (.background who,
         { rr := if decide (rqPort 0 ≤ who) then (who - rqPort 0 + 1) % 8 else a.rr
           lock := if 1 < n then some (who, g + n) else none })

/-- The grants `g` to `g + n − 1`: pairs granted to background and to nobody are counted (R162). -/
def arbitrateMany (v : ArbView) : Nat → Nat → Arbiter × Nat × Nat → Arbiter × Nat × Nat
  | 0, _, s => s
  | n + 1, g, (a, bg, idle) =>
    let r := arbitrate v g a
    arbitrateMany v n (g + 1) (r.2, bg + (match r.1 with | .background _ => 1 | _ => 0), idle + (match r.1 with | .nobody => 1 | _ => 0))

/-! ### Counters (R161, R162) -/

def Dev.arbView (d : Dev) (t : Nat) (locks : List (Nat × Nat × Nat)) : ArbView :=
  { table := t, entries := tableEntries d.slots.act t, urgent := tableKind t = .shed && d.urgent (t - tShed 0)
    locks := (locks.filter (·.1 = t)).map (·.2) }

/-- Counts what table `t` has granted up to now. -/
def W.countGrants (t : Nat) (w : W) : W :=
  let d := w.dev
  let k := tableKind t
  let g0 := nget d.slots.counted t
  let g1 := grantsAt k w.herd
  let a : Arbiter := { rr := nget d.slots.rrNext t, lock := (d.slots.bgLocks.find? (·.1 = t)).map (·.2) }
  let r := arbitrateMany (d.arbView t (d.slots.planLocks ++ d.announced)) (g1 - g0) g0 (a, nget d.slots.bgPairs t, nget d.slots.idlePairs t)
  w.slots fun s => { s with
    counted := nput t (max g0 g1) s.counted
    rrNext := nput t r.1.rr s.rrNext
    bgLocks := (match r.1.lock with | some l => [(t, l)] | none => []) ++ s.bgLocks.filter (·.1 ≠ t)
    planLocks := s.planLocks.filter fun l => l.1 ≠ t || decide (grantCycle k g1 < l.2.2)
    bgPairs := nput t (r.2.1 % 2 ^ 16) s.bgPairs
    idlePairs := nput t (r.2.2 % 2 ^ 16) s.idlePairs }

/-! ### Changes apply (R158) -/

/-- Applies one change. What its tables have granted until now is counted first; a table that is swapped starts its round-robin at port 0
(R156). -/
def W.applyChange (ch : TableChange) (w : W) : W :=
  let w := W.each ch.tables W.countGrants w
  let d := w.dev
  let w := w.slots fun s => { s with
    act := ch.tables.foldl (fun a t => setTable t (d.newTable ch t) a) s.act
    base := if ch.swaps then ch.tables.foldl (fun a t => setTable t (tableEntries ch.copy t) a) s.base else s.base
    cal := if ch.cause = 2 then addAllNat ch.tables s.cal else if ch.cause = 3 then s.cal.filter fun t => !ch.tables.contains t else s.cal
    grm := if ch.cause = 6 then addAllNat ch.tables s.grm else if ch.cause = 7 then s.grm.filter fun t => !ch.tables.contains t else s.grm
    linkAct := if ch.links then ch.linkCopy else s.linkAct
    rrNext := if ch.swaps then ch.tables.foldl (fun a t => tdel t a) s.rrNext else s.rrNext }
  if ch.cause = 1 then w.tiers fun t => { t with therm := tput ch.stack { d.therm ch.stack with applied := (d.therm ch.stack).computed } t.therm } else w

/-- At a launch point every waiting change applies whose paddocks have no step running; the others go on waiting. -/
def W.applyChanges (w : W) : W :=
  w.dev.slots.changes.foldl (fun a ch =>
    if (a.dev.changedPads ch).any a.dev.running then a
    else (a.applyChange ch).slots fun s => { s with changes := s.changes.filter (· ≠ ch) }) w

end Sys2Proof.Machine
end

