-- ==== Sys2Proof/Machine/Farrier.lean ====
section
/-! DEFINITION. The checked registers and what firmware commits (R521 to R524). -/

namespace Sys2Proof.Machine

/-! ### Checked registers (R521, R522) -/

def bGlobal := 0x0000_0000
def bCfg := 0x0000_1000
def bBoot := 0x0000_2000
def bFault := 0x0000_3000
def bRing := 0x0001_0000
def bFabric := 0x0002_0000
def bIdx := 0x0004_0000

/-- RING_CTL (R418). -/
def Ring.ctl (g : Ring) : Nat := g.tenant * 2 ^ 24 + b2n g.admin * 4 + b2n g.streamEn * 2 + b2n g.enable

/-- EN_CFG (R481). -/
def Power.enCfg (p : Power) : Nat := bitsOf p.throttleW 0 11 * 2 ^ 21 + bitsOf p.allowW 0 11 * 2 ^ 10 + bitsOf p.windowMS 0 10

/-- Two 16-bit entries of a table in word `w`. -/
def tableWord (m : NMap) (t w : Nat) : Nat := tableEntry m t (2 * w) + tableEntry m t (2 * w + 1) * 65536

/-- Four link cycles in word `w` (R530). -/
def linkWord (m : NMap) (l w : Nat) : Nat := ofLe ((List.range 4).map fun i => BitVec.ofNat 8 (nget m (l * 256 + 4 * w + i)))

/-- A table of the part: absent units read zero (R7). -/
def Dev.tablePresent (d : Dev) (t : Nat) : Bool :=
  match tableKind t with
  | .barn => d.boot.part.hasBarn
  | .shed => decide (t - 544 < d.boot.part.shedChannels)
  | .drove => decide (t - 568 < d.boot.part.ports)
  | _ => true

def Dev.pendWord (d : Dev) (t w : Nat) : Nat := if d.tablePresent t then tableWord d.slots.pend t w else 0

/-- The checked registers in ascending key, with their values. -/
def Dev.checked (d : Dev) : List (Nat × Nat) :=
  let ring := fun (r : Nat) =>
    let g := d.ring r
    let a := bRing + r * 0x40
    [(a, g.sub % 2 ^ 32), (a + 4, g.sub / 2 ^ 32), (a + 8, g.cpl % 2 ^ 32), (a + 12, g.cpl / 2 ^ 32), (a + 16, g.str % 2 ^ 32), (a + 20, g.str / 2 ^ 32), (a + 24, g.ctl)]
  let words := fun (n : Nat) (f : Nat → Nat × Nat) => (List.range n).map f
  [(bFault + 4, b2n d.faults.noteAlert)] ++
  ((List.range 64).map ring).flatten ++
  [(bRing + 0x1000, d.events.base % 2 ^ 32), (bRing + 0x1004, d.events.base / 2 ^ 32)] ++
  ((List.range 119).map fun l => words 64 fun w => (bFabric + 0x1000 + l * 0x100 + 4 * w, linkWord d.slots.linkPend l w)).flatten ++
  ((List.range 15).map fun u => words 128 fun w => (bUnit + u * 0x400 + 4 * w, d.pendWord (568 + u) w)).flatten ++
  [(indKey 0 0x2_0008, d.power.enCfg)] ++
  ((List.range 512).map fun n => words 128 fun w => (indKey (1 + n / 64) (0x2_0000 + n % 64 * 0x200 + 4 * w), d.pendWord n w)).flatten ++
  ((List.range 32).map fun c => words 128 fun w => (indKey 9 (0x1_0000 + c * 0x200 + 4 * w), d.pendWord (512 + c) w)).flatten ++
  ((List.range 24).map fun c => words 128 fun w => (indKey 10 (0x1_0000 + c * 0x200 + 4 * w), d.pendWord (544 + c) w)).flatten ++
  ((List.range 8).map fun q =>
    let g := d.queue q
    let a := 0x4_0000 + q * 0x20
    [(indKey 10 a, g.sub % 2 ^ 32), (indKey 10 (a + 4), g.sub / 2 ^ 32), (indKey 10 (a + 8), g.cpl % 2 ^ 32), (indKey 10 (a + 12), g.cpl / 2 ^ 32)]).flatten

/-- CRC of a sweep (R522). -/
def sweepCrc (l : List (Nat × Nat)) : Nat := crc32c ((l.map fun x => leBytes 8 x.1 ++ leBytes 4 x.2).flatten)

/-- The values become the committed ones. -/
def W.commitCfg (l : List (Nat × Nat)) (w : W) : W :=
  w.cfg fun c => { c with ref := sweepCrc l, committed := l.filter fun x => x.2 ≠ 0 }

/-! ### Changes that firmware makes (R524) -/

/-- The host holds the window, or a commit of firmware's own window is in progress. -/
def CfgCheck.blocks (c : CfgCheck) : Bool :=
  match c.holder with
  | none => false
  | some true => c.committing
  | some false => true

/-- Firmware opens the window, changes checked registers, writes CFG_REF with the CRC of the new values and so closes the window: one act
here (log entry 24). Inside a window that firmware holds already, the change stands with that window. -/
def W.firmwareChange (f : W → W) (w : W) : W :=
  let open_ := w.dev.regs.cfg.holder.isSome
  let w := f w
  if open_ || !w.dev.regs.cfg.live then w
  else (w.commitCfg w.dev.checked).cfg fun c => { c with state := 1, timeoutGone := true, sweep := c.sweep.map fun x => { x with windowSeen := true } }

end Sys2Proof.Machine
end

