-- ==== Sys2Proof/Machine/Paddocks.lean ====
section
/-! DEFINITION. Paddocks: forming, scrub, the steps of a teardown, re-formation, and standing fences of every kind of unit (R389 to R399,
R411, R446). -/

namespace Sys2Proof.Machine

open Host

/-! ### Forming (R389 to R392) -/

structure FormBlock where
  paddock : Nat
  stables : List Nat
  mergeBytes : Nat
  stageBytes : Nat
  shares : List Share

def parseForm (b : Bytes) : FormBlock :=
  { paddock := fld b 0 1, stables := setBits 256 (fld b 8 32), mergeBytes := fld b 40 4, stageBytes := fld b 44 4
    shares := (records 40 (b.drop 64)).map parseShare }

/-- A share entry within R390. -/
def Share.ok (s : Share) : Bool :=
  s.resv = 0 &&
  (if s.target = 8 then decide (s.index < 119) && s.owner = 0
   else match shareTable s.target s.index with
     | some t => shareOwnerOk (tableKind t) s.owner
     | none => false)

def formOk (b : Bytes) : Bool :=
  let n := fld b 4 4
  decide (64 ≤ b.length) && decide (n ≤ 65536) && b.length = 64 + 40 * n && decide (fld b 0 1 ≤ 63) && allZero (slice b 1 3) && allZero (slice b 48 16)
  && fld b 40 4 % 65536 = 0 && fld b 44 4 % 1048576 = 0 && decide (fld b 8 32 ≠ 0) && (parseForm b).shares.all Share.ok

/-- The pending tables with the share entries of paddock `p` written. -/
def putShares (p : Nat) (l : List Share) (m : NMap) : NMap :=
  l.foldl (fun m s => match shareTable s.target s.index with
    | some t => (setBits 256 s.entries).foldl (fun m e => nput (t * 256 + e) (mkEntry s.owner p) m) m
    | none => m) m

def putLinks (p : Nat) (l : List Share) (m : NMap) : NMap :=
  l.foldl (fun m s => if s.target = 8 then (setBits 256 s.entries).foldl (fun m e => nput (s.index * 256 + e) (0x80 + p) m) m else m) m

/-- Entries and link cycles that share entries name, as numbers; links come after the tables. -/
def shareKeys (l : List Share) : List Nat :=
  (l.map fun s => match if s.target = 8 then some (1024 + s.index) else shareTable s.target s.index with
    | some t => (setBits 256 s.entries).map fun e => t * 256 + e
    | none => []).flatten

def shareTables (l : List Share) : List Nat := sortNat (l.filterMap fun s => if s.target = 8 then none else shareTable s.target s.index)

/-- Check 6 of R391. The other rules that SWAP holds a pending table to are no check of a form command (log entry 25). -/
def Dev.sharesFree (d : Dev) (p : Nat) (l : List Share) : Bool :=
  let keys := shareKeys l
  let new := putShares p l d.slots.pend
  noRepeats keys
  && keys.all (fun k => if k < 1024 * 256 then nget d.slots.pend k = 0 else nget d.slots.linkPend (k - 1024 * 256) = 0)
  && (shareTables l).all fun t => tableKind t ≠ .pc || oneBayPaddock (tableEntries new t)

/-- The lowest free place of a merge-store region (DESIGN CHOICE, log entry 25). -/
def Dev.mergePlace (d : Dev) (n : Nat) : Option Nat :=
  let used := d.pads.map fun (x : Nat × Paddock) => (x.2.mergeBase, x.2.mergeBase + x.2.mergeBytes)
  minNat? ((0 :: used.map (·.2)).filter fun a => decide (a + n ≤ 0x40_0000) && used.all fun u => decide (a + n ≤ u.1) || decide (u.2 ≤ a) || n = 0 || u.1 = u.2)

def Dev.formStatus (d : Dev) (b : Bytes) : Option Status :=
  let f := parseForm b
  let held := (d.pads.map fun (x : Nat × Paddock) => x.2.stables).flatten
  if !formOk b then some .badRequest
  else if (d.pad? f.paddock).isSome then some .paddockBusy
  else if f.stables.any fun s => !d.stableAvailable s then some .stableUnavailable
  else if f.stables.any held.contains then some .stableTaken
  else if f.shares.any fun s => (s.target ≠ 8 && match shareTable s.target s.index with | some t => !d.tablePresent t | none => false)
      || (decide (5 ≤ s.target) && decide (s.target ≤ 7) && d.unitFenced (uMerge + (s.target - 5)) 0)
      || (s.target = 4 && s.owner = oLockstep && !d.boot.part.lockstep) then some .unitAbsent
  else if !d.sharesFree f.paddock f.shares then some .shareConflict
  else if (d.mergePlace f.mergeBytes).isNone
      || decide (0x200_0000 < f.stageBytes + sumNat (d.pads.map fun (x : Nat × Paddock) => x.2.stageBytes)) then some .shareFull
  else none

def Paddock.new (stables : List Nat) (mergeBase mergeBytes stageBytes : Nat) (cmd : Nat × Nat) : Paddock :=
  { state := .forming, stables := stables, mergeBase := mergeBase, mergeBytes := mergeBytes, stageBytes := stageBytes, resident := 0, prefill := 0
    ratioSeen := (0, 0), pendServing := none, serving := none, plans := [], batches := [], decided := [], step := none, replay := none, gated := none
    adapters := [], adapterCounts := [], tenantPtr := 0, depthMax := 2, formCmd := some cmd, scrubbing := false, scrubDone := false, teardown := none, reform := none
    lockstep := none, appended := [], flying := [] }

/-- PADDOCK_FORM. Its table writes wait while the host holds the configuration window (R524). -/
def doPaddockForm (w : W) (r : Nat) (o : Outstanding) : W :=
  let b := w.payload o
  match w.dev.formStatus b with
  | some st => w.complete r o.index st
  | none =>
    if w.dev.regs.cfg.blocks then w.cfg fun c => { c with waiting := c.waiting ++ [r * 256 + o.index] }
    else
      let f := parseForm b
      let base := (w.dev.mergePlace f.mergeBytes).getD 0
      let w := { w with dev := { w.dev with pads := tput f.paddock (Paddock.new f.stables base f.mergeBytes f.stageBytes (r, o.index)) w.dev.pads } }
      let w := w.firmwareChange (W.slots fun s => { s with pend := putShares f.paddock f.shares s.pend, linkPend := putLinks f.paddock f.shares s.linkPend })
      if f.shares.isEmpty then w
      else w.addChange { cause := 4, tables := shareTables f.shares, links := f.shares.any (·.target = 8), stack := 0 }

/-! ### Scrub (R394) -/

/-- The stores that a scrub of paddock `p` clears. -/
def Dev.scrubbed (d : Dev) (p : Nat) (q : Paddock) (k : Nat) : Bool :=
  let u := keyUnit k
  (stallStore (keySpace k) && q.stables.contains (u / d.S))
  || (keySpace k = spLoft && q.stables.contains u)
  || (keySpace k = spBay && (d.bayHolder u = some p || (match q.teardown with | some t => t.bays.contains u | none => false)))
  || (keySpace k = spMerge && decide (q.mergeBase ≤ keyOff k) && decide (keyOff k < q.mergeBase + q.mergeBytes))

/-- The scrub of a paddock ends: a forming one is ready at the next launch point; a torn-down one is no more, its stables are free and
its command completes. -/
def W.scrubEnd (p : Nat) (w : W) : W :=
  match w.dev.pad? p with
  | none => w
  | some q =>
    if !q.scrubbing then w
    else
      let w := w.wipe (w.dev.scrubbed p q)
      if q.state = .tearing then
        let w := { w with dev := { w.dev with pads := tdel p w.dev.pads } }
        let w := w.faults fun f => { f with heldPages := f.heldPages.filter fun x => x.1 ≠ p }
        match q.teardown with
        | some t => w.complete t.ring t.index .done w.herd
        | none => w
      else w.pad p fun q => { q with scrubbing := false, scrubDone := true }

/-! ### Teardown from its third step on (R396) -/

/-- Tables in whose pending or active entries paddock `p` stands. -/
def Dev.padTables (d : Dev) (p : Nat) : List Nat :=
  sortNat (((d.slots.pend ++ d.slots.act ++ d.slots.base).filter fun kv => ownerHasPad (tableKind (kv.1 / 256)) (entryOwner kv.2) && entryPad kv.2 = p).map fun kv => kv.1 / 256)

def clearPad (p : Nat) (m : NMap) : NMap :=
  m.filter fun kv => !(ownerHasPad (tableKind (kv.1 / 256)) (entryOwner kv.2) && entryPad kv.2 = p)

/-- Step 5: every entry of the paddock is NONE and its link map is clear, from the next launch point on. The bays that it still holds are those
that its scrub clears (R140, R394). -/
def W.clearEntries (p : Nat) (w : W) : W :=
  let bays := w.dev.baysOf p 255
  let w := w.pad p fun q => { q with teardown := q.teardown.map fun t => { t with bays := addAllNat bays t.bays } }
  let tables := w.dev.padTables p
  let links := (w.dev.slots.linkPend ++ w.dev.slots.linkAct).any fun kv => kv.2 = 0x80 + p
  let w := w.firmwareChange (W.slots fun s => { s with pend := clearPad p s.pend, linkPend := s.linkPend.filter fun kv => kv.2 ≠ 0x80 + p })
  if tables.isEmpty && !links then w else w.addChange { cause := 4, tables := tables, links := links, stack := 0 }

/-- No step of the paddock runs, waits or is held back. -/
def Paddock.still (q : Paddock) : Bool := q.step.isNone && q.replay.isNone && q.gated.isNone

/-- Steps 3 to 5, once the last step is over. The table writes wait while the host holds the configuration window. -/
def W.tearOn (p : Nat) (w : W) : W :=
  match w.dev.pad? p with
  | none => w
  | some q => match q.teardown with
    | none => w
    | some t =>
      if !q.still then w
      else
        let w := w.abortRequests p
        let w := w.pad p fun q => { q with adapters := [], serving := none, pendServing := none, flying := [] }
        let w := (w.unloadPlans p fun _ => true).freeVersions
        if w.dev.regs.cfg.blocks then w.cfg fun c => { c with waiting := c.waiting ++ [t.ring * 256 + t.index] }
        else w.clearEntries p

/-- What the completion of PADDOCK_FORM reports beside its VALUE: the logical stall count, 4 bytes, then the paddock yards in the order of R52, a byte
each. R392 lists both and no rule lays them out; R424 gives the command no result, so that they are written as far as RESULT_LEN goes (DESIGN CHOICE:
log entry 61). -/
def formResult (S : Nat) (stables : List Nat) : Bytes := leBytes 4 (S * stables.length) ++ (yardsOf stables).map (BitVec.ofNat 8)

/-- At a launch point: the scrub of a paddock whose tables have applied begins; a scrubbed paddock is READY. -/
def W.padLaunchPoint (w : W) : W :=
  W.each (w.dev.pads.map (·.1)) (fun p w => match w.dev.pad? p with
    | none => w
    | some q =>
      let clear := (w.dev.padTables p).isEmpty && !(w.dev.slots.linkPend ++ w.dev.slots.linkAct).any fun kv => kv.2 = 0x80 + p
      if q.state = .forming then
        if q.scrubDone then
          let w := w.pad p fun q => { q with state := .ready, scrubDone := false, formCmd := none }
          (match q.formCmd with | some c => w.complete c.1 c.2 .done w.herd (formResult w.dev.S q.stables) | none => w)
        else if w.dev.changeWaits p then w
        else w.pad p fun q => { q with scrubbing := true }
      else if q.state = .tearing && q.still && !w.dev.changeWaits p && clear then w.pad p fun q => { q with scrubbing := true }
      else w) w

/-! ### Re-formation (R29, R398, R399) -/

/-- The record of a re-formation. -/
def reformRecord (kind p flat old new ps physOld physNew spares herd : Nat) : Bytes :=
  leBytes 1 kind ++ leBytes 1 p ++ zeros 2 ++ leBytes 4 flat ++ leBytes 4 old ++ leBytes 4 new ++ leBytes 1 ps ++ leBytes 1 physOld ++
  leBytes 1 physNew ++ leBytes 1 spares ++ zeros 4 ++ leBytes 8 herd

def W.dropFence (unit : Nat) (w : W) : W := w.faults fun f => { f with toFence := f.toFence.filter (· ≠ unit) }

/-- A spare takes the number of a stall, and its stores are zero. -/
def W.moveStall (flat phys : Nat) (w : W) : W :=
  let w := { w with dev := { w.dev with moves := (flat, phys) :: w.dev.moves } }
  w.wipe fun k => stallStore (keySpace k) && keyUnit k = flat

/-- Physical stable of a stall or stable unit. -/
def fenceStable (u : Nat) : Nat := if fenceKind u = uStall then fenceIndex u / 108 else fenceIndex u

/-- Physical number within its stable of a stall under a fence, 0xFF for a stable. -/
def fencePhys (u : Nat) : Nat := if fenceKind u = uStall then fenceIndex u % 108 else 0xFF

def Dev.padOfStable (d : Dev) (ls : Nat) : Option Nat := (d.pads.find? fun (x : Nat × Paddock) => x.2.stables.contains ls).map (·.1)

/-- A stall or stable in no paddock that could re-form: a spare takes the stall's number at once, or the stable is lost to this start. -/
def W.fenceIdle (u ls : Nat) (w : W) : W :=
  let ps := fenceStable u
  match if fenceKind u = uStall then w.dev.flatIn ls (fenceIndex u) else none with
  | some flat => match w.dev.spareStalls ps with
    | x :: _ => w.moveStall flat x
    | [] => { w with dev := { w.dev with goneStables := insertNat ls w.dev.goneStables } }
  | none => if fenceKind u = uStable then { w with dev := { w.dev with goneStables := insertNat ls w.dev.goneStables } } else w

/-- Re-formations that can begin do: the paddock has no step running. A paddock that is torn down does not re-form: the number only moves to a
spare (R29, R411). -/
def W.beginReforms (w : W) : W :=
  W.each (w.dev.faults.toFence.filter fun u => fenceKind u = uStall || fenceKind u = uStable) (fun u w =>
    match w.dev.logicalOf (fenceStable u) with
    | none => w.dropFence u
    | some ls =>
      let flat := if fenceKind u = uStall then w.dev.flatIn ls (fenceIndex u) else some (ls * w.dev.S)
      match flat, w.dev.padOfStable ls with
      | none, _ => w.dropFence u
      | some _, none => (w.fenceIdle u ls).dropFence u
      | some flat, some p => match w.dev.pad? p with
        | none => w
        | some q =>
          if q.state = .ready && !w.dev.running p && q.gated.isNone then
            w.pad p fun q => { q with state := .reforming, reform := some { flat := flat, physStable := fenceStable u % 9, physOld := fencePhys u } }
          else if q.state = .tearing && !w.dev.running p then (w.fenceIdle u ls).dropFence u
          else w) w

/-! ### CANCEL commands that wait for the end of a step (R67, R297) -/

/-- KIND of a CANCEL command. -/
def Outstanding.cancelKind (o : Outstanding) : Nat := o.field 32 1

/-- The step ends: a CANCEL of its batch finds it complete; one of a request is done if the request ended CANCELLED by it. -/
def W.finishCancels (s : Step) (done : Nat → Bool) (w : W) : W :=
  W.each s.cancel (fun (c : Nat × Nat) w => match w.dev.outstanding? c.1 c.2 with
    | none => w
    | some o => w.complete c.1 c.2 (if o.cancelKind = 1 && done (o.field 36 4) then .done else .alreadyComplete)) w

/-- The step ends without a commit or a failure: its requests that are cancelled end CANCELLED, since no step carries them any more. -/
def W.endCancels (s : Step) (w : W) : W :=
  let mine := w.dev.serve.requests.filter fun r => r.cancelled && s.carriesRow r.number
  (W.each mine (fun r w => w.closeRequest r rCancelled) w).finishCancels s fun n => mine.any fun r => r.number = n

/-- Completes the batch of a step with the record of an attempt; a service step has no command (R430). -/
def W.completeBatch (s : Step) (st : Status) (record : Bytes) (w : W) : W :=
  if s.batch.service = 0 then w.complete s.batch.ring s.batch.index st s.launch record else w

/-- What is bound no more is released. -/
def W.stepReleases (w : W) : W := ((w.releaseOlds).freeVersions).freeAllocs

/-- The abandoned step's batch of a paddock that shrank. Requests of a generation step go on under later plans, but those that are cancelled. -/
def W.dropShrunk (p : Nat) (w : W) : W :=
  match (w.dev.pad? p).bind (·.replay) with
  | none => w
  | some s =>
    let w := w.pad p fun q => { q with replay := none, resident := if s.plan.kind = pkPhase then 0 else q.resident }
    ((w.completeBatch s .paddockShrunk s.last).endCancels s).stepReleases

/-- The re-formation of paddock `p` ends. -/
def W.reformEnd (p : Nat) (w : W) : W :=
  match w.dev.pad? p with
  | none => w
  | some q => match q.reform with
    | none => w
    | some f =>
      let S := w.dev.S
      let ls := f.flat / S
      let yps := ls / 8 * 9 + f.physStable
      let unit := if f.physOld = 0xFF then unitKey uStable yps else unitKey uStall (yps * 108 + f.physOld)
      let old := q.stables.length * S
      let w := (w.dropFence unit).pad p fun q => { q with state := .ready, reform := none }
      let spares := if f.physOld = 0xFF then [] else w.dev.spareStalls yps
      let report := fun (kind new physNew left : Nat) (w : W) =>
        let b := reformRecord kind p f.flat old new f.physStable f.physOld physNew left w.herd
        (w.appendLog b).event 2 b
      let w := match spares with
        | x :: rest => report 1 old (x % 108) rest.length (w.moveStall f.flat x)
        | [] =>
          let new := old - S
          let w := { w with dev := { w.dev with goneStables := insertNat ls w.dev.goneStables } }
          let w := w.pad p fun q =>
            let left := q.stables.filter (· ≠ ls)
            { q with stables := left, prefill := min q.prefill left.length }
          let w := (w.dropShrunk p).unloadPlans p fun x => x.stalls ≠ new
          report 2 new 0xFF 0 w
      w.finishRecoveries 17

/-! ### Standing fences of other units, at a launch point (R446) -/

/-- The paddock holds what a share entry asks for but for throttling and calibration, which pass. -/
def Dev.keepsShare (d : Dev) (p : Nat) (s : Share) : Bool :=
  if s.target = 8 then holdsLink d.slots.linkAct s.index p s.entries
  else match shareTable s.target s.index with
    | some t =>
      let es := fencedTable d.faults.standing t (tableEntries d.slots.base t)
      (setBits 256 s.entries).all fun e => es.getD e 0 = mkEntry s.owner p
    | none => false

/-- A standing fence has taken an entry that the share entry asks for. -/
def Dev.fenceTakes (d : Dev) (p : Nat) (s : Share) : Bool :=
  match shareTable s.target s.index with
  | some t =>
    let es := tableEntries d.slots.base t
    let left := fencedTable d.faults.standing t es
    (setBits 256 s.entries).any fun e => es.getD e 0 = mkEntry s.owner p && left.getD e 0 ≠ mkEntry s.owner p
  | none => false

/-- Queued batches with loaded variants none of which fit the tables complete with SHARE_MISSING. -/
def W.dropUnshared (w : W) : W :=
  W.each w.dev.pads (fun (x : Nat × Paddock) w =>
    let p := x.1
    let fits := fun (b : Batch) => x.2.plans.any fun y => y.family = b.family && y.shares.all (w.dev.keepsShare p)
    let gone := x.2.batches.filter fun b => b.service = 0 && !fits b
    let w := w.pad p fun q => { q with batches := q.batches.filter fun b => !gone.contains b }
    W.each gone (fun b w => w.complete b.ring b.index .shareMissing) w) w

/-- Indexes and tables with data in the keys that `f` picks are lost; `bay` is a bay whose partitions and rows are lost. -/
def W.loseData (bay : Option Nat) (hit : Region → Bool) (w : W) : W :=
  let w := W.each (w.dev.indexes.filter fun x => x.regions.any hit || match bay with | some n => x.desc.partMask.testBit n | none => false)
    (fun x w => w.loseIndex x.desc.indexId) w
  W.each (w.dev.embs.filter fun x => x.regions.any hit || match bay with | some n => x.desc.partMask.testBit n | none => false)
    (fun x w => w.loseEmb x.handle) w

/-- A region that lies in pseudo-channel `n`, or that is interleaved over the stack of it. -/
def Region.inPc (n : Nat) (r : Region) : Bool := r.space = spStack && (match r.pc with | some m => m = n | none => decide (r.lo / 2 ^ 37 ≤ n / 64) && decide (n / 64 ≤ (r.hi - 1) / 2 ^ 37))

/-- The effect of one standing fence begins, in a table change where the unit has a slot table. -/
def W.fenceUnit (u : Nat) (w : W) : W :=
  let n := fenceIndex u
  let change := fun (t : Nat) (w : W) => w.addChange { cause := 5, tables := [t], links := false, stack := n / 64 }
  if fenceKind u = uBay then (change n w).loseData (some n) fun _ => false
  else if fenceKind u = uPc then (change n w).loseData none (Region.inPc n)
  else if fenceKind u = uBarn then (change (512 + n) w).loseData none fun r => r.space = spBarn
  else if fenceKind u = uShed then w.shedReadOnly
  else if fenceKind u = uHalter then w.halter fun l => if l.state = 2 then { l with state := 3 } else l
  else if fenceKind u = uDrove then w.port n fun l => { l with state := 0 }
  else if fenceKind u = uCore then
    let left := 16 - (w.dev.faults.standing.filter fun x => fenceKind x = uCore).length
    if left < 2 then w.detect caCores uCore n left 0 [] else w
  else w

/-- The fence of a unit with a slot table stands once its change has applied. -/
def Dev.fenceStands (d : Dev) (u : Nat) : Bool :=
  let t := if fenceKind u = uBarn then 512 + fenceIndex u else fenceIndex u
  if fenceKind u = uBay || fenceKind u = uPc || fenceKind u = uBarn then !d.slots.changes.any fun c => c.cause = 5 && c.tables.contains t
  else true

/-- At a launch point, before the table changes apply: fences that wait begin. -/
def W.applyFences (w : W) : W :=
  W.each (w.dev.faults.toFence.filter fun u => fenceKind u ≠ uStall && fenceKind u ≠ uStable) W.fenceUnit w

/-- After the table changes of a launch point: fences that stand need nothing more. -/
def W.fencesDone (w : W) : W :=
  let stood := w.dev.faults.toFence.filter fun u => fenceKind u ≠ uStall && fenceKind u ≠ uStable && w.dev.fenceStands u
  if stood.isEmpty then w
  else ((w.faults fun f => { f with toFence := f.toFence.filter fun u => !stood.contains u }).dropUnshared).finishRecoveries 17

end Sys2Proof.Machine
end

