-- ==== Sys2Proof/Machine/Boundary.lean ====
section
/-! DEFINITION. The end of a step: holds, abandon, replay and failure, the boundary and its commits, the step record, lock-step comparison,
and the beginning of a teardown (R64 to R67, R73, R78, R80, R81, R126, R297, R315, R396, R430, R443, R474). -/

namespace Sys2Proof.Machine

open Host

/-! ### Lock-step digests (R80) -/

/-- The digest of a step: eight bytes of SHA3-256 over the plan's DIGEST, the launch herd count and the CRCs of its units in order. -/
def Step.digest (s : Step) : Nat :=
  ofLe ((sha3 (s.plan.digest ++ leBytes 8 s.launch ++ (s.crcs.map fun c => leBytes 4 (c.2 - 1)).flatten)).take 8)

/-! ### The step record (R430) -/

/-- Count and lowest number of a list of stalls. -/
def countLowest (l : List Nat) : Bytes := leBytes 4 l.length ++ leBytes 4 ((minNat? l).getD 0)

/-- The step record of an attempt that is over. -/
def stepRecord (S : Nat) (q : Paddock) (s : Step) : Bytes :=
  let entries := (List.range s.plan.guards.length).filterMap fun i => match s.plan.guards[i]? with
    | some g => if g.guard = 0 then none else some (leBytes 2 g.guard ++ zeros 2 ++ leBytes 4 (nget s.guardCount i))
    | none => none
  let flags := b2n s.varied + 2 * b2n s.ovfRejects + 4 * b2n (decide (0 < s.spilled)) + 8 * b2n s.capped
  leBytes 8 s.plan.planId ++ leBytes 8 s.launch ++ leBytes 8 s.ended ++ leBytes 4 s.misses ++ leBytes 4 s.holdFrames ++ leBytes 1 s.attempt ++
  leBytes 1 flags ++ leBytes 2 entries.length ++ leBytes 4 s.shadowIssues ++ countLowest s.ovfAcc ++ countLowest s.ovfCvt ++
  leBytes 4 s.bayGuard.length ++ leBytes 4 s.bayOvf.length ++ leBytes 4 s.travCount ++ leBytes 4 s.foreign ++ leBytes 4 s.termsMalformed ++
  leBytes 4 s.stray ++ leBytes 4 s.late ++ leBytes 4 s.spilled ++ leBytes 4 (s.energyUJ / 1000) ++ leBytes 4 (q.stables.length * S) ++
  leBytes 8 (if q.lockstep.isSome then s.digest else 0) ++ zeros 24 ++ entries.flatten

/-- Completes the batch of an attempt with its record. -/
def W.completeStep (q : Paddock) (s : Step) (st : Status) (w : W) : W := w.completeBatch s st (stepRecord w.dev.S q s)

/-! ### The end of an attempt (R64 to R66, R78, R443, R447) -/

/-- The running step of a paddock is over; domains that nothing uses go idle. -/
def W.leaveStep (p : Nat) (w : W) : W :=
  match w.dev.pad? p with
  | none => w
  | some q => match q.step with
    | none => w
    | some s => (w.pad p fun q => { q with step := none }).domainsIdle (planDomains q.stables s.plan)

/-- A PHASE plan that does not commit leaves no weight set resident (R78). -/
def W.phaseLost (p : Nat) (s : Step) (w : W) : W :=
  if s.plan.kind = pkPhase then w.pad p fun q => { q with resident := 0 } else w

/-- The step has failed three times (R66, R223, R297). -/
def W.stepFailed (p : Nat) (q : Paddock) (s : Step) (w : W) : W :=
  let w := (w.detectIn s caStepFailed 0 0 s.launch s.batch.cmdId []).phaseLost p s
  let w := w.completeStep q s .stepFailed
  let w := if s.batch.service = 1 then w.applyFailed s else w
  let w := if s.batch.service = 4 then W.each s.batch.rows W.failRow w else w
  (w.finishCancels s fun _ => false).stepReleases

/-- A batch that ends without a replay: by a CANCEL of it, with its paddock, or since no replay is possible. `record` is that of its last
attempt. Requests whose CANCEL waits for the step end by it; an apply step has failed (R223, R297). -/
def W.dropStep (p : Nat) (s : Step) (st : Status) (record : Bytes) (w : W) : W :=
  let byCancel := fun (c : Nat × Nat) => match w.dev.outstanding? c.1 c.2 with | some o => o.cancelKind ≠ 1 | none => false
  let mine := s.cancel.filter byCancel
  let w := (w.completeBatch s st record).phaseLost p s
  let w := W.each mine (fun (c : Nat × Nat) w => w.complete c.1 c.2 (if st = .cancelled then .done else .alreadyComplete)) w
  let w := if s.batch.service = 1 then w.applyFailed s else w
  (w.endCancels s).stepReleases

/-- The replay of a step: the same plan, batch and bindings, from plan cycle 0 (R66). CANCELs of its requests go on waiting. -/
def Step.again (s : Step) : Step :=
  { Step.start s.plan s.batch s.launch (s.attempt + 1) s.prefill s.bound with cancel := s.cancel, commons := s.commons }

/-- A stall of the paddock waits to be fenced: under a teardown no re-formation and so no replay takes place (R411). -/
def Dev.stallLost (d : Dev) (q : Paddock) : Bool :=
  d.faults.toFence.any fun u => (fenceKind u = uStall || fenceKind u = uStable) && match d.logicalOf (fenceStable u) with
    | some ls => q.stables.contains ls
    | none => false

/-- An attempt has not committed: a fence, a breach, an abandon or a mismatch ended it. `s` has left the paddock already. -/
def W.failAttempt (p : Nat) (s : Step) (w : W) : W :=
  match w.dev.pad? p with
  | none => w
  | some q =>
    let w := (w.undoUpdates s).dropHostOut p
    let cancelled := s.cancel.any fun c => match w.dev.outstanding? c.1 c.2 with | some o => o.cancelKind ≠ 1 | none => false
    let gone := match q.teardown with | some t => t.abandon || w.dev.stallLost q | none => false
    let w :=
      let record := stepRecord w.dev.S q s
      if cancelled then (w.dropStep p s .cancelled record).tearOn p
      else if gone then (w.dropStep p s .paddockGone record).tearOn p
      else if decide (3 ≤ s.attempt) then (w.stepFailed p q s).tearOn p
      else w.pad p fun q => { q with replay := some { s.again with last := record } }
    (w.beginReforms).finishRecoveries 17

/-- What every step boundary of a paddock brings, however its step ended: requests whose resident set is back resume, LOAD sets the ratio, and
the tenant pointer advances (R286, R290, R302). -/
def W.boundaryEnd (p : Nat) (w : W) : W :=
  match w.dev.pad? p with
  | none => w
  | some q => ((w.phaseResume p q.resident).ratioStep p).pad p fun q => { q with tenantPtr := (q.tenantPtr + 1) % 256 }

/-! ### Commit (R65, R218, R227, R283, R319, R323, R361, R377) -/

/-- Committed destinations in a form. -/
def Plan.committed (p : Plan) (form : Nat) : List Desc := (p.commits.filter fun c => c.1 = form).filterMap fun c => p.desc? c.2

/-- The binding that a committed destination in VERSION form names, and the offset of the destination from its base. -/
def Step.versions (s : Step) : List (Bound × Nat) :=
  (s.plan.committed 2).filterMap fun d => if d.bound then (s.bound[d.binding]?).map fun b => (b, d.base) else none

/-- The versions of adapters that a step replaces, each with the slot of the new version (R65, R300). -/
def Dev.adapterSwitches (d : Dev) (p : Nat) (s : Step) : List (AdapterVersion × Nat) :=
  match d.pad? p with
  | none => []
  | some q =>
    let olds := ((s.versions.filterMap fun x => if x.1.kind = 3 then
      q.adapters.find? fun a => a.adapterId = x.1.ident && a.version = x.1.version && !a.unloaded else none)).eraseDups
    olds.foldl (fun acc a => match lowestFree (adapterSlots p) (q.adapters.map (·.slot) ++ acc.map (·.2)) with
      | some n => acc ++ [(a, n)]
      | none => acc) []

/-- The image of an adapter with the bytes that a step staged for it. -/
def Step.overImage (s : Step) (p : Nat) (a : AdapterVersion) : Bytes :=
  let lo := memKey spCommons 0 (adapterBase p a.slot)
  (List.range a.image.length).map fun i => match s.staged.find? fun c => c.1 = lo + i with | some c => c.2 | none => a.image.getD i 0

/-- The bytes that a step staged are stored, but those for an adapter's image, which make a version of their own: the one that requests pin
stays as it is (R300). -/
def W.storeStaged (p : Nat) (s : Step) (w : W) : W :=
  let images := (s.versions.filter fun x => x.1.kind = 3).map fun x => memKey spCommons 0 x.1.base
  let mine := s.staged.filter fun c => !images.any fun lo => decide (lo ≤ c.1) && decide (c.1 < lo + 2 ^ 30)
  let sw := w.dev.adapterSwitches p s
  let w := w.store mine.reverse
  W.each sw (fun (x : AdapterVersion × Nat) w =>
    let image := s.overImage p x.1
    let w := w.pad p fun q =>
      let a := { x.1 with slot := x.2, version := nextVersion q.adapterCounts x.1.adapterId, image := image, current := false, pending := true }
      { q with adapters := q.adapters ++ [a], adapterCounts := nput a.adapterId a.version q.adapterCounts }
    w.put (memKey spCommons 0 (adapterBase p x.2)) image) w

/-- VERSION form of tables, and APPEND form. The committed length of an appended region advances by LENGTH (log entry 26). -/
def W.commitForms (p : Nat) (s : Step) (w : W) : W :=
  let tables := s.versions.filter fun x => x.1.kind = 2
  let w := W.each (tables.map (·.1.ident)).eraseDups
    (fun id w => w.commitVersion id ((tables.filter fun x => x.1.ident = id).map fun x => (x.1.region, x.2))) w
  W.each (s.plan.committed 3) (fun d w => w.pad p fun q => { q with appended := nadd (d.base + s.boundBase d) d.length q.appended }) w

/-- Allocations of the paddock that RELEASE entries free (R361): their pages and the entry go. -/
def W.release (p : Nat) (s : Step) (w : W) : W :=
  let srcs := (s.plan.prefetch.filter fun f => f.flags.testBit 1).filterMap fun f => (s.plan.desc? f.src).bind fun d =>
    let a := d.base + s.boundBase d
    let at_ := if d.space = spStack then stackAddr (stackKey a) else a
    w.dev.tiers.allocs.find? fun x => x.paddock = p &&
      (if d.space = spCommons then decide (x.entry.commons ≤ a) && decide (a < x.entry.commons + x.entry.bytes)
       else x.stretches.any fun y => y.1 = d.space && decide (y.2.1 ≤ at_) && decide (at_ < y.2.2))
  let w := W.each srcs (fun a w => w.cancelMigrations a.entry) w
  w.tiers fun t => { t with allocs := t.allocs.filter fun a => !srcs.contains a }

/-- What a service step leaves at its boundary. -/
def W.commitService (s : Step) (w : W) : W :=
  match s.batch.service with
  | 1 => w.applyCommit s.batch.ident s.batch.epoch s.plan
  | 2 => w.consolidateCommit s.batch.ident s.batch.epoch
  | 3 => w.remapCommit s.batch.ident
  | _ => w

/-- The step commits. It has left the paddock already. -/
def W.commit (p : Nat) (s : Step) (w : W) : W :=
  match w.dev.pad? p with
  | none => w
  | some q =>
    let before := w.dev.serve.requests.map (·.number)
    let chunkOf := fun (n : Nat) => s.chunks.find? fun c => c.request = n
    let w := (w.storeStaged p s).commitForms p s
    let w := ((w.release p s).freeOldSlots s).commitService s
    let w := (w.commitTokens s).commitContexts s
    let w := if s.batch.service = 4 then W.each s.batch.rows (W.commitRow s.chunks []) w
      else if s.batch.service = 0 then w.chargeBatch p q s else w
    let w := w.pad p fun q => { q with flying := q.flying ++ s.posted.filter fun x => !x.hasDeadline }
    let w := if s.plan.kind = pkPhase then w.pad p fun q => { q with resident := s.plan.toSet } else w
    let w := w.completeStep q s .done
    let ended := fun (n : Nat) => before.contains n && (w.dev.request? n).isNone && (match chunkOf n with | some c => c.reason = 0 | none => true)
    let w := (w.finishCancels s ended).boundaryEnd p
    ((w.stepReleases).tearOn p).finishRecoveries 17

/-- OVF_REJECT or SPILL_REJECT: the step commits nothing and is not replayed (R126, R315). The requests of a generation step end FAILED. -/
def W.rejectStep (p : Nat) (s : Step) (st : Status) (w : W) : W :=
  match w.dev.pad? p with
  | none => w
  | some q =>
    let w := ((w.undoUpdates s).phaseLost p s).completeStep q s st
    let w := if s.batch.service = 1 then w.applyFailed s else if s.batch.service = 4 then W.each s.batch.rows W.failRow w else w
    let w := (w.finishCancels s fun _ => false).boundaryEnd p
    ((w.stepReleases).tearOn p).finishRecoveries 17

/-! ### Lock-step comparison (R81) -/

/-- The comparison of the step launched at `launch` is over: what both sides hold of it, or of earlier steps of the peer, goes. -/
def Lockstep.drop (launch : Nat) (l : Lockstep) : Lockstep :=
  { l with own := l.own.filter fun x => x.1 ≠ launch, peer := l.peer.filter fun x => decide (launch < x.1) }

/-- A step that is held back is abandoned after a mismatch under GATE; under COMPARE it has committed, and the record names no paddock to
fence. -/
def W.lockFailed (p : Nat) (q : Paddock) (cause port detail : Nat) (w : W) : W :=
  match q.gated with
  | some s => ((w.detectIn s cause uDrove port detail 0 [p]).failAttempt p s).boundaryEnd p
  | none => (w.detect cause uDrove port detail 0 []).finishRecoveries 17

/-- A step that GATE has held back commits, unless its paddock has been fenced since (R443). -/
def W.commitGated (p : Nat) (s : Step) (w : W) : W := if w.dev.fenced p then (w.failAttempt p s).boundaryEnd p else w.commit p s

/-- Both digests of a step are here: they match, or the pair mismatches. -/
def W.lockCompare (p : Nat) (w : W) : W :=
  match w.dev.pad? p with
  | none => w
  | some q => match q.lockstep with
    | none => w
    | some l => match l.own.findSome? fun x => if x.2.2.2 then (l.peer.find? fun y => y.1 = x.1).map fun y => (x, y) else none with
      | none => w
      | some (own, peer) =>
        let w := w.pad p fun q => { q with gated := none, lockstep := some (l.drop own.1) }
        if own.2.1 = peer.2 then
          match q.gated with
          | some s => w.commitGated p s
          | none => w
        else w.lockFailed p q caLockMismatch l.port peer.2

/-- The digest of a step is formed, and goes to the peer in a DIGEST train. -/
def W.lockReady (p : Nat) (w : W) : W :=
  match (w.dev.pad? p).bind (·.lockstep) with
  | none => w
  | some l => match l.own.find? fun x => !x.2.2.2 with
    | none => w
    | some own =>
      let t : Train := { kind := 3, paddock := p, flags := 0, channel := 0, launch := own.1, offset := own.2.1, data := [] }
      let w := w.sendTrain l.port (mkEntry oLockstep p) t
      let sent := l.own.map fun x => if x = own then (x.1, x.2.1, x.2.2.1, true) else x
      (w.pad p fun q => { q with lockstep := some { l with own := sent } }).lockCompare p

/-- A digest of the peer arrives at a port for the paddock that its train names; one that no pairing awaits is of no effect. -/
def W.lockReceived (port p launch digest : Nat) (w : W) : W :=
  match (w.dev.pad? p).bind (·.lockstep) with
  | some l => if l.port = port then
      (w.pad p fun q => { q with lockstep := some { l with peer := l.peer ++ [(launch, digest)] } }).lockCompare p
    else w
  | none => w

/-- Herd ticks after the boundary at which a missing digest counts as a mismatch. -/
def lockWait := 40_000

/-- No peer digest for the oldest step that waits for one. -/
def W.lockTimeout (p : Nat) (own : Nat × Nat × Nat × Bool) (w : W) : W :=
  match w.dev.pad? p with
  | none => w
  | some q => match q.lockstep with
    | none => w
    | some l => (w.pad p fun q => { q with gated := none, lockstep := some (l.drop own.1) }).lockFailed p q caLockTimeout l.port own.2.1

/-! ### Boundary (R63, R65, R126, R315, R474) -/

/-- The correction factor of the plan after an attempt that reached its boundary. -/
def W.correct (p : Nat) (s : Step) (w : W) : W :=
  w.pad p fun q => { q with plans := q.plans.map fun x => if x.planId = s.plan.planId && x.digest = s.plan.digest then { x with k := newFactor x.k x.energyMJ (s.energyUJ / 1000) } else x }

/-- The step comes to its boundary. -/
def W.boundary (p : Nat) (w : W) : W :=
  match w.dev.step? p with
  | none => w
  | some s0 =>
    let w := (w.comeTo p s0.plan.length).settleReads p
    match w.dev.pad? p, w.dev.step? p with
    | some q, some s =>
      let s := { s with late := (s.posted.filter fun x => !x.hasDeadline).length, ended := w.herd }
      let w := (w.correct p s).leaveStep p
      if s.breached || s.detected || w.dev.fenced p then (w.failAttempt p s).boundaryEnd p
      else if s.ovfRejects then w.rejectStep p s .arithOverflow
      else if s.rejectSpill then w.rejectStep p s .gatherSpill
      else match q.lockstep with
        | none => w.commit p s
        | some l =>
          let h := w.herd
          let w := w.pad p fun q => { q with lockstep := some { l with own := l.own ++ [(s.launch, s.digest, h, false)] }, gated := if l.gate then some s else none }
          if l.gate then w else w.commit p s
    | _, _ => w

/-! ### Hold points (R64, R477) -/

/-- The step comes to its next hold point: it abandons, holds, or goes on. -/
def W.holdPoint (p c : Nat) (w : W) : W :=
  let w := (w.comeTo p c).settleReads p
  match w.dev.step? p with
  | none => w
  | some s =>
    if s.abandon then (w.leaveStep p).failAttempt p { s with ended := w.herd }
    else if s.holdAsked = 0 then w
    else w.step p fun s => { s with held := some (if s.holdAsked = 16 then 16 else 0) }

/-- Frames of a hold that ends at herd count `h`: the 16 of level 1; under level 2 as many whole frames as have begun. -/
def Step.frames (s : Step) (h : Nat) : Nat :=
  match s.held with
  | some 0 => ceilDiv ((h - s.herdAt s.cycle) * 21) 2048
  | some n => n
  | none => 0

/-- A hold of level 2 ends once the level is left. -/
def Step.mayResume (s : Step) (level : Nat) : Bool :=
  match s.held with
  | some 0 => level ≠ 2
  | some _ => true
  | none => false

/-! ### The beginning of a teardown (R396) -/

/-- Steps 1 and 2: nothing queued stays; the lock-step pairing ends; a step that is held back commits under DRAIN. -/
def W.beginTeardown (p : Nat) (w : W) : W :=
  match w.dev.pad? p with
  | none => w
  | some q => match q.teardown with
    | none => w
    | some t =>
      let queued := q.batches ++ q.decided.map (·.batch)
      let w := w.pad p fun q => { q with state := .tearing, batches := [], decided := [], lockstep := none, gated := none }
      let w := W.each queued (fun b w => if b.service = 0 then (w.forgetBig b).complete b.ring b.index .paddockGone else w) w
      let w := if t.abandon then w.step p fun s => { s with abandon := true } else w
      let w := match q.gated with
        | some s => if t.abandon then w.failAttempt p s else w.commitGated p s
        | none => w
      let w := match q.replay with
        | some s => if t.abandon then (w.pad p fun q => { q with replay := none }).dropStep p s .paddockGone s.last else w
        | none => w
      w.tearOn p

/-- PADDOCK_TEARDOWN. During a re-formation it takes effect once that ends (R411), and while the paddock forms once it is READY. -/
def doPaddockTeardown (w : W) (r : Nat) (o : Outstanding) : W :=
  let p := o.field 32 1
  match w.dev.pad? p with
  | none => w.complete r o.index .notFound
  | some q =>
    if decide (1 < o.field 33 1) then w.complete r o.index .badCommand
    else if q.teardown.isSome then w.complete r o.index .notFound
    else if w.dev.indexes.any fun x => x.paddock = p then w.complete r o.index .indexLive
    else if w.dev.embs.any fun x => x.paddock = p then w.complete r o.index .embLive
    else
      let w := w.pad p fun q => { q with teardown := some { ring := r, index := o.index, abandon := o.field 33 1 = 1 } }
      if q.state = .reforming || q.state = .forming then w else w.beginTeardown p

end Sys2Proof.Machine
end

