-- ==== Sys2Proof/Machine/Images.lean ====
section
/-! DEFINITION. Signed images, identity and attestation, and the live handover of firmware (R488 to R490, R497 to R500). -/

namespace Sys2Proof.Machine

open Host

/-! ### Signed images (R488, R489) -/

def fixedBytes (what n : Nat) : Bytes := (List.range n).map (Config.deviceByte what)

/-- The owner key of the current owner record; as shipped, the default one. -/
def Boot.owner (b : Boot) : Bytes := if b.ownerKey.isEmpty then fixedBytes 6 1312 else b.ownerKey

def imFirmware := 1
def imConfig := 2

def imageMagic (kind : Nat) : Nat := if kind = imFirmware then 0x4D52_4946 else 0x4746_4E43

/-- Header fields and length match R488. -/
def imageFormatOk (b : Bytes) : Bool :=
  let kind := fld b 6 1
  let n := fld b 0x0C 4
  decide (128 + 2420 ≤ b.length) && (kind = imFirmware || kind = imConfig) && fld b 0 4 = imageMagic kind && fld b 4 2 = 1 && fld b 7 1 = 0
  && n + 2548 = b.length && decide (b.length ≤ (if kind = imFirmware then 64 else 15) * 2 ^ 20) && (kind = imFirmware || fld b 0x10 4 = 0)
  && allZero (slice b 0x14 12) && allZero (slice b 0x60 32)

/-- The key that an image of a kind is to be signed by. -/
def Boot.trustedKey (b : Boot) (kind : Nat) : Bytes := if kind = imFirmware then fixedBytes 5 1312 else b.owner

def imageIdentity (b : Bytes) : Nat := ofLe (sha3 (b.take 128))

def imageBody (b : Bytes) : Bytes := slice b 128 (fld b 0x0C 4)

def Boot.imageSigned (x : Boot) (b : Bytes) : Bool :=
  let key := x.trustedKey (fld b 6 1)
  slice b 0x20 32 == sha3 key && slice b 0x40 32 == sha3 (imageBody b)
  && Config.sigVerify key (sha3 (b.take 128)) (b.drop (128 + fld b 0x0C 4))

/-- Verifies an image; wrong format, then a failing digest or signature, then a kind that is not asked for (log entry 33). -/
def Boot.verify (x : Boot) (kinds : List Nat) (b : Bytes) : Except Status Image :=
  if !imageFormatOk b then .error .imageFormat
  else if !x.imageSigned b then .error .imageSignature
  else if !kinds.contains (fld b 6 1) then .error .imageKind
  else .ok { kind := fld b 6 1, version := fld b 8 4, stateFormat := fld b 0x10 4, identity := imageIdentity b, body := imageBody b }

/-! ### The topology record (R490) -/

structure Topology where
  part : Nat
  startMode : Nat
  units : Nat
  drovePorts : Nat
  shedChannels : Nat
  shedPool : Nat
  peers : List Bytes
  newOwner : Nat

def Image.topology (i : Image) : Topology :=
  let b := i.body
  { part := fld b 0 1, startMode := fld b 1 1, units := fld b 2 2, drovePorts := fld b 4 2, shedChannels := fld b 6 1, shedPool := fld b 8 8
    peers := (List.range 12).map fun p => slice b (16 + 16 * p) 16, newOwner := fld b 208 4 }

/-- The owner key that an image installs. -/
def Image.installsOwner (i : Image) : Option Bytes :=
  if i.kind = imConfig && i.topology.newOwner ≠ 0 then some (slice i.body i.topology.newOwner 1312) else none

/-- Register entries: address, value, mask. -/
def Image.entries (i : Image) : List (Nat × Nat × Nat) := (records 16 (i.body.drop 256)).map fun r => (fld r 0 8, fld r 8 4, fld r 12 4)

/-- An image lies in its region of the tack store, and the owner key that it brings is the owner record. -/
def Boot.install (i : Image) (b : Boot) : Boot :=
  let b := if i.kind = imFirmware then ({ b with tackFw := some i } : Boot) else { b with tackCfg := some i }
  let b := b.setHeader fun h => { h with inUse := b2n b.tackCfg.isSome + 2 * b2n b.tackFw.isSome }
  match i.installsOwner with
  | some k => b.setOwner k
  | none => b

/-! ### Identity and attestation (R497, R498) -/

def Boot.certificate (b : Boot) : Bytes :=
  leBytes 4 0x5452_4543 ++ leBytes 2 1 ++ leBytes 1 (2 ^ b.part.bit) ++ zeros 1 ++ fixedBytes 1 16 ++ fixedBytes 2 1312 ++ fixedBytes 3 32 ++ fixedBytes 4 2420

/-- DEVICE_ID from the key that stage 2 derives. -/
def derivedId (identityOk : Bool) : Nat := ofLe (sha3 (fixedBytes (if identityOk then 2 else 7) 1312))

def measurement (kind index : Nat) (digest : Bytes) : Bytes := leBytes 2 kind ++ zeros 2 ++ leBytes 4 index ++ fit 32 digest

def Dev.measurements (d : Dev) : List Bytes :=
  let plans := (d.pads.map fun (x : Nat × Paddock) =>
    (List.range x.2.plans.length).map fun i => measurement 5 (x.1 * 256 + i) ((x.2.plans[i]?.map (·.digest)).getD [])).flatten
  let adapters := (d.pads.map fun (x : Nat × Paddock) => x.2.adapters.map fun a => measurement 8 (x.1 * 256 + a.version) a.digest).flatten
  [measurement 1 d.boot.romVersion (fixedBytes 0 32), measurement 2 0 (leBytes 32 ((d.boot.fw.map (·.identity)).getD 0)),
   measurement 3 0 (leBytes 32 ((d.boot.cfg.map (·.identity)).getD 0)), measurement 4 0 (sha3 d.boot.owner)] ++
  plans ++ (d.serve.tables.map fun t => measurement 6 t.version (slice t.image 0x48 32)) ++
  (d.serve.grammars.map fun g => measurement 7 g.version (slice g.image 0x34 32)) ++ adapters

/-- Bytes of the report. -/
def Dev.reportLen (d : Dev) : Nat := 6272 + 40 * d.measurements.length

def Dev.report (d : Dev) (herd : Nat) (nonce : Bytes) : Bytes :=
  let m := d.measurements
  let b := leBytes 4 0x5453_5441 ++ leBytes 2 1 ++ leBytes 2 m.length ++ leBytes 8 herd ++ fit 32 nonce ++ (leBytes 32 d.boot.deviceId).take 16 ++
    m.flatten ++ d.boot.certificate
  b ++ (List.range 2420).map (Config.attestSign d.boot.deviceId (sha3 b))

def doAttest (w : W) (r : Nat) (o : Outstanding) : W :=
  if w.dev.boot.identityBad then w.complete r o.index .attestIdentity
  else if o.entry.resultLen.toNat < w.dev.reportLen then w.complete r o.index .badCommand w.dev.reportLen
  else w.complete r o.index .done 0 (w.dev.report w.herd o.entry.inline)

/-! ### Live handover (R499, R500) -/

/-- Cores 1 to 15 in turn, then core 0. -/
def handoverOrder : List Nat := List.range' 1 15 ++ [0]

def doFwHandover (w : W) (r : Nat) (o : Outstanding) : W :=
  if decide (1 < o.field 32 1) then w.complete r o.index .badCommand
  else if w.dev.boot.handover.isSome then w.complete r o.index .handoverBusy
  else match w.dev.boot.verify [imFirmware] (w.payload o) with
    | .error st => w.complete r o.index st
    | .ok i =>
      if (w.dev.boot.fw.map (·.stateFormat)).getD 0 ≠ i.stateFormat then w.complete r o.index .handoverState
      else
        let h : Handover :=
          { ring := r, index := o.index, cmdId := o.entry.cmdId.toNat, image := i, todo := handoverOrder, away := none, onNew := []
            keepStore := (o.field 32 1).testBit 0, rewriting := false }
        w.boot fun b => { b with handover := some h }

/-- At a launch point the next core stops, and core `c` XOR 8 takes over what it serves. -/
def W.handoverPoint (w : W) : W :=
  let next := fun (h : Handover) => match h.away, h.todo with
    | none, c :: rest => { h with away := some c, todo := rest }
    | _, _ => h
  w.boot fun b => { b with handover := b.handover.map next }

/-- 100 µs, in which the gatehouse is handed over. -/
def gatehouseTicks := 40_000

/-- The handover's end: VALUE is the new FW_VERSION. -/
def W.handoverDone (h : Handover) (st : Status) (w : W) : W :=
  (w.boot fun b => { b with handover := none }).complete h.ring h.index st (if st = .done then h.image.version else 0)

/-- A core comes back from its self-check. The last one back, core 0, brings the device onto the new firmware; the gatehouse follows, and the
region of the tack store is rewritten, unless KEEP_STORE says no. -/
def W.coreReturn (c : Nat) (ok : Bool) (w : W) : W :=
  match w.dev.boot.handover with
  | none => w
  | some h =>
    if h.away ≠ some c then w
    else if !ok then w.abortHandover
    else
      let h := { h with away := none, onNew := h.onNew ++ [c] }
      if !h.todo.isEmpty then w.boot fun b => { b with handover := some h }
      else
        let until_ := w.herd + gatehouseTicks
        let w := (w.boot fun b => { b with fw := some h.image }).mgmt fun m => { m with busyUntil := until_ }
        if h.keepStore then w.handoverDone h .done
        else w.boot fun b => { b with handover := some { h with rewriting := true }, tackFw := none }

/-- The rewrite of the firmware region ends. -/
def W.rewriteDone (ok : Bool) (w : W) : W :=
  match w.dev.boot.handover with
  | none => w
  | some h =>
    if !h.rewriting then w
    else if ok then (w.boot (Boot.install h.image)).handoverDone h .done
    else w.handoverDone h .storeWrite

end Sys2Proof.Machine
end

