-- ==== Sys2Proof/Machine/Groom.lean ====
section
/-! DEFINITION. Groom services (R501 to R503), and the ENERGY_SET and GROOM_REQUEST commands (R476, R478). -/

namespace Sys2Proof.Machine

open Host

/-! ### Services -/

def gsStackCal := 1
def gsBarnCal := 2
def gsDroveCal := 3
def gsStallTest := 4
def gsMemTest := 5
def gsScrub := 6

/-- Pages of the pseudo-channel or barn channel that TARGET names. -/
def pagesOf (target : Nat) : Nat := if target < 512 then 2 ^ 20 else 2 ^ 24

/-- Tables whose entries a service needs. -/
def groomTables (service target first count : Nat) : List Nat :=
  if service = gsStackCal then (List.range (2 * count)).map fun i => target * 64 + 2 * first + i
  else if service = gsBarnCal then [tBarn target]
  else if service = gsDroveCal then [tUnit target]
  else if service = gsStallTest then []
  else [target]

/-- A logical stable of a paddock lies in the physical stable. -/
def Dev.physHeld (d : Dev) (ps : Nat) : Bool :=
  match d.logicalOf ps with
  | some ls => d.pads.any fun (x : Nat × Paddock) => x.2.stables.contains ls
  | none => false

/-- Stalls that a STALL_TEST of a physical stable tests: its spares, or all of it if no paddock holds it. -/
def Dev.testStalls (d : Dev) (ps : Nat) : List Nat :=
  if d.physHeld ps then d.spareStalls ps else (List.range 108).map (ps * 108 + ·)

/-- A target within R501. -/
def Dev.groomTarget (d : Dev) (service target first count : Nat) : Bool :=
  if service = gsStackCal then decide (target < 8) && decide (first + count ≤ 32)
  else if service = gsBarnCal then decide (target < 32)
  else if service = gsDroveCal then decide (target < 12)
  else if service = gsStallTest then decide (target < 288) && !(d.testStalls target).isEmpty
  else decide (target < 544) && decide (first + count ≤ pagesOf target)

/-- The target is a barn channel or a Drove port that the part lacks: such a request completes with UNIT_ABSENT (R7, R10), where R504 would
let GROOM_TARGET stand for it too. DEDUCED: log entry 78. -/
def Part.groomAbsent (part : Part) (service target : Nat) : Bool :=
  if service = gsBarnCal then !part.hasBarn
  else if service = gsDroveCal then decide (part.ports ≤ target)
  else decide (gsMemTest ≤ service) && decide (512 ≤ target) && !part.hasBarn

def groomCause (service : Nat) : Nat := if service ≤ gsDroveCal then 2 else 6

/-- The change of tables that a service posts. -/
def GroomService.change (s : GroomService) : TableChange :=
  { cause := groomCause s.service, tables := groomTables s.service s.target s.first s.count, links := false, stack := 0 }

/-- The active table grants the service's resource: entries of the groom, or nothing to change for a calibration of a stack or a barn
channel. -/
def Dev.groomGranted (d : Dev) (s : GroomService) : Bool :=
  s.change.tables.all fun t =>
    let es := tableEntries d.slots.act t
    if s.service = gsStackCal || s.service = gsBarnCal then d.newTable s.change t = es
    else es.any fun v => entryOwner v = (if s.service = gsDroveCal then oCal else oGroom)

/-- Units that a service holds. -/
def Dev.groomUnits (d : Dev) (service target first count : Nat) : List Nat :=
  let tables := groomTables service target first count
  if service = gsStallTest then (if d.physHeld target then [] else [unitKey uStable target]) ++ (d.testStalls target).map (unitKey uStall)
  else if service = gsDroveCal then [unitKey uDrove target]
  else tables.map fun t => if t < 512 then unitKey uPc t else unitKey uBarn (t - 512)

/-- The herd count of the first launch point after the boundaries of the running steps that hold changed entries. -/
def Dev.groomStart (d : Dev) (herd : Nat) (ch : TableChange) : Nat :=
  let ends := (d.changedPads ch).filterMap fun p => (d.step? p).map fun s => s.herdAt s.plan.length
  nextLaunchPoint (maxNat (herd :: ends) + 1)

def W.addService (s : GroomService) (w : W) : W := (w.groom fun g => { g with services := g.services ++ [s] }).wakeBackground

/-- GROOM_REQUEST. A target that R501 or R504 excludes is GROOM_TARGET, and one on a port or a barn that the part has not is UNIT_ABSENT
(R7, R10; log entry 78). -/
def doGroomRequest (w : W) (r : Nat) (o : Outstanding) : W :=
  let b := w.payload o
  let service := fld b 0 1
  let target := fld b 2 2
  let first := fld b 4 4
  let count := fld b 8 4
  if b.length ≠ 32 || fld b 1 1 ≠ 0 || !allZero (b.drop 12) || service = 0 || decide (gsScrub < service) then w.complete r o.index .badCommand
  else if !w.dev.groomTarget service target first count then w.complete r o.index .groomTarget
  else if w.dev.boot.part.groomAbsent service target then w.complete r o.index .unitAbsent
  else
    let s : GroomService :=
      { ring := r, index := o.index, cmdId := o.entry.cmdId.toNat, service := service, target := target, first := first, count := count
        running := true, queued := false, start := w.herd, units := w.dev.groomUnits service target first count }
    if w.dev.groomGranted s then w.addService s
    else
      let at_ := w.dev.groomStart w.herd s.change
      ((w.addService { s with running := false, queued := true }).addChange s.change).complete r o.index .queued at_

/-- At a launch point a service starts whose change has been applied. -/
def W.groomLaunchPoint (w : W) : W :=
  let h := w.herd
  let changes := w.dev.slots.changes
  (w.groom fun g => { g with services := g.services.map fun s =>
    if !s.running && !changes.contains s.change then { s with running := true, start := h } else s }).wakeBackground

/-- Enters a stall in the defect list: at once for a spare that leaves the spares, and else from the next start on (R486, R503). -/
def W.failStall (p : Nat) (w : W) : W :=
  let spare := (w.dev.spareStalls (p / 108)).contains p
  let e : DefectEntry := { ukind := uStall, source := 1, cause := 0, uindex := p, start := w.dev.boot.startCount + (if spare then 0 else 1) }
  let listed := w.dev.boot.defects.any fun x => x.ukind = uStall && x.uindex = p
  let w := w.when (!listed && decide (w.dev.boot.defects.length < 8191)) (W.boot fun b => b.setDefects (b.defects ++ [e]))
  if spare then { w with dev := { w.dev with badStalls := insertNat p w.dev.badStalls } } else w

/-- Granules of a page of a pseudo-channel or a barn channel. -/
def groomGranules (target page : Nat) : List Nat :=
  if target < 512 then (List.range 32).map fun i => memKey spStack target (page * 2048 + 64 * i)
  else (List.range 64).map fun i => memKey spBarn 0 (page * 131072 + (target - 512) * 64 + 2048 * i)

/-- Lanes and channels whose training a unit of a service saves: a Drove port has eight lanes (R484). -/
def trainedLanes (u : Nat) : List Nat := if fenceKind u = uDrove then (List.range 8).map fun i => unitKey uDrove (8 * fenceIndex u + i) else [u]

/-- What a memory test leaves in its pages is open (log entry 34). -/
def W.groomWrites (s : GroomService) (w : W) : W :=
  if s.service = gsMemTest then
    W.each ((List.range s.count).map fun i => groomGranules s.target (s.first + i)).flatten (fun k w =>
      let (b, w) := w.freeBytes 64
      w.put k b) w
  else w

/-- The `n`-th service of the list ends; `failed` names the physical stalls that a STALL_TEST found bad. A successful calibration rewrites the
saved training of its units. -/
def W.groomEnd (n : Nat) (ok : Bool) (failed : List Nat) (w : W) : W :=
  match w.dev.groom.services[n]? with
  | none => w
  | some s =>
    if !s.running then w
    else
      let st := if ok then Status.done else .groomFailed
      let tested := w.dev.testStalls s.target
      let w := w.when (s.service = gsStallTest) (W.each (failed.filter tested.contains) W.failStall)
      let w := w.groomWrites s
      let w := w.when (ok && decide (s.service ≤ gsDroveCal)) (W.boot fun b => b.setTraining (addAllNat (s.units.map trainedLanes).flatten b.training))
      -- a Drove port that is not UP is UP again after a recalibration (R446)
      let w := if ok && s.service = gsDroveCal && (w.dev.port s.target).state ≠ 2 then
          (w.port s.target (Link.start 2 512)).event 6 [Config.stateCode 3]
        else w
      let h := w.herd
      let w := w.groom fun g => { services := g.services.eraseIdx n, results := ((s.cmdId, st.code, s.service, h) :: g.results).take 16 }
      if s.queued then w.addChange { s.change with cause := s.change.cause + 1 } else w.complete s.ring s.index st s.start

/-! ### ENERGY_SET (R476, R478) -/

def energyOk (b : Bytes) : Bool :=
  let set := fld b 0 1
  let win := fld b 4 4
  let allow := fld b 8 2
  let thr := fld b 10 2
  b.length = 32 && decide (set < 32) && allZero (b.drop 12)
  && (!set.testBit 0 || (decide (10 ≤ win) && decide (win ≤ 1000)))
  && (!set.testBit 1 || (decide (100 ≤ allow) && decide (allow ≤ 1600)))
  && (!set.testBit 2 || (decide (1000 ≤ thr) && decide (thr ≤ 1900)))
  && (!set.testBit 3 || ((decide (fld b 2 1 < 64) || fld b 2 1 = 255) && decide (1 ≤ fld b 3 1) && decide (fld b 3 1 ≤ 4)))
  && (!set.testBit 4 || decide (fld b 1 1 ≤ 1))

/-- Back to RUN, where the module is in STANDBY or has been asked to enter it. -/
def W.leaveStandby (w : W) : W :=
  let w := w.power fun p => { p with standbyAsked := false }
  if w.dev.boot.phase = .standby then
    let w := w.boot fun b => { b with phase := .run }
    let busy := w.dev.pads.filter fun (x : Nat × Paddock) => !x.2.batches.isEmpty || !(w.dev.livePad x.1).isEmpty
    W.each (busy.map (·.1)) W.wakePad w
  else w

/-- STANDBY is asked for; it is entered at a launch point. -/
def W.askStandby (w : W) : W := if w.dev.boot.phase = .run then w.power fun p => { p with standbyAsked := true } else w

/-- Sets the sleep depth of a paddock, or of all. -/
def W.setDepth (p depth : Nat) (w : W) : W :=
  { w with dev := { w.dev with pads := w.dev.pads.map fun (x : Nat × Paddock) => if p = 255 || x.1 = p then (x.1, { x.2 with depthMax := depth }) else x } }

/-- ENERGY_SET. EN_CFG is a checked register, so the change waits while the host holds the configuration window (R524). -/
def doEnergySet (w : W) (r : Nat) (o : Outstanding) : W :=
  let b := w.payload o
  let set := fld b 0 1
  if !energyOk b then w.complete r o.index .badRequest
  else if w.dev.regs.cfg.blocks then w.cfg fun c => { c with waiting := c.waiting ++ [r * 256 + o.index] }
  else
    let w := w.when (set.testBit 2) (W.firmwareChange (W.power fun p => { p with throttleW := fld b 10 2 }))
    let w := w.power fun p => { p with
      pendWindow := if set.testBit 0 then some (fld b 4 4) else p.pendWindow, pendAllow := if set.testBit 1 then some (fld b 8 2) else p.pendAllow }
    let w := w.when (set.testBit 3) (W.setDepth (fld b 2 1) (fld b 3 1))
    let w := w.when (set.testBit 4) (if fld b 1 1 = 1 then W.askStandby else W.leaveStandby)
    w.complete r o.index .done

/-- At a launch point a new allowance and a new window take effect, once the host does not hold the window. -/
def W.energyPoint (h : Nat) (w : W) : W :=
  if (w.dev.power.pendAllow.isNone && w.dev.power.pendWindow.isNone) || w.dev.regs.cfg.blocks then w
  else w.firmwareChange (W.applyEnergy h)

end Sys2Proof.Machine
end

