-- ==== Sys2Proof/Machine/Launch.lean ====
section
/-! DEFINITION. Launch points: table changes, fences and settings that apply there, the matching of service steps, batches and generation
steps to plans, and the launch itself (R43, R60 to R62, R66, R68, R218, R227, R284 to R287, R302, R323, R422, R428, R470). -/

namespace Sys2Proof.Machine

open Host

/-! ### Matching a family to a variant (R60) -/

/-- Checks 2 and 3. -/
def Dev.fitsPad (d : Dev) (p : Nat) (q : Paddock) (x : Plan) : Bool :=
  (x.prefillStables = 0xFFFF || x.prefillStables = q.prefill) && x.shares.all (d.holdsShare p)

/-- The resident set of check 4. -/
def Plan.residentOk (x : Plan) (q : Paddock) : Bool := x.fromSet = 0 || x.fromSet = q.resident

/-- A PHASE plan needs a paddock without live requests, or PAUSE_LIVE. -/
def Dev.phaseFree (d : Dev) (p : Nat) (pause : Bool) (x : Plan) : Bool := x.kind ≠ pkPhase || pause || (d.livePad p).isEmpty

/-- The plan needs a merge, tokenizer or grammar unit that a standing fence has taken out of service (R446). -/
def Dev.unitGone (d : Dev) (x : Plan) : Bool :=
  x.words.any fun w => (w.kind = kMERGE && d.unitFenced uMerge 0) || (w.kind = kTOKENIZER && d.unitFenced uTokenizer 0)
    || (w.kind = kGRAMMAR && d.unitFenced uGrammar 0)

/-- The plan with the smallest LENGTH, the first of equals. -/
def shortest : List Plan → Option Plan
  | [] => none
  | x :: r => some (r.foldl (fun a b => if b.length < a.length then b else a) x)

/-- The result of matching: a variant, WAIT, or a status that completes the batch. -/
inductive Match where
  | plan (x : Plan)
  | wait
  | fail (st : Status)
deriving DecidableEq, Repr

/-- Checks 1 to 4 for the loaded plans `l` of a family. Where a standing fence has taken entries of every variant, none will fit again (R446). -/
def Dev.variant (d : Dev) (p : Nat) (q : Paddock) (pause : Bool) (l : List Plan) : Match :=
  if l.isEmpty then .fail .planNotLoaded
  else if l.all d.unitGone then .fail .unitAbsent
  else
    let fit := l.filter fun x => d.fitsPad p q x && !d.unitGone x
    let set := fit.filter fun x => x.residentOk q
    match shortest (set.filter (d.phaseFree p pause)) with
    | some x => .plan x
    | none =>
      if l.all (fun x => x.shares.any (d.fenceTakes p)) then .fail .shareMissing
      else if fit.isEmpty then .wait else if set.isEmpty then .fail .residentMismatch else .wait

/-- An index or a table that the plan binds is lost, or is no more (R325, R342). -/
def Dev.boundLost (d : Dev) (x : Plan) : Option Status :=
  x.bindings.findSome? fun b =>
    if b.kind = 1 then (match d.index? b.ident with | some i => if i.lost || i.creating.isSome then some .indexLost else none | none => some .indexLost)
    else if b.kind = 2 then (match d.embById? b.ident with | some t => if t.lost then some .embLost else none | none => some .embLost)
    else none

/-- V_PRESENT (R45). -/
def Plan.varies (x : Plan) : Bool := x.flags.testBit 0

/-- The stream store is full for a ring of a live request of the paddock (R422). -/
def Dev.streamFull (d : Dev) (p : Nat) : Bool :=
  decide (32 * 2 ^ 20 < d.streamStore + 288) && (d.livePad p).any fun r => !(d.ring r.ring).heldStr.isEmpty

/-- Every check of R60 for a batch of the host, at launch point `h`; a full stream store gives WAIT as check 5 does. -/
def Dev.decide60 (d : Dev) (p : Nat) (q : Paddock) (h : Nat) (b : Batch) : Match :=
  match d.variant p q b.pauseLive (q.plans.filter fun x => x.family = b.family && x.kind ≠ pkService) with
  | .plan x => match d.boundLost x with
    | some st => .fail st
    | none =>
      if d.streamFull p || !(d.tenant b.tenant).passes then .wait
      else if !d.energyCheck h b x.corrected then .wait
      else if q.lockstep.isSome && x.varies then .fail .planVaries
      else match b.launch with
        | some l => if l < h + 4096 then .fail .late else if isLaunchPoint l then .plan x else .fail .planFormat
        | none => .plan x
  | r => r

/-- Checks 2 to 7 again at the launch, at `h`, of a plan that was matched before. The launch keeps that plan, though it be replaced or unloaded
since (R49). -/
def Dev.stillFits (d : Dev) (p h : Nat) (q : Paddock) (b : Batch) (x : Plan) : Bool :=
  x.stalls = q.stables.length * d.S && d.fitsPad p q x && x.residentOk q && d.phaseFree p b.pauseLive x && !d.unitGone x
  && (d.boundLost x).isNone && !d.streamFull p && (d.tenant b.tenant).passes && d.energyCheck h b x.corrected && !(q.lockstep.isSome && x.varies)

/-! ### Whether a paddock launches -/

/-- Nothing of the device keeps the paddock from launching: no step runs or is held back, no change of its entries waits, no page is awaited,
no domain wakes and no checked register is being restored (R62, R81, R158, R447, R449, R468). -/
def Dev.idle (d : Dev) (p : Nat) (q : Paddock) : Bool :=
  d.boot.phase = .run && !d.regs.cfg.restoring && q.step.isNone && q.gated.isNone && !d.changeWaits p && !(d.faults.heldPages.any fun x => x.1 = p)
  && (d.wakingDomains p q).isEmpty

/-- A step that is not a replay may launch (R393, R443). -/
def Dev.mayLaunch (d : Dev) (p : Nat) (q : Paddock) : Bool := d.idle p q && q.state = .ready && q.replay.isNone && !d.fenced p

/-! ### The launch (R61, R63, R68) -/

/-- SHARED_RO allocations of the plan are bound from now on (R353). -/
def W.bindAllocs (x : Plan) (w : W) : W :=
  w.tiers fun t => { t with allocs := t.allocs.map fun a => if a.entry.shared && x.residency.contains a.entry then { a with bound := true } else a }

/-- CONSTANTS of a plan stand at loft offset 0 of every stable of the paddock (R47; log entry 27). -/
def W.placeConstants (q : Paddock) (x : Plan) (w : W) : W :=
  if x.constants.isEmpty then w else W.each q.stables (fun s w => w.put (memKey spLoft s 0) x.constants) w

/-- Launches a step at herd count `h`. -/
def W.launchStep (p h : Nat) (s : Step) (w : W) : W :=
  match w.dev.pad? p with
  | none => w
  | some q =>
    -- under level 2 of the throttle every running paddock holds (R477)
    let hold := if w.dev.power.thrLevel = 2 then 1 else 0
    let w := w.pad p fun q => { q with step := some { s with launch := h, reserved := s.plan.corrected, holdAsked := hold } }
    let w := w.placeConstants q s.plan
    let w := ((w.domainsOn q.stables s.plan).bindAllocs s.plan).forgetBig s.batch
    let w := if s.plan.kind = pkPhase && s.batch.pauseLive then w.phasePause p else w
    w.postPrefetch p 0

/-- The first attempt of a batch: it reads its bindings now. -/
def W.launchNew (p h : Nat) (b : Batch) (x : Plan) (w : W) : W :=
  match w.dev.pad? p with
  | none => w
  | some q =>
    w.launchStep p h (Step.start x b h 1 q.prefill (w.dev.bind p q x))

/-! ### Replays (R66, R444, R446) -/

/-- A replay launches under the fence of the record whose reaction it is. -/
def Dev.replayMay (d : Dev) (p : Nat) (q : Paddock) (s : Step) : Bool :=
  d.idle p q && (q.state = .ready || q.state = .tearing) && s.plan.shares.all (d.holdsShare p)
  && d.faults.fences.all fun f => f.1 ≠ p || (match d.faults.recovering with | some r => f.2 = r.seq && r.reaction = reReplay | none => false)

/-- Firmware writes the row area for each launch, that of a replay too (R564). -/
def W.rowsAgain (p h : Nat) (s : Step) (w : W) : W :=
  match ((w.dev.pad? p).bind (·.serving)).bind fun sv => sv.families.find? fun f => f.family = s.batch.family with
  | some f => if s.batch.service = 4 then w.writeRows p f h s.batch.rows else w
  | none => w

/-- The corrected estimate of a replay goes by the plan's factor at its launch (R474). -/
def Step.withFactor (q : Paddock) (s : Step) : Step :=
  match q.plans.find? fun x => x.planId = s.plan.planId && x.digest = s.plan.digest with
  | some x => { s with plan := { s.plan with k := x.k } }
  | none => s

/-- The replay of a paddock launches, waits, or is no longer possible. -/
def W.launchReplay (p h : Nat) (w : W) : W :=
  match w.dev.pad? p with
  | none => w
  | some q => match q.replay with
    | none => w
    | some s =>
      if w.dev.unitGone s.plan || s.plan.shares.any (fun x => !w.dev.keepsShare p x) then
        let st := if w.dev.unitGone s.plan then Status.unitAbsent else .shareMissing
        ((((w.pad p fun q => { q with replay := none }).dropStep p s st s.last).tearOn p)).finishRecoveries 17
      else if w.dev.replayMay p q s then
        let w := (w.pad p fun q => { q with replay := none }).rowsAgain p h s
        let w := w.launchStep p h (s.withFactor q)
        (w.faults fun f => { f with fences := f.fences.filter fun x => x.1 ≠ p }).finishRecoveries 17
      else w

/-! ### Service steps (R218, R227, R323) -/

/-- The loaded SERVICE plans of a family. -/
def Paddock.servicePlans (q : Paddock) (family : Nat) : List Plan := q.plans.filter fun x => x.family = family && x.kind = pkService

/-- What the checks of R60 give a due service step. It has no tenant. -/
def Dev.serviceMatch (d : Dev) (p h : Nat) (q : Paddock) (b : Batch) : Match :=
  match d.variant p q false (q.servicePlans b.family) with
  | .plan x => match d.boundLost x with
    | some st => .fail st
    | none =>
      if !d.energyCheck h b x.corrected then .wait
      else if q.lockstep.isSome && x.varies then .fail .planVaries
      else .plan x
  | r => r

/-- The first of the due service steps `l` that launches. One that is given WAIT holds the later ones back; one that no check lets pass does
not (log entry 120). -/
def Dev.firstService (d : Dev) (p h : Nat) (q : Paddock) : List Batch → Option (Batch × Plan)
  | [] => none
  | b :: r => match d.serviceMatch p h q b with
    | .plan x => some (b, x)
    | .wait => none
    | .fail _ => d.firstService p h q r

/-- A due service step waits for energy: batches and generation steps of the paddock wait behind it (R225, R327). -/
def Dev.serviceWaits (d : Dev) (p h : Nat) (q : Paddock) (l : List Batch) : Bool :=
  l.any fun b => match d.variant p q false (q.servicePlans b.family) with
    | .plan x => (d.boundLost x).isNone && !d.energyCheck h b x.corrected
    | _ => false

def serviceBatch (service family ident epoch seed h : Nat) : Batch :=
  { Batch.blank with service := service, family := family, ident := ident, epoch := epoch, seed := seed, accepted := h }

/-- Service steps of paddock `p` that are due, in order: apply, consolidation, remap. Their step seeds no rule gives. -/
def Dev.dueServices (d : Dev) (p h seed : Nat) : List Batch :=
  let mine := d.indexes.filter fun x => x.paddock = p
  ((mine.filter fun x => x.applyDue).map fun x => serviceBatch 1 x.applyFamily x.desc.indexId x.epoch seed h) ++
  ((mine.filter fun x => x.consolidateDue).map fun x => serviceBatch 2 x.consFamily x.desc.indexId x.epoch seed h) ++
  ((d.embs.filter fun x => x.paddock = p && x.remapDue).map fun x => serviceBatch 3 x.remapFamily x.handle 0 seed h)

/-- What the launch of a service step fixes. -/
def W.startService (b : Batch) (w : W) : W :=
  if b.service = 1 then w.startApply b.ident b.epoch
  else if b.service = 2 then w.startConsolidation b.ident b.epoch
  else w.emb b.ident fun e => { e with remapDue := false }

/-- The first due service step that passes its checks launches; a due one starts the wake of the paddock's domains (R468). The answer says
whether one waits for energy. -/
def W.launchService (p h : Nat) (w : W) : Bool × W :=
  let (n, w) := w.fresh
  match w.dev.pad? p with
  | none => (false, w)
  | some q =>
    let due := w.dev.dueServices p h (Config.freeNat n % 2 ^ 64)
    let w := if due.isEmpty then w else w.wakePad p
    if !w.dev.mayLaunch p q then (false, w)
    else match w.dev.firstService p h q due with
      | some (b, x) => (false, (w.startService b).launchNew p h b x)
      | none => (w.dev.serviceWaits p h q due, w)

/-! ### Batches of the host (R60 to R62, R428) -/

def W.failBatch (b : Batch) (st : Status) (w : W) : W := (w.forgetBig b).complete b.ring b.index st

/-- Decided launches that are due, in order of acceptance: at its stated herd count one launches or is LATE; one without waits for the boundary,
and goes back to the queue if its plan no longer passes. `held` tells that a service step waits ahead of them. -/
def W.launchDecided (p h : Nat) (held : Bool) (w : W) : W :=
  match w.dev.pad? p with
  | none => w
  | some q =>
    let due := sortBy (fun (a b : Decided) => decide (a.batch.accepted < b.batch.accepted)) (q.decided.filter fun x => decide (x.at_ ≤ h))
    W.each due (fun x w => match w.dev.pad? p with
      | none => w
      | some q =>
        let may := w.dev.mayLaunch p q && !held
        let fits := w.dev.stillFits p h q x.batch x.plan
        let out := w.pad p fun q => { q with decided := q.decided.filter (· ≠ x) }
        -- a stated launch whose plan no longer passes the checks is LATE (log entry 65)
        if may && fits && (x.batch.launch.isNone || x.at_ = h) then out.launchNew p h x.batch x.plan
        else if x.batch.launch.isSome then out.failBatch x.batch .late
        else if may then out.pad p fun q => { q with batches := sortBy (fun a b => decide (a.accepted < b.accepted)) (q.batches ++ [x.batch]) }
        else w) w

/-- An unstated launch has been decided and waits. -/
def Paddock.unstated (q : Paddock) : Bool := q.decided.any fun x => x.batch.launch.isNone

/-- The queued batches in order of acceptance: failing ones complete, and those given WAIT stay. Of those that pass and state no launch count the
first is decided, and the next ones once it has launched; one that states its count is decided now (log entry 66). -/
def W.decideBatches (p h : Nat) (w : W) : W :=
  match w.dev.pad? p with
  | none => w
  | some q =>
    if w.dev.boot.phase ≠ .run || q.state ≠ .ready then w
    else
      W.each q.batches (fun b w => match w.dev.pad? p with
        | none => w
        | some q =>
          match w.dev.decide60 p q h b with
            | .wait => match w.dev.variant p q b.pauseLive (q.plans.filter fun x => x.family = b.family && x.kind ≠ pkService) with
              | .plan x =>
                if w.dev.streamFull p || !(w.dev.tenant b.tenant).passes || w.dev.energyCovers h x.corrected then w else w.noteBig h b x.corrected
              | _ => w
            | .fail st => (w.pad p fun q => { q with batches := q.batches.filter (· ≠ b) }).failBatch b st
            | .plan x =>
              if b.launch.isNone && q.unstated then w
              else
                let d : Decided := { batch := b, plan := x, at_ := b.launch.getD (h + 4096) }
                let w := w.pad p fun q => { q with batches := q.batches.filter (· ≠ b) }
                w.pad p fun q => { q with decided := q.decided ++ [d] }) w

/-! ### Generation steps (R284 to R287, R422) -/

/-- Plans of a ladder family: KIND PREFILL, DECODE or GENERATE. -/
def Paddock.ladderPlans (q : Paddock) (family : Nat) : List Plan := q.plans.filter fun x => x.family = family && decide (2 ≤ x.kind) && decide (x.kind ≤ 4)

/-- The variant that R60 matches for a family of the ladder. -/
def Dev.ladderVariant (d : Dev) (p h : Nat) (q : Paddock) (family : Nat) : Option Plan :=
  match d.variant p q false (q.ladderPlans family) with
  | .plan x => if d.energyCheck h { Batch.blank with ring := 64 } x.corrected && (d.boundLost x).isNone && !(q.lockstep.isSome && x.varies) then some x else none
  | _ => none

/-- Forms a generation step of paddock `p` and launches it, if nothing else is decided. -/
def W.launchGeneration (p h : Nat) (held : Bool) (w : W) : W :=
  match w.dev.pad? p with
  | none => w
  | some q => match q.serving with
    | none => w
    | some sv =>
      if held || !w.dev.mayLaunch p q || q.unstated || w.dev.streamFull p then w
      else match w.dev.form p q sv fun f => (w.dev.ladderVariant p h q f).map (·.length) with
        | none => w
        | some f => match w.dev.ladderVariant p h q f.family.family with
          | none => w
          | some x =>
            if f.empty then w.leftOut f
            else
            let (n, w) := w.fresh
            let rows := f.rows
            let b : Batch := { Batch.blank with service := 4, family := f.family.family, seed := Config.freeNat n % 2 ^ 64, accepted := h, rows := rows }
            ((w.formed p f).writeRows p f.family h rows).launchNew p h b x

/-! ### The launch point -/

/-- Teardowns that waited for the paddock to be READY begin. -/
def W.beginTeardowns (w : W) : W :=
  W.each w.dev.pads (fun (x : Nat × Paddock) w => if x.2.state = .ready && x.2.teardown.isSome then w.beginTeardown x.1 else w) w

/-- Everything that one paddock launches, completes or decides at launch point `h`. -/
def W.launchPad (h p : Nat) (w : W) : W :=
  let waits := match w.dev.pad? p with | some q => q.replay.isSome | none => false
  let (held, w) := if waits then (false, w.launchReplay p h) else w.launchService p h
  ((w.launchDecided p h held).decideBatches p h).launchGeneration p h held

/-- A due service step of the paddock may still launch: only one that no check lets pass does not count. -/
def Dev.serviceDue (d : Dev) (p h : Nat) (q : Paddock) : Bool :=
  (d.dueServices p h 0).any fun b => match d.serviceMatch p h q b with | .fail _ => false | _ => true

/-- STANDBY is entered where it is asked for, no step runs and none is due: hub services, the Halter and drover core 0 are IDLE (R470). -/
def W.standbyPoint (w : W) : W :=
  let h := w.herd
  if w.dev.power.standbyAsked && w.dev.boot.phase = .run
      && w.dev.pads.all (fun x => x.2.step.isNone && x.2.replay.isNone && x.2.gated.isNone && x.2.decided.isEmpty && !w.dev.serviceDue x.1 h x.2) then
    let w := w.boot fun b => { b with phase := .standby }
    let d := w.dev
    w.power fun p => { p with
      standbyAsked := false
      domains := (List.range 96).map fun n =>
        let x := tget Domain.reset n p.domains
        let idle := [52, 76, 94].contains n
        (n, if d.domainAbsent n then x else { x with state := if idle then 1 else max x.state (d.deepest n), waking := false, idleSince := h }) }
  else w

def W.launchPoint (h : Nat) (w : W) : W :=
  let w := (((w.applyFences).applyChanges).fencesDone).passEpochs h
  let w := ((((w.groomLaunchPoint).handoverPoint).energyPoint h).serveLaunchPoint).embLaunchPoint
  let w := (w.tiersPoint).padLaunchPoint
  let w := ((w.beginTeardowns).beginReforms).finishRecoveries 17
  (W.each (w.dev.pads.map (·.1)) (W.launchPad h) w).standbyPoint

end Sys2Proof.Machine
end

