-- ==== Sys2Proof/Machine/ServeCmds.lean ====
section
/-! DEFINITION. The commands of generation serving: ADMIT, INPUT, PAUSE, RESUME, SERVE_SET, TENANT_SET and the loads of tokenizer tables,
grammars and adapters (R252 to R254, R257 to R259, R270 to R272, R279 to R285, R294 to R300, R431, R432). -/

namespace Sys2Proof.Machine

open Host

/-! ### ADMIT (R272, R280, R281, R422, R426, R431) -/

/-- Lengths of the stop strings. -/
def stopLens (b : Bytes) : List Nat := (List.range 8).map fun i => fld b (84 + i) 1

/-- The eight stop string slots of an ADMIT payload; an unused one is empty. -/
def stopStringsOf (b : Bytes) : List Bytes :=
  ((stopLens b).foldl (fun (acc : List Bytes × Nat) n => (acc.1 ++ [slice b acc.2 n], acc.2 + n)) ([], 128)).1

/-- Every field lies within R280, on ring `r` (check 1, with R422 and R426). -/
def Dev.admitOk (d : Dev) (r : Nat) (b : Bytes) : Bool :=
  let g := d.ring r
  let p := fld b 2 1
  let flags := fld b 3 1
  let cap := d.ctxCap p
  let inL := fld b 4 4
  let outL := fld b 8 4
  let smp := fld b 29 1
  let pv := fld b 60 4
  decide (128 ≤ b.length) && b.length = 128 + sumNat (stopLens b) && sumNat (stopLens b) ≤ 256 && (stopLens b).all (· ≤ 64)
  && g.streamEn && fld b 0 1 = g.tenant && fld b 1 1 ≤ 3 && p ≤ 63 && flags < 16 && allZero (slice b 100 28)
  && (match d.pad? p with | some q => q.serving.isSome && q.state ≠ .tearing | none => false)
  && 2 ≤ inL && inL + 1 ≤ cap && 1 ≤ outL && inL + outL ≤ cap && fld b 12 4 + 2 ≤ inL && smp ≤ 3 && fld b 30 2 ≤ 64
  && (smp = 0 || (f32Positive (fld b 56 4) && f32Finite (fld b 56 4)))
  && (if smp = 2 then f32Positive pv && pv ≤ f32One else if smp = 3 then f32Positive pv && pv < f32One else pv = 0)
  && (!flags.testBit 0 || (fld b 92 8 < 2 ^ 46 && (d.allocAt (fld b 92 8)).isSome))

/-- The grammar checks of R272; an image that is not loaded matches no table (log entry 28). -/
def Dev.grammarStatus (d : Dev) (b : Bytes) : Option Status :=
  if fld b 48 8 = 0 then none
  else if 16384 ≤ d.serve.contexts.length then some .grammarFull
  else match d.serve.currentGrammar (fld b 48 8) with
    | some g => if gramTable g.image = fld b 32 8 then none else some .grammarMismatch
    | none => some .grammarMismatch

/-- The current adapter version that a request names, for the paddock's resident set. -/
def Dev.adapterFor (d : Dev) (b : Bytes) : Option AdapterVersion :=
  (d.pad? (fld b 2 1)).bind fun q => (q.adapterNow (fld b 40 8)).bind fun a => if a.weightSet = q.resident && !a.unloaded then some a else none

def kvNeed (b : Bytes) : Nat := ceilDiv (fld b 4 4 + fld b 8 4) 64

/-- The checks of R281 in order. -/
def Dev.admitStatus (d : Dev) (r : Nat) (b : Bytes) : Option Status :=
  if !d.admitOk r b then some .badRequest
  else if 65536 ≤ d.serve.requests.length || decide ((d.tenant (fld b 0 1)).liveMax ≤ d.liveTenant (fld b 0 1)) then some .requestsFull
  else if (d.serve.currentTable (fld b 32 8)).isNone then some .tableAbsent
  else if fld b 40 8 ≠ 0 && (d.adapterFor b).isNone then some .adapterAbsent
  else match d.grammarStatus b with
    | some st => some st
    | none => if (d.freeKv (fld b 2 1) (kvNeed b)).isNone then some .kvFull else none

/-- The request that a descriptor gives. -/
def Dev.newRequest (d : Dev) (r herd seed : Nat) (b : Bytes) : Request :=
  let flags := fld b 3 1
  let g := d.serve.currentGrammar (fld b 48 8)
  let a := if fld b 40 8 = 0 then none else d.adapterFor b
  { number := (lowestFree 65536 (d.serve.requests.map (·.number))).getD 0, admitted := herd, ring := r, tenant := fld b 0 1, cls := fld b 1 1
    paddock := fld b 2 1, includeStop := flags.testBit 1, logprobs := flags.testBit 2, inLimit := fld b 4 4, outLimit := fld b 8 4
    protect := fld b 12 4, seed := seed, stream := fld b 24 5, sampler := fld b 29 1, topK := fld b 30 2, tableId := fld b 32 8
    tableVer := ((d.serve.currentTable (fld b 32 8)).map (·.version)).getD 0, adapterId := fld b 40 8
    adapterVer := (a.map (·.version)).getD 0, adapterSlot := (a.map (·.slot)).getD 0, grammarId := fld b 48 8
    grammarVer := if fld b 48 8 = 0 then 0 else (g.map (·.version)).getD 0
    context := if fld b 48 8 = 0 then none else lowestFree 16384 (d.serve.contexts.map (·.1))
    temp := fld b 56 4, p := fld b 60 4, mark := fld b 64 4
    stopTokens := (List.range 4).map (fun i => fld b (68 + 4 * i) 4), stopStrings := stopStringsOf b
    state := .input, pauseHost := flags.testBit 3, pauseBudget := !(d.tenant (fld b 0 1)).passes, pauseLatency := false, pausePhase := false
    resumedPhase := false, received := 0, buffers := [], carry := [], heldTokens := [], heldBytes := [], inTokens := 0, prefilled := 0
    outTokens := 0, lastToken := none, waited := 0, kv := (d.freeKv (fld b 2 1) (kvNeed b)).getD []
    resident := ((d.pad? (fld b 2 1)).map (·.resident)).getD 0, cancelled := false }

/-- The admission result (R431). -/
def Request.admission (q : Request) : Bytes :=
  leBytes 4 q.number ++ zeros 4 ++ leBytes 8 q.admitted ++ leBytes 8 q.seed ++ leBytes 2 q.tableVer ++ leBytes 2 q.adapterVer ++ leBytes 2 q.grammarVer ++ zeros 2

def doAdmit (w : W) (r : Nat) (o : Outstanding) : W :=
  let b := w.payload o
  match w.dev.admitStatus r b with
  | some st => w.complete r o.index st
  | none =>
    let (n, w) := w.fresh
    let seed := if fld b 16 8 = 0 then (Config.entropy n).toNat else fld b 16 8
    let q := w.dev.newRequest r w.herd seed b
    let start := match w.dev.serve.currentGrammar q.grammarId with | some g => gramStart g.image | none => 0
    let w := w.serve fun v => { v with
      requests := v.requests ++ [q]
      contexts := match q.context with
        | some c => tput c { grammarId := q.grammarId, version := q.grammarVer, state := start, stack := [] } v.contexts
        | none => v.contexts }
    let w := w.writeKvTable q
    let w := if (fld b 3 1).testBit 0 then
        let at_ := fld b 92 8
        w.inputDone q.number ((List.range (ofLe (w.commonsPeeks at_ 4))).map fun i => ofLe (w.commonsPeeks (at_ + 64 + 4 * i) 4))
      else w
    (w.wakePad q.paddock).complete r o.index .done 0 q.admission

/-! ### INPUT, PAUSE and RESUME (R257, R259, R296, R426) -/

/-- The ring may name a request of tenant `t`. -/
def Dev.mayName (d : Dev) (r t : Nat) : Bool := (d.ring r).admin || (d.ring r).tenant = t

/-- What a command on ring `r` finds of the request it names: live, complete, or nothing. -/
def Dev.named (d : Dev) (r : Nat) (o : Outstanding) : Except Status Request :=
  let n := o.field 36 4
  let a := o.field 40 8
  let ended := match d.recent? n a with
    | some x => if d.mayName r x.2.2 then .alreadyComplete else .notFound
    | none => Status.notFound
  match d.request? n with
  | some q => if q.admitted ≠ a then .error ended else if d.mayName r q.tenant then .ok q else .error .notFound
  | none => .error ended

def doInput (w : W) (r : Nat) (o : Outstanding) : W :=
  match w.dev.named r o with
  | .error _ => w.complete r o.index .notFound
  | .ok q =>
    let b := w.payload o
    let final := decide (o.field 32 1 = 1)
    if 1 < o.field 32 1 || q.state ≠ .input || q.buffers.any (·.2) then w.complete r o.index .badRequest
    else if 1_048_576 < q.received + b.length then w.complete r o.index .inputTooLong
    else (w.request q.number fun q => { q with received := q.received + b.length, buffers := q.buffers ++ [(b, final)] }).complete r o.index .done

/-- PAUSE and RESUME set and clear the HOST bit. -/
def W.hostPause (on : Bool) (w : W) (r : Nat) (o : Outstanding) : W :=
  match w.dev.named r o with
  | .error st => w.complete r o.index st
  | .ok q => (w.request q.number fun q => { q with pauseHost := on }).complete r o.index .done

def doPause (w : W) (r : Nat) (o : Outstanding) : W := w.hostPause true r o
def doResume (w : W) (r : Nat) (o : Outstanding) : W := w.hostPause false r o

/-! ### SERVE_SET (R285 to R290, R432) -/

def parseServing (b : Bytes) : Serving :=
  { loadMode := fld b 1 1 = 1, prefillStables := fld b 2 2, pcost := fld b 4 2, dcost := fld b 6 2, hyst := fld b 8 1, age := fld b 10 2
    ctxCap := fld b 12 4, goal := (List.range 4).map fun c => fld b (16 + 4 * c) 4, rMax := fld b 32 1
    families := (List.range (min 4 (fld b 9 1))).map fun f =>
      { family := fld b (40 + 16 * f) 4, dr := fld b (44 + 16 * f) 2, pr := fld b (46 + 16 * f) 2, pt := fld b (48 + 16 * f) 4 } }

def servingOk (b : Bytes) (q : Paddock) : Bool :=
  let s := parseServing b
  b.length = 128 && fld b 1 1 ≤ 1 && 1 ≤ s.pcost && 1 ≤ s.dcost && 1 ≤ s.hyst && s.hyst ≤ 64 && 1 ≤ fld b 9 1 && fld b 9 1 ≤ 4
  && [8, 16, 32, 64].contains s.rMax && allZero (slice b 33 7) && allZero (slice b 104 24)
  && (s.loadMode || s.prefillStables ≤ q.stables.length)
  && (List.range s.families.length).all (fun f => fld b (52 + 16 * f) 4 = 0)

/-- CTX_CAP and R_MAX stay while requests are live. -/
def Dev.servingKeeps (d : Dev) (p : Nat) (q : Paddock) (s : Serving) : Bool :=
  (d.livePad p).isEmpty || match q.serving with
    | some c => c.ctxCap = s.ctxCap && c.rMax = s.rMax
    | none => true

/-- CTX_CAP and R_MAX of a ladder that is registered change at once; every other setting waits for the launch point. -/
def Paddock.serveSet (s : Serving) (q : Paddock) : Paddock :=
  { q with pendServing := some s, serving := q.serving.map fun c => { c with ctxCap := s.ctxCap, rMax := s.rMax } }

def doServeSet (w : W) (r : Nat) (o : Outstanding) : W :=
  let b := w.payload o
  let p := fld b 0 1
  match w.dev.pad? p with
  | none => w.complete r o.index .notFound
  | some q =>
    if !servingOk b q || !w.dev.servingKeeps p q (parseServing b) then w.complete r o.index .badRequest
    else (w.pad p fun q => q.serveSet (parseServing b)).complete r o.index .done

/-! ### TENANT_SET (R294, R295) -/

/-- The values that SET selects lie within R294. -/
def tenantOk (o : Outstanding) : Bool :=
  let set := o.field 33 1
  let win := o.field 40 4
  set < 32 && o.field 34 1 ≤ 1
  && (!set.testBit 1 || (1968 ≤ win && win ≤ 11_718_736 && win % 16 = 0))
  && (!set.testBit 2 || (1 ≤ o.field 44 4 && o.field 44 4 ≤ 65536)) && (!set.testBit 3 || 1 ≤ o.field 48 2)

def doTenantSet (w : W) (r : Nat) (o : Outstanding) : W :=
  let set := o.field 33 1
  if !tenantOk o then w.complete r o.index .badRequest
  else
    let w := w.tenant (o.field 32 1) fun t => { t with
      pendBudget := if set.testBit 0 then some (o.field 36 4) else t.pendBudget
      pendWindow := if set.testBit 1 then some (o.field 40 4) else t.pendWindow
      liveMax := if set.testBit 2 then o.field 44 4 else t.liveMax
      rowCap := if set.testBit 3 then o.field 48 2 else t.rowCap
      replaceInvalid := if set.testBit 4 then (o.field 34 1).testBit 0 else t.replaceInvalid }
    w.complete r o.index .done

/-! ### Loads (R252 to R254, R270 to R272, R299, R300) -/

/-- A first version is current at once; a replacement waits for the next launch point, in the place of one that waits already. -/
def doTokenizerLoad (w : W) (r : Nat) (o : Outstanding) : W :=
  let b := w.payload o
  let ts := w.dev.serve.tables
  let same := ts.filter fun t => t.tableId = tokId b
  let others := ts.filter fun t => !(t.tableId = tokId b && t.pending)
  if w.dev.unitFenced uTokenizer 0 then w.complete r o.index .unitAbsent
  else if !tableOk b then w.complete r o.index .tableFormat
  else if 4 ≤ others.length || decide (96 * 2 ^ 20 < sumNat (others.map fun t => t.image.length) + b.length) then w.complete r o.index .tableFull
  else
    let first := !same.any (·.current)
    let t : TokTable := { tableId := tokId b, version := nextVersion w.dev.serve.tableCounts (tokId b), image := b, current := first, pending := !first }
    (w.serve fun v => { v with tables := others ++ [t], tableCounts := nput t.tableId t.version v.tableCounts }).complete r o.index .done t.version

def doGrammarLoad (w : W) (r : Nat) (o : Outstanding) : W :=
  let b := w.payload o
  let gs := w.dev.serve.grammars
  let same := gs.filter fun g => g.grammarId = gramId b
  let others := gs.filter fun g => !(g.grammarId = gramId b && g.pending)
  -- the VOCAB of the table whose ids it uses; without that table nothing can be checked (log entry 28)
  let vocab := match w.dev.serve.currentTable (gramTable b) with | some t => tokVocab t.image | none => 0
  if w.dev.unitFenced uGrammar 0 then w.complete r o.index .unitAbsent
  else if vocab = 0 || !grammarOk b vocab then w.complete r o.index .grammarFormat
  else if decide (128 * 2 ^ 20 < sumNat (others.map fun g => g.image.length) + b.length) then w.complete r o.index .grammarFull
  else
    let first := !same.any (·.current)
    let g : Grammar := { grammarId := gramId b, version := nextVersion w.dev.serve.grammarCounts (gramId b), image := b, current := first, pending := !first }
    (w.serve fun v => { v with grammars := others ++ [g], grammarCounts := nput g.grammarId g.version v.grammarCounts }).complete r o.index .done g.version

/-- Projection `i` of the ladder of a paddock: entry `i` of the RESIDENCY of one of its plans, which is none of the four areas of R564 (log
entry 29). -/
def Paddock.hasProjection (q : Paddock) (i : Nat) : Bool :=
  match q.serving with
  | some s => (q.plans.filter fun x => s.families.any fun f => f.family = x.family).any fun x => match x.residency[i]? with
    | some a => decide (a.allocId < 0xFFFF_FF01) || decide (0xFFFF_FF04 < a.allocId)
    | none => false
  | none => false

def adapterOk (b : Bytes) (q : Paddock) : Bool :=
  let n := fld b 0x12 2
  let rank := fld b 6 1
  let rMax := (q.serving.map (·.rMax)).getD 0
  decide (128 ≤ b.length) && fld b 0 4 = 0x5044_4141 && fld b 4 2 = 1 && [8, 16, 32, 64].contains rank && [fN4, fN8, fBF16].contains (fld b 7 1)
  && fld b 8 8 ≠ 0 && fld b 0x14 4 = b.length && b.length ≤ 2 ^ 30 && allZero (slice b 0x38 72)
  && sha3 (b.take 0x18 ++ zeros 32 ++ b.drop 0x38) == slice b 0x18 32
  && decide (128 + 16 * n ≤ b.length) && rank ≤ rMax
  && (List.range n).all fun i =>
      let e := slice b (128 + 16 * i) 16
      q.hasProjection (fld e 0 4) && fld e 4 4 ≤ b.length && fld e 8 4 ≤ b.length && fld e 12 4 = 0

def doAdapterLoad (w : W) (r : Nat) (o : Outstanding) : W :=
  let b := w.payload o
  let p := o.field 32 1
  match w.dev.pad? p with
  | none => w.complete r o.index .notFound
  | some q =>
    if !adapterOk b q then w.complete r o.index .adapterFormat
    else
      let id := fld b 8 8
      let others := q.adapters.filter fun a => !(a.adapterId = id && a.pending)
      match lowestFree (adapterSlots p) (others.map (·.slot)) with
      | none => w.complete r o.index .adapterFull
      | some slot =>
        let a : AdapterVersion := { slot := slot, adapterId := id, version := nextVersion q.adapterCounts id, rank := fld b 6 1
                                    weightSet := fld b 0x10 2, digest := slice b 0x18 32, image := b, current := false, pending := true, unloaded := false }
        let w := w.pad p fun q => { q with adapters := others ++ [a], adapterCounts := nput id a.version q.adapterCounts }
        (w.put (memKey spCommons 0 (adapterBase p slot)) b).complete r o.index .done a.version

/-- New admissions no longer find the adapter; requests that pin it run to their end. -/
def doAdapterUnload (w : W) (r : Nat) (o : Outstanding) : W :=
  let p := o.field 32 1
  let id := o.field 40 8
  match w.dev.pad? p with
  | none => w.complete r o.index .notFound
  | some q =>
    if !q.adapters.any fun a => a.adapterId = id && !a.unloaded then w.complete r o.index .notFound
    else
      let w := w.pad p fun q => { q with adapters := q.adapters.map fun a => if a.adapterId = id then { a with unloaded := true, current := false } else a }
      (w.freeVersions).complete r o.index .done

end Sys2Proof.Machine
end

