-- ==== Sys2Proof/Machine/HostCmds.lean ====
section
/-! DEFINITION. General commands of the command rings: NOP, MUSTER, PLAN_LOAD, PLAN_UNLOAD, BATCH, CANCEL and LOCKSTEP_PAIR (R48, R49, R67,
R81, R297, R424 to R427, R434, R437, R438). -/

namespace Sys2Proof.Machine

open Host

def doNop (w : W) (r : Nat) (o : Outstanding) : W := w.complete r o.index .done

/-! ### MUSTER (R437, R438) -/

/-- STATE of the header: BOOTING, READY, IMAGE_WAIT or DEGRADED. -/
def Boot.musterState (b : Boot) : Nat :=
  if b.phase = .imageWait then 2 else if b.phase = .bringUp then 0 else if b.degraded then 3 else 1

/-- The last stage completed. -/
def Boot.lastStage (b : Boot) : Nat := b.stagesDone - 1

def PadState.code : PadState → Nat
  | .forming => 1
  | .ready => 2
  | .reforming => 3
  | .tearing => 4

def imageId (i : Option Image) : Bytes := leBytes 32 ((i.map (·.identity)).getD 0)

/-- Header and identity blocks. -/
def Dev.musterHead (d : Dev) (herd : Nat) : Bytes :=
  let live := d.serve.requests.length
  let flags := b2n (decide (65536 ≤ live)) + 2 * b2n (d.halter.state = 3) + 4 * b2n d.shed.readOnly + 8 * b2n (decide (16 < d.indexes.length))
  leBytes 4 0x5453_554D ++ leBytes 2 1 ++ leBytes 1 d.boot.lastStage ++ leBytes 1 d.boot.musterState ++ leBytes 8 herd ++ leBytes 8 d.boot.readyHerd ++
  leBytes 4 flags ++ leBytes 4 live ++ zeros 32 ++
  imageId d.boot.fw ++ imageId d.boot.cfg ++ leBytes 32 d.boot.deviceId ++ leBytes 4 d.boot.romVersion ++
  leBytes 4 ((d.boot.fw.map (·.version)).getD 0) ++ zeros 24

/-- A standing fence that has been applied: its record neither waits in the collector's queue nor for the launch point at which the fence
applies. -/
def Dev.fencedForGood (d : Dev) (k i : Nat) : Bool :=
  d.unitFenced k i && !d.faults.toFence.contains (unitKey k i) && !d.faults.queue.any fun r => r.standing && r.unit = unitKey k i

/-- UNITS: barn memory, grammar unit, lock-step port. A unit fenced for good reads as absent (R527). -/
def Dev.unitBits (d : Dev) : Nat := b2n d.boot.part.hasBarn + 2 * b2n (!d.fencedForGood uGrammar 0) + 4 * b2n d.boot.part.lockstep

/-- Stage 6 has ended, which finds the available stables (R491, R527). -/
def Dev.availNow (d : Dev) : List Nat := if 7 ≤ d.boot.stagesDone then d.available else []

/-- LOGICAL_STALLS, which stage 6 sets for the whole start (R527): a stable that a paddock loses later does not change it. -/
def Dev.logicalStalls (d : Dev) : Nat :=
  if 7 ≤ d.boot.stagesDone then d.S * ((List.range 256).filter fun ls => (d.physStable ls).isSome).length else 0

def Dev.portMask (d : Dev) : Nat := bitMask ((List.range d.boot.part.ports).filter fun p => !d.fencedForGood uDrove p)

def Dev.shedShown (d : Dev) : Nat := ((List.range d.shedN).filter fun c => !d.fencedForGood uShed c).length

def Dev.barnGiB (d : Dev) : Nat := if d.boot.part.hasBarn then 2048 else 0

/-- Plans of every paddock in order, with the paddock's first ordinal. -/
def Dev.planList (d : Dev) : List (Nat × Plan) := (d.pads.map fun (x : Nat × Paddock) => x.2.plans.map fun p => (x.1, p)).flatten

/-- Batches that wait on check 6 of R60 alone (R475, R480). -/
def Dev.waiting (d : Dev) (h : Nat) : Nat :=
  sumNat (d.pads.map fun (x : Nat × Paddock) => (x.2.batches.filter fun b =>
    match d.variant x.1 x.2 b.pauseLive (x.2.plans.filter fun y => y.family = b.family && y.kind ≠ pkService) with
    | .plan y => (d.tenant b.tenant).passes && !d.energyCheck h b y.corrected
    | _ => false).length)

/-- SHED_QOUT: bit t is set while tag t is outstanding (R386). -/
def Queue.tags (q : Queue) : Nat := bitMask (q.out.map (fun c => c.entry.tag.toNat) ++ q.held.map (·.1))

def sortIndexes (l : List Index) : List Index := sortBy (fun a b => decide (a.desc.indexId < b.desc.indexId)) l

/-- The record as ring `tenant?` sees it: a ring without ADMIN sees the live requests of its own tenant only. -/
def Dev.muster (d : Dev) (herd : Nat) (tenant? : Option Nat) : Bytes :=
  if d.boot.phase = .imageWait then d.musterHead herd ++ zeros (4096 - 192)
  else
    let avail := d.availNow
    let cap := leBytes 4 d.logicalStalls ++ leBytes 1 d.S ++ leBytes 1 (2 ^ d.boot.part.bit) ++ leBytes 2 d.unitBits ++
      leBytes 2 d.portMask ++ leBytes 1 d.shedShown ++ leBytes 1 8 ++ leBytes 4 d.barnGiB ++
      leBytes 8 d.shed.poolBytes ++ leBytes 8 d.boot.mapRegion ++ leBytes 32 (bitMask avail) ++ zeros 64
    let pad := fun (p : Nat) => match d.pad? p with
      | none => zeros 8
      | some q =>
        let first := (d.planList.filter fun x => decide (x.1 < p)).length
        leBytes 1 q.state.code ++ leBytes 1 q.plans.length ++ leBytes 1 first ++ zeros 1 ++ leBytes 2 (q.stables.length * d.S) ++ leBytes 2 q.resident
    let tenants := (List.range 256).map fun t =>
      leBytes 2 (if tenant?.all (fun u => decide (t = u)) then satN 16 (d.liveTenant t) else 0)
    let energy := leBytes 8 d.power.windowStart ++ leBytes 4 d.power.windowTicks ++ leBytes 4 d.power.allowance ++ leBytes 4 (d.power.usedUJ / 1000) ++
      leBytes 4 (d.waiting herd) ++ zeros 8
    let idx := ((sortIndexes d.indexes).take 16).map fun x => leBytes 8 x.desc.indexId ++ leBytes 4 x.epoch ++ leBytes 4 x.desc.generation
    let cfg := leBytes 1 d.regs.cfg.state ++ zeros 3 ++ leBytes 4 d.regs.cfg.ref ++ leBytes 4 d.regs.cfg.last ++ leBytes 4 d.regs.cfg.sweeps
    d.musterHead herd ++ fit 128 cap ++ ((List.range 64).map pad).flatten ++ fit 2048 ((d.planList.map fun x => leBytes 8 x.2.planId).flatten) ++
    tenants.flatten ++ fit 256 ((d.faults.log.take 8).map (fit 32)).flatten ++ energy ++ fit 256 idx.flatten ++ cfg ++
    ((List.range 8).map fun q => leBytes 4 (d.queue q).tags).flatten ++ ((List.range 64).map fun r => leBytes 1 (d.ring r).outstanding).flatten ++
    leBytes 4 d.events.lost ++ zeros 44

def doMuster (w : W) (r : Nat) (o : Outstanding) : W :=
  let g := w.dev.ring r
  w.complete r o.index .done 0 (w.dev.muster w.herd (if g.admin then none else some g.tenant))

/-! ### PLAN_LOAD and PLAN_UNLOAD (R48, R49, R351) -/

/-- PLAN_ID is loaded in another paddock: no two loaded plans have one identity (R45), PLAN_FORMAT (log entry 30). -/
def Dev.planElsewhere (d : Dev) (p id : Nat) : Bool := d.planList.any fun x => x.1 ≠ p && x.2.planId = id

/-- A load beyond the limits of R49. A replacement adds no plan. -/
def Dev.plansFull (d : Dev) (q : Paddock) (id : Nat) : Bool :=
  !q.plans.any (·.planId = id) && (32 ≤ q.plans.length || 256 ≤ d.planList.length)

def doPlanLoad (w : W) (r : Nat) (o : Outstanding) : W :=
  let p := o.field 32 1
  match w.dev.pad? p with
  | none => w.complete r o.index .notFound
  | some q =>
    if q.state = .tearing then w.complete r o.index .notFound
    else
      let img := w.payload o
      let e : LoadEnv := { dev := w.dev, p := p, pad := q }
      match e.check img with
      | some st => w.complete r o.index st
      | none =>
        let x := parsePlan img
        if w.dev.planElsewhere p x.planId then w.complete r o.index .planFormat
        else if w.dev.plansFull q x.planId then w.complete r o.index .planFull
        else if w.dev.shed.readOnly && x.stagesShed then w.complete r o.index .readOnly
        else match w.dev.makeAllocs p x.residency with
          | .error st => w.complete r o.index st
          | .ok d =>
            let w := { w with dev := d }
            let w := w.pad p fun q => { q with plans := q.plans.filter (fun y => y.planId ≠ x.planId) ++ [x] }
            let w := (w.placeConstants q x).dropUnplanned p
            (w.freeAllocs).complete r o.index .done

def doPlanUnload (w : W) (r : Nat) (o : Outstanding) : W :=
  let p := o.field 32 1
  let id := o.field 40 8
  match w.dev.pad? p with
  | none => w.complete r o.index .notFound
  | some q =>
    if !q.plans.any (·.planId = id) then w.complete r o.index .notFound
    else (w.unloadPlans p fun x => x.planId = id).complete r o.index .done

/-! ### BATCH (R427, R428) -/

/-- The largest SPACE 9 extent of a plan. -/
def LoadEnv.hostExtent (e : LoadEnv) (x : Plan) : Nat :=
  let s := e.step x
  maxNat ((List.range x.words.length).map fun i => match x.words[i]? with
    | some y =>
      if [cNOP, cREPEAT, cEND].contains y.cls then 0
      else
        let c := e.ctx s y i 0
        maxNat ([y.dst, y.srca, y.srcb].map fun k => match x.desc? k with
          | some d => if d.space = spHost then maxNat ((e.addrs c d).map (· + d.length)) else 0
          | none => 0)
    | none => 0)

def doBatch (w : W) (r : Nat) (o : Outstanding) : W :=
  let p := o.field 32 1
  let flags := o.field 33 1
  match w.dev.pad? p with
  | none => w.complete r o.index .paddockGone
  | some q =>
    let e : LoadEnv := { dev := w.dev, p := p, pad := q }
    let family := o.field 36 4
    let extent := maxNat ((q.plans.filter fun x => x.family = family && x.kind ≠ pkService).map e.hostExtent)
    if 3 < flags then w.complete r o.index .badCommand
    else if q.state = .tearing then w.complete r o.index .paddockGone
    else if o.payloadLen < extent then w.complete r o.index .badRequest
    else
      let b : Batch := { Batch.blank with
        ring := r, index := o.index, cmdId := o.entry.cmdId.toNat, family := family, seed := o.field 40 8
        launch := if flags.testBit 1 then some (o.field 48 8) else none, pauseLive := flags.testBit 0
        window := o.entry.payload.toNat, windowLen := o.payloadLen, tenant := (w.dev.ring r).tenant, accepted := o.herd }
      (w.pad p fun q => { q with batches := q.batches ++ [b] }).wakePad p

/-! ### CANCEL (R67, R297, R426, R434) -/

/-- Where the batch of ring `r` and submission index `i` is. -/
inductive BatchAt where
  | queued (p : Nat)
  | running (p : Nat)
  | replay (p : Nat) (s : Step)
  | gated
  | nowhere

def Batch.isOf (r i : Nat) (b : Batch) : Bool := b.service = 0 && b.ring = r && b.index = i

def Dev.batchAt (d : Dev) (r i : Nat) : BatchAt :=
  (d.pads.findSome? fun (x : Nat × Paddock) =>
    let mine := fun (s : Option Step) => match s with | some s => s.batch.isOf r i | none => false
    if x.2.batches.any (·.isOf r i) || x.2.decided.any (·.batch.isOf r i) then some (BatchAt.queued x.1)
    else if mine x.2.step then some (.running x.1)
    else if mine x.2.gated then some .gated
    else match x.2.replay with
      | some s => if s.batch.isOf r i then some (.replay x.1 s) else none
      | none => none).getD .nowhere

/-- A CANCEL of the batch of another command. -/
def W.cancelBatch (r i : Nat) (target : Nat × Nat) (w : W) : W :=
  let both := fun (w : W) => ((w.forgetBig { Batch.blank with ring := target.1, index := target.2 }).complete target.1 target.2 .cancelled).complete r i .done
  match w.dev.batchAt target.1 target.2 with
  | .queued p =>
    both (w.pad p fun q => { q with
      batches := q.batches.filter fun b => !b.isOf target.1 target.2, decided := q.decided.filter fun x => !x.batch.isOf target.1 target.2 })
  | .running p => w.step p fun s => { s with abandon := true, cancel := s.cancel ++ [(r, i)] }
  | .replay p s =>
    (((((w.pad p fun q => { q with replay := none }).dropStep p s .cancelled s.last).tearOn p)).finishRecoveries 17).complete r i .done
  -- its boundary has passed, and its commit waits for the peer's digest only
  | .gated => w.complete r i .alreadyComplete
  -- a batch that has not started, behind a FENCE
  | .nowhere => both w

/-- A CANCEL of a request: at once, or at the end of the step that carries it. -/
def W.cancelNamed (r : Nat) (o : Outstanding) (w : W) : W :=
  match w.dev.named r o with
  | .error st => w.complete r o.index st
  | .ok q =>
    let (st, w) := w.cancelRequest q.number q.admitted
    if st = .queued then w.carrying q.paddock q.number fun s => { s with cancel := s.cancel ++ [(r, o.index)] } else w.complete r o.index st

def doCancel (w : W) (r : Nat) (o : Outstanding) : W :=
  let kind := o.field 32 1
  let ring := o.field 34 2
  let id := o.field 36 4
  if kind = 1 then w.cancelNamed r o
  else if kind ≠ 2 && kind ≠ 3 then w.complete r o.index .badCommand
  else if 64 ≤ ring || (!(w.dev.ring r).admin && ring ≠ r) then w.complete r o.index .notFound
  else match (w.dev.ring ring).out.find? fun x => x.entry.cmdId.toNat = id && !(ring = r && x.index = o.index) with
    | some t => if t.op = 0x12 then w.cancelBatch r o.index (ring, t.index) else w.complete r o.index .notCancellable
    | none => w.complete r o.index (if (w.dev.ring ring).done.contains id then .alreadyComplete else .notFound)

/-! ### LOCKSTEP_PAIR (R10, R81) -/

/-- The pairing ends; a step that is held back commits. -/
def W.lockOff (p : Nat) (q : Paddock) (w : W) : W :=
  let w := w.pad p fun q => { q with lockstep := none, gated := none }
  match q.gated with
  | some s => w.commitGated p s
  | none => w

def doLockstepPair (w : W) (r : Nat) (o : Outstanding) : W :=
  let p := o.field 32 1
  let port := o.field 33 1
  let mode := o.field 34 1
  match w.dev.pad? p with
  | none => w.complete r o.index (if w.dev.boot.part.lockstep then .notFound else .unitAbsent)
  | some q =>
    if !w.dev.boot.part.lockstep then w.complete r o.index .unitAbsent
    else if 2 < mode then w.complete r o.index .badCommand
    else if mode = 0 then (w.lockOff p q).complete r o.index .done
    else if q.state = .tearing then w.complete r o.index .notFound
    else if w.dev.boot.part.ports ≤ port then w.complete r o.index .unitAbsent
    else if !(w.dev.port port).isUp then w.complete r o.index .linkDown
    else ((w.lockOff p q).pad p fun q => { q with lockstep := some { port := port, gate := mode = 2, own := [], peer := [] } }).complete r o.index .done

end Sys2Proof.Machine
end

