-- ==== Sys2Proof/Machine/Rings.lean ====
section
/-! DEFINITION. Command rings: fetch and acceptance, FENCE, the checks that every command takes, which operation an opcode is, doorbells, and what
waits for the link (R417 to R426, R470, R524, R532). -/

namespace Sys2Proof.Machine

open Host

/-! ### Opcodes (R424) -/

/-- Commands that any ring accepts; the others need ADMIN. -/
def anyRing (op : Nat) : Bool := [0x01, 0x02, 0x12, 0x13, 0x14, 0x15, 0x16, 0x17].contains op

/-- INLINE fields of a command, as offset in the entry and size (R425, R498, R499). -/
def inlineFields (op : Nat) : List (Nat × Nat) :=
  match op with
  | 0x10 => [(32, 1)]
  | 0x11 => [(32, 1), (40, 8)]
  | 0x12 => [(32, 1), (33, 1), (36, 4), (40, 8), (48, 8)]
  | 0x13 => [(32, 1), (34, 2), (36, 4), (40, 8)]
  | 0x15 => [(32, 1), (36, 4), (40, 8)]
  | 0x16 | 0x17 => [(36, 4), (40, 8)]
  | 0x21 => [(32, 1), (33, 1)]
  | 0x23 => [(32, 1), (33, 1), (34, 1), (36, 4), (40, 4), (44, 4), (48, 2)]
  | 0x24 => [(32, 1), (33, 1), (34, 1)]
  | 0x32 => [(32, 1)]
  | 0x33 => [(32, 1), (40, 8)]
  | 0x41 | 0x42 | 0x44 | 0x4A | 0x4B => [(40, 8)]
  | 0x43 => [(36, 4)]
  | 0x50 | 0x51 => [(32, 1), (33, 1), (40, 8)]
  | 0x52 => [(32, 1), (36, 4), (40, 8), (48, 8)]
  | 0x53 => [(32, 1), (33, 1), (36, 4), (40, 8)]
  | 0x54 => [(32, 1), (40, 8)]
  | 0x62 => [(32, 1)]
  | 0x63 => [(32, 32)]
  | _ => []

def inlineOk (op : Nat) (b : Bytes) : Bool :=
  (List.range 32).all fun i => b.getD i 0 = 0 || (inlineFields op).any fun f => decide (f.1 ≤ 32 + i) && decide (32 + i < f.1 + f.2)

/-- Bytes of a result of fixed length: a RESULT_LEN below it is too small. -/
def resultNeeded (op : Nat) : Nat :=
  match op with
  | 0x02 => 4096
  | 0x14 => 32
  | _ => 0

/-- The entry keeps R419, and its result fits (R421). -/
def Outstanding.wellMade (o : Outstanding) : Bool :=
  decide (o.entry.flags.toNat ≤ 1) && o.entry.reserved = 0 && o.entry.payload.toNat % 64 = 0 && o.entry.result.toNat % 64 = 0
  && inlineOk o.op o.entry.inline && decide (resultNeeded o.op ≤ o.entry.resultLen.toNat)

/-- The command of an opcode. -/
def W.operation (r : Nat) (o : Outstanding) (w : W) : W :=
  match o.op with
  | 0x01 => doNop w r o
  | 0x02 => doMuster w r o
  | 0x10 => doPlanLoad w r o
  | 0x11 => doPlanUnload w r o
  | 0x12 => doBatch w r o
  | 0x13 => doCancel w r o
  | 0x14 => doAdmit w r o
  | 0x15 => doInput w r o
  | 0x16 => doPause w r o
  | 0x17 => doResume w r o
  | 0x20 => doPaddockForm w r o
  | 0x21 => doPaddockTeardown w r o
  | 0x22 => doServeSet w r o
  | 0x23 => doTenantSet w r o
  | 0x24 => doLockstepPair w r o
  | 0x30 => doTokenizerLoad w r o
  | 0x31 => doGrammarLoad w r o
  | 0x32 => doAdapterLoad w r o
  | 0x33 => doAdapterUnload w r o
  | 0x40 => doIndexCreate w r o
  | 0x41 => doIndexUpdate w r o
  | 0x42 => doIndexConsolidate w r o
  | 0x43 => doIndexGeneration w r o
  | 0x44 => doIndexDelete w r o
  | 0x48 => doEmbCreate w r o
  | 0x49 => doEmbVersion w r o
  | 0x4A => doEmbMigrate w r o
  | 0x4B => doEmbDelete w r o
  | 0x50 => doHostWrite w r o
  | 0x51 => doHostRead w r o
  | 0x52 => doPeerCopy w r o
  | 0x53 => doCommonsMigrate w r o
  | 0x54 => doPageRetire w r o
  | 0x60 => doGroomRequest w r o
  | 0x61 => doEnergySet w r o
  | 0x62 => doFwHandover w r o
  | 0x63 => doAttest w r o
  | _ => w.complete r o.index .badCommand

/-- DENIED, then a malformed entry, then the command itself. -/
def W.runCommand (r : Nat) (o : Outstanding) (w : W) : W :=
  if !anyRing o.op && !(w.dev.ring r).admin then w.complete r o.index .denied
  else if !o.wellMade then w.complete r o.index .badCommand
  else w.operation r o

/-! ### Starts (R420, R470) -/

/-- The commands that do not wait for the end of STANDBY. -/
def inStandby (op : Nat) : Bool := [0x01, 0x02, 0x12, 0x61].contains op

/-- FENCE lets a command start only when every earlier command of its ring has completed. -/
def Dev.mayStartCommand (d : Dev) (g : Ring) (o : Outstanding) : Bool :=
  !o.started && (!o.entry.flags.getLsbD 0 || g.out.head? = some o)
  && (d.boot.phase = .run || (d.boot.phase = .standby && inStandby o.op))

def Dev.nextStart (d : Dev) : Option (Nat × Outstanding) :=
  d.rings.findSome? fun (x : Nat × Ring) => (x.2.out.find? (d.mayStartCommand x.2)).map fun o => (x.1, o)

def W.startCommand (r : Nat) (o : Outstanding) (w : W) : W :=
  let o' := { o with started := true }
  (w.ring r fun g => { g with out := g.out.map fun x => if x.index = o.index then o' else x }).runCommand r o'

/-- Starts every command that may start. -/
def W.settle : Nat → W → W
  | 0, w => w
  | n + 1, w => match w.dev.nextStart with
    | some x => W.settle n (w.startCommand x.1 x.2)
    | none => w

/-- Commands fetched and not yet started. -/
def Dev.unstarted (d : Dev) : Nat := sumNat (d.rings.map fun (x : Nat × Ring) => (x.2.out.filter fun o => !o.started).length)

/-! ### Firmware's table changes after the host's window (R524) -/

/-- The change that a waiting command makes. -/
def W.resumeChange (r : Nat) (o : Outstanding) (w : W) : W :=
  if o.op = 0x20 then doPaddockForm w r o
  else if o.op = 0x61 then doEnergySet w r o
  else match w.dev.pads.find? fun (x : Nat × Paddock) => match x.2.teardown with | some t => t.ring = r && t.index = o.index | none => false with
    | some x => w.clearEntries x.1
    | none => w

/-- Every change that waited is made, in the order in which they waited, once no window holds firmware back. -/
def W.resumeChanges (w : W) : W :=
  let l := w.dev.regs.cfg.waiting
  if l.isEmpty || w.dev.regs.cfg.blocks then w
  else W.each l (fun k w => match w.dev.outstanding? (k / 256) (k % 256) with
    | some o => w.resumeChange (k / 256) o
    | none => w) (w.cfg fun c => { c with waiting := [] })

/-- What follows from a happening that may let commands start, while the module is at work. -/
def W.wind (w : W) : W :=
  if w.dev.boot.phase.collects then
    let w := w.resumeChanges
    w.settle w.dev.unstarted
  else w

/-! ### Fetch (R417, R420) -/

def Ring.cplFree (g : Ring) : Nat := 255 - (g.cplTail + 256 - g.cplHead) % 256

/-- The device fetches from the ring. -/
def Dev.mayFetch (d : Dev) (r : Nat) : Bool :=
  let g := d.ring r
  (d.boot.phase = .run || d.boot.phase = .standby) && d.halter.isUp && g.enable && g.subHead ≠ g.subTail
  && decide (g.outstanding < 255) && decide (g.outstanding < g.cplFree)

/-- Fetches an entry of opcode `op` and accepts it. -/
def W.fetch (op : Nat) (e : Entry) (w : W) : W :=
  let r := e.ring.val
  if w.dev.mayFetch r then
    let o : Outstanding := { index := (w.dev.ring r).subHead, op := op, entry := e, herd := w.herd, started := false }
    (w.ring r fun g => { g with subHead := (g.subHead + 1) % 256, out := g.out ++ [o] }).wind
  else w

/-! ### The host's index writes (R418, R420, R422, R532) -/

/-- A host write reaches the registers. -/
def Dev.hostReach (d : Dev) : Bool := d.halter.isUp && d.boot.phase.collects && d.boot.phase ≠ .imageWait

def W.subTail (r v : Nat) (w : W) : W := w.when w.dev.hostReach (W.ring r fun g => { g with subTail := v })

def W.cplHead (r v : Nat) (w : W) : W := w.when w.dev.hostReach (W.ring r fun g => { g with cplHead := v })

def W.strHead (r v : Nat) (w : W) : W :=
  w.when w.dev.hostReach fun w =>
    let w := w.ring r fun g => { g with strHead := v }
    w.drainStream r (w.dev.ring r).heldStr.length

def W.evtHead (v : Nat) (w : W) : W := w.when w.dev.hostReach (W.events fun e => { e with head := v })

/-! ### The link comes up (R417) -/

def W.flushEvents : Nat → W → W
  | 0, w => w
  | n + 1, w => match w.dev.events.held with
    | b :: rest => W.flushEvents n ((w.events fun e => { e with held := rest }).writeEvent b)
    | [] => w

def W.flushCompletions (r : Nat) : Nat → W → W
  | 0, w => w
  | n + 1, w => match (w.dev.ring r).heldCpl with
    | c :: rest => W.flushCompletions r n ((w.ring r fun g => { g with heldCpl := rest }).deliver r c)
    | [] => w

/-- What waited for the link is written: completions, stream records, events, and completion records of the storage queues. -/
def W.flushHost (w : W) : W :=
  let w := W.each (w.dev.rings.map (·.1)) (fun r w =>
    let w := w.flushCompletions r (w.dev.ring r).heldCpl.length
    w.drainStream r (w.dev.ring r).heldStr.length) w
  let w := w.flushEvents w.dev.events.held.length
  let w := W.each (List.range 8) (fun q w => w.flushQueue q (w.dev.queue q).held.length) w
  w.runStorage

end Sys2Proof.Machine
end

