-- ==== Sys2Proof/Machine/RegRead.lean ====
section
/-! DEFINITION. The register map and what a read answers (R160 to R162, R339, R386 to R388, R437, R454 to R458, R480 to R482, R506 to R520, R526 to
R532, R549). A direct register is known by its address, a register of indirect target t by (t + 1) × 2^32 + offset. -/

namespace Sys2Proof.Machine

open Host

/-- What a register reads as, whether it is PRIV, and which half of a 64-bit pair it is. -/
structure Reg where
  priv : Bool
  val : Nat
  lo : Bool
  hi : Bool
deriving DecidableEq, Repr

def privReg (v : Nat) : Option Reg := some { priv := true, val := v % 2 ^ 32, lo := false, hi := false }
def openReg (v : Nat) : Option Reg := some { priv := false, val := v % 2 ^ 32, lo := false, hi := false }

/-- Half `h` of a 64-bit value: 0 the _LO register, 1 the _HI register. -/
def pairReg (priv : Bool) (h v : Nat) : Option Reg :=
  some { priv := priv, val := if h = 0 then v % 2 ^ 32 else v / 2 ^ 32 % 2 ^ 32, lo := h = 0, hi := h ≠ 0 }

/-- Word `w` of a run of bytes. -/
def wordOf (b : Bytes) (w : Nat) : Nat := fld b (4 * w) 4

/-! ### Field maps -/

def CfgCheck.ctl (c : CfgCheck) : Nat :=
  c.state * 64 + b2n c.restoring * 32 + b2n (c.holder = some true) * 16 + b2n c.openWait * 8 + b2n c.timeout * 4 + b2n c.committing * 2 + b2n c.holder.isSome

/-- A condition that lasts keeps CAUSE_PRESENT set (R455). -/
def Dev.causeLasts (d : Dev) (r : FaultRec) : Bool :=
  r.causePresent
  || (r.cause = caSpareLow && d.shed.spareLow) || (r.cause = caShedSpares && d.shed.readOnly)
  || (r.cause = caLinkLost && (if r.ukind = uDrove then (d.port r.uindex).state = 0 else d.halter.state = 0))
  || (r.cause = caLinkHalf && d.halter.state = 3)

def Dev.recordBytes (d : Dev) (r : FaultRec) : Bytes := { r with causePresent := d.causeLasts r }.bytes

/-- ALERT, and with it ALERT_N (R455). -/
def Dev.alert (d : Dev) : Bool := d.faults.slots.any fun (x : Nat × FaultRec) => decide (clUnit ≤ x.2.cls) || d.faults.noteAlert

def Dev.faultStat (d : Dev) : Nat :=
  let f := d.faults
  let phase := if d.boot.starting then 0 else if d.groom.services.any (·.running) then 2 else 1
  b2n d.alert * 2 ^ 26 + b2n f.freeSlot.isNone * 2 ^ 25 + b2n f.recovering.isSome * 2 ^ 24 + phase * 2 ^ 22 + f.queue.length * 2 ^ 16 +
  (match f.recovering with | some r => r.seq % 2 ^ 16 | none => 0)

/-- Fault-log record at position `n` of the ring of 1,024. -/
def Faults.logAt (f : Faults) (n : Nat) : Bytes := f.log.getD ((f.logged + 2047 - n) % 1024) (zeros 32)

def Ring.idx (g : Ring) : Nat := g.cplTail * 2 ^ 24 + g.cplHead * 2 ^ 16 + g.subTail * 2 ^ 8 + g.subHead
def Ring.sidx (g : Ring) : Nat := g.strHead * 2 ^ 8 + g.strTail
def EventRing.idx (e : EventRing) : Nat := e.tail * 2 ^ 22 + e.head * 2 ^ 12 + b2n e.enable

/-- CAPS0 to CAPS2. -/
def Dev.caps0 (d : Dev) : Nat := d.S * 2 ^ 24 + 2 ^ d.boot.part.bit * 2 ^ 16 + d.logicalStalls
def Dev.caps1 (d : Dev) : Nat :=
  d.portMask * 2 ^ 16 + d.shedShown * 2 ^ 11 + 8 * 2 ^ 7 + b2n d.boot.part.lockstep * 4 + b2n (!d.fencedForGood uGrammar 0) * 2 + b2n d.boot.part.hasBarn
def Dev.caps2 (d : Dev) : Nat := b2n (decide (7 ≤ d.boot.stagesDone) && d.boot.copyYard.isNone) * 2 ^ 21 + d.boot.copyYard.getD 0 * 2 ^ 16 + d.barnGiB

def Dev.yardCtl (d : Dev) (y : Nat) : Nat :=
  let bits := fun (f : Nat → Bool) => bitMask ((List.range 8).filter fun s => f (y * 8 + s))
  let held := fun (s : Nat) => d.pads.any fun (x : Nat × Paddock) => x.2.stables.contains s
  bits (fun s => d.availNow.contains s) * 2 ^ 16 + bits held * 2 ^ 8 + (if 7 ≤ d.boot.stagesDone then d.unusedStable y else 0xF) * 16 +
  b2n (d.boot.copyYard = some y) * 8 + (d.domain y).state

/-- Control register of a slot table (R161). -/
def Dev.slotCtl (d : Dev) (t : Nat) : Nat :=
  let throttled := d.slots.act.any fun kv => kv.1 / 256 = t && (entryOwner kv.2 = oRemoved || entryOwner kv.2 = oCal) && tableKind t ≠ .shed
  let shed := d.slots.act.any fun kv => kv.1 / 256 = t && entryOwner kv.2 = oRemoved
  nget d.slots.rrNext t % 8 * 2 ^ 8 + b2n (d.slots.tableErr.contains t) * 8 + b2n (d.slots.changes.any fun c => c.tables.contains t) * 4 +
  b2n (throttled || shed) * 2

def Dev.linkCtl (d : Dev) : Nat := b2n (d.slots.changes.any (·.links)) * 4

def Dev.slotStat (d : Dev) (t : Nat) : Nat := nget d.slots.bgPairs t % 2 ^ 16 * 2 ^ 16 + nget d.slots.idlePairs t % 2 ^ 16

/-- A bay word of the step runs on bay `n` at herd count `h`. -/
def Dev.bayBusy (d : Dev) (h p n : Nat) : Bool :=
  match d.step? p with
  | some s => (d.runningWords p (s.cycleNow h)).any fun c => c.word.kind = kBAY && (c.bayUnits d).any (·.bay = n)
  | none => false

def Dev.bayStat (d : Dev) (h n : Nat) : Nat :=
  let p := d.bayHolder n
  let s := p.bind d.step?
  nget d.slots.foreign n % 2 ^ 16 * 2 ^ 16 + p.getD 0 * 16 + b2n p.isSome * 8 + b2n (s.any fun s => s.bayOvf.contains n) * 4 +
  b2n (s.any fun s => s.bayGuard.contains n) * 2 + b2n (p.any fun p => d.bayBusy h p n)

/-- STATE of a link with the replays of the last 1 ms. -/
def Link.stat (l : Link) (herd : Nat) (paired : Bool) : Nat :=
  satN 16 (l.replays.filter fun h => decide (herd < h + 400_000)).length * 2 ^ 16 + b2n paired * 8 + l.state

def Dev.paired (d : Dev) (p : Nat) : Bool := d.pads.any fun (x : Nat × Paddock) => match x.2.lockstep with | some l => l.port = p | none => false

def Boot.stat (b : Boot) : Nat :=
  b.startCount % 2 ^ 16 * 2 ^ 16 + b2n b.identityBad * 2 ^ 9 + b2n b.fast * 2 ^ 8 + b.musterState * 2 ^ 6 + b.lastStage

def StageReport.bytes (r : StageReport) : Bytes :=
  leBytes 1 r.stage ++ leBytes 1 r.result ++ leBytes 2 r.status ++ leBytes 4 r.found ++ leBytes 4 r.durationMS ++ leBytes 8 r.startHerd ++ leBytes 8 r.detail ++
  leBytes 4 r.flags

/-- The report of a stage; a stage that ran again after IMAGE_WAIT has written its report anew. -/
def reportOf (l : List StageReport) (s : Nat) : Bytes := ((l.filter (·.stage = s)).getLast?.map (·.bytes)).getD (zeros 32)

def Dev.pwrStat (d : Dev) : Nat :=
  let module := match d.boot.phase with | .standby => 1 | .held => 2 | _ => 0
  module * 2 ^ 30 + d.power.level * 2 ^ 28 + b2n (decide (48_000 ≤ d.power.vinMV) && decide (d.power.vinMV ≤ 60_000)) * 2 ^ 27 + d.power.vinMV / 10 % 2 ^ 16

def Dev.domState (d : Dev) (n : Nat) : Nat :=
  let x := d.domain n
  x.wakes % 2 ^ 16 * 2 ^ 16 + b2n x.waking * 2 ^ 9 + b2n (d.domainAbsent n) * 2 ^ 8 + d.deepestNow n * 16 + x.state

def Sync.stat (s : Sync) : Nat :=
  s.messages % 2 ^ 16 * 2 ^ 16 + s.badCheck % 2 ^ 8 * 2 ^ 8 + b2n s.stale * 16 + b2n s.mismatch * 8 + b2n s.solo * 2 + b2n s.locked

def Therm.reg (t : Therm) : Nat := b2n t.trip * 2 ^ 16 + b2n t.refresh2x * 2 ^ 11 + t.applied * 2 ^ 8 + t.temp % 256

def Dev.shedStat (d : Dev) : Nat :=
  b2n d.shed.readOnly * 2 ^ 31 + b2n d.shed.spareLow * 2 ^ 30 + b2n ((List.range d.shedN).any d.urgent) * 2 ^ 29 + b2n d.shed.mounted * 2 ^ 28 + d.shedN

def Dev.shedWear (d : Dev) (c : Nat) : Nat :=
  let l := (d.shed.chan c).blocks.map (·.erases)
  let low := if l.length < Config.shedBlocks c then 0 else (minNat? l).getD 0
  satN 16 (maxNat l) * 2 ^ 16 + satN 16 low

def Queue.ctl (q : Queue) : Nat :=
  q.compTail * 2 ^ 26 + q.compHead * 2 ^ 20 + q.subTail * 2 ^ 14 + q.subHead * 2 ^ 8 + b2n q.resetting * 4 + b2n q.enable * 2

/-! ### The map -/

/-- Slot-table registers of the tables from `t0` on, `n` of them: PEND at `pend`, ACT at `act`, CTL and STAT at `ctl`. -/
def Dev.tableRegs (d : Dev) (herd t0 n pend act ctl off : Nat) : Option Reg :=
  if pend ≤ off && off < pend + n * 0x200 then privReg (d.pendWord (t0 + (off - pend) / 0x200) ((off - pend) % 0x200 / 4))
  else if act ≤ off && off < act + n * 0x200 then
    let t := t0 + (off - act) / 0x200
    privReg (if d.tablePresent t then tableWord d.slots.act t ((off - act) % 0x200 / 4) else 0)
  else if ctl ≤ off && off < ctl + n * 0x10 then
    let t := t0 + (off - ctl) / 0x10
    match (off - ctl) % 0x10 with
    | 0 => privReg (if d.tablePresent t then d.slotCtl t else 0)
    | 4 => privReg (if d.tablePresent t then d.slotStat t else 0)
    | 8 => if t < 512 then privReg (d.bayStat herd t) else none
    | _ => none
  else none

def Dev.globalReg (d : Dev) (herd off : Nat) : Option Reg :=
  match off with
  | 0x000 => openReg 0x4C4D_4D55
  | 0x004 => openReg ((d.boot.fw.map (·.version)).getD 0)
  | 0x010 => openReg d.caps0
  | 0x014 => openReg d.caps1
  | 0x018 => openReg d.caps2
  | 0x020 => pairReg false 0 d.shed.poolBytes
  | 0x024 => pairReg false 1 d.shed.poolBytes
  | 0x028 => pairReg false 0 d.boot.mapRegion
  | 0x02C => pairReg false 1 d.boot.mapRegion
  | 0x080 => openReg (d.regs.privDrop % 2 ^ 16 * 2 ^ 16 + d.regs.unmapped % 2 ^ 16)
  | 0x084 => openReg d.regs.privLast
  | 0x090 => pairReg false 0 herd
  | 0x094 => pairReg false 1 herd
  | _ => if 0x040 ≤ off && off < 0x060 then openReg (bitMask d.availNow / 2 ^ ((off - 0x040) * 8)) else none

def Dev.cfgReg (d : Dev) (off : Nat) : Option Reg :=
  let c := d.regs.cfg
  match off with
  | 0x000 => privReg c.ctl
  | 0x004 => privReg c.ref
  | 0x008 => privReg c.last
  | 0x00C => privReg c.sweeps
  | 0x010 => privReg c.drop
  | _ => none

def Dev.bootReg (d : Dev) (off : Nat) : Option Reg :=
  let b := d.boot
  match off with
  | 0x000 => pairReg true 0 (b.rcvHi * 2 ^ 32 + b.rcvLo)
  | 0x004 => pairReg true 1 (b.rcvHi * 2 ^ 32 + b.rcvLo)
  | 0x008 => privReg b.rcvLen
  | 0x00C => privReg (b.rcvStatus * 2 ^ 16 + b2n b.rcvInstall * 4 + b2n b.rcvBusy * 2)
  | 0x010 => pairReg false 0 d.regs.musterAddr
  | 0x014 => pairReg false 1 d.regs.musterAddr
  | 0x018 => openReg (b2n (d.halter.toSend.any (·.cls = clMuster)) * 2)
  | _ => none

def Dev.faultReg (d : Dev) (off : Nat) : Option Reg :=
  match off with
  | 0x000 => privReg d.faultStat
  | 0x004 => privReg (b2n d.faults.noteAlert)
  | 0x008 => privReg (bitMask (d.faults.slots.map (·.1)))
  | 0x00C => privReg 0
  | _ => if 0x100 ≤ off && off < 0x900 then
      privReg (match tget? ((off - 0x100) / 0x40) d.faults.slots with | some r => wordOf (d.recordBytes r) ((off - 0x100) % 0x40 / 4) | none => 0)
    else none

def Dev.ringReg (d : Dev) (off : Nat) : Option Reg :=
  if off < 0x1000 then
    let g := d.ring (off / 0x40)
    match off % 0x40 with
    | 0x00 => pairReg true 0 g.sub
    | 0x04 => pairReg true 1 g.sub
    | 0x08 => pairReg true 0 g.cpl
    | 0x0C => pairReg true 1 g.cpl
    | 0x10 => pairReg true 0 g.str
    | 0x14 => pairReg true 1 g.str
    | 0x18 => privReg g.ctl
    | 0x1C => openReg g.idx
    | 0x20 => openReg g.sidx
    | _ => none
  else match off with
    | 0x1000 => pairReg true 0 d.events.base
    | 0x1004 => pairReg true 1 d.events.base
    | 0x1008 => openReg d.events.idx
    | 0x100C => openReg d.events.lost
    | _ => none

def Dev.fabricReg (d : Dev) (off : Nat) : Option Reg :=
  if off < 0x80 then openReg (d.yardCtl (off / 4))
  else if off = 0x100 then privReg d.linkCtl
  else if 0x1000 ≤ off && off < 0x1000 + 119 * 0x100 then privReg (linkWord d.slots.linkPend ((off - 0x1000) / 0x100) (off % 0x100 / 4))
  else if 0x8800 ≤ off && off < 0x8800 + 119 * 0x100 then privReg (linkWord d.slots.linkAct ((off - 0x8800) / 0x100) (off % 0x100 / 4))
  else none

def Dev.unitReg (d : Dev) (herd off : Nat) : Option Reg :=
  if off < 15 * 0x400 then
    let t := tUnit (off / 0x400)
    let w := off % 0x200 / 4
    if off % 0x400 < 0x200 then privReg (d.pendWord t w) else privReg (if d.tablePresent t then tableWord d.slots.act t w else 0)
  else if 0x4000 ≤ off && off < 0x4000 + 15 * 0x10 then
    let t := tUnit ((off - 0x4000) / 0x10)
    match off % 0x10 with
    | 0 => privReg (if d.tablePresent t then d.slotCtl t else 0)
    | 4 => privReg (if d.tablePresent t then d.slotStat t else 0)
    | _ => none
  else if off = 0x5000 then openReg (d.halter.stat herd false)
  else if 0x5004 ≤ off && off < 0x5034 then
    let p := (off - 0x5004) / 4
    openReg (if p < d.boot.part.ports then (d.port p).stat herd (d.paired p) else 0)
  else none

/-- IDX_ADDR; the data registers are not read here. -/
def Dev.idxReg (d : Dev) (off : Nat) : Option Reg :=
  if off < 11 * 0x40 then (match off % 0x10 with
    | 0 => openReg (nget d.regs.idxAddr (off / 0x40 * 4 + off % 0x40 / 0x10))
    | 4 => openReg 0
    | _ => none)
  else none

def Dev.gatehouseReg (d : Dev) (herd off : Nat) : Option Reg :=
  let p := d.power
  match off with
  | 0x0_8000 => privReg (min (d.faults.logged / 1024) (2 ^ 22 - 1) * 2 ^ 10 + d.faults.logged % 1024)
  | 0x2_0000 => privReg d.pwrStat
  | 0x2_0004 => privReg 0
  | 0x2_0008 => privReg p.enCfg
  | 0x2_000C => privReg p.allowance
  | 0x2_0010 => privReg (p.usedUJ / 1000)
  | 0x2_0014 => privReg (d.reservedUJ / 1000)
  | 0x2_0018 => privReg (d.waiting herd % 2 ^ 16)
  | 0x2_0020 => pairReg true 0 (p.inputUJ / 1000)
  | 0x2_0024 => pairReg true 1 (p.inputUJ / 1000)
  | 0x3_0000 => privReg d.boot.stat
  | 0x3_0004 => privReg (b2n d.boot.nextFull)
  | 0x4_0000 => privReg d.sync.stat
  | _ =>
    if 0x1_0000 ≤ off && off < 0x1_8000 then privReg (wordOf (d.faults.logAt ((off - 0x1_0000) / 0x20)) (off % 0x20 / 4))
    else if 0x2_0100 ≤ off && off < 0x2_0280 then privReg (d.domState ((off - 0x2_0100) / 4))
    else if 0x2_0400 ≤ off && off < 0x2_0700 then pairReg true (off % 8 / 4) ((d.domain ((off - 0x2_0400) / 8)).energyUJ / 1000)
    else if 0x3_0100 ≤ off && off < 0x3_0240 then privReg (wordOf (reportOf d.boot.log ((off - 0x3_0100) / 0x20)) (off % 0x20 / 4))
    else if 0x3_0280 ≤ off && off < 0x3_03C0 then privReg (wordOf (reportOf d.boot.prev ((off - 0x3_0280) / 0x20)) (off % 0x20 / 4))
    else if 0x3_0400 ≤ off && off < 0x3_0500 then
      privReg (match d.groom.results[(off - 0x3_0400) / 0x10]? with
        | some r => wordOf (leBytes 4 r.1 ++ leBytes 2 r.2.1 ++ leBytes 1 r.2.2.1 ++ zeros 1 ++ leBytes 8 r.2.2.2) (off % 0x10 / 4)
        | none => 0)
    else none

def Dev.shedReg (d : Dev) (herd off : Nat) : Option Reg :=
  if off = 0 then openReg d.shedStat
  else if 0x100 ≤ off && off < 0x100 + 24 * 8 then
    let c := (off - 0x100) / 8
    -- nothing is known of the medium before stage 7 has mounted it
    openReg (if decide (d.shedN ≤ c) || !d.shed.mounted then 0 else if off % 8 = 0 then satN 16 ((d.shed.chan c).free c) * 2 ^ 16 + satN 16 (d.shed.chan c).spares else d.shedWear c)
  else if 0x4_0000 ≤ off && off < 0x4_0100 then
    let q := d.queue ((off - 0x4_0000) / 0x20)
    match off % 0x20 with
    | 0x00 => pairReg true 0 q.sub
    | 0x04 => pairReg true 1 q.sub
    | 0x08 => pairReg true 0 q.cpl
    | 0x0C => pairReg true 1 q.cpl
    | 0x10 => openReg q.ctl
    | 0x14 => openReg q.tags
    | _ => none
  else d.tableRegs herd 544 24 0x1_0000 0x2_0000 0x3_0000 off

/-- Register `off` of indirect target `t`. -/
def Dev.targetReg (d : Dev) (herd t off : Nat) : Option Reg :=
  if t = 0 then d.gatehouseReg herd off
  else if t ≤ 8 then
    (if off = 0x5_0000 then privReg (d.therm (t - 1)).reg else d.tableRegs herd ((t - 1) * 64) 64 0x2_0000 0x3_0000 0x4_0000 off)
  else if t = 9 then d.tableRegs herd 512 32 0x1_0000 0x2_0000 0x3_0000 off
  else d.shedReg herd off

/-- A direct address lies in a block of R519. -/
def inBlock (a : Nat) : Bool := decide (a < 0x4000) || (decide (0x1_0000 ≤ a) && decide (a < 0x4_1000))

/-- The register of key `k`. In IMAGE_WAIT only the BOOT block answers (R510). -/
def Dev.regAt (d : Dev) (herd k : Nat) : Option Reg :=
  if k % 4 ≠ 0 then none
  else if d.boot.phase = .imageWait && !(decide (bBoot ≤ k) && decide (k < bFault)) then none
  else if 2 ^ 32 ≤ k then d.targetReg herd (k / 2 ^ 32 - 1) (k % 2 ^ 32)
  else if k < bCfg then d.globalReg herd k
  else if k < bBoot then d.cfgReg (k - bCfg)
  else if k < bFault then d.bootReg (k - bBoot)
  else if k < 0x4000 then d.faultReg (k - bFault)
  else if k < bRing then none
  else if k < bFabric then d.ringReg (k - bRing)
  else if k < bUnit then d.fabricReg (k - bFabric)
  else if k < bIdx then d.unitReg herd (k - bUnit)
  else if k < bIdx + 0x1000 then d.idxReg (k - bIdx)
  else none

/-! ### Masters and accesses (R509 to R515) -/

def masterPriv : Master → Bool
  | .secure | .firmware => true
  | _ => false

/-- The master is on the host's side of the configuration window. -/
def masterHost : Master → Bool
  | .secure | .plain => true
  | _ => false

def masterNo : Master → Nat
  | .secure => 0
  | .plain => 1
  | .firmware => 2
  | .task => 3

/-- An access of the master reaches the registers: nothing answers outside the states in which the module works (R510). -/
def Dev.reach (d : Dev) (m : Master) : Bool := d.boot.phase.collects && (!masterHost m || d.halter.isUp)

def W.countUnmapped (w : W) : W := w.regs fun r => { r with unmapped := (r.unmapped + 1) % 2 ^ 16 }

def W.answered (v status : Nat) (w : W) : W := w.regs fun r => { r with readValue := v, readStatus := status }

/-- The table whose control or counter register `k` is. -/
def tableOfCtl (k : Nat) : Option Nat :=
  let t := k / 2 ^ 32
  let off := k % 2 ^ 32
  let within := fun (base n t0 : Nat) => if decide (base ≤ off) && decide (off < base + n * 0x10) then some (t0 + (off - base) / 0x10) else none
  if t = 0 then within (bUnit + 0x4000) 15 568
  else if t = 1 then none
  else if t ≤ 9 then within 0x4_0000 64 ((t - 2) * 64)
  else if t = 10 then within 0x3_0000 32 512
  else within 0x3_0000 24 544

/-- A read of register `k`: a _LO captures its _HI for the master, and a _HI reads as captured (R515). -/
def W.readKey (m : Master) (k : Nat) (w : W) : W :=
  match w.dev.regAt w.herd k with
  | none =>
    if 2 ^ 32 ≤ k then w.answered 0 0
    else (w.countUnmapped).answered 0 (if inBlock k && (w.dev.boot.phase ≠ .imageWait || (decide (bBoot ≤ k) && decide (k < bFault))) then 0 else 1)
  | some r =>
    if r.priv && !masterPriv m then w.answered 0 0
    else
      let w := match tableOfCtl k with | some t => if w.dev.tablePresent t then w.countGrants t else w | none => w
      let r := (w.dev.regAt w.herd k).getD r
      let hi := match w.dev.regAt w.herd (k + 4) with | some x => x.val | none => 0
      let v := if r.hi then nget w.dev.regs.captured (masterNo m * 2 ^ 48 + k) else r.val
      let w := if r.lo then w.regs fun g => { g with captured := nput (masterNo m * 2 ^ 48 + k + 4) hi g.captured } else w
      w.answered v 0

/-! ### Indirect pairs (R516 to R518) -/

/-- Domains that an access to a target wakes. -/
def targetDomains (t : Nat) : List Nat :=
  if t = 0 then [] else if t ≤ 8 then [31 + t] else if t = 9 then [68, 69, 70, 71] else [72, 73, 74, 75]

def Dev.targetAbsent (d : Dev) (t : Nat) : Bool := t = 9 && !d.boot.part.hasBarn

/-- Key that a pair's OFFSET names. -/
def Dev.pairKey (d : Dev) (t k : Nat) : Nat := indKey t (nget d.regs.idxAddr (t * 4 + k) % 2 ^ 24)

/-- OFFSET after an access, one register on with AUTO_INC. -/
def W.advancePair (t k : Nat) (w : W) : W :=
  let v := nget w.dev.regs.idxAddr (t * 4 + k)
  if v.testBit 31 then w.regs fun r => { r with idxAddr := nput (t * 4 + k) (2 ^ 31 + (v % 2 ^ 24 + 4) % 2 ^ 24) r.idxAddr } else w

/-- A read of IDX_DATA[t][k]. -/
def W.readPair (m : Master) (t k : Nat) (w : W) : W :=
  let key := w.dev.pairKey t k
  let w := W.each (targetDomains t) W.wakeFor w
  let w := if w.dev.targetAbsent t then w.answered 0 0 else w.readKey m key
  w.advancePair t k

/-- The pair whose data register an address is. -/
def idxData (a : Nat) : Option (Nat × Nat) :=
  if decide (bIdx ≤ a) && decide (a < bIdx + 11 * 0x40) && a % 0x10 = 4 then some ((a - bIdx) / 0x40, (a - bIdx) % 0x40 / 0x10) else none

/-- A read of the register at a direct address. -/
def W.readDirect (m : Master) (a : Nat) (w : W) : W :=
  if 2 ^ 24 ≤ a then (w.countUnmapped).answered 0 1
  else match idxData a with
  | some x => if w.dev.boot.phase = .imageWait then w.readKey m a else w.readPair m x.1 x.2
  | none => w.readKey m a

end Sys2Proof.Machine
end

