-- ==== Sys2Proof/Machine/RegWrite.lean ====
section
/-! DEFINITION. What a register write does, the configuration window and its sweeps, and the registers with an action of their own (R158, R161,
R437, R449, R455, R458, R470, R496, R508 to R526, R549). -/

namespace Sys2Proof.Machine

open Host

/-! ### Raw values -/

/-- The value with its low half replaced, bits [5:0] zero. -/
def setLow (old v : Nat) : Nat := old / 2 ^ 32 * 2 ^ 32 + v % 2 ^ 32 / 64 * 64

def setHigh (old v : Nat) : Nat := old % 2 ^ 32 + v % 2 ^ 32 * 2 ^ 32

/-- Two entries of a pending table; their reserved bits stay 0. -/
def W.setPend (t i v : Nat) (w : W) : W :=
  let keep := fun (x : Nat) => x % 65536 / 64 * 64
  if w.dev.tablePresent t then w.slots fun s => { s with pend := nput (t * 256 + 2 * i + 1) (keep (v / 65536)) (nput (t * 256 + 2 * i) (keep v) s.pend) } else w

/-- Four cycles of a pending link map; bit [6] stays 0. -/
def W.setLink (l i v : Nat) (w : W) : W :=
  w.slots fun s => { s with linkPend := (List.range 4).foldl (fun m j =>
    let b := v / 2 ^ (8 * j) % 256
    nput (l * 256 + 4 * i + j) (b / 128 * 128 + b % 64) m) s.linkPend }

/-- RING_CTL. The first pass after the ring is enabled has PHASE 1 (R421). -/
def W.setRingCtl (r v : Nat) (w : W) : W :=
  w.ring r fun g => { g with
    tenant := v / 2 ^ 24 % 256, admin := v.testBit 2, streamEn := v.testBit 1, enable := v.testBit 0
    phase := if v.testBit 0 && !g.enable then true else g.phase }

/-- Sets a register that takes its value, or half a pair. -/
def W.setReg (k v : Nat) (w : W) : W :=
  let t := k / 2 ^ 32
  let off := k % 2 ^ 32
  if t = 0 then
    if k = bFault + 4 then w.faults fun f => { f with noteAlert := v.testBit 0 }
    else if k = bBoot then w.boot fun b => { b with rcvLo := v % 2 ^ 32 }
    else if k = bBoot + 4 then w.boot fun b => { b with rcvHi := v % 2 ^ 32 }
    else if k = bBoot + 8 then w.boot fun b => { b with rcvLen := v % 2 ^ 32 }
    else if k = bBoot + 0x10 then w.regs fun r => { r with musterAddr := setLow r.musterAddr v }
    else if k = bBoot + 0x14 then w.regs fun r => { r with musterAddr := setHigh r.musterAddr v }
    else if bRing ≤ k && k < bRing + 0x1000 then
      let r := (k - bRing) / 0x40
      match k % 0x40 with
      | 0x00 => w.ring r fun g => { g with sub := setLow g.sub v }
      | 0x04 => w.ring r fun g => { g with sub := setHigh g.sub v }
      | 0x08 => w.ring r fun g => { g with cpl := setLow g.cpl v }
      | 0x0C => w.ring r fun g => { g with cpl := setHigh g.cpl v }
      | 0x10 => w.ring r fun g => { g with str := setLow g.str v }
      | 0x14 => w.ring r fun g => { g with str := setHigh g.str v }
      | 0x18 => w.setRingCtl r v
      | _ => w
    else if k = bRing + 0x1000 then w.events fun e => { e with base := setLow e.base v }
    else if k = bRing + 0x1004 then w.events fun e => { e with base := setHigh e.base v }
    else if bFabric + 0x1000 ≤ k && k < bFabric + 0x1000 + 119 * 0x100 then w.setLink ((k - bFabric - 0x1000) / 0x100) (k % 0x100 / 4) v
    else if bUnit ≤ k && k < bUnit + 15 * 0x400 && k % 0x400 < 0x200 then w.setPend (tUnit ((k - bUnit) / 0x400)) (k % 0x200 / 4) v
    else w
  else if t = 1 then
    (if off = 0x2_0008 then w.power fun p => { p with throttleW := bitsOf v 21 11, allowW := bitsOf v 10 11, windowMS := bitsOf v 0 10 } else w)
  else if t ≤ 9 then w.setPend ((t - 2) * 64 + (off - 0x2_0000) / 0x200) (off % 0x200 / 4) v
  else if t = 10 then w.setPend (tBarn ((off - 0x1_0000) / 0x200)) (off % 0x200 / 4) v
  else if 0x4_0000 ≤ off then
    let q := (off - 0x4_0000) / 0x20
    match off % 0x20 with
    | 0x00 => w.queue q fun g => { g with sub := setLow g.sub v }
    | 0x04 => w.queue q fun g => { g with sub := setHigh g.sub v }
    | 0x08 => w.queue q fun g => { g with cpl := setLow g.cpl v }
    | 0x0C => w.queue q fun g => { g with cpl := setHigh g.cpl v }
    | _ => w
  else w.setPend (tShed ((off - 0x1_0000) / 0x200)) (off % 0x200 / 4) v

/-- The checked registers (R521). -/
def isChecked (k : Nat) : Bool :=
  let t := k / 2 ^ 32
  let off := k % 2 ^ 32
  let within := fun (lo n : Nat) => decide (lo ≤ off) && decide (off < lo + n)
  if t = 0 then
    k = bFault + 4 || (within bRing 0x1000 && decide (k % 0x40 < 0x1C)) || k = bRing + 0x1000 || k = bRing + 0x1004 || within (bFabric + 0x1000) (119 * 0x100)
    || (within bUnit (15 * 0x400) && decide (k % 0x400 < 0x200))
  else if t = 1 then off = 0x2_0008
  else if t ≤ 9 then within 0x2_0000 (64 * 0x200)
  else if t = 10 then within 0x1_0000 (32 * 0x200)
  else within 0x1_0000 (24 * 0x200) || (within 0x4_0000 0x100 && decide (off % 0x20 < 0x10))

/-- The low register of a pair that takes writes. -/
def rwPairLow (k : Nat) : Bool :=
  let t := k / 2 ^ 32
  let off := k % 2 ^ 32
  if t = 0 then
    k = bBoot || k = bBoot + 0x10 || k = bRing + 0x1000 || (decide (bRing ≤ k) && decide (k < bRing + 0x1000) && [0x00, 0x08, 0x10].contains (k % 0x40))
  else t = 11 && decide (0x4_0000 ≤ off) && decide (off < 0x4_0100) && [0x00, 0x08].contains (off % 0x20)

/-- A write of a plain register: the _LO of a pair is kept until its _HI is written (R515). -/
def W.putReg (k v : Nat) (w : W) : W :=
  if rwPairLow k then w.regs fun r => { r with loWritten := nput k v r.loWritten }
  else if 4 ≤ k && rwPairLow (k - 4) then (w.setReg (k - 4) (nget w.dev.regs.loWritten (k - 4))).setReg k v
  else w.setReg k v

/-! ### The configuration window (R524 to R526) -/

/-- A side takes the window: true firmware, false the host. -/
def W.takeWindow (side : Bool) (w : W) : W :=
  let h := w.herd
  w.cfg fun c => { c with holder := some side, openWait := false, openedAt := h, committing := false, state := 0, sweep := c.sweep.map fun x => { x with windowSeen := true } }

/-- The window closes: waiting SWAPs apply after a commit and are dropped otherwise, and a waiting host receives the window. -/
def W.closeWindow (committed : Bool) (w : W) : W :=
  let swaps := w.dev.slots.swapWait
  let w := w.slots fun s => { s with swapWait := [] }
  let w := w.cfg fun c => { c with holder := none, committing := false, timeoutGone := c.timeoutGone || committed }
  let w := if committed then W.each swaps W.swapNow w else w
  if w.dev.regs.cfg.openWait then w.takeWindow false else w

/-- Writing 1 to OPEN. -/
def W.openWindow (side : Bool) (w : W) : W :=
  match w.dev.regs.cfg.holder with
  | none => w.takeWindow side
  | some h => if h && !side then w.cfg fun c => { c with openWait := true } else w

/-- Writing 1 to COMMIT. -/
def W.commitWindow (side : Bool) (w : W) : W :=
  if w.dev.regs.cfg.holder = some side then w.cfg fun c => { c with committing := true } else w

/-- Writing 0 to OPEN without COMMIT. A host that only waits for the window waits no longer. -/
def W.abandonWindow (side : Bool) (w : W) : W :=
  let c := w.dev.regs.cfg
  if c.holder = some side then (if c.committing then w else w.closeWindow false)
  else if !side then w.cfg fun c => { c with openWait := false }
  else w

/-- A write of CFG_CTL. -/
def W.writeCfgCtl (m : Master) (v : Nat) (w : W) : W :=
  let side := !masterHost m
  let w := w.when (v.testBit 2) (W.cfg fun c => { c with timeout := c.timeout && !c.timeoutGone })
  if v.testBit 1 then w.commitWindow side else if v.testBit 0 then w.openWindow side else w.abandonWindow side

/-- A direct write of CFG_REF by the window's holder. -/
def W.writeCfgRef (m : Master) (v : Nat) (w : W) : W :=
  if w.dev.regs.cfg.holder = some (!masterHost m) then
    let w := (w.commitCfg w.dev.checked).cfg fun c => { c with ref := v, state := 1 }
    w.closeWindow true
  else w

/-- A host window that is held for more than 100 ms closes at herd count `h`, unless its commit is in progress. -/
def W.windowTimeout (h : Nat) (w : W) : W :=
  let c := w.dev.regs.cfg
  if c.holder = some false && !c.committing && decide (c.openedAt + 40_000_000 < h) then
    (w.cfg fun c => { c with timeout := true, timeoutGone := false }).closeWindow false
  else w

/-- Firmware's write-back: every checked register takes the value it held at the last commit (R449). -/
def W.writeBack (w : W) : W :=
  W.each (w.dev.checked.filter fun x => x.2 ≠ nget w.dev.regs.cfg.committed x.1) (fun x w =>
    let v := nget w.dev.regs.cfg.committed x.1
    (w.when (rwPairLow x.1) (W.regs fun r => { r with loWritten := nput x.1 v r.loWritten })).setReg x.1 v) w

/-- A sweep starts. What it reads is taken at its start; a write-back that is due ends before it (log entry 36). -/
def W.sweepStart (h : Nat) (w : W) : W :=
  let w := w.when w.dev.regs.cfg.restoring W.writeBack
  let crc := sweepCrc w.dev.checked
  w.cfg fun c => { c with sweep := some { crc := crc, startHerd := h, windowSeen := c.holder.isSome, forCommit := c.committing } }

/-- A sweep ends: it commits, it is compared, or neither (R449, R523, R524). -/
def W.sweepEnd (w : W) : W :=
  match w.dev.regs.cfg.sweep with
  | none => w
  | some x =>
    let w := w.cfg fun c => { c with sweep := none, last := x.crc, sweeps := (c.sweeps + 1) % 2 ^ 32 }
    let c := w.dev.regs.cfg
    if x.forCommit && c.committing then
      ((w.commitCfg w.dev.checked).cfg fun c => { c with ref := x.crc, state := 1 }).closeWindow true
    else if x.windowSeen || c.holder.isSome || !c.live then w
    else if x.crc = c.ref then
      let w := w.cfg fun c => { c with state := 1, restoring := false }
      if c.restoring then w.finishRecoveries 17 else w
    else if c.restoring then w.detect caCfgRestore uHub 5 (x.crc + c.ref * 2 ^ 32) 0 []
    else (w.cfg fun c => { c with state := 2 }).detect caCfgMismatch uHub 5 (x.crc + c.ref * 2 ^ 32) 0 []

/-! ### SWAP and the control registers of tables (R158, R161, R525) -/

/-- A SWAP of table `t`, or of the link maps. -/
def W.swapTable (t : Nat) (w : W) : W :=
  if t ≠ tLinks && !w.dev.tablePresent t then w
  else if w.dev.regs.cfg.holder.isSome then w.slots fun s => { s with swapWait := insertNat t s.swapWait }
  else w.swapNow t

/-- A write of a table's control register: TABLE_ERR clears once the pending table is valid. -/
def W.writeTableCtl (t v : Nat) (w : W) : W :=
  let w := w.when (v.testBit 3 && tableValid t (tableEntries w.dev.slots.pend t)) (W.slots fun s => { s with tableErr := s.tableErr.filter (· ≠ t) })
  w.when (v.testBit 0) (W.swapTable t)

/-- The register with which a target's SWAP is written. -/
def swapKey : SwapTarget → Nat
  | .pc n => indKey (1 + n.val / 64) (0x4_0000 + n.val % 64 * 0x10)
  | .barn c => indKey 9 (0x3_0000 + c.val * 0x10)
  | .shed c => indKey 10 (0x3_0000 + c.val * 0x10)
  | .unit u => bUnit + 0x4000 + u.val * 0x10
  | .links => bFabric + 0x100

/-! ### Faults, muster, recovery, standby (R437, R455, R458, R470, R496) -/

/-- Clears the record of a slot, if its cause is gone and its reaction done. -/
def W.clearFault (slot : Nat) (w : W) : W :=
  match tget? slot w.dev.faults.slots with
  | some r => if r.done && !w.dev.causeLasts r then w.faults fun f => { f with slots := tdel slot f.slots } else w
  | none => w

/-- FLT_INJECT. -/
def W.injectFault (cls : Nat) (w : W) : W :=
  if cls ≤ 4 then
    let (seq, w) := w.nextSeq
    w.record
      { cls := cls, reaction := reLogged, cause := caInjected, seq := seq, herd := w.herd, ukind := 0, uindex := 0, detail := 0, arg := 0, attempt := 0
        repeats := 1, paddocks := [], planId := 0, queuedBehind := false, standing := false, done := true, causePresent := false, fenceDelay := 0 }
  else if cls = 5 then w.device { cause := caInjected, cls := clDevice, ukind := 0, uindex := 0, detail := 0, arg := 0, pads := [], delay := 0 }
  else w

/-- GO of MUSTER_CTL: the record is written and BUSY is clear again. -/
def W.musterGo (w : W) : W := w.writeHost clMuster 0 w.dev.regs.musterAddr (w.dev.muster w.herd none)

/-- Kinds of image that IMAGE_WAIT takes: the one that is missing, and a configuration after a topology mismatch (R493, R496). -/
def Boot.wanted (b : Boot) : List Nat := if b.fw.isNone then [imFirmware] else [imConfig]

/-- GO of RCV_CTL: the boot ROM reads the image, verifies it and uses it, or installs it first. With both images present, bring-up goes on from
stage 1. -/
def W.receiveImage (w : W) : W :=
  let b := w.dev.boot
  match b.verify b.wanted (w.peeks (hostKey (b.rcvHi * 2 ^ 32 + b.rcvLo)) b.rcvLen) with
  | .error st => w.boot fun b => { b with rcvStatus := st.code }
  | .ok i =>
    let w := w.boot fun b =>
      let b := if b.rcvInstall then b.install i else b
      let b := if i.kind = imFirmware then { b with fw := some i } else { b with cfg := some i }
      { b with rcvStatus := Status.done.code }
    let h := w.herd
    w.boot fun b => if b.fw.isSome && b.cfg.isSome then { b with phase := .bringUp, stagesDone := 1, stageStart := h } else b

/-- A write of RCV_CTL. A delivery is taken only in IMAGE_WAIT and only over a SECURE transaction. -/
def W.writeRcvCtl (m : Master) (v : Nat) (w : W) : W :=
  let w := w.boot fun b => { b with rcvInstall := v.testBit 2 }
  w.when (v.testBit 0 && w.dev.boot.phase = .imageWait && m = .secure) W.receiveImage

def W.writePwrCtl (v : Nat) (w : W) : W := (w.when (v.testBit 0) W.askStandby).when (v.testBit 1) W.leaveStandby

/-- A write of SHED_QCTL; nothing but RESET is taken while a reset is in progress. -/
def W.writeQctl (q v : Nat) (w : W) : W :=
  let g := w.dev.queue q
  let w := w.queue q (Queue.moveHead (v / 2 ^ 20 % 64))
  let w := if g.resetting then w else w.queue q fun g => { g with subTail := v / 2 ^ 14 % 64, enable := v.testBit 1 }
  let w := w.flushQueue q (w.dev.queue q).held.length
  w.when (v.testBit 0) (W.queueReset q)

/-! ### Writes (R508 to R513) -/

def W.countPriv (addr : Nat) (w : W) : W := w.regs fun r => { r with privDrop := (r.privDrop + 1) % 2 ^ 16, privLast := addr % 2 ^ 24 }

/-- What a write to a register does that is not checked and is not dropped. -/
def W.actReg (m : Master) (k v : Nat) (w : W) : W :=
  match tableOfCtl k with
  | some t => if k % 0x10 = 0 then w.writeTableCtl t v else w
  | none =>
    if k = bCfg then w.writeCfgCtl m v
    else if k = bCfg + 4 then w.writeCfgRef m v
    else if k = bBoot + 0x0C then w.writeRcvCtl m v
    else if k = bBoot + 0x18 then w.when (v.testBit 0) W.musterGo
    else if k = bFault + 0x0C then w.injectFault (v % 8)
    else if bFault + 0x100 ≤ k && k < bFault + 0x900 then (if k % 0x40 = 0 then w.clearFault ((k - bFault - 0x100) / 0x40) else w)
    else if bRing ≤ k && k < bRing + 0x1000 && k % 0x40 = 0x1C then
      w.ring ((k - bRing) / 0x40) fun g => { g with cplHead := v / 2 ^ 16 % 256, subTail := v / 2 ^ 8 % 256 }
    else if bRing ≤ k && k < bRing + 0x1000 && k % 0x40 = 0x20 then
      let r := (k - bRing) / 0x40
      let w := w.ring r fun g => { g with strHead := v / 2 ^ 8 % 256 }
      w.drainStream r (w.dev.ring r).heldStr.length
    else if k = bRing + 0x1008 then w.events fun e => { e with head := v / 2 ^ 12 % 1024, enable := v.testBit 0 }
    else if k = bFabric + 0x100 then w.when (v.testBit 0) (W.swapTable tLinks)
    else if bIdx ≤ k && k < bIdx + 11 * 0x40 then
      w.regs fun r => { r with idxAddr := nput ((k - bIdx) / 0x40 * 4 + (k - bIdx) % 0x40 / 0x10) (v / 2 ^ 31 % 2 * 2 ^ 31 + v % 2 ^ 24 / 4 * 4) r.idxAddr }
    else if k = indKey 0 0x2_0004 then w.writePwrCtl v
    else if k = indKey 0 0x3_0004 then w.boot fun b => { b with nextFull := v.testBit 0 }
    else if k = indKey 0 0x4_0000 then w.when (v.testBit 3) (W.sync fun s => { s with mismatch := s.mismatch && !s.agreed })
    else if indKey 1 0 ≤ k && k < indKey 9 0 && k % 2 ^ 32 = 0x5_0000 then
      let s := k / 2 ^ 32 - 2
      w.when (v.testBit 16 && decide ((w.dev.therm s).temp < 105)) (W.tiers fun t => { t with therm := tput s { w.dev.therm s with trip := false } t.therm })
    else if indKey 10 0x4_0000 ≤ k && k < indKey 10 0x4_0100 && k % 0x20 = 0x10 then w.writeQctl ((k - indKey 10 0x4_0000) / 0x20) v
    else if k < 2 ^ 32 then w.putReg k v
    else w

/-- A write by a master of the register of key `k`, through address `addr`. -/
def W.writeKey (m : Master) (addr k v : Nat) (w : W) : W :=
  match w.dev.regAt w.herd k with
  | none => if 2 ^ 32 ≤ k then w else w.countUnmapped
  | some r =>
    if r.priv && !masterPriv m then w.countPriv addr
    else if isChecked k then
      let c := w.dev.regs.cfg
      if c.holder = some (!masterHost m) && !c.committing then (if k = indKey 0 0x2_0008 then w else w.putReg k v)
      else w.cfg fun c => { c with drop := (c.drop + 1) % 2 ^ 32 }
    else w.actReg m k v

/-- A write of IDX_DATA[t][k]. -/
def W.writePair (m : Master) (t k v : Nat) (w : W) : W :=
  let key := w.dev.pairKey t k
  let w := W.each (targetDomains t) W.wakeFor w
  let w := if w.dev.targetAbsent t then w else w.writeKey m (bIdx + t * 0x40 + k * 0x10 + 4) key v
  w.advancePair t k

/-- A write of the register at a direct address. -/
def W.writeDirect (m : Master) (a v : Nat) (w : W) : W :=
  if 2 ^ 24 ≤ a then w.countUnmapped
  else match idxData a with
  | some x => if w.dev.boot.phase = .imageWait then w.writeKey m a a v else w.writePair m x.1 x.2 v
  | none => w.writeKey m a a v

/-- An access by a master that reaches the registers. -/
def W.byMaster (m : Master) (f : W → W) (w : W) : W := w.when (w.dev.reach m) f

end Sys2Proof.Machine
end

