-- ==== Sys2Proof/Machine/Start.lean ====
section
/-! DEFINITION. Power, reset and bring-up: HELD, orderly power-down, reset, stages 0 to 9, the boot log and the tack store's lists (R457, R470, R484 to
R487, R491 to R495, R541 to R543). -/

namespace Sys2Proof.Machine

open Host

/-! ### What a loss of power or a reset keeps -/

/-- Host memory and the shed's medium keep their bytes; every other store loses its contents (R450, R470). -/
def keepsBytes (k : Nat) : Bool := keySpace k = spHost || keySpace k = spShed

/-- The shed's medium without its controller: what is not on it may be lost, and the map is that of the medium. -/
def Shed.offline (s : Shed) : Shed := { s with mounted := false, poolBytes := 0, buffer := [], nextSeq := 0, queues := [] }

/-- Everything but the gatehouse, the tack store and the shed's medium is as at reset. -/
def Dev.dropped (d : Dev) : Dev :=
  let x := Dev.reset
  { x with
    boot := { x.boot with
      part := d.boot.part, phase := d.boot.phase, inputPresent := d.boot.inputPresent, pwrEn := d.boot.pwrEn, resetN := d.boot.resetN
      tack := d.boot.tack, nextFull := d.boot.nextFull, log := d.boot.log, prev := d.boot.prev, romVersion := d.boot.romVersion
      tackFw := d.boot.tackFw, tackCfg := d.boot.tackCfg }
    power := { x.power with
      vinMV := d.power.vinMV, inputUJ := d.power.inputUJ, inputFault := d.power.inputFault, underVoltage := d.power.underVoltage
      domains := (List.range 96).map fun n => (n, { d.boot.part.domainReset n with energyUJ := (d.domain n).energyUJ }) }
    faults := { x.faults with log := d.faults.log, logged := d.faults.logged }
    -- uncorrectable granules of the medium stay so (R385)
    tiers := { x.tiers with badGranules := d.tiers.badGranules.filter fun k => keySpace k = spShed }
    shed := d.shed.offline, mgmt := d.mgmt, fresh := d.fresh }

/-- The module's contents are lost. -/
def W.dropContents (w : W) : W :=
  let w := (w.loseBuffer).wipe fun k => !keepsBytes k
  { w with dev := w.dev.dropped }

def W.phase (p : Phase) (w : W) : W := w.boot fun b => { b with phase := p }

/-- Every domain but the gatehouse is OFF. -/
def W.domainsOff (w : W) : W :=
  w.power fun p => { p with domains := (List.range 96).map fun n =>
    let x := w.dev.domain n
    (n, if n = 95 then x else { x with state := 4, waking := false }) }

def W.enterHeld (w : W) : W := ((w.dropContents).domainsOff).phase .held

/-- Bring-up begins at stage 0. The boot log of the start before becomes the previous one. -/
def W.beginStart (w : W) : W :=
  let w := w.dropContents
  let h := w.herd
  w.boot fun b => { b.setHeader fun x => { x with startCount := x.startCount + 1 } with phase := .bringUp, stagesDone := 0, prev := b.log, log := [], stageStart := h }

/-- Where the module goes with 56 V, PWR_EN and RESET_N as they are (R470, R541, R542). -/
def W.settlePower (w : W) : W :=
  let b := w.dev.boot
  if !b.inputPresent then w.phase .noPower
  else if !b.pwrEn then w.enterHeld
  else if !b.resetN then (w.dropContents).phase .inReset
  else w.beginStart

/-! ### Happenings of the pins (R542, R543) -/

def W.inputOn (w : W) : W :=
  if w.dev.boot.phase ≠ .noPower then w else (w.boot fun b => { b with inputPresent := true }).settlePower

def W.pwrEnRise (w : W) : W :=
  let w := w.boot fun b => { b with pwrEn := true }
  if w.dev.boot.phase = .held then w.settlePower else w

/-- Data of the write buffer reaches the medium, page by page; storage commands complete (R382, R543). -/
def W.drainShed (w : W) : W :=
  W.each ((List.range w.dev.shedN).map fun c => List.replicate w.dev.shed.buffer.length c).flatten (fun c w => w.pageProgram c true) w

/-- The newest 256 log records go to the tack store (R457). -/
def W.copyLog (w : W) : W :=
  let l := w.dev.faults.log.take 256
  w.boot (Boot.setLogCopy l)

/-- PWR_EN low: from RUN and STANDBY an orderly power-down, from everything else HELD at once. -/
def W.pwrEnFall (w : W) : W :=
  let w := w.boot fun b => { b with pwrEn := false }
  match w.dev.boot.phase with
  | .noPower | .held | .poweringDown => w
  | .run | .standby =>
    let w := w.phase .poweringDown
    W.each (w.dev.pads.map (·.1)) (fun p w => w.step p fun s => { s with abandon := true }) w
  | _ => w.enterHeld

/-- The drain ends: the buffer is on the medium, the map is checkpointed, the fault log copied, and the module HELD. If PWR_EN is high again, it
starts anew. -/
def W.drainOver (w : W) : W :=
  if w.dev.boot.phase ≠ .poweringDown then w
  else
    let w := (w.drainShed).shed fun s => { s with checkpoint := s.map }
    ((w.copyLog).enterHeld).settlePower

/-- RESET_N low: the actions of the safe state without a record. During an orderly power-down it acts at once too, and HELD follows when
RESET_N rises (R557). -/
def W.resetLow (w : W) : W :=
  let w := w.boot fun b => { b with resetN := false }
  match w.dev.boot.phase with
  | .noPower | .held => w
  | _ => (w.dropContents).phase .inReset

def W.resetRise (w : W) : W :=
  let w := w.boot fun b => { b with resetN := true }
  if w.dev.boot.phase = .inReset then w.settlePower else w

/-- 56 V goes away: the fault log, the boot log and the gatehouse's counters are lost too. Which writes to the tack store it cuts short is open. -/
def W.inputOff (w : W) : W :=
  let (n, w) := w.fresh
  let w := w.dropContents
  let w := w.boot fun b => { b with tack := b.tack.cut (Config.freeNat n) }
  let w := w.boot fun b => { b with inputPresent := false, log := [], prev := [], nextFull := false }
  let w := w.power fun _ => { Power.reset with domains := (List.range 96).map fun n => (n, { Domain.reset with state := 4 }) }
  ((w.faults fun _ => Faults.reset).mgmt fun _ => Mgmt.reset).phase .noPower

/-! ### Bring-up (R491 to R495) -/

/-- The report of the stage that ends. -/
def W.report (result status found detail flags ms : Nat) (w : W) : W :=
  w.boot fun b =>
    let r := StageReport.mk b.stagesDone result status found ms b.stageStart detail flags
    { b with log := b.log ++ [r], degraded := b.degraded || result = 1 }

def W.nextStage (w : W) : W :=
  let h := w.herd
  w.boot fun b => { b with stagesDone := b.stagesDone + 1, stageStart := h }

/-- The stage passes, or is DEGRADED. -/
def W.passStage (degraded : Bool) (found detail flags ms : Nat) (w : W) : W := (w.report (b2n degraded) 0 found detail flags ms).nextStage

/-- The stage stops bring-up; the module waits for an image. -/
def W.stopForImage (status detail ms : Nat) (w : W) : W := (w.report 2 status 0 detail 0 ms).phase .imageWait

/-- Entries for the defect list: a unit that is on it keeps its first entry. A full list takes none: they apply to this start only (R486). -/
def W.addDefects (l : List DefectEntry) (w : W) : W :=
  let all := l.foldl (fun ds e =>
    if ds.any (fun x => x.ukind = e.ukind && x.uindex = e.uindex) || decide (8191 ≤ ds.length) then ds else ds ++ [e]) w.dev.boot.defects
  let left := l.filter fun e => !all.any fun x => x.ukind = e.ukind && x.uindex = e.uindex
  let w := w.when (all.length ≠ w.dev.boot.defects.length) (W.boot (Boot.setDefects all))
  w.when (!left.isEmpty) (W.boot fun b => { b with unlisted := b.unlisted ++ left.map fun e => (e.ukind, e.uindex) })

def Boot.listFull (b : Boot) : Nat := 2 * b2n (decide (8191 ≤ b.defects.length))

/-- A retirement-list entry (R487) as the model numbers pages: tier 5 or 6 and page. -/
def retiredId (e : Nat) : Nat := remapId (4 + e / 2 ^ 62) (e % 2 ^ 62)

/-- The retirement list takes a page once, and holds 98,303 at most (R484). -/
def addPages (l old : List Nat) : List Nat := l.foldl (fun a p => if a.contains p || decide (98303 ≤ a.length) then a else a ++ [p]) old

/-- Pages for the retirement list, which is written where it changes. -/
def W.addRetired (l : List Nat) (w : W) : W :=
  let all := addPages l w.dev.boot.retired
  w.when (all.length ≠ w.dev.boot.retired.length) (W.boot (Boot.setRetired all))

/-- Defect-list entries of removed pseudo-channels, each with its bay (R492). -/
def removedEntries (source start : Nat) (l : List Nat) : List DefectEntry :=
  (l.map fun n => [uPc, uBay].map fun k => { ukind := k, source := source, cause := 0, uindex := n, start := start : DefectEntry }).flatten

/-- Entries that the fault-log copy supplies: standing fences that the list lacks (R505). -/
def Boot.fromLogCopy (b : Boot) : List DefectEntry :=
  (b.logCopy.filter fun r => decide (0x10 ≤ fld r 0 1) && decide (fld r 0 1 < 0x20) && fld r 1 1 = reStanding).map fun r =>
    { ukind := fld r 23 1, source := 3, cause := fld r 2 2, uindex := fld r 16 7, start := b.startCount : DefectEntry }

/-- Units whose entries apply to this start, those that the full list has not taken among them. -/
def Boot.applied (b : Boot) : List (Nat × Nat) :=
  ((b.defects.filter fun e => decide (e.start ≤ b.startCount)).map fun e => (e.ukind, e.uindex)) ++ b.unlisted

/-- Physical stalls that the applied entries name, those of a listed stable among them. -/
def Boot.listedStalls (b : Boot) : List Nat :=
  (b.applied.map fun e => if e.1 = uStall then [e.2] else if e.1 = uStable then (List.range 108).map (e.2 * 108 + ·) else []).flatten

/-- Units of other kinds that the applied entries name stay fenced in this start. -/
def Boot.listedUnits (b : Boot) : List Nat :=
  (b.applied.filter fun e => e.1 ≠ uStall && e.1 ≠ uStable).map fun e => unitKey e.1 e.2

/-- The first yard in flat order whose unused physical stable is good (R465). -/
def Dev.findCopyYard (d : Dev) : Option Nat :=
  (List.range 32).find? fun y => let u := d.unusedStable y; u ≠ 0xF && (d.goodStables y).contains (y * 9 + u)

/-- Entries of fenced tables are REMOVED. -/
def W.removeFenced (w : W) : W :=
  let tables := w.dev.faults.standing.filterMap fun u =>
    if fenceKind u = uPc || fenceKind u = uBay then some (fenceIndex u) else if fenceKind u = uBarn then some (tBarn (fenceIndex u)) else none
  let standing := w.dev.faults.standing
  W.each tables (fun t w => w.slots fun s => { s with act := setTable t (fencedTable standing t (tableEntries s.act t)) s.act }) w

/-- The table of a shed channel after stage 7: FTL in every sixteenth pair (R372). -/
def ftlTable : List Nat := (List.range 256).map fun e => if e / 2 % 16 = 0 then mkEntry 0xC 0 else 0

def W.writeShedTables (w : W) : W :=
  W.each ((List.range w.dev.shedN).map tShed) (fun t w => w.slots fun s => { s with
    pend := setTable t ftlTable s.pend, act := setTable t ftlTable s.act, base := setTable t ftlTable s.base }) w

/-- State of the Halter link by the halves that lock (R412): 1 where none does. -/
def lanesState (lanes : Nat) : Nat :=
  let a := decide (lanes % 256 = 255)
  let b := decide (lanes / 256 % 256 = 255)
  if a && b then 2 else if a || b then 3 else 1

/-- State of the Halter link by the halves that lock: a half under a standing fence stays unused, and where both are fenced the link runs at
half rate (R412, R446). -/
def Dev.halterState (d : Dev) (lanes : Nat) : Nat :=
  match d.unitFenced uHalter 0, d.unitFenced uHalter 1 with
  | false, false => lanesState lanes
  | true, false => lanesState (lanes / 256 % 256 * 256)
  | false, true => lanesState (lanes % 256)
  | true, true => if lanesState lanes = 1 then 1 else 3

/-- Register `k` takes the bits of a value that a mask selects. EN_CFG changes only through ENERGY_SET (R481, R490). -/
def W.configReg (k value mask : Nat) (w : W) : W :=
  match w.dev.regAt w.herd k with
  | none => w
  | some r =>
    let v := (r.val &&& (2 ^ 32 - 1 - mask)) ||| (value &&& mask)
    if k = indKey 0 0x2_0008 then w else if isChecked k then w.putReg k v else w.actReg .firmware k v

/-- A configuration entry: address, value, mask. At a data register of an indirect pair it writes the register that the pair names (R490, R517). -/
def W.configEntry (e : Nat × Nat × Nat) (w : W) : W :=
  match idxData e.1 with
  | some x => (w.configReg (w.dev.pairKey x.1 x.2) e.2.1 e.2.2).advancePair x.1 x.2
  | none => w.configReg e.1 e.2.1 e.2.2

/-- The peer found at a Drove port is the one that the configuration expects: zeros stand for any peer (R490, R493). -/
def Topology.peerOk (t : Topology) (found : List (Fin 12 × Bytes)) (port : Nat) : Bool :=
  let want := t.peers.getD port []
  allZero want || (match found.find? fun x => x.1.val = port with | some x => x.2 == want | none => false)

/-- At stage 8 the links train (R400, R412). -/
def W.trainLinks (w : W) : W :=
  let ports := (List.range w.dev.boot.part.ports).filter fun p => !w.dev.unitFenced uDrove p
  W.each ports (fun p w => w.port p fun l => { l with state := 1 }) (w.when (!w.dev.halter.isUp) (W.halter fun l => { l with state := 1 }))

/-- START_MODE FAST and no full start asked for (R495). -/
def Boot.fastStart (b : Boot) (c : Image) : Bool := c.topology.startMode = 1 && !b.nextFull

def units_ (k n : Nat) : List Nat := (List.range n).map (unitKey k)

/-- Topology of stage 3 (R493). -/
def Dev.topologyMatches (d : Dev) (i : Image) : Bool :=
  let t := i.topology
  t.part = 2 ^ d.boot.part.bit && t.units = b2n d.boot.part.hasBarn + 2 + 4 * b2n d.boot.part.lockstep && t.shedChannels = d.boot.part.shedChannels

/-- Stalls in which the stall test found two or more defective columns: the spare column stands in for one only (R20). -/
def columnStalls (l : List (Nat × Nat)) : List Nat :=
  sortNat ((l.map (·.1)).filter fun p => decide (2 ≤ (sortNat ((l.filter (·.1 = p)).map (·.2))).length))

/-- Pseudo-channels whose failing pages exceed their replacement pages (R340, R492). -/
def crowdedPcs (pages : List Nat) : List Nat :=
  let tables := (pages.filter fun x => x / 2 ^ 48 = spStack).map fun x => tableOfPage spStack (x % 2 ^ 48)
  (List.range 512).filter fun n => decide (remapMax spStack < (tables.filter (· = n)).length)

/-- The SFDP table offers none of the features that the device uses (R483). -/
def sfdpOffersNone (x : Sfdp) : Bool := !(x.addr4 || x.quadRead || x.pageProgram || x.erase4k || x.erase64k)

/-- A bring-up stage ends with what it found. -/
def W.stage (f : StageFindings) (w : W) : W :=
  let b := w.dev.boot
  let ms := f.durationMS
  let start := b.startCount
  let pages := (f.pages.map fun p => retiredId p.toNat).filter fun p => !b.retired.contains p
  let removed := f.removedPc.map (·.val)
  if b.phase ≠ .bringUp then w
  else match b.stagesDone with
  | 0 => if f.refClk && (w.dev.sync.locked || w.dev.sync.solo) then w.passStage false 0 w.dev.power.vinMV 0 ms else w
  | 1 =>
    if sfdpOffersNone f.sfdp then
      -- no cause code names this detection: log entry 114
      w.device { cause := caStartFault, cls := clDevice, ukind := uHub, uindex := 6, detail := 0, arg := 1, pads := [], delay := 0 }
    else
    let w := w.boot fun b => { b with tack := { b.tack with device := some f.sfdp } }
    let fw := if b.fw.isSome then b.fw else if f.fwOk then b.tackFw else none
    let cfg := if b.cfg.isSome then b.cfg else if f.cfgOk then b.tackCfg else none
    let w := w.boot fun b => { b with fw := fw, cfg := cfg }
    (match fw, cfg with
     | some i, some c =>
       let w := w.boot fun b => { b with fast := b.fastStart c }
       w.passStage false 0 (i.identity % 2 ^ 64) 0 ms
     | _, _ => w.stopForImage (if f.status = 0 then Status.imageFormat.code else f.status.toNat) (((fw.map (·.identity)).getD 0) % 2 ^ 64) ms)
  | 2 =>
    let id := derivedId f.identityOk
    let w := w.boot fun b => { b with deviceId := id, identityBad := !f.identityOk }
    w.passStage false 0 (id % 2 ^ 64) 0 ms
  | 3 =>
    if f.topologyOk && (b.cfg.any w.dev.topologyMatches) then w.passStage false 0 f.diesFound 0 ms
    else (w.boot fun b => { b with cfg := none }).stopForImage Status.topologyMismatch.code f.diesFound ms
  | 4 =>
    let w := w.addDefects (removedEntries 5 start removed)
    let trained := (units_ uPc 512).filter fun u => !removed.contains (fenceIndex u)
    let w := w.boot fun b => b.setTraining (addAllNat trained b.training)
    w.passStage (!removed.isEmpty) (2 * removed.length) f.retrained (b2n (f.savedUsed && b.fast) + w.dev.boot.listFull) ms
  | 5 =>
    let w := w.addRetired pages
    let all := w.dev.boot.retired
    let removed := sortNat (removed ++ (if pages.isEmpty then [] else crowdedPcs all))
    let w := w.addDefects (removedEntries 2 start removed)
    let w := w.tiers fun t => { t with remapped := sortNat all }
    w.passStage (!removed.isEmpty) (pages.length + 2 * removed.length) f.pages.length (w.dev.boot.listFull + 4 * b2n b.fast) ms
  | 6 =>
    let stalls := sortNat (f.stalls ++ columnStalls f.columns)
    let found := stalls.map fun p => { ukind := uStall, source := 1, cause := 0, uindex := p, start := start : DefectEntry }
    let w := w.addDefects (b.fromLogCopy ++ found ++ removedEntries 2 start removed)
    let bad := sortNat (w.dev.boot.listedStalls ++ stalls)
    let units := sortNat w.dev.boot.listedUnits
    let w := { w with dev := { w.dev with badStalls := bad, columns := f.columns.filter fun x => !bad.contains x.1 } }
    let w := (w.faults fun x => { x with standing := units }).removeFenced
    let yard := w.dev.findCopyYard
    let w := w.boot fun b => { b with copyYard := yard }
    let n := w.dev.available.length
    w.passStage (n ≠ 256 || !removed.isEmpty) found.length n w.dev.boot.listFull ms
  | 7 =>
    let w := (w.addRetired pages).boot fun b => { b with mapRegion := f.mapRegion }
    let all := w.dev.boot.retired
    let w := w.tiers fun t => { t with remapped := sortNat all }
    let pool := (b.cfg.map (·.topology.shedPool)).getD 0
    let w := (w.shed fun s => { s with mounted := true, poolBytes := pool, readOnly := s.readOnly || w.dev.faults.standing.any fun u => fenceKind u = uShed }).writeShedTables
    let w := w.boot fun b => b.setTraining (addAllNat (if b.part.hasBarn then units_ uBarn 32 else []) b.training)
    (w.passStage w.dev.shed.readOnly pages.length f.pages.length (b2n (f.savedUsed && b.fast) + w.dev.boot.listFull) ms).trainLinks
  | 8 =>
    let state := if w.dev.halter.isUp then w.dev.halter.state else w.dev.halterState f.halterLanes.toNat
    let up := setBits 12 f.droveUp.toNat
    let ports := (List.range b.part.ports).filter fun p =>
      up.contains p && !w.dev.unitFenced uDrove p && b.cfg.all fun c => c.topology.peerOk f.peerIds p
    let missing := (setBits 12 ((b.cfg.map (·.topology.drovePorts)).getD 0)).any fun p => !ports.contains p
    if state = 1 then w.halter fun l => { l with state := 1 }
    else
      let w := if w.dev.halter.isUp then w else w.halter (Link.start state 512)
      -- a port that does not train, or with the wrong peer, is held DOWN (R493)
      let w := W.each (List.range b.part.ports) (fun p w => w.port p (if ports.contains p then Link.start 2 512 else fun l => { l with state := 0 })) w
      let trained := (setBits 16 f.halterLanes.toNat).map (unitKey uHalter) ++ (ports.map fun p => trainedLanes (unitKey uDrove p)).flatten
      let w := w.boot fun b => (b.setTraining (addAllNat trained b.training)).setHeader fun x => { x with startMode := b2n b.fast }
      w.passStage (missing || state = 3) 0 (bitMask ports) (b2n (f.savedUsed && b.fast)) ms
  | 9 =>
    let w := W.each ((b.cfg.map (·.entries)).getD []) W.configEntry w
    -- an entry that writes FLT_INJECT may have taken the module to the safe state
    if w.dev.boot.phase ≠ .bringUp then w
    else
      let w := (w.commitCfg w.dev.checked).cfg fun c => { c with live := true, state := 1 }
      let w := w.passStage false 0 (w.dev.available.length * w.dev.S) 0 ms
      let h := w.herd
      (w.boot fun b => { b with readyHerd := h, nextFull := false, phase := .run }).power fun p => { p with windowStart := h, usedUJ := 0, overdraftIn := 0 }
  | _ => w

/-- At stage 8 no half of the Halter link has locked: training is tried again, every second (R494). -/
def W.trainRetry (lanes : Nat) (w : W) : W :=
  if w.dev.boot.phase = .bringUp && w.dev.boot.stagesDone = 8 && !w.dev.halter.isUp then
    let state := w.dev.halterState lanes
    if state = 1 then w.halter fun l => { l with state := 1 } else w.halter (Link.start state 512)
  else w

/-! ### The defect list in service (R486) -/

/-- Appends the oldest entry that waits. -/
def W.appendDefect (w : W) : W :=
  match w.dev.boot.toAppend with
  | [] => w
  | e :: rest => (w.boot fun b => { b with toAppend := rest }).addDefects [e]

end Sys2Proof.Machine
end

