-- ==== Sys2Proof/Machine/Links.lean ====
section
/-! DEFINITION. The receiving side of the Halter link and of the Drove ports: flits, trains, acknowledgement, replay, loss and return (R402, R403,
R407, R412 to R417). -/

namespace Sys2Proof.Machine

open Host

/-! ### Users of the links (R443) -/

/-- Paddocks whose running step uses the Halter link: it sends to the host, or reads or writes host memory. -/
def Dev.halterUsers (d : Dev) : List Nat :=
  d.runningPads.filter fun p => match d.step? p with
    | some s => s.plan.words.any fun x => x.cls = cHOSTOUT || x.cls = cTOKENIZE || [x.dst, x.srca, x.srcb].any fun i => match s.plan.desc? i with
      | some y => y.space = spHost
      | none => false
    | none => false

/-! ### Acknowledgement and replay -/

/-- `a` is at or after `b` among numbers modulo `m`. -/
def seqAfter (m a b : Nat) : Bool := decide ((a + m - b) % m < m / 2)

/-- ACK, credits and NAK of a head whose check holds: what is acknowledged is kept no more (R403, R414). -/
def Link.acked (m ack credits : Nat) (l : Link) : Link :=
  { l with
    sent := l.sent.filter fun x => !seqAfter m ack x.1
    txAcked := if seqAfter m ack l.txAcked && seqAfter m l.txNext (ack + 1) then ack else l.txAcked
    credits := l.credits + credits }

/-- A resend of everything from ACK + 1 on. -/
def Link.replayed (h : Nat) (l : Link) : Link := { l with resending := false, replays := h :: l.replays.filter fun x => decide (h < x + 400_000) }

/-- The replay count of the last 1 ms has just passed 64. -/
def Link.tooMany (l : Link) : Bool := l.replays.length = 65

/-! ### The Halter link, host to device (R413 to R416) -/

def flitGood (ftype : Nat) (f : HalterFlit) : Bool :=
  crc32 (flitHead ftype f.fflags.toNat f.seq.toNat f.ack.toNat f.credits.toNat f.body) = f.crc.toNat

/-- A replay of the device's own flits, and the record of a direction with too many of them. -/
def W.halterReplay (w : W) : W :=
  let h := w.herd
  let w := w.halter (Link.replayed h)
  if w.dev.halter.tooMany then w.detect caLinkErrors uHalter 0 0 w.dev.halter.replays.length w.dev.halterUsers else w

/-- Sends what waits for the host. A write of a step that the link has taken has met its deadline (R429). -/
def W.drainHost (w : W) : W :=
  let w := w.drainTx w.dev.halter.toSend.length
  W.each (w.dev.pads.map (·.1)) (fun p w => w.step p fun s =>
    { s with posted := s.posted.filter fun x => !x.isWrite || keySpace x.src ≠ spHost || w.dev.hostWaits x.src }) w

/-- A flit fails: it and all later ones are discarded until the resend, and a CONTROL flit with NAK and the last good SEQ goes back, once (R414; DEDUCED:
log entry 138). More than 64 of them in 1 ms leave a record. -/
def W.halterNak (w : W) : W :=
  if w.dev.halter.discarding then w
  else
    let h := w.herd
    let w := w.halter fun l => { l with
      discarding := true, control := flitBytes 2 1 l.txNext l.rxLast l.freed [], freed := 0
      rxReplays := h :: l.rxReplays.filter fun x => decide (h < x + 400_000) }
    if w.dev.halter.rxReplays.length = 65 then w.detect caLinkErrors uHalter 0 0 65 w.dev.halterUsers else w

/-- What the head of a good flit says of the device's own direction. -/
def W.halterHead (f : HalterFlit) (w : W) : W :=
  let w := w.halter fun l => (l.acked 65536 f.ack.toNat f.credits.toNat)
  let w := if f.fflags.getLsbD 0 then w.halterReplay else w
  w.drainHost

/-- Registers of a WRITE or READ, one after another. -/
def W.writeWords (m : Master) (a : Nat) : List Bytes → W → W
  | [], w => w
  | b :: r, w => W.writeWords m (a + 4) r (w.writeDirect m a (fld b 0 4))

def W.readWords (m : Master) (a : Nat) : Nat → Bytes × Nat → W → (Bytes × Nat) × W
  | 0, acc, w => (acc, w)
  | n + 1, acc, w =>
    let w := w.readDirect m a
    W.readWords m (a + 4) n (acc.1 ++ leBytes 4 w.dev.regs.readValue, max acc.2 w.dev.regs.readStatus) w

/-- One transaction of the host. Accesses act while registers answer; READ_DONE and MESSAGE change nothing here. -/
def W.transaction (b : Bytes) (w : W) : W :=
  let op := fld b 0 1
  let m : Master := if (fld b 1 1).testBit 0 then .secure else .plain
  let n := fld b 4 4
  let a := fld b 8 8
  if !w.dev.reach m || n % 4 ≠ 0 || n = 0 || decide (64 < n) then w
  else if op = 1 then w.writeWords m a (chunks 4 (slice b 16 n))
  else if op = 2 then
    let (r, w) := w.readWords m a (n / 4) ([], 0)
    w.sendTx clData 0 (txHeader 3 (r.2 * 16) (fld b 2 2) n a ++ r.1)
  else w

/-- Takes whole transactions off the byte stream; OP 0 marks the rest of the BODY as padding. What is left waits for the next flit. -/
def W.takeTransactions : Nat → Bytes → W → W
  | 0, b, w => w.halter fun l => { l with partialTx := b }
  | k + 1, b, w =>
    if b.isEmpty || fld b 0 1 = 0 then w.halter fun l => { l with partialTx := [] }
    else
      let n := 16 + (if fld b 0 1 = 1 || fld b 0 1 = 3 then fld b 4 4 else 0)
      if decide (b.length < 16) || decide (b.length < n) then w.halter fun l => { l with partialTx := b }
      else W.takeTransactions k (b.drop n) (w.transaction (b.take n))

/-- A DATA flit arrives: CRC, then SEQ order; a bad one is discarded with every later one until the resend, and a NAK goes back. One that a
replay brings twice is applied once. -/
def W.halterData (f : HalterFlit) (w : W) : W :=
  let l := w.dev.halter
  if !l.isUp then w
  else if !flitGood 1 f then w.halterNak
  else
    let w := w.halterHead f
    if f.seq.toNat = (l.rxLast + 1) % 65536 then
      let w := w.halter fun l => { l with rxLast := f.seq.toNat, discarding := false, freed := l.freed + 1 }
      let b := w.dev.halter.partialTx ++ fit 244 f.body
      w.takeTransactions b.length b
    else if seqAfter 65536 l.rxLast f.seq.toNat then w
    else w.halterNak

/-- A CONTROL flit arrives. -/
def W.halterControl (f : HalterFlit) (w : W) : W :=
  if !w.dev.halter.isUp || !flitGood 2 f then w else w.halterHead f

/-- ACK has not advanced for 4 µs. -/
def W.halterTimeout (w : W) : W := if w.dev.halter.isUp && !w.dev.halter.sent.isEmpty then w.halterReplay else w

/-- Lane lock is lost: DOWN, with its LINK event, and the link retrains at once. Each half with a lost lane has its record. -/
def W.halterLost (lanes : Nat) (w : W) : W :=
  if !w.dev.halter.isUp || lanes = 0 then w
  else
    let w := w.halter fun l => { l with state := 1 }
    let w := w.event 6 [Config.stateCode 2]
    let w := if lanes % 256 ≠ 0 then w.detect caLinkLost uHalter 0 lanes 0 w.dev.halterUsers else w
    if lanes / 256 ≠ 0 then w.detect caLinkLost uHalter 1 lanes 0 w.dev.halterUsers else w

/-- States in which the link may finish training. -/
def Dev.halterTrains (d : Dev) : Bool :=
  !d.halter.isUp && (match d.boot.phase with | .run | .standby | .poweringDown | .imageWait => true | .bringUp => decide (9 ≤ d.boot.stagesDone) | _ => false)

/-- Training ends on the lanes that lock: everything that waited for the host is written in order (R412, R417). A half under a standing fence stays
unused. -/
def W.halterUp (lanes : Nat) (w : W) : W :=
  if !w.dev.halterTrains then w
  else
    let state := w.dev.halterState lanes
    if state = 1 then w.halter fun l => { l with state := 1 }
    else
      let fenced := w.dev.unitFenced uHalter 0 || w.dev.unitFenced uHalter 1
      let w := w.halter fun l => if l.state = 0 then l.start state 512 else { l with state := state }
      let half := if lanes % 256 = 255 then 1 else 0
      let w := w.event 6 [Config.stateCode (if state = 3 then 4 else 3)]
      let w := if state = 3 && !fenced && !w.dev.boot.starting then w.detect caLinkHalf uHalter half half 0 w.dev.halterUsers else w
      w.drainHost.flushHost

/-! ### Drove ports (R402, R403, R407) -/

def checkNats (l : List (BitVec 16)) : List Nat := l.map (·.toNat)

/-- The head's CRC holds. -/
def droveHeadGood (kind : Nat) (h : DroveHead) : Bool :=
  let b := headBytes kind h.flits.toNat h.paddock.toNat h.flags.toNat h.seq.toNat h.ack.toNat h.credits.toNat h.channel.toNat h.launch.toNat h.offset.toNat
    (checkNats h.checks)
  h.reserved = 0 && fld b 252 4 = h.crc.toNat

/-- Every granule of the train passes its check. -/
def trainGood (h : DroveHead) (data : List Bytes) : Bool :=
  let gs := (data.map flitGranules).flatten
  (List.range gs.length).all fun i => granuleCheck (gs.getD i []) = (checkNats h.checks).getD i 0

/-- Paddocks whose running step uses the port. -/
def Dev.portUsers (d : Dev) (port : Nat) : List Nat :=
  d.runningPads.filter fun p => match d.step? p with
    | some s => s.plan.words.any fun x => (x.cls = cDROVESEND || x.cls = cDROVERECV) && x.mask.testBit port
    | none => false

def W.droveReplay (port : Nat) (w : W) : W :=
  let h := w.herd
  let w := w.port port (Link.replayed h)
  if (w.dev.port port).tooMany then w.detect caLinkErrors uDrove port 0 (w.dev.port port).replays.length (w.dev.portUsers port) else w

def W.droveHead (port : Nat) (h : DroveHead) (w : W) : W :=
  let w := w.port port fun l => l.acked (2 ^ 32) h.ack.toNat h.credits.toNat
  let w := if h.flags.getLsbD 0 then w.droveReplay port else w
  w.drainTrains port (w.dev.port port).toSend

/-- A train fails: it and all later ones are discarded until the resend, and a CONTROL head with NAK and the last good SEQ goes back, once (R403; DEDUCED:
log entry 138). It counts among the replays of the port. -/
def W.droveNak (port : Nat) (w : W) : W :=
  let l := w.dev.port port
  let w := w.port port fun l => { l with discarded := l.discarded + 1 }
  if l.discarding then w
  else
    let w := w.port port fun l => { l with
      discarding := true, control := headBytes 2 0 0 1 l.txNext l.rxLast l.freed 0 0 0 [], freed := 0 }
    w.droveReplay port

/-- A granule of an accepted train is written where its channel's area lies, unless it has been missed. -/
def W.droveGranule (p : Nat) (c : Channel) (off : Nat) (g : Bytes) (w : W) : W :=
  let at_ := droveOffset (keyOff c.src)
  match w.dev.step? p with
  | none => w
  | some s => match s.posted.find? fun x => x.desc = c.desc && x.rep = c.rep && x.src = c.src - at_ + off && x.dst.isSome with
    | none => w
    | some x =>
      let w := w.step p fun s => { s with posted := dropPosted x s.posted, landed := (x.desc, x.rep, x.src, x.dst.getD 0 + 64 - x.skip) :: s.landed }
      w.land p { x with writer := kDROVE * 2 ^ 32 + c.port } (x.cells g)

/-- An accepted train: to the open channel of the running step that it names, and else STRAY. -/
def W.deliverTrain (port : Nat) (h : DroveHead) (data : List Bytes) (w : W) : W :=
  let p := h.paddock.toNat
  match w.dev.step? p with
  | none => w
  | some s =>
    let open_ := s.channels.filter fun c => c.port = port && c.channel = h.channel.toNat
    if s.launch ≠ h.launch.toNat || open_.isEmpty then w.step p fun s => { s with stray := s.stray + 1 }
    else
      let gs := (data.map flitGranules).flatten
      W.each open_ (fun c w => W.each (List.range gs.length) (fun i w => w.droveGranule p c (h.offset.toNat + 64 * i) (gs.getD i [])) w) w

/-- A train that takes a sequence number arrives: the head's CRC, then SEQ order, then every granule check; `f` is what a good one does. -/
def W.droveOrdered (kind port : Nat) (h : DroveHead) (data : List Bytes) (f : W → W) (w : W) : W :=
  let l := w.dev.port port
  if l.state ≠ 2 || !w.dev.boot.phase.collects then w
  else if !droveHeadGood kind h then w.droveNak port
  else
    let w := w.droveHead port h
    if h.seq.toNat ≠ (l.rxLast + 1) % 2 ^ 32 then (if seqAfter (2 ^ 32) l.rxLast h.seq.toNat then w else w.droveNak port)
    else if !trainGood h data then w.droveNak port
    else
      let w := w.port port fun l => { l with rxLast := h.seq.toNat, discarding := false, freed := l.freed + 1 + data.length }
      f w

def W.droveTrain (port : Nat) (h : DroveHead) (data : List Bytes) (w : W) : W :=
  w.droveOrdered 1 port h data (W.deliverTrain port h data)

/-- A DIGEST train: bytes 16 to 31 of its head are the message of R81. -/
def W.droveDigest (port : Nat) (h : DroveHead) (data : List Bytes) (w : W) : W :=
  w.droveOrdered 3 port h data (W.lockReceived port h.paddock.toNat h.launch.toNat h.offset.toNat)

def W.droveControl (port : Nat) (h : DroveHead) (w : W) : W :=
  if (w.dev.port port).state ≠ 2 || !droveHeadGood 2 h then w else w.droveHead port h

def W.droveTimeout (port : Nat) (w : W) : W :=
  if (w.dev.port port).state = 2 && !(w.dev.port port).sent.isEmpty then w.droveReplay port else w

/-- A port loses lane lock and goes DOWN; what waited to be sent is not sent. -/
def W.droveLost (port lanes : Nat) (w : W) : W :=
  if (w.dev.port port).state ≠ 2 then w
  else
    let w := w.port port fun l => { l with state := 0, toSend := [], sent := [], discarding := false }
    (w.event 6 [Config.stateCode 2]).detect caLinkLost uDrove port lanes 0 (w.dev.portUsers port)

end Sys2Proof.Machine
end

