-- ==== Sys2Proof/Machine/Side.lean ====
section
/-! DEFINITION. The sideband connector: SYNC messages, the management bus, the TAP and the levels of the output pins (R479, R541, R545 to R551). -/

namespace Sys2Proof.Machine

open Host

/-! ### SYNC (R545 to R549) -/

/-- XOR of the eight bytes of a herd count. -/
def syncCheck (count : Nat) : Nat := (leBytes 8 count).foldl (fun a b => a ^^^ b.toNat) 0

/-- The check of a message holds. -/
def syncGood (count check : Nat) : Bool := syncCheck count = check

/-- A message of the form R545 gives it: a count that is a multiple of 8, and a stop bit of 0. -/
def syncForm (count : Nat) (stop : Bool) : Bool := count % 8 = 0 && !stop

/-- Stage 0 runs and has neither loaded nor started the count. -/
def Dev.syncWaits (d : Dev) : Bool := d.boot.phase = .bringUp && d.boot.stagesDone = 0 && !d.sync.locked && !d.sync.solo

/-- Stage 0 with a valid message: LOCKED. -/
def Sync.lock (count : Nat) (s : Sync) : Sync := { s with locked := true, messages := (s.messages + 1) % 2 ^ 16, lastValid := count, stale := false }

/-- A later valid message with count `count` at herd count `h`. -/
def Sync.compare (count h : Nat) (s : Sync) : Sync :=
  { s with
    messages := (s.messages + 1) % 2 ^ 16, lastValid := h, stale := false
    mismatch := s.mismatch || decide (count ≠ h), agreed := decide (count = h) }

def Sync.bad (s : Sync) : Sync := { s with badCheck := (s.badCheck + 1) % 2 ^ 8 }

/-- 200 ms in herd ticks. -/
def syncStaleTicks : Nat := 80_000_000

/-- The 74 samples of a message, the first least significant: start bit 1, H, check, stop bit 0. -/
def syncSamples (h : Nat) : Nat := 1 + 2 * (h % 2 ^ 64) + 2 ^ 65 * syncCheck h

/-- SYNC_OUT is driven from the end of stage 0 (R541, R547). -/
def Dev.sends (d : Dev) : Bool :=
  match d.boot.phase with
  | .bringUp => decide (1 ≤ d.boot.stagesDone)
  | .imageWait | .run | .standby | .poweringDown => true
  | _ => false

/-! ### Output pins (R541) -/

/-- What the module drives on a pin; none where it is released. -/
def Dev.alertN (d : Dev) : Option Bool := if d.sends then some (!d.alert) else none
def Dev.thermTripN (d : Dev) : Option Bool := if d.sends then some true else none
/-- SYNC_OUT is driven; between messages it idles low. -/
def Dev.syncDriven (d : Dev) : Bool := d.sends

/-! ### The management bus (R479, R550) -/

/-- The bus answers in every state of R541 but absence, reset and the safe state; during the handover of the gatehouse it refuses (R499). -/
def Dev.busAnswers (d : Dev) (herd : Nat) : Bool :=
  (match d.boot.phase with | .noPower | .inReset | .safe => false | _ => true) && decide (d.mgmt.busyUntil ≤ herd)

/-- An answer, or a NACK. -/
def W.busAnswer (b : Bytes) (w : W) : W :=
  if w.dev.busAnswers w.herd then w.mgmt fun m => { m with answer := b, nack := false } else w.mgmt fun m => { m with answer := [], nack := true }

def W.busRefuse (w : W) : W := w.mgmt fun m => { m with answer := [], nack := true }

/-- Mantissa of the quotient at exponent e − 16, rounded half up. -/
def linearMant (num den e : Nat) : Nat := (2 * num * 2 ^ 16 + den * 2 ^ e) / (2 * den * 2 ^ e)

/-- A quotient in LINEAR11: a signed exponent of 5 bits over a signed mantissa of 11 bits, at one of the exponents at which the mantissa fits. -/
def linear11 (num den : Nat) : Nat :=
  let low := ((List.range 32).find? fun e => decide (linearMant num den e ≤ 1023)).getD 31
  let e := low + Config.linearExp num den % (32 - low)
  (e + 16) % 32 * 2 ^ 11 + linearMant num den e % 1024

/-- STATUS_WORD: bit 13 input fault, bit 3 under-voltage. -/
def Power.statusWord (p : Power) : Nat := b2n p.inputFault * 2 ^ 13 + b2n p.underVoltage * 2 ^ 3

/-- Input energy of the last 100 samples in µJ, which is 1 ms: mW. -/
def Power.inputMW (p : Power) : Nat := sumNat (p.history.take 100)

/-- The hottest stack report in °C. -/
def Dev.hottest (d : Dev) : Nat := maxNat (d.tiers.therm.map fun (x : Nat × Therm) => x.2.temp)

/-- USED and the allowance in mJ, WINDOW_MS and the batches that wait, 4 bytes each. -/
def Dev.energyBlock (d : Dev) (herd : Nat) : Bytes :=
  leBytes 4 (d.power.usedUJ / 1000) ++ leBytes 4 d.power.allowance ++ leBytes 4 d.power.windowMS ++ leBytes 4 (d.waiting herd)

/-- The Alert Response Address: the device's own address, while ALERT_N is asserted. -/
def W.alertResponse (w : W) : W :=
  if w.dev.alertN = some false then w.busAnswer (leBytes 1 (2 * (0x40 + Config.smbAddr.toNat))) else w.busRefuse

/-! ### The TAP (R551) -/

/-- The TAP works while the gatehouse is powered and the module is not in the safe state. -/
def Dev.tapWorks (d : Dev) : Bool := d.boot.phase ≠ .noPower && d.boot.phase ≠ .safe

/-- The instruction that acts: EXTEST, CLAMP and HIGHZ only while the module is HELD, and else BYPASS. -/
def Dev.tapActs (d : Dev) : TapInstr :=
  match d.mgmt.tap with
  | .extest | .clamp | .highz => if d.boot.phase = .held then d.mgmt.tap else .bypass
  | t => t

/-- The pins are driven from the boundary register (EXTEST and CLAMP); HIGHZ releases them. -/
def Dev.pinsFromBoundary (d : Dev) : Bool := d.tapActs = .extest || d.tapActs = .clamp

/-- An instruction is loaded and its data register scanned: BYPASS and CLAMP and HIGHZ scan the bypass bit, which captures 0. -/
def W.tapLoad (i : TapInstr) (w : W) : W :=
  if w.dev.tapWorks then
    let w := w.mgmt fun m => { m with tap := i, tapReset := false }
    let (n, w) := w.fresh
    let captured := Config.freeNat n
    let scan := w.dev.tapActs
    w.mgmt fun m => { m with tdo := match scan with
      | .idcode => 0x0B7AC0F3
      | .samplePreload | .extest => captured
      | _ => 0 }
  else w

/-- PRELOAD sets the boundary register. -/
def W.tapPreload (v : Option (BitVec 32)) (w : W) : W :=
  match v with
  | some b => w.when w.dev.tapWorks (W.mgmt fun m => { m with boundary := b.toNat })
  | none => w

def W.tapReset (w : W) : W := w.mgmt fun m => { m with tap := .idcode, tapReset := true }

end Sys2Proof.Machine
end

