-- ==== Sys2Proof/Machine/Act.lean ====
section
/-! DEFINITION. How a meaning becomes an outcome: at the present herd count or at one that a happening carries, and with or without the commands of
the rings that it lets start. -/

namespace Sys2Proof.Machine

open Host

/-- The meaning of a command that does `f` at the present herd count. Clock and queue are untouched, and memory changes by
writes only. -/
def act (f : W → W) (s : State) : Outcome State Fault Refusal := .next ((f (W.of s)).leave s)

/-- A command that has no effect now. -/
def idle (s : State) : Outcome State Fault Refusal := act id s

/-- The meaning of a happening that falls at herd count `h`. -/
def actAt (h : Nat) (f : W → W) (s : State) : Outcome State Fault Refusal := act f { s with clock := s.clock.advance h }

/-- As `act`, where what happens may let commands of the rings start (R420). -/
def actWind (f : W → W) (s : State) : Outcome State Fault Refusal := act (fun w => (f w).wind) s

def actWindAt (h : Nat) (f : W → W) (s : State) : Outcome State Fault Refusal := actWind f { s with clock := s.clock.advance h }

/-- A happening that falls only while the module is at work. -/
def W.working (f : W → W) (w : W) : W := w.when w.dev.boot.phase.collects f

/-- A plan-word row: the word has class `cls` and `ok` holds of its issue; else it is not this row's word and nothing happens. -/
def runWord (cls : Nat) (ok : Ctx → W → Bool) (f : Ctx → W → W) (p w j : Nat) (s : State) : Outcome State Fault Refusal :=
  match s.dev.issue? p w j with
  | none => idle s
  | some c =>
    if s.dev.boot.phase.collects && c.word.cls = cls && ok c (W.of s) then actAt (c.step.herdAt c.slot) (W.issue c f) s else idle s

end Sys2Proof.Machine
end

