-- ==== Sys2Proof/Machine/HostRows.lean ====
section
/-! DEFINITION. The rows of the command rings, of the storage queues and of the host's index writes: fetch of an entry of each opcode (R419, R424), doorbells
(R418, R420, R422, R532) and the storage queues (R379 to R384). -/

namespace Sys2Proof.Machine

open Host

/-! ### Command rings: each row fetches an entry of its opcode (R424) -/

def execNop (e : Entry) (s : State) : Outcome State Fault Refusal := act (W.fetch 0x01 e) s
def execMuster (e : Entry) (s : State) : Outcome State Fault Refusal := act (W.fetch 0x02 e) s
def execPlanLoad (e : Entry) (s : State) : Outcome State Fault Refusal := act (W.fetch 0x10 e) s
def execPlanUnload (e : Entry) (s : State) : Outcome State Fault Refusal := act (W.fetch 0x11 e) s
def execBatch (e : Entry) (s : State) : Outcome State Fault Refusal := act (W.fetch 0x12 e) s
def execCancel (e : Entry) (s : State) : Outcome State Fault Refusal := act (W.fetch 0x13 e) s
def execAdmitRequest (e : Entry) (s : State) : Outcome State Fault Refusal := act (W.fetch 0x14 e) s
def execInput (e : Entry) (s : State) : Outcome State Fault Refusal := act (W.fetch 0x15 e) s
def execPause (e : Entry) (s : State) : Outcome State Fault Refusal := act (W.fetch 0x16 e) s
def execResume (e : Entry) (s : State) : Outcome State Fault Refusal := act (W.fetch 0x17 e) s
def execPaddockForm (e : Entry) (s : State) : Outcome State Fault Refusal := act (W.fetch 0x20 e) s
def execPaddockTeardown (e : Entry) (s : State) : Outcome State Fault Refusal := act (W.fetch 0x21 e) s
def execServeSet (e : Entry) (s : State) : Outcome State Fault Refusal := act (W.fetch 0x22 e) s
def execTenantSet (e : Entry) (s : State) : Outcome State Fault Refusal := act (W.fetch 0x23 e) s
def execLockstepPair (e : Entry) (s : State) : Outcome State Fault Refusal := act (W.fetch 0x24 e) s
def execTokenizerLoad (e : Entry) (s : State) : Outcome State Fault Refusal := act (W.fetch 0x30 e) s
def execGrammarLoad (e : Entry) (s : State) : Outcome State Fault Refusal := act (W.fetch 0x31 e) s
def execAdapterLoad (e : Entry) (s : State) : Outcome State Fault Refusal := act (W.fetch 0x32 e) s
def execAdapterUnload (e : Entry) (s : State) : Outcome State Fault Refusal := act (W.fetch 0x33 e) s
def execIndexCreate (e : Entry) (s : State) : Outcome State Fault Refusal := act (W.fetch 0x40 e) s
def execIndexUpdate (e : Entry) (s : State) : Outcome State Fault Refusal := act (W.fetch 0x41 e) s
def execIndexConsolidate (e : Entry) (s : State) : Outcome State Fault Refusal := act (W.fetch 0x42 e) s
def execIndexGeneration (e : Entry) (s : State) : Outcome State Fault Refusal := act (W.fetch 0x43 e) s
def execIndexDelete (e : Entry) (s : State) : Outcome State Fault Refusal := act (W.fetch 0x44 e) s
def execEmbCreate (e : Entry) (s : State) : Outcome State Fault Refusal := act (W.fetch 0x48 e) s
def execEmbVersion (e : Entry) (s : State) : Outcome State Fault Refusal := act (W.fetch 0x49 e) s
def execEmbMigrate (e : Entry) (s : State) : Outcome State Fault Refusal := act (W.fetch 0x4A e) s
def execEmbDelete (e : Entry) (s : State) : Outcome State Fault Refusal := act (W.fetch 0x4B e) s
def execHostWrite (e : Entry) (s : State) : Outcome State Fault Refusal := act (W.fetch 0x50 e) s
def execHostRead (e : Entry) (s : State) : Outcome State Fault Refusal := act (W.fetch 0x51 e) s
def execPeerCopy (e : Entry) (s : State) : Outcome State Fault Refusal := act (W.fetch 0x52 e) s
def execCommonsMigrate (e : Entry) (s : State) : Outcome State Fault Refusal := act (W.fetch 0x53 e) s
def execPageRetire (e : Entry) (s : State) : Outcome State Fault Refusal := act (W.fetch 0x54 e) s
def execGroomRequest (e : Entry) (s : State) : Outcome State Fault Refusal := act (W.fetch 0x60 e) s
def execEnergySet (e : Entry) (s : State) : Outcome State Fault Refusal := act (W.fetch 0x61 e) s
def execFwHandover (e : Entry) (s : State) : Outcome State Fault Refusal := act (W.fetch 0x62 e) s
def execAttest (e : Entry) (s : State) : Outcome State Fault Refusal := act (W.fetch 0x63 e) s

/-! ### The host's index writes -/

def execSubTail (r : Fin 64) (v : Byte) (s : State) : Outcome State Fault Refusal := act (W.subTail r.val v.toNat) s
def execCplHead (r : Fin 64) (v : Byte) (s : State) : Outcome State Fault Refusal := act (W.cplHead r.val v.toNat) s
def execStrHead (r : Fin 64) (v : Byte) (s : State) : Outcome State Fault Refusal := act (W.strHead r.val v.toNat) s
def execEvtHead (v : BitVec 10) (s : State) : Outcome State Fault Refusal := act (W.evtHead v.toNat) s

/-! ### Storage queues -/

def execStorageRead (q : Fin 8) (c : StorageEntry) (s : State) : Outcome State Fault Refusal := act (W.storageFetch q.val 1 c) s

def execStorageWrite (q : Fin 8) (c : StorageEntry) (s : State) : Outcome State Fault Refusal := act (W.storageFetch q.val 2 c) s

def execStorageDiscard (q : Fin 8) (c : StorageEntry) (s : State) : Outcome State Fault Refusal := act (W.storageFetch q.val 3 c) s

def execStorageCompletion (q : Fin 8) (tag : Fin 32) (s : State) : Outcome State Fault Refusal :=
  act (fun w => w.when w.dev.nandOn (W.storageEnd q.val tag.val)) s

/-- Writes of SUB_TAIL are ignored during a reset of the queue, and those of COMP_HEAD as `Queue.moveHead` says (R384). -/
def execShedSubTail (q : Fin 8) (v : BitVec 6) (s : State) : Outcome State Fault Refusal :=
  act (fun w => w.when (w.dev.hostReach && w.dev.storageServed && !(w.dev.queue q.val).resetting) (W.queue q.val fun g => { g with subTail := v.toNat })) s

def execCompHead (q : Fin 8) (v : BitVec 6) (s : State) : Outcome State Fault Refusal :=
  act (fun w => w.when (w.dev.hostReach && w.dev.storageServed) fun w =>
    (w.queue q.val (Queue.moveHead v.toNat)).flushQueue q.val (w.dev.queue q.val).held.length) s

def execShedQueueReset (q : Fin 8) (s : State) : Outcome State Fault Refusal :=
  act (fun w => w.when (w.dev.hostReach && w.dev.storageServed) (W.queueReset q.val)) s

def execQueueResetEnd (q : Fin 8) (s : State) : Outcome State Fault Refusal := act (W.queueResetOver q.val) s

end Sys2Proof.Machine
end

