-- ==== Sys2Proof/Machine/LinkRows.lean ====
section
/-! DEFINITION. The rows of the Halter link, the Drove ports and lock-step (R80, R81, R402, R403, R412 to R417). -/

namespace Sys2Proof.Machine

open Host

def execHalterDataFlit (f : HalterFlit) (s : State) : Outcome State Fault Refusal := actWind (W.working (W.halterData f)) s
def execHalterControlFlit (f : HalterFlit) (s : State) : Outcome State Fault Refusal := act (W.working (W.halterControl f)) s
def execHalterReplayTimeout (s : State) : Outcome State Fault Refusal := act (W.working W.halterTimeout) s
def execHalterLinkLost (lanes : BitVec 16) (s : State) : Outcome State Fault Refusal := act (W.working (W.halterLost lanes.toNat)) s
def execHalterLinkUp (lanes : BitVec 16) (s : State) : Outcome State Fault Refusal := actWind (W.working (W.halterUp lanes.toNat)) s
def execDroveTrain (port : Fin 12) (h : DroveHead) (data : List Bytes) (s : State) : Outcome State Fault Refusal :=
  act (W.working (W.droveTrain port.val h data)) s
def execDroveControl (port : Fin 12) (h : DroveHead) (s : State) : Outcome State Fault Refusal := act (W.working (W.droveControl port.val h)) s
def execDroveReplayTimeout (port : Fin 12) (s : State) : Outcome State Fault Refusal := act (W.working (W.droveTimeout port.val)) s
def execDroveLinkLost (port : Fin 12) (lanes : Byte) (s : State) : Outcome State Fault Refusal := actWind (W.working (W.droveLost port.val lanes.toNat)) s

/-! ### Lock-step -/

def execLockstepDigestReady (p : Fin 64) (s : State) : Outcome State Fault Refusal :=
  actWind (W.working (W.lockReady p.val)) s

def execLockstepDigestReceived (port : Fin 12) (h : DroveHead) (data : List Bytes) (s : State) : Outcome State Fault Refusal :=
  actWind (W.working (W.droveDigest port.val h data)) s

def execLockstepTimeout (p : Fin 64) (s : State) : Outcome State Fault Refusal :=
  match ((s.dev.pad? p.val).bind (·.lockstep)).bind fun l => l.own.head? with
  | none => idle s
  | some own => actWindAt (own.2.2.1 + lockWait) (W.working (W.lockTimeout p.val own)) s

end Sys2Proof.Machine
end

