-- ==== Sys2Proof/Machine/ModuleRows.lean ====
section
/-! DEFINITION. The rows of temperature, power and energy, of the shed's and the tiers' own work, of the groom and the handover, and of the sideband connector
(R334 to R339, R363 to R378, R459 to R482, R496 to R506, R541 to R551). -/

namespace Sys2Proof.Machine

open Host

/-! ### Temperature, power and energy -/

def execStackTempReading (stack : Fin 8) (celsius : Byte) (s : State) : Outcome State Fault Refusal :=
  act (W.working (W.temperature stack.val celsius.toNat)) s

def execStackTrip (stack : Fin 8) (celsius : Byte) (s : State) : Outcome State Fault Refusal :=
  act (W.working (W.tripStack stack.val celsius.toNat)) s

/-- The gatehouse measures whenever 56 V is present (R450, R471). -/
def execRailSample (r : RailSample) (s : State) : Outcome State Fault Refusal :=
  act (fun w => w.when (w.dev.boot.phase ≠ .noPower) (W.sample r)) s

/-- At stage 0 bring-up only waits for REF_CLK; later the herd count is invalid until the next start (R461). -/
def execRefClkFault (s : State) : Outcome State Fault Refusal :=
  act (fun w => w.when (!(w.dev.boot.phase = .bringUp && w.dev.boot.stagesDone = 0)) fun w =>
    (w.boot fun b => { b with herdInvalid := true }).detect caRail uHub 1 127 0 []) s

def execEnergyWindowEnd (h : Nat) (s : State) : Outcome State Fault Refusal :=
  actAt h (fun w => w.when (w.dev.boot.phase.collects && h = w.dev.power.windowEnd) (W.power (Power.nextWindow h))) s

/-- A slice of the tenant ends at herd count `h`, a multiple of its length: the oldest of the 16 leaves. -/
def execBudgetSliceEnd (h : Nat) (tenant : Byte) (s : State) : Outcome State Fault Refusal :=
  actAt h (fun w => w.when (w.dev.boot.phase.collects && h % (w.dev.tenant tenant.toNat).sliceTicks = 0)
    (W.tenant tenant.toNat fun t => { t with slices := (0 :: t.slices).take 16 })) s

def execDomainWake (n : Fin 96) (s : State) : Outcome State Fault Refusal :=
  act (fun w => w.when w.dev.boot.phase.sleeps (W.wake n.val)) s

def execDomainAwake (n : Fin 96) (s : State) : Outcome State Fault Refusal :=
  act (fun w => w.when w.dev.boot.phase.sleeps (W.awake n.val)) s

def execDomainDeepen (n : Fin 96) (s : State) : Outcome State Fault Refusal :=
  act (fun w => w.when w.dev.boot.phase.sleeps (W.deepen n.val)) s

/-! ### The shed, pages and the commons -/

def execMapCheckpoint (s : State) : Outcome State Fault Refusal :=
  act (fun w => w.when w.dev.nandOn (W.shed fun s => { s with checkpoint := s.map })) s

def execGarbageCollection (c : Fin 24) (s : State) : Outcome State Fault Refusal :=
  act (fun w => w.when w.dev.nandOn (W.collect c.val)) s

def execPageProgramComplete (c : Fin 24) (ok : Bool) (s : State) : Outcome State Fault Refusal :=
  act (fun w => w.when (w.dev.nandOn && decide (c.val < w.dev.shedN)) fun w => (w.pageProgram c.val ok).runStorage) s

def execBlockEraseComplete (c : Fin 24) (block : Nat) (ok : Bool) (s : State) : Outcome State Fault Refusal :=
  act (fun w => w.when (w.dev.nandOn && decide (c.val < w.dev.shedN)) fun w => (w.erased c.val block ok).runStorage) s

def execPageFillDone (page : Nat) (lost : List Nat) (s : State) : Outcome State Fault Refusal :=
  actWind (W.working (W.pageFilled page lost)) s

def execCommonsCopyDone (page : Nat) (s : State) : Outcome State Fault Refusal :=
  actWind (W.working (W.commonsCopied page)) s

def execMigPeriod (h : Nat) (s : State) : Outcome State Fault Refusal :=
  actWindAt h (fun w => w.when (w.dev.boot.phase.collects && w.dev.tiers.commonsAuto && h % w.dev.migTicks = 0) W.migrateAuto) s

/-! ### Groom and handover -/

def execGroomServiceEnd (n : Nat) (ok : Bool) (failed : List Nat) (s : State) : Outcome State Fault Refusal := actWind (W.working (W.groomEnd n ok failed)) s
def execHandoverCoreReturn (core : Fin 16) (ok : Bool) (s : State) : Outcome State Fault Refusal := actWind (W.working (W.coreReturn core.val ok)) s
def execTackRewriteDone (ok : Bool) (s : State) : Outcome State Fault Refusal := actWind (W.working (W.rewriteDone ok)) s

/-! ### SYNC -/

/-- A message whose marker falls at herd count `h` of the module's own count. At stage 0 it loads the count instead (R546). -/
def execSyncMessage (count : DWord) (check : Byte) (stop : Bool) (h : Nat) (s : State) : Outcome State Fault Refusal :=
  let c := count.toNat
  if !s.dev.boot.phase.collects || !syncForm c stop then idle s
  else if !syncGood c check.toNat then act (W.sync Sync.bad) s
  else if s.dev.syncWaits then act (W.sync (Sync.lock c)) { s with clock := { herd := c } }
  else actAt h (W.sync (Sync.compare c h)) s

/-- No valid message within 50 ms at stage 0: the count starts at 0. -/
def execSyncWaitTimeout (s : State) : Outcome State Fault Refusal :=
  if s.dev.syncWaits then act (W.sync fun y => { y with solo := true }) { s with clock := { herd := 0 } } else idle s

/-- 200 ms without a valid message. -/
def execSyncStale (s : State) : Outcome State Fault Refusal :=
  if s.dev.boot.phase.collects && s.dev.sync.locked then actAt (s.dev.sync.lastValid + syncStaleTicks) (W.sync fun y => { y with stale := true }) s
  else idle s

def execSyncOutSend (h : Nat) (s : State) : Outcome State Fault Refusal :=
  actAt h (fun w => w.when (w.dev.sends && decide (h % 2 ^ 22 = 0)) (W.sync fun y => { y with out := some (syncSamples h) })) s

/-! ### Power sequencing and bring-up -/

def execInputPowerApplied (s : State) : Outcome State Fault Refusal := act W.inputOn s
def execPwrEnRise (s : State) : Outcome State Fault Refusal := act W.pwrEnRise s
def execOrderlyPowerDown (s : State) : Outcome State Fault Refusal := act W.pwrEnFall s
def execHeldEntry (s : State) : Outcome State Fault Refusal := act W.drainOver s
def execResetNLow (s : State) : Outcome State Fault Refusal := act W.resetLow s
def execResetNRise (s : State) : Outcome State Fault Refusal := act W.resetRise s
def execStageComplete (f : StageFindings) (s : State) : Outcome State Fault Refusal := act (W.stage f) s
def execHalterTrainRetry (lanes : BitVec 16) (s : State) : Outcome State Fault Refusal := act (W.trainRetry lanes.toNat) s
def execInputPowerLost (s : State) : Outcome State Fault Refusal := act W.inputOff s

/-! ### Management bus -/

def execStatusWord (s : State) : Outcome State Fault Refusal := act (fun w => w.busAnswer (leBytes 2 w.dev.power.statusWord)) s
def execReadVin (s : State) : Outcome State Fault Refusal := act (fun w => w.busAnswer (leBytes 2 (linear11 w.dev.power.vinMV 1000))) s
def execReadIin (s : State) : Outcome State Fault Refusal :=
  act (fun w => w.busAnswer (leBytes 2 (linear11 w.dev.power.inputMW (max 1 w.dev.power.vinMV)))) s
def execReadTemperature1 (s : State) : Outcome State Fault Refusal := act (fun w => w.busAnswer (leBytes 2 (linear11 w.dev.hottest 1))) s
def execReadPin (s : State) : Outcome State Fault Refusal := act (fun w => w.busAnswer (leBytes 2 (linear11 w.dev.power.inputMW 1000))) s
def execPmbusRevision (s : State) : Outcome State Fault Refusal := act (W.busAnswer (leBytes 1 0x33)) s
def execMfrEnergyBlock (s : State) : Outcome State Fault Refusal := act (fun w => w.busAnswer (w.dev.energyBlock w.herd)) s

/-- Every write is refused with a NACK (R479). -/
def execPmbusWrite (_code : Byte) (_data : Bytes) (s : State) : Outcome State Fault Refusal := act W.busRefuse s
def execAlertResponse (s : State) : Outcome State Fault Refusal := act W.alertResponse s

/-- The target releases the bus and resets its interface (R550). -/
def execSmbusBusTimeout (s : State) : Outcome State Fault Refusal := act (W.mgmt fun m => { m with answer := [], nack := false }) s

/-! ### TAP -/

def execBypass (s : State) : Outcome State Fault Refusal := act (W.tapLoad .bypass) s
def execIdcode (s : State) : Outcome State Fault Refusal := act (W.tapLoad .idcode) s
def execSamplePreload (preload : Option (BitVec 32)) (s : State) : Outcome State Fault Refusal := act (fun w => (w.tapLoad .samplePreload).tapPreload preload) s
def execExtest (s : State) : Outcome State Fault Refusal := act (W.tapLoad .extest) s
def execClamp (s : State) : Outcome State Fault Refusal := act (W.tapLoad .clamp) s
def execHighz (s : State) : Outcome State Fault Refusal := act (W.tapLoad .highz) s
def execTapReset (s : State) : Outcome State Fault Refusal := act W.tapReset s

end Sys2Proof.Machine
end

