-- ==== Sys2Proof/Machine/PlanRows.lean ====
section
/-! DEFINITION. The plan-word rows (R51): each issues the word of its class that is due. -/

namespace Sys2Proof.Machine

open Host

def execPlanNop (p : Fin 64) (w j : Nat) (s : State) : Outcome State Fault Refusal := runWord cNOP anyWord doNothing p.val w j s
def execPass (p : Fin 64) (w j : Nat) (s : State) : Outcome State Fault Refusal := runWord cPASS anyWord doPass p.val w j s
def execVec (p : Fin 64) (w j : Nat) (s : State) : Outcome State Fault Refusal :=
  runWord cVEC (fun c _ => !c.step.plan.isPack c.word) doVec p.val w j s
def execPack (p : Fin 64) (w j : Nat) (s : State) : Outcome State Fault Refusal :=
  runWord cVEC (fun c _ => c.step.plan.isPack c.word) doPack p.val w j s
def execSelect8 (p : Fin 64) (w j : Nat) (s : State) : Outcome State Fault Refusal := runWord cSELECT8 anyWord doSelect8 p.val w j s
def execSelect (p : Fin 64) (w j : Nat) (s : State) : Outcome State Fault Refusal := runWord cSELECT anyWord doSelect p.val w j s
def execCompact (p : Fin 64) (w j : Nat) (s : State) : Outcome State Fault Refusal := runWord cCOMPACT anyWord doCompact p.val w j s
def execMove (p : Fin 64) (w j : Nat) (s : State) : Outcome State Fault Refusal := runWord cMOVE anyWord doMove p.val w j s
def execBayTable (p : Fin 64) (w j : Nat) (s : State) : Outcome State Fault Refusal := runWord cBAYTABLE anyWord doBayTable p.val w j s
def execBayHamming (p : Fin 64) (w j : Nat) (s : State) : Outcome State Fault Refusal := runWord cBAYHAMMING anyWord doBayHamming p.val w j s
def execBayFetch (p : Fin 64) (w j : Nat) (s : State) : Outcome State Fault Refusal := runWord cBAYFETCH anyWord doBayFetch p.val w j s
def execBayHop (p : Fin 64) (w j : Nat) (s : State) : Outcome State Fault Refusal := runWord cBAYHOP anyWord doBayHop p.val w j s
def execBayQueueOut (p : Fin 64) (w j : Nat) (s : State) : Outcome State Fault Refusal := runWord cBAYQUEUEOUT anyWord doBayQueueOut p.val w j s
def execLookup (p : Fin 64) (w j : Nat) (s : State) : Outcome State Fault Refusal :=
  runWord cBAYGATHER (fun c w => !c.isUpdate w) doGather p.val w j s
def execUpdate (p : Fin 64) (w j : Nat) (s : State) : Outcome State Fault Refusal :=
  runWord cBAYGATHER (fun c w => c.isUpdate w) doGather p.val w j s
def execBayDecode (p : Fin 64) (w j : Nat) (s : State) : Outcome State Fault Refusal := runWord cBAYDECODE anyWord doBayDecode p.val w j s
def execMerge (p : Fin 64) (w j : Nat) (s : State) : Outcome State Fault Refusal := runWord cMERGE anyWord doMerge p.val w j s
def execTokenize (p : Fin 64) (w j : Nat) (s : State) : Outcome State Fault Refusal := runWord cTOKENIZE anyWord doTokenize p.val w j s
def execDetokenize (p : Fin 64) (w j : Nat) (s : State) : Outcome State Fault Refusal := runWord cDETOKENIZE anyWord doDetokenize p.val w j s
def execMask (p : Fin 64) (w j : Nat) (s : State) : Outcome State Fault Refusal := runWord cMASK anyWord doMask p.val w j s
def execShedRead (p : Fin 64) (w j : Nat) (s : State) : Outcome State Fault Refusal := runWord cSHEDREAD anyWord doShedRead p.val w j s
def execBarnRead (p : Fin 64) (w j : Nat) (s : State) : Outcome State Fault Refusal := runWord cBARNREAD anyWord doBarnRead p.val w j s
def execBarnWrite (p : Fin 64) (w j : Nat) (s : State) : Outcome State Fault Refusal := runWord cBARNWRITE anyWord doBarnWrite p.val w j s
def execDroveSend (p : Fin 64) (w j : Nat) (s : State) : Outcome State Fault Refusal := runWord cDROVESEND anyWord doDroveSend p.val w j s
def execDroveRecv (p : Fin 64) (w j : Nat) (s : State) : Outcome State Fault Refusal := runWord cDROVERECV anyWord doDroveRecv p.val w j s
def execHostOut (p : Fin 64) (w j : Nat) (s : State) : Outcome State Fault Refusal := runWord cHOSTOUT anyWord doHostOut p.val w j s
def execRandom (p : Fin 64) (w j : Nat) (s : State) : Outcome State Fault Refusal := runWord cRANDOM anyWord doRandom p.val w j s
def execRepeatWord (p : Fin 64) (w j : Nat) (s : State) : Outcome State Fault Refusal := runWord cREPEAT anyWord doNothing p.val w j s

end Sys2Proof.Machine
end

