-- ==== Sys2Proof/Machine/RegRows.lean ====
section
/-! DEFINITION. The register rows (R437, R449, R455, R458, R470, R496, R507 to R526): each is a write or a read by a master that reaches the registers. -/

namespace Sys2Proof.Machine

open Host

/-- A write of 1 to SWAP of the control register of a table, or of the link maps (R158). -/
def execSwap (m : Master) (t : SwapTarget) (s : State) : Outcome State Fault Refusal :=
  actWind (W.byMaster m (W.writeKey m (swapKey t % 2 ^ 24) (swapKey t) 1)) s

/-- Writes of CFG_CTL: OPEN, COMMIT, and 0 to OPEN (R525). -/
def execCfgOpen (m : Master) (s : State) : Outcome State Fault Refusal := actWind (W.byMaster m (W.writeDirect m bCfg 1)) s
def execCfgCommit (m : Master) (s : State) : Outcome State Fault Refusal := actWind (W.byMaster m (W.writeDirect m bCfg 2)) s
def execCfgAbandon (m : Master) (s : State) : Outcome State Fault Refusal := actWind (W.byMaster m (W.writeDirect m bCfg 0)) s
def execCfgRefWrite (m : Master) (v : Word) (s : State) : Outcome State Fault Refusal :=
  actWind (W.byMaster m (W.writeDirect m (bCfg + 4) v.toNat)) s

def execCfgWindowTimeout (h : Nat) (s : State) : Outcome State Fault Refusal := actWindAt h (W.working (W.windowTimeout h)) s

/-- A write of word 0 of a record slot (R455). -/
def execFaultClear (m : Master) (slot : Fin 32) (s : State) : Outcome State Fault Refusal :=
  act (W.byMaster m (W.writeDirect m (bFault + 0x100 + slot.val * 0x40) 0)) s

/-- A write of FLT_INJECT (R458). -/
def execFaultInject (m : Master) (cls : BitVec 3) (s : State) : Outcome State Fault Refusal :=
  act (W.byMaster m (W.writeDirect m (bFault + 0x0C) cls.toNat)) s

/-- A host's write of GO to MUSTER_CTL (R437). -/
def execMusterCtlGo (s : State) : Outcome State Fault Refusal := act (W.byMaster .plain (W.writeDirect .plain (bBoot + 0x18) 1)) s

/-- A write of GO to RCV_CTL, with INSTALL or without (R496). -/
def execRcvCtlGo (m : Master) (install : Bool) (s : State) : Outcome State Fault Refusal :=
  act (W.byMaster m (W.writeDirect m (bBoot + 0x0C) (if install then 5 else 1))) s

/-- Writes of PWR_CTL (R470). -/
def execStandbyEnter (m : Master) (s : State) : Outcome State Fault Refusal := act (W.byMaster m (W.writeKey m (bIdx + 4) (indKey 0 0x2_0004) 1)) s
def execStandbyExit (m : Master) (s : State) : Outcome State Fault Refusal := actWind (W.byMaster m (W.writeKey m (bIdx + 4) (indKey 0 0x2_0004) 2)) s

/-- A read or a write of IDX_DATA[t][k] (R516). -/
def execIndirectAccess (m : Master) (t : Fin 11) (k : Fin 4) (v : Option Word) (s : State) : Outcome State Fault Refusal :=
  actWind (W.byMaster m (match v with
    | none => W.readPair m t.val k.val
    | some x => W.writePair m t.val k.val x.toNat)) s

/-- A read of a register (R508, R515). -/
def execLoReadCapture (m : Master) (addr : BitVec 24) (s : State) : Outcome State Fault Refusal := act (W.byMaster m (W.readDirect m addr.toNat)) s

/-- A write of a register (R508). -/
def execRegisterWrite (m : Master) (addr : BitVec 24) (v : Word) (s : State) : Outcome State Fault Refusal :=
  actWind (W.byMaster m (W.writeDirect m addr.toNat v.toNat)) s

end Sys2Proof.Machine
end

