-- ==== Sys2Proof/Machine/StepRows.lean ====
section
/-! DEFINITION. The rows of launch points, epochs, running steps, faults and re-formation (R43, R61 to R66, R79, R178, R323, R443 to R457, R486, R522, R523). -/

namespace Sys2Proof.Machine

open Host

/-- The step of paddock `p`, while the module is at work. -/
def Dev.liveStep? (d : Dev) (p : Nat) : Option Step := if d.boot.phase.collects then d.step? p else none

/-- Launch points are the multiples of 2,048 herd ticks (R43); one that has gone by does not come again. -/
def execLaunchPoint (h : Nat) (s : State) : Outcome State Fault Refusal :=
  if isLaunchPoint h && decide (s.clock.herd ≤ h) then actWindAt h (W.working (W.launchPoint h)) s else idle s

def execEpochBoundary (h : Nat) (index : DWord) (s : State) : Outcome State Fault Refusal :=
  actWindAt h (W.working (W.epochBoundary h index.toNat)) s

def execCodebookCopyDone (index : DWord) (s : State) : Outcome State Fault Refusal :=
  actWind (W.working (W.codebookDone index.toNat)) s

def execRemapDue (h : Nat) (handle : Fin 64) (s : State) : Outcome State Fault Refusal :=
  actAt h (W.working (W.remapTick h handle.val)) s

def execEmbCopyDone (handle : Fin 64) (row : Word) (s : State) : Outcome State Fault Refusal :=
  actWind (W.working (W.embCopied handle.val row.toNat)) s

def execStepBoundary (p : Fin 64) (s : State) : Outcome State Fault Refusal :=
  match s.dev.liveStep? p.val with
  | none => idle s
  | some x => if x.comesTo x.plan.length then actWindAt (x.herdAt x.plan.length) (W.boundary p.val) s else idle s

def execHoldPoint (p : Fin 64) (s : State) : Outcome State Fault Refusal :=
  match s.dev.liveStep? p.val with
  | none => idle s
  | some x => match x.nextHold with
    | none => idle s
    | some c => if x.held.isNone && x.upTo c then actWindAt (x.herdAt c) (W.holdPoint p.val c) s else idle s

def execHoldEnd (p : Fin 64) (s : State) : Outcome State Fault Refusal :=
  match s.dev.liveStep? p.val with
  | none => idle s
  | some x =>
    if x.mayResume s.dev.power.thrLevel then
      let n := x.frames s.clock.herd
      actAt (x.launch + ticksOfCycles (x.cycle + 256 * (x.holdFrames + n))) (W.step p.val fun y => { y with held := none, holdFrames := y.holdFrames + n }) s
    else idle s

def execDeadlineExpiry (p : Fin 64) (s : State) : Outcome State Fault Refusal :=
  match s.dev.liveStep? p.val with
  | none => idle s
  | some x => match x.nextDeadline with
    | some c => if x.comesTo c then actAt (x.herdAt c) (fun w => (w.comeTo p.val c).settleReads p.val) s else idle s
    | none => idle s

def execDeadlineReadArrival (p : Fin 64) (granule : Nat) (check : BitVec 16) (s : State) : Outcome State Fault Refusal :=
  act (W.working (W.arrive p.val granule check.toNat)) s

def execScrubEnd (p : Fin 64) (s : State) : Outcome State Fault Refusal :=
  actWind (W.working (W.scrubEnd p.val)) s

def execReformationEnd (p : Fin 64) (s : State) : Outcome State Fault Refusal :=
  actWind (fun w => w.when w.dev.boot.phase.collects fun w =>
    let was := match w.dev.pad? p.val with | some q => q.reform.isSome | none => false
    let w := w.reformEnd p.val
    if was then w.beginTeardown p.val else w) s

/-! ### Faults -/

/-- The paddock whose step runs on the stall or stable that a detection names. -/
def Dev.holders (d : Dev) (ukind uindex : Nat) : List Nat :=
  let stable := if ukind = uStall then some (uindex / 108) else if ukind = uStable then some uindex else none
  match stable.bind d.logicalOf with
  | some ls => (d.pads.filter fun (x : Nat × Paddock) => x.2.stables.contains ls).map (·.1)
  | none => []

/-- The detection as the collector receives it: the fence covers the running paddocks among the holders and the users. The users of a drover core
are the paddocks whose step it launched and those whose requests it tracks, running or not (R448). -/
def Dev.detected (d : Dev) (x : Detection) (cls : Nat) : Detect :=
  let all := sortNat (d.holders x.ukind.toNat x.uindex.toNat ++ x.users.map (·.val))
  let pads := all.filter fun p => if x.ukind.toNat = uCore then (d.pad? p).isSome else d.runningPads.contains p
  { cause := x.cause.toNat, cls := cls, ukind := x.ukind.toNat, uindex := x.uindex.toNat, detail := x.detail.toNat, arg := x.arg.toNat
    pads := pads, delay := x.delay }

/-- A mismatched granule of a stack, barn or shed page. -/
def Detect.ofPage (d : Detect) : Bool := (d.cause = caGranuleCheck || d.cause = caUncorrectable) && (d.ukind = uPc || d.ukind = uBarn || d.ukind = uShed)

/-- A mismatch at a page: from the second at the page since the start its kind is RETIRE_ADVISED, and an uncorrectable report has the
effects that the tables with rows there (R325) and the shed's medium (R368) give it. -/
def W.pageDetection (d : Detect) (w : W) : W :=
  let key := unitKey d.ukind d.detail
  let again := w.dev.faults.badPages.contains key
  let w := w.faults fun f => { f with badPages := insertNat key f.badPages }
  let w := w.raise { d with cause := if d.cause = caGranuleCheck && again then caRetireAdvised else d.cause }
  if d.cause ≠ caUncorrectable then w
  else if d.ukind = uPc then w.embPage (stackKey d.detail)
  else if d.ukind = uShed then w.shedUncorrectable (d.detail / 4096) ((List.range 64).map fun i => memKey spShed 0 (d.detail / 4096 * 4096 + 64 * i))
  else w

/-- A detection. A reserved cause code detects nothing, and INJECTED comes from FLT_INJECT alone. -/
def W.detection (x : Detection) (w : W) : W :=
  match causeClass x.cause.toNat with
  | some cls =>
    let d := w.dev.detected x cls
    if d.ofPage then w.pageDetection d else w.raise d
  | none => w

def execFaultDetection (d : Detection) (s : State) : Outcome State Fault Refusal := actWind (W.working (W.detection d)) s

/-- The device's part of the record under recovery has ended (R453). -/
def execRecoveryEnd (s : State) : Outcome State Fault Refusal := actWind (W.working (W.finishRecoveries 17)) s

/-- The copy is made in the safe state and during an orderly power-down (R457). -/
def execFaultLogCopy (s : State) : Outcome State Fault Refusal :=
  act (fun w => w.when (w.dev.boot.phase = .safe || w.dev.boot.phase = .poweringDown) W.copyLog) s

def execDefectListAppend (s : State) : Outcome State Fault Refusal := act (W.working W.appendDefect) s

/-! ### Sweeps (R522, R523) -/

/-- Sweeps start at multiples of 400,000 ticks, which is 1 ms. -/
def execCfgSweepStart (h : Nat) (s : State) : Outcome State Fault Refusal :=
  actAt h (fun w => w.when (w.dev.boot.phase.collects && decide (h % 400_000 = 0)) (W.sweepStart h)) s

def execCfgSweepEnd (s : State) : Outcome State Fault Refusal := actWind (W.working W.sweepEnd) s

end Sys2Proof.Machine
end

