-- ==== Sys2Proof/Machine/Dispatch.lean ====
section
/-! DEFINITION. Which meaning each command has: one arm per row of the opcode table. -/

namespace Sys2Proof.Machine

open Host

def exec (i : Instr) (s : State) : Host.Outcome State Fault Refusal :=
  match i with
  | .nop e => Sys2Proof.Machine.execNop e s
  | .muster e => Sys2Proof.Machine.execMuster e s
  | .planLoad e => Sys2Proof.Machine.execPlanLoad e s
  | .planUnload e => Sys2Proof.Machine.execPlanUnload e s
  | .batch e => Sys2Proof.Machine.execBatch e s
  | .cancel e => Sys2Proof.Machine.execCancel e s
  | .admitRequest e => Sys2Proof.Machine.execAdmitRequest e s
  | .input e => Sys2Proof.Machine.execInput e s
  | .pause e => Sys2Proof.Machine.execPause e s
  | .resume e => Sys2Proof.Machine.execResume e s
  | .paddockForm e => Sys2Proof.Machine.execPaddockForm e s
  | .paddockTeardown e => Sys2Proof.Machine.execPaddockTeardown e s
  | .serveSet e => Sys2Proof.Machine.execServeSet e s
  | .tenantSet e => Sys2Proof.Machine.execTenantSet e s
  | .lockstepPair e => Sys2Proof.Machine.execLockstepPair e s
  | .tokenizerLoad e => Sys2Proof.Machine.execTokenizerLoad e s
  | .grammarLoad e => Sys2Proof.Machine.execGrammarLoad e s
  | .adapterLoad e => Sys2Proof.Machine.execAdapterLoad e s
  | .adapterUnload e => Sys2Proof.Machine.execAdapterUnload e s
  | .indexCreate e => Sys2Proof.Machine.execIndexCreate e s
  | .indexUpdate e => Sys2Proof.Machine.execIndexUpdate e s
  | .indexConsolidate e => Sys2Proof.Machine.execIndexConsolidate e s
  | .indexGeneration e => Sys2Proof.Machine.execIndexGeneration e s
  | .indexDelete e => Sys2Proof.Machine.execIndexDelete e s
  | .embCreate e => Sys2Proof.Machine.execEmbCreate e s
  | .embVersion e => Sys2Proof.Machine.execEmbVersion e s
  | .embMigrate e => Sys2Proof.Machine.execEmbMigrate e s
  | .embDelete e => Sys2Proof.Machine.execEmbDelete e s
  | .hostWrite e => Sys2Proof.Machine.execHostWrite e s
  | .hostRead e => Sys2Proof.Machine.execHostRead e s
  | .peerCopy e => Sys2Proof.Machine.execPeerCopy e s
  | .commonsMigrate e => Sys2Proof.Machine.execCommonsMigrate e s
  | .pageRetire e => Sys2Proof.Machine.execPageRetire e s
  | .groomRequest e => Sys2Proof.Machine.execGroomRequest e s
  | .energySet e => Sys2Proof.Machine.execEnergySet e s
  | .fwHandover e => Sys2Proof.Machine.execFwHandover e s
  | .attest e => Sys2Proof.Machine.execAttest e s
  | .storageRead q c => Sys2Proof.Machine.execStorageRead q c s
  | .storageWrite q c => Sys2Proof.Machine.execStorageWrite q c s
  | .storageDiscard q c => Sys2Proof.Machine.execStorageDiscard q c s
  | .storageCompletion q tag => Sys2Proof.Machine.execStorageCompletion q tag s
  | .subTail r v => Sys2Proof.Machine.execSubTail r v s
  | .cplHead r v => Sys2Proof.Machine.execCplHead r v s
  | .strHead r v => Sys2Proof.Machine.execStrHead r v s
  | .evtHead v => Sys2Proof.Machine.execEvtHead v s
  | .shedSubTail q v => Sys2Proof.Machine.execShedSubTail q v s
  | .compHead q v => Sys2Proof.Machine.execCompHead q v s
  | .shedQueueReset q => Sys2Proof.Machine.execShedQueueReset q s
  | .queueResetEnd q => Sys2Proof.Machine.execQueueResetEnd q s
  | .swap m t => Sys2Proof.Machine.execSwap m t s
  | .cfgOpen m => Sys2Proof.Machine.execCfgOpen m s
  | .cfgCommit m => Sys2Proof.Machine.execCfgCommit m s
  | .cfgAbandon m => Sys2Proof.Machine.execCfgAbandon m s
  | .cfgRefWrite m v => Sys2Proof.Machine.execCfgRefWrite m v s
  | .cfgWindowTimeout h => Sys2Proof.Machine.execCfgWindowTimeout h s
  | .faultClear m slot => Sys2Proof.Machine.execFaultClear m slot s
  | .faultInject m cls => Sys2Proof.Machine.execFaultInject m cls s
  | .musterCtlGo => Sys2Proof.Machine.execMusterCtlGo s
  | .rcvCtlGo m install => Sys2Proof.Machine.execRcvCtlGo m install s
  | .standbyEnter m => Sys2Proof.Machine.execStandbyEnter m s
  | .standbyExit m => Sys2Proof.Machine.execStandbyExit m s
  | .indirectAccess m t k v => Sys2Proof.Machine.execIndirectAccess m t k v s
  | .loReadCapture m addr => Sys2Proof.Machine.execLoReadCapture m addr s
  | .registerWrite m addr v => Sys2Proof.Machine.execRegisterWrite m addr v s
  | .halterDataFlit f => Sys2Proof.Machine.execHalterDataFlit f s
  | .halterControlFlit f => Sys2Proof.Machine.execHalterControlFlit f s
  | .halterReplayTimeout => Sys2Proof.Machine.execHalterReplayTimeout s
  | .halterLinkLost lanes => Sys2Proof.Machine.execHalterLinkLost lanes s
  | .halterLinkUp lanes => Sys2Proof.Machine.execHalterLinkUp lanes s
  | .droveTrain port h data => Sys2Proof.Machine.execDroveTrain port h data s
  | .droveControl port h => Sys2Proof.Machine.execDroveControl port h s
  | .droveReplayTimeout port => Sys2Proof.Machine.execDroveReplayTimeout port s
  | .droveLinkLost port lanes => Sys2Proof.Machine.execDroveLinkLost port lanes s
  | .lockstepDigestReady p => Sys2Proof.Machine.execLockstepDigestReady p s
  | .lockstepDigestReceived port h data => Sys2Proof.Machine.execLockstepDigestReceived port h data s
  | .lockstepTimeout p => Sys2Proof.Machine.execLockstepTimeout p s
  | .launchPoint h => Sys2Proof.Machine.execLaunchPoint h s
  | .epochBoundary h index => Sys2Proof.Machine.execEpochBoundary h index s
  | .remapDue h handle => Sys2Proof.Machine.execRemapDue h handle s
  | .planNop p w j => Sys2Proof.Machine.execPlanNop p w j s
  | .pass p w j => Sys2Proof.Machine.execPass p w j s
  | .vec p w j => Sys2Proof.Machine.execVec p w j s
  | .pack p w j => Sys2Proof.Machine.execPack p w j s
  | .select8 p w j => Sys2Proof.Machine.execSelect8 p w j s
  | .select p w j => Sys2Proof.Machine.execSelect p w j s
  | .compact p w j => Sys2Proof.Machine.execCompact p w j s
  | .move p w j => Sys2Proof.Machine.execMove p w j s
  | .bayTable p w j => Sys2Proof.Machine.execBayTable p w j s
  | .bayHamming p w j => Sys2Proof.Machine.execBayHamming p w j s
  | .bayFetch p w j => Sys2Proof.Machine.execBayFetch p w j s
  | .bayHop p w j => Sys2Proof.Machine.execBayHop p w j s
  | .bayQueueOut p w j => Sys2Proof.Machine.execBayQueueOut p w j s
  | .lookup p w j => Sys2Proof.Machine.execLookup p w j s
  | .update p w j => Sys2Proof.Machine.execUpdate p w j s
  | .bayDecode p w j => Sys2Proof.Machine.execBayDecode p w j s
  | .merge p w j => Sys2Proof.Machine.execMerge p w j s
  | .tokenize p w j => Sys2Proof.Machine.execTokenize p w j s
  | .detokenize p w j => Sys2Proof.Machine.execDetokenize p w j s
  | .mask p w j => Sys2Proof.Machine.execMask p w j s
  | .shedRead p w j => Sys2Proof.Machine.execShedRead p w j s
  | .barnRead p w j => Sys2Proof.Machine.execBarnRead p w j s
  | .barnWrite p w j => Sys2Proof.Machine.execBarnWrite p w j s
  | .droveSend p w j => Sys2Proof.Machine.execDroveSend p w j s
  | .droveRecv p w j => Sys2Proof.Machine.execDroveRecv p w j s
  | .hostOut p w j => Sys2Proof.Machine.execHostOut p w j s
  | .random p w j => Sys2Proof.Machine.execRandom p w j s
  | .repeatWord p w j => Sys2Proof.Machine.execRepeatWord p w j s
  | .stepBoundary p => Sys2Proof.Machine.execStepBoundary p s
  | .holdPoint p => Sys2Proof.Machine.execHoldPoint p s
  | .holdEnd p => Sys2Proof.Machine.execHoldEnd p s
  | .deadlineExpiry p => Sys2Proof.Machine.execDeadlineExpiry p s
  | .deadlineReadArrival p granule check => Sys2Proof.Machine.execDeadlineReadArrival p granule check s
  | .faultDetection d => Sys2Proof.Machine.execFaultDetection d s
  | .recoveryEnd => Sys2Proof.Machine.execRecoveryEnd s
  | .faultLogCopy => Sys2Proof.Machine.execFaultLogCopy s
  | .defectListAppend => Sys2Proof.Machine.execDefectListAppend s
  | .scrubEnd p => Sys2Proof.Machine.execScrubEnd p s
  | .reformationEnd p => Sys2Proof.Machine.execReformationEnd p s
  | .cfgSweepStart h => Sys2Proof.Machine.execCfgSweepStart h s
  | .cfgSweepEnd => Sys2Proof.Machine.execCfgSweepEnd s
  | .stackTempReading stack celsius => Sys2Proof.Machine.execStackTempReading stack celsius s
  | .stackTrip stack celsius => Sys2Proof.Machine.execStackTrip stack celsius s
  | .railSample r => Sys2Proof.Machine.execRailSample r s
  | .refClkFault => Sys2Proof.Machine.execRefClkFault s
  | .energyWindowEnd h => Sys2Proof.Machine.execEnergyWindowEnd h s
  | .budgetSliceEnd h tenant => Sys2Proof.Machine.execBudgetSliceEnd h tenant s
  | .domainWake n => Sys2Proof.Machine.execDomainWake n s
  | .domainAwake n => Sys2Proof.Machine.execDomainAwake n s
  | .domainDeepen n => Sys2Proof.Machine.execDomainDeepen n s
  | .mapCheckpoint => Sys2Proof.Machine.execMapCheckpoint s
  | .garbageCollection c => Sys2Proof.Machine.execGarbageCollection c s
  | .pageProgramComplete c ok => Sys2Proof.Machine.execPageProgramComplete c ok s
  | .blockEraseComplete c block ok => Sys2Proof.Machine.execBlockEraseComplete c block ok s
  | .pageFillDone page lost => Sys2Proof.Machine.execPageFillDone page lost s
  | .commonsCopyDone page => Sys2Proof.Machine.execCommonsCopyDone page s
  | .migPeriod h => Sys2Proof.Machine.execMigPeriod h s
  | .embCopyDone handle row => Sys2Proof.Machine.execEmbCopyDone handle row s
  | .groomServiceEnd n ok failed => Sys2Proof.Machine.execGroomServiceEnd n ok failed s
  | .handoverCoreReturn core ok => Sys2Proof.Machine.execHandoverCoreReturn core ok s
  | .tackRewriteDone ok => Sys2Proof.Machine.execTackRewriteDone ok s
  | .syncMessage count check stop h => Sys2Proof.Machine.execSyncMessage count check stop h s
  | .syncWaitTimeout => Sys2Proof.Machine.execSyncWaitTimeout s
  | .syncStale => Sys2Proof.Machine.execSyncStale s
  | .syncOutSend h => Sys2Proof.Machine.execSyncOutSend h s
  | .inputPowerApplied => Sys2Proof.Machine.execInputPowerApplied s
  | .pwrEnRise => Sys2Proof.Machine.execPwrEnRise s
  | .orderlyPowerDown => Sys2Proof.Machine.execOrderlyPowerDown s
  | .heldEntry => Sys2Proof.Machine.execHeldEntry s
  | .resetNLow => Sys2Proof.Machine.execResetNLow s
  | .resetNRise => Sys2Proof.Machine.execResetNRise s
  | .stageComplete f => Sys2Proof.Machine.execStageComplete f s
  | .halterTrainRetry lanes => Sys2Proof.Machine.execHalterTrainRetry lanes s
  | .statusWord => Sys2Proof.Machine.execStatusWord s
  | .readVin => Sys2Proof.Machine.execReadVin s
  | .readIin => Sys2Proof.Machine.execReadIin s
  | .readTemperature1 => Sys2Proof.Machine.execReadTemperature1 s
  | .readPin => Sys2Proof.Machine.execReadPin s
  | .pmbusRevision => Sys2Proof.Machine.execPmbusRevision s
  | .mfrEnergyBlock => Sys2Proof.Machine.execMfrEnergyBlock s
  | .pmbusWrite code data => Sys2Proof.Machine.execPmbusWrite code data s
  | .alertResponse => Sys2Proof.Machine.execAlertResponse s
  | .bypass => Sys2Proof.Machine.execBypass s
  | .idcode => Sys2Proof.Machine.execIdcode s
  | .samplePreload preload => Sys2Proof.Machine.execSamplePreload preload s
  | .extest => Sys2Proof.Machine.execExtest s
  | .clamp => Sys2Proof.Machine.execClamp s
  | .highz => Sys2Proof.Machine.execHighz s
  | .codebookCopyDone index => Sys2Proof.Machine.execCodebookCopyDone index s
  | .inputPowerLost => Sys2Proof.Machine.execInputPowerLost s
  | .smbusBusTimeout => Sys2Proof.Machine.execSmbusBusTimeout s
  | .tapReset => Sys2Proof.Machine.execTapReset s

end Sys2Proof.Machine
end

