-- ==== Sys2Proof/Machine/Step.lean ====
section
/-! DEFINITION. One step: the command at the front of the queue, or an idle tick of the herd count. -/

namespace Sys2Proof.Machine

open Host

/-- Takes the command at the front of the queue and answers its outcome on the queue's rest. With no command waiting, the herd
count advances by one tick and nothing else happens (log entry 3). -/
def step (s : State) : Outcome State Fault Refusal :=
  match s.pending with
  | [] => .next { s with clock := s.clock.advance (s.clock.herd + 1) }
  | c :: rest => exec c { s with pending := rest }

/-- `s` with the command that the word spells at the front of its queue; `s` where it spells none. -/
def State.withFetchWord (s : State) (nbits w : Nat) : State :=
  match decodeTableWord nbits w with
  | some c => { s with pending := c :: s.pending }
  | none => s

end Sys2Proof.Machine
end

