-- ==== Sys2Proof/Machine/Rescore.lean ====
section
/-! DEFINITION. What the exact re-scoring of a result list gives (R206). No word does it alone: the words of a plan compute it, and the list that they
leave is held against `rescored`. -/

namespace Sys2Proof.Machine

/-- Σ a × b in the order of R103. -/
def dotExact (a b : List Nat) : Nat := vecSum (List.zipWith f32Mul a b)

/-- Exact score of the full vector `x` of NORM `norm` against the query `q`, elements in FP32 (R206). The quotients are those that the vector unit
forms, by RSQRT and RECIP (R102); DEDUCED: log entry 132. -/
def exactScore (metric norm : Nat) (q x : List Nat) : Nat :=
  let s :=
    if metric = 0 then (let t := List.zipWith f32Sub q x; dotExact t t)
    else if metric = 1 then f32Sub 0 (dotExact q x)
    else
      let r := f32Trans 0x0C (dotExact q q)
      f32Sub f32One (f32Mul (dotExact (q.map fun v => f32Mul v r) x) (f32Trans 0x0B norm))
  if bitsOf norm 0 31 = 0 then f32Inf false else s

/-- What re-scoring reads for one entry: the vector's elements, NORM and passage word of the node's scan record, and whether a granule of the vector
was missed under MISS_ZERO. -/
structure FullVector where
  elems : List Nat
  norm : Nat
  passage : Nat
  missed : Bool
deriving DecidableEq, Repr

/-- Entry `e` re-scored: EXACT, MISSED and NAN bits, SCORE and TOKENS (R174, R204, R206). -/
def rescoreEntry (metric : Nat) (q : List Nat) (v : FullVector) (e : MergeEntry) : MergeEntry :=
  let s := exactScore metric v.norm q v.elems
  let nan := !v.missed && f32IsNaN s
  { e with flags := 1 + 2 * b2n v.missed + 4 * b2n nan, score := if v.missed || nan then f32Inf false else s, tokens := fld (leBytes 8 v.passage) 6 2 }

/-- The result list that re-scoring makes of the list `b`: EXACT set, MISSED beside what the list had, the valid entries in (SCORE, ID) order
and every other field of the header as the merge gave it (R206). `read` gives what an entry's id names. -/
def rescored (metric : Nat) (q : List Nat) (read : Nat → FullVector) (b : Bytes) : Bytes :=
  let k := fld b 2 2
  let es := (List.range (min (fld b 4 2) k)).map fun j =>
    let e := slice b (16 + 16 * j) 16
    (rescoreEntry metric q (read (fld e 0 5)) { id := fld e 0 5, flags := 0, code := fld e 6 2, score := 0, tokens := 0 }, fld e 14 2)
  let flags := fld b 1 1 ||| 1 ||| (if es.any fun x => x.1.flags.testBit 1 then 8 else 0)
  resultList k flags (fld b 6 2) (fld b 8 4) (fld b 12 4) (sortBy (fun x y : MergeEntry × Nat => mergeBefore true x.1 y.1) es)

/-- What re-scoring reads for a node of index `d`, from its scan record and its full vector (R170, R174, R183). -/
def IndexDesc.fullVector (d : IndexDesc) (scan vector : Bytes) (missed : Bool) : FullVector :=
  let r := parseScan d.large scan
  { elems := vectorElems d.vecFormat d.dim vector, norm := r.norm, passage := r.passage, missed := missed }

end Sys2Proof.Machine
end

