-- ==== Sys2Proof/Safety.lean ====
section
/-! DEFINITION. The terms in which the statements speak: the canonical memory, runs, the order that a ring entry becomes when it is fetched, a ring
that waits for nothing, the working record with which a fetched command begins, and what a search plan leaves as its exact result list. -/

namespace Sys2Proof

open Machine

/-- The state holds its memory in the canonical form. -/
def MemoryCanonical (s : State) : Prop := Memory.wf s.mem = true

/-- A run of `n` steps that answers a next state at each. -/
def RunsTo : Nat → State → State → Prop
  | 0, s, t => s = t
  | n + 1, s, t => ∃ u, step s = .next u ∧ RunsTo n u t

/-- The module is in RUN, the device fetches from ring `r`, no ring has a command outstanding and none of firmware's table changes waits for the
configuration window (R420, R524). -/
structure Quiet (r : Nat) (s : State) : Prop where
  fetches : s.dev.mayFetch r = true
  running : s.dev.boot.phase = .run
  noChange : s.dev.regs.cfg.waiting = []
  noOrders : ∀ x ∈ s.dev.rings, x.2.out = []

/-- The command that entry `e` with opcode `op` becomes when it is fetched and starts (R419, R420). -/
def order (s : State) (op : Nat) (e : Entry) : Outstanding :=
  { index := (s.dev.ring e.ring.val).subHead, op := op, entry := e, herd := s.clock.herd, started := true }

/-- The working record in which that command begins: its ring's SUB_HEAD has advanced, and it is outstanding. -/
def begun (s : State) (op : Nat) (e : Entry) : W :=
  (W.of s).ring e.ring.val fun g => { g with subHead := (g.subHead + 1) % 256, out := [order s op e] }

/-- A quiet ring whose next entry is `e` with opcode `op`, an entry that keeps R419 on a ring that accepts its command (R426). -/
structure Accepts (op : Nat) (e : Entry) (s : State) : Prop where
  quiet : Quiet e.ring.val s
  wellMade : (order s op e).wellMade = true
  allowed : anyRing op = true ∨ (s.dev.ring e.ring.val).admin = true

/-- A ring of a module in RUN whose next entry is `e` with opcode `op`: every command outstanding on any ring has started, and the entry, which has
no FENCE, keeps R419 on a ring that accepts its command (R420, R426). -/
structure AcceptsBeside (op : Nat) (e : Entry) (s : State) : Prop where
  fetches : s.dev.mayFetch e.ring.val = true
  running : s.dev.boot.phase = .run
  noChange : s.dev.regs.cfg.waiting = []
  allStarted : ∀ x ∈ s.dev.rings, ∀ o ∈ x.2.out, o.started = true
  newIndex : ∀ o ∈ (s.dev.ring e.ring.val).out, o.index ≠ (s.dev.ring e.ring.val).subHead
  noFence : e.flags = 0
  wellMade : (order s op e).wellMade = true
  allowed : anyRing op = true ∨ (s.dev.ring e.ring.val).admin = true

/-- The working record in which that command begins beside the outstanding ones of its ring. -/
def begunBeside (s : State) (op : Nat) (e : Entry) : W :=
  (W.of s).ring e.ring.val fun g => { g with subHead := (g.subHead + 1) % 256, out := g.out ++ [order s op e] }

/-- A command has answered: its completion is written, or waits for the link. -/
def answered (s : State) (op : Nat) (e : Entry) (st : Status) (v : Nat) (b : Bytes) (w : W) : Host.Outcome State Fault Refusal :=
  .next ((w.complete e.ring.val (order s op e).index st v b).leave s)

/-- The state with its herd count at `h`, if that is later. -/
def atHerd (s : State) (h : Nat) : State := { s with clock := s.clock.advance h }

/-- A command ends here: its working record becomes the next state. -/
def ends (s : State) (w : W) : Host.Outcome State Fault Refusal := .next (w.leave s)

/-- A happening that lets commands of the rings start ends here. -/
def winds (s : State) (w : W) : Host.Outcome State Fault Refusal := .next ((w.wind).leave s)

/-- The number of the slot table that a SWAP names. -/
def swapTarget : SwapTarget → Nat
  | .pc n => n.val
  | .barn c => tBarn c.val
  | .shed c => tShed c.val
  | .unit u => tUnit u.val
  | .links => tLinks

/-- The module is at work: neither without power, held, in reset nor in the safe state. -/
def AtWork (s : State) : Prop := s.dev.boot.phase.collects = true

/-- An access of master `m` reaches every register: the module is at work and does not wait for an image, and a host's link is UP (R510). -/
structure Reaches (m : Master) (s : State) : Prop where
  reach : s.dev.reach m = true
  noWait : s.dev.boot.phase ≠ .imageWait

/-- A row of the plan words: the command of a word, its class, the condition that tells two rows of a class apart, and the word's effect. -/
structure WordRow where
  command : Fin 64 → Nat → Nat → Instr
  cls : Nat
  fits : Ctx → W → Bool
  effect : Ctx → W → W

/-- The rows of the plan words (R51). VEC and PACK share a class, and so do the lookup and the update of BAY_GATHER. -/
def wordRows : List WordRow :=
  [⟨.planNop, cNOP, anyWord, doNothing⟩, ⟨.pass, cPASS, anyWord, doPass⟩, ⟨.vec, cVEC, fun c _ => !c.step.plan.isPack c.word, doVec⟩,
   ⟨.pack, cVEC, fun c _ => c.step.plan.isPack c.word, doPack⟩, ⟨.select8, cSELECT8, anyWord, doSelect8⟩, ⟨.select, cSELECT, anyWord, doSelect⟩,
   ⟨.compact, cCOMPACT, anyWord, doCompact⟩, ⟨.move, cMOVE, anyWord, doMove⟩, ⟨.bayTable, cBAYTABLE, anyWord, doBayTable⟩,
   ⟨.bayHamming, cBAYHAMMING, anyWord, doBayHamming⟩, ⟨.bayFetch, cBAYFETCH, anyWord, doBayFetch⟩, ⟨.bayHop, cBAYHOP, anyWord, doBayHop⟩,
   ⟨.bayQueueOut, cBAYQUEUEOUT, anyWord, doBayQueueOut⟩, ⟨.lookup, cBAYGATHER, fun c w => !c.isUpdate w, doGather⟩,
   ⟨.update, cBAYGATHER, fun c w => c.isUpdate w, doGather⟩, ⟨.bayDecode, cBAYDECODE, anyWord, doBayDecode⟩, ⟨.merge, cMERGE, anyWord, doMerge⟩,
   ⟨.tokenize, cTOKENIZE, anyWord, doTokenize⟩, ⟨.detokenize, cDETOKENIZE, anyWord, doDetokenize⟩, ⟨.mask, cMASK, anyWord, doMask⟩,
   ⟨.shedRead, cSHEDREAD, anyWord, doShedRead⟩, ⟨.barnRead, cBARNREAD, anyWord, doBarnRead⟩, ⟨.barnWrite, cBARNWRITE, anyWord, doBarnWrite⟩,
   ⟨.droveSend, cDROVESEND, anyWord, doDroveSend⟩, ⟨.droveRecv, cDROVERECV, anyWord, doDroveRecv⟩, ⟨.hostOut, cHOSTOUT, anyWord, doHostOut⟩,
   ⟨.random, cRANDOM, anyWord, doRandom⟩, ⟨.repeatWord, cREPEAT, anyWord, doNothing⟩]

/-- Word `w` in repetition `j` of the running step of paddock `p` is due, the module at work: `c` is its issue. -/
structure Due (p w j : Nat) (c : Ctx) (s : State) : Prop where
  atWork : AtWork s
  issue : s.dev.issue? p w j = some c

/-- A plan has re-scored a result list of index `d` exactly: list `after` is what R206 makes of list `before` for the query `q` in FP32, with the
records as they stand in `w` and the nodes `missed` of which a vector granule missed under MISS_ZERO. -/
def ExactlyRescored (d : IndexDesc) (w : W) (q : List Nat) (missed : Nat → Bool) (before after : Bytes) : Prop :=
  after = rescored d.metric q (fun id =>
    let part := id / 2 ^ 24 % 2 ^ 9
    let slot := id % 2 ^ 24
    d.fullVector (w.peeks (d.scanKey part slot) d.z) (w.spacePeeks d.vecSpace (d.vecAddr part slot) d.vecStride) (missed id)) before

end Sys2Proof
end

