-- ==== Sys2Proof/Certificates/Slice0/Obligations.lean ====
section
/-! DEFINITION. The statements for the provers. Each names the rule of the spec that it formalises, or the log entry it rests on. -/

open Host Sys2Proof Sys2Proof.Machine

/-! ### The machine -/

/-- A step runs the command at the front of the queue on the state with the queue's rest. With no command waiting the herd count advances by one tick and
nothing else changes (the model's choice, log entry 3). -/
def Obligations.StepRunsFrontCommand : Prop :=
  (∀ (c : Instr) (rest : List Instr) (s : State), s.pending = c :: rest → step s = exec c { s with pending := rest })
  ∧ ∀ s : State, s.pending = [] → step s = .next { s with clock := { herd := s.clock.herd + 1 } }

/-- Every command answers a next state: none of them stops the module with a fault or is refused. -/
def Obligations.EveryCommandAnswers : Prop :=
  ∀ (c : Instr) (s : State), ∃ t, exec c s = .next t

/-- No command touches the queue: commands are taken first in, first out. -/
def Obligations.CommandsLeaveQueue : Prop :=
  ∀ (c : Instr) (s t : State), exec c s = .next t → t.pending = s.pending

/-- Every step keeps the memory's canonical form. -/
def Obligations.StepKeepsMemoryCanonical : Prop :=
  ∀ s t : State, MemoryCanonical s → step s = .next t → MemoryCanonical t

def Obligations.ResetMemoryCanonical : Prop := MemoryCanonical State.reset

/-- The herd count is never set back (R41), but by the two happenings of stage 0 that load or start it (R546). -/
def Obligations.HerdNeverSetBack : Prop :=
  ∀ s t : State, step s = .next t →
    (∀ count check stop h rest, s.pending = .syncMessage count check stop h :: rest → s.dev.syncWaits = false) →
    (∀ rest, s.pending = .syncWaitTimeout :: rest → s.dev.syncWaits = false) →
    s.clock.herd ≤ t.clock.herd

/-- The commands that take the module out of the safe state: RESET_N low, PWR_EN low, and the loss of 56 V. -/
def leavesSafe : Instr → Bool
  | .resetNLow | .orderlyPowerDown | .inputPowerLost => true
  | _ => false

/-- The safe state is left only through RESET_N or a cycle of PWR_EN, or with the input power; in it no other command changes memory, the paddocks,
the rings, the registers, the tiers, the shed or the links (R450). -/
def Obligations.SafeStateIsHeld : Prop :=
  ∀ (c : Instr) (s t : State), s.dev.boot.phase = .safe → leavesSafe c = false → exec c s = .next t →
    t.dev.boot.phase = .safe ∧ t.mem = s.mem ∧ t.dev.pads = s.dev.pads ∧ t.dev.rings = s.dev.rings ∧ t.dev.regs = s.dev.regs ∧
    t.dev.tiers = s.dev.tiers ∧ t.dev.shed = s.dev.shed ∧ t.dev.halter = s.dev.halter ∧ t.dev.drove = s.dev.drove ∧ t.dev.faults = s.dev.faults

/-- Whatever a command does, a module that is off, held or in reset runs no step, no ring and no register access: the collector's phases alone let
them act. -/
def Obligations.ParkedModuleKeepsDevice : Prop :=
  ∀ (m : Master) (addr : BitVec 24) (v : Word) (e : Entry) (p : Fin 64) (w j : Nat) (s : State), s.dev.boot.phase.collects = false →
    exec (.registerWrite m addr v) s = .next s ∧ exec (.loReadCapture m addr) s = .next s ∧ exec (.batch e) s = .next s ∧
    exec (.pass p w j) s = .next s ∧ exec (.stepBoundary p) s = .next s ∧ exec .recoveryEnd s = .next s

/-! ### Command rings -/

/-- NOP completes with DONE: its command is outstanding no more, SUB_HEAD has advanced, and nothing changes but its ring, the Halter link and host
memory (R420, R421, R424). -/
def Obligations.NopCompletesDone : Prop :=
  ∀ (e : Entry) (s : State), Accepts 0x01 e s →
    exec (.nop e) s = answered s 0x01 e .done 0 [] (begun s 0x01 e) ∧
    ∀ t, exec (.nop e) s = .next t →
      (t.dev.ring e.ring.val).out = [] ∧ (t.dev.ring e.ring.val).subHead = ((s.dev.ring e.ring.val).subHead + 1) % 256 ∧
      t.dev = { s.dev with rings := t.dev.rings, halter := t.dev.halter } ∧
      (∀ q, q ≠ e.ring.val → t.dev.ring q = s.dev.ring q) ∧
      ∀ k, keySpace k ≠ spHost → memRead t.mem k = memRead s.mem k

/-- While the link is UP, a completion goes to CPL_TAIL of its ring: bytes 2 and 3 its STATUS, bytes 4 to 7 its CMD_ID, bytes 8 to 15 the herd
count; CPL_TAIL advances, and PHASE inverts with the wrap (R421). With a credit and nothing waiting on the link it stands in host memory at once;
else its WRITE waits to be sent. -/
def Obligations.CompletionEntryIsWritten : Prop :=
  ∀ (e : Entry) (s t : State), Accepts 0x01 e s → Memory.wf s.mem = true → s.dev.halter.isUp = true → exec (.nop e) s = .next t →
    let g := s.dev.ring e.ring.val
    let at_ := hostKey ((g.cpl + 32 * g.cplTail) % 2 ^ 64)
    let c : Completion := { status := Status.done.code, cmdId := e.cmdId.toNat, herd := s.clock.herd, index := g.subHead, value := 0
                            resultAt := e.result.toNat, result := [] }
    let tx := txHeader 1 0 0 32 (g.cpl + 32 * g.cplTail) ++ c.bytes e.ring.val g.phase
    (s.dev.halter.toSend = [] → s.dev.halter.credits ≠ 0 →
      ((List.range 2).map fun i => memRead t.mem (at_ + 2 + i)) = leBytes 2 Status.done.code ∧
      ((List.range 4).map fun i => memRead t.mem (at_ + 4 + i)) = leBytes 4 e.cmdId.toNat ∧
      ((List.range 8).map fun i => memRead t.mem (at_ + 8 + i)) = leBytes 8 s.clock.herd) ∧
    (s.dev.halter.credits = 0 → { cls := clRecord, key := 0, bytes := tx } ∈ t.dev.halter.toSend) ∧
    (t.dev.ring e.ring.val).cplTail = (g.cplTail + 1) % 256 ∧
    (t.dev.ring e.ring.val).phase = (if g.cplTail = 255 then !g.phase else g.phase)

/-- A command that needs ADMIN completes with DENIED on a ring without it, and has no other effect (R424). A command whose FENCE bit is set does not start
while an earlier command of its ring is outstanding (R420). -/
def Obligations.CommandsNeedAdminAndWaitForFence : Prop :=
  (∀ (op : Nat) (e : Entry) (s : State), Quiet e.ring.val s → anyRing op = false → (s.dev.ring e.ring.val).admin = false →
    act (W.fetch op e) s = answered s op e .denied 0 [] (begun s op e))
  ∧ (∀ (d : Dev) (g : Ring) (o p : Outstanding) (rest : List Outstanding),
    g.out = p :: rest → p ≠ o → o.entry.flags.getLsbD 0 = true → d.mayStartCommand g o = false)

/-- MUSTER writes the muster record as its result (R437, R438). -/
def Obligations.MusterWritesRecord : Prop :=
  ∀ (e : Entry) (s : State), Accepts 0x02 e s →
    let g := s.dev.ring e.ring.val
    let w := begun s 0x02 e
    exec (.muster e) s = answered s 0x02 e .done 0 (w.dev.muster s.clock.herd (if g.admin then none else some g.tenant)) w

/-- PLAN_LOAD of an image that passes every check of R48 adds the plan, in the place of one of the same PLAN_ID, with its allocations and constants;
PLAN_UNLOAD of a loaded plan takes it away (R48, R49). -/
def Obligations.PlansLoadAndUnload : Prop :=
  (∀ (e : Entry) (s : State) (q : Paddock) (d : Dev), Accepts 0x10 e s →
    let w := begun s 0x10 e
    let o := order s 0x10 e
    let p := o.field 32 1
    let x := parsePlan (w.payload o)
    w.dev.pad? p = some q → q.state ≠ .tearing → LoadEnv.check { dev := w.dev, p := p, pad := q } (w.payload o) = none →
    w.dev.planElsewhere p x.planId = false → w.dev.plansFull q x.planId = false → (w.dev.shed.readOnly && x.stagesShed) = false →
    w.dev.makeAllocs p x.residency = .ok d →
    exec (.planLoad e) s = answered s 0x10 e .done 0 []
      (((((({ w with dev := d }).pad p fun q => { q with plans := q.plans.filter (fun (y : Plan) => y.planId ≠ x.planId) ++ [x] }).placeConstants q x).dropUnplanned p)).freeAllocs))
  ∧ (∀ (e : Entry) (s : State) (q : Paddock), Accepts 0x11 e s →
    let w := begun s 0x11 e
    let o := order s 0x11 e
    w.dev.pad? (o.field 32 1) = some q → q.plans.any (·.planId = o.field 40 8) = true →
    exec (.planUnload e) s = answered s 0x11 e .done 0 [] (w.unloadPlans (o.field 32 1) fun x => x.planId = o.field 40 8))

/-- A batch for a paddock that is not torn down joins its queue and stays outstanding (R427). -/
def Obligations.BatchQueues : Prop :=
  ∀ (e : Entry) (s : State) (q : Paddock), Accepts 0x12 e s →
    let w := begun s 0x12 e
    let o := order s 0x12 e
    let p := o.field 32 1
    w.dev.pad? p = some q → q.state ≠ .tearing → o.field 33 1 ≤ 3 →
    maxNat ((q.plans.filter fun x => x.family = o.field 36 4 && x.kind ≠ pkService).map (LoadEnv.hostExtent { dev := w.dev, p := p, pad := q })) ≤ o.payloadLen →
    ∃ (t : State) (b : Batch), exec (.batch e) s = .next t ∧ (t.dev.pad? p).map (·.batches) = some (q.batches ++ [b]) ∧
      b.ring = e.ring.val ∧ b.index = o.index ∧ b.family = o.field 36 4 ∧ b.seed = o.field 40 8 ∧ b.service = 0 ∧
      b.launch = (if (o.field 33 1).testBit 1 then some (o.field 48 8) else none) ∧ (t.dev.ring e.ring.val).out = [o] ∧ t.mem = s.mem

/-- CANCEL of a batch that waits in a paddock's queue takes it out: the batch completes with CANCELLED and the cancel with DONE (R434). CANCEL of a live
request that no step carries ends it and completes with DONE (R297). CANCEL of a command that no ring holds any more completes with ALREADY_COMPLETE
where a batch of that CMD_ID has completed on the ring, and with NOT_FOUND otherwise. -/
def Obligations.CancelFinds : Prop :=
  (∀ (e : Entry) (s : State) (b : Outstanding) (p : Nat), AcceptsBeside 0x13 e s →
    let o := order s 0x13 e
    let r := o.field 34 2
    (o.field 32 1 = 2 ∨ o.field 32 1 = 3) → r < 64 → ((s.dev.ring e.ring.val).admin = true ∨ r = e.ring.val) →
    (s.dev.ring r).out.find? (fun x => x.entry.cmdId.toNat = o.field 36 4) = some b → b.op = 0x12 → s.dev.batchAt r b.index = .queued p →
    exec (.cancel e) s = .next ((((((begunBeside s 0x13 e).pad p fun q => { q with
      batches := q.batches.filter fun x => !x.isOf r b.index, decided := q.decided.filter fun x => !x.batch.isOf r b.index }).complete r b.index .cancelled).complete
        e.ring.val o.index .done)).leave s))
  ∧ (∀ (e : Entry) (s : State), Accepts 0x13 e s →
    let o := order s 0x13 e
    let w := begun s 0x13 e
    (o.field 32 1 = 2 ∨ o.field 32 1 = 3) → o.field 34 2 < 64 → ((s.dev.ring e.ring.val).admin = true ∨ o.field 34 2 = e.ring.val) →
    exec (.cancel e) s = answered s 0x13 e (if (s.dev.ring (o.field 34 2)).done.contains (o.field 36 4) then .alreadyComplete else .notFound) 0 [] w)
  ∧ (∀ (e : Entry) (s : State) (q : Request), Accepts 0x13 e s →
    let o := order s 0x13 e
    let w := begun s 0x13 e
    o.field 32 1 = 1 → w.dev.named e.ring.val o = .ok q → (w.cancelRequest q.number q.admitted).1 = .done →
    exec (.cancel e) s = answered s 0x13 e .done 0 [] (w.cancelRequest q.number q.admitted).2)

/-- ADMIT of a descriptor that passes every check of R281 makes the request live with the lowest free number, the admission count and its seed
(R77, R281, R431). -/
def Obligations.AdmitMakesRequest : Prop :=
  ∀ (e : Entry) (s : State), Accepts 0x14 e s →
    let w := begun s 0x14 e
    let b := w.payload (order s 0x14 e)
    w.dev.admitStatus e.ring.val b = none →
    let seed := if fld b 16 8 = 0 then (Config.entropy s.dev.fresh).toNat else fld b 16 8
    let q := w.dev.newRequest e.ring.val s.clock.herd seed b
    ∃ t, exec (.admitRequest e) s = .next t ∧ (t.dev.ring e.ring.val).out = [] ∧
      (∃ r ∈ t.dev.serve.requests, r.number = q.number ∧ r.admitted = s.clock.herd ∧ r.seed = seed ∧ r.tenant = q.tenant ∧ r.paddock = q.paddock) ∧
      ((fld b 3 1).testBit 0 = false → t.dev.serve.requests = s.dev.serve.requests ++ [q])

/-- INPUT adds a text buffer, PAUSE sets the HOST bit and RESUME clears it, of a live request that the ring may name (R257, R259, R296). -/
def Obligations.RequestsTakeInputAndPause : Prop :=
  (∀ (e : Entry) (s : State) (q : Request), Accepts 0x15 e s →
    let w := begun s 0x15 e
    let o := order s 0x15 e
    let b := w.payload o
    w.dev.named e.ring.val o = .ok q → o.field 32 1 ≤ 1 → q.state = .input → q.buffers.any (·.2) = false → q.received + b.length ≤ 1_048_576 →
    exec (.input e) s = answered s 0x15 e .done 0 []
      (w.request q.number fun q => { q with received := q.received + b.length, buffers := q.buffers ++ [(b, decide (o.field 32 1 = 1))] }))
  ∧ (∀ (e : Entry) (s : State) (q : Request), Accepts 0x16 e s → (begun s 0x16 e).dev.named e.ring.val (order s 0x16 e) = .ok q →
    exec (.pause e) s = answered s 0x16 e .done 0 [] ((begun s 0x16 e).request q.number fun q => { q with pauseHost := true }))
  ∧ (∀ (e : Entry) (s : State) (q : Request), Accepts 0x17 e s → (begun s 0x17 e).dev.named e.ring.val (order s 0x17 e) = .ok q →
    exec (.resume e) s = answered s 0x17 e .done 0 [] ((begun s 0x17 e).request q.number fun q => { q with pauseHost := false }))

/-- SERVE_SET leaves new serving settings for the next launch point, but for CTX_CAP and R_MAX of a registered ladder, which change at once (log
entry 152), and TENANT_SET new settings of a tenant, of which budget and window wait for the next launch point (R285, R294, R295). -/
def Obligations.ServingSettingsAreTaken : Prop :=
  (∀ (e : Entry) (s : State) (q : Paddock), Accepts 0x22 e s →
    let w := begun s 0x22 e
    let b := w.payload (order s 0x22 e)
    w.dev.pad? (fld b 0 1) = some q → servingOk b q = true → w.dev.servingKeeps (fld b 0 1) q (parseServing b) = true →
    exec (.serveSet e) s = answered s 0x22 e .done 0 [] (w.pad (fld b 0 1) fun q => q.serveSet (parseServing b)))
  ∧ (∀ (e : Entry) (s : State), Accepts 0x23 e s →
    let o := order s 0x23 e
    let set := o.field 33 1
    tenantOk o = true →
    exec (.tenantSet e) s = answered s 0x23 e .done 0 []
      ((begun s 0x23 e).tenant (o.field 32 1) fun t => { t with
        pendBudget := if set.testBit 0 then some (o.field 36 4) else t.pendBudget
        pendWindow := if set.testBit 1 then some (o.field 40 4) else t.pendWindow
        liveMax := if set.testBit 2 then o.field 44 4 else t.liveMax
        rowCap := if set.testBit 3 then o.field 48 2 else t.rowCap
        replaceInvalid := if set.testBit 4 then (o.field 34 1).testBit 0 else t.replaceInvalid }))

/-- PADDOCK_FORM makes a paddock FORMING with the stables it names; PADDOCK_TEARDOWN begins a teardown of a paddock that holds no index and no table.
Both stay outstanding (R391 to R396). -/
def Obligations.PaddocksFormAndTearDown : Prop :=
  (∀ (e : Entry) (s : State), Accepts 0x20 e s →
    let w := begun s 0x20 e
    let f := parseForm (w.payload (order s 0x20 e))
    w.dev.formStatus (w.payload (order s 0x20 e)) = none → s.dev.regs.cfg.holder = none →
    ∃ (t : State) (q : Paddock), exec (.paddockForm e) s = .next t ∧ t.dev.pad? f.paddock = some q ∧ q.state = .forming ∧ q.stables = f.stables ∧
      (t.dev.ring e.ring.val).out = [order s 0x20 e] ∧ t.mem = s.mem)
  ∧ (∀ (e : Entry) (s : State) (q : Paddock), Accepts 0x21 e s →
    let w := begun s 0x21 e
    let o := order s 0x21 e
    let p := o.field 32 1
    w.dev.pad? p = some q → o.field 33 1 ≤ 1 → q.teardown = none → (w.dev.indexes.any fun x => x.paddock = p) = false →
    (w.dev.embs.any fun x => x.paddock = p) = false → q.state = .ready →
    exec (.paddockTeardown e) s = .next (((w.pad p fun q => { q with
      teardown := some { ring := e.ring.val, index := o.index, abandon := o.field 33 1 = 1 } }).beginTeardown p).leave s))

/-- LOCKSTEP_PAIR on a part with the lock-step port: OFF ends the pairing, and GATE or COMPARE pairs the paddock over a port that is UP (R81). -/
def Obligations.LockstepPairs : Prop :=
  ∀ (e : Entry) (s : State) (q : Paddock), Accepts 0x24 e s →
    let w := begun s 0x24 e
    let o := order s 0x24 e
    let p := o.field 32 1
    let port := o.field 33 1
    w.dev.pad? p = some q → s.dev.boot.part.lockstep = true →
    (o.field 34 1 = 0 → exec (.lockstepPair e) s = answered s 0x24 e .done 0 [] (w.lockOff p q))
    ∧ ((o.field 34 1 = 1 ∨ o.field 34 1 = 2) → q.state ≠ .tearing → port < s.dev.boot.part.ports → (s.dev.port port).isUp = true →
      exec (.lockstepPair e) s = answered s 0x24 e .done 0 []
        ((w.lockOff p q).pad p fun q => { q with lockstep := some { port := port, gate := o.field 34 1 = 2, own := [], peer := [] } }))

/-- The loads: a tokenizer table, a grammar image and an adapter version that pass their checks are loaded with a version one above that of the load before
of their identity, which is the completion's VALUE; an unloaded adapter is found no more (R252 to R254, R270 to R272, R299, R300). -/
def Obligations.TextObjectsLoad : Prop :=
  (∀ (e : Entry) (s : State), Accepts 0x30 e s →
    let w := begun s 0x30 e
    let b := w.payload (order s 0x30 e)
    let same := s.dev.serve.tables.filter fun t => t.tableId = tokId b
    let others := s.dev.serve.tables.filter fun t => !(t.tableId = tokId b && t.pending)
    let v := nextVersion s.dev.serve.tableCounts (tokId b)
    s.dev.unitFenced uTokenizer 0 = false → tableOk b = true → others.length < 4 → sumNat (others.map fun t => t.image.length) + b.length ≤ 96 * 2 ^ 20 →
    exec (.tokenizerLoad e) s = answered s 0x30 e .done v []
      (w.serve fun x => { x with tables := others ++ [{ tableId := tokId b, version := v, image := b, current := !same.any (·.current), pending := !(!same.any (·.current)) }], tableCounts := nput (tokId b) v x.tableCounts }))
  ∧ (∀ (e : Entry) (s : State) (tab : TokTable), Accepts 0x31 e s →
    let w := begun s 0x31 e
    let b := w.payload (order s 0x31 e)
    let same := s.dev.serve.grammars.filter fun g => g.grammarId = gramId b
    let others := s.dev.serve.grammars.filter fun g => !(g.grammarId = gramId b && g.pending)
    let v := nextVersion s.dev.serve.grammarCounts (gramId b)
    s.dev.unitFenced uGrammar 0 = false → s.dev.serve.currentTable (gramTable b) = some tab → tokVocab tab.image ≠ 0 → grammarOk b (tokVocab tab.image) = true →
    sumNat (others.map fun g => g.image.length) + b.length ≤ 128 * 2 ^ 20 →
    exec (.grammarLoad e) s = answered s 0x31 e .done v []
      (w.serve fun x => { x with grammars := others ++ [{ grammarId := gramId b, version := v, image := b, current := !same.any (·.current), pending := !(!same.any (·.current)) }], grammarCounts := nput (gramId b) v x.grammarCounts }))
  ∧ (∀ (e : Entry) (s : State) (q : Paddock) (slot : Nat), Accepts 0x32 e s →
    let w := begun s 0x32 e
    let o := order s 0x32 e
    let b := w.payload o
    let p := o.field 32 1
    let id := fld b 8 8
    let others := q.adapters.filter fun a => !(a.adapterId = id && a.pending)
    let v := nextVersion q.adapterCounts id
    w.dev.pad? p = some q → adapterOk b q = true → lowestFree (adapterSlots p) (others.map (·.slot)) = some slot →
    exec (.adapterLoad e) s = answered s 0x32 e .done v []
      ((w.pad p fun q => { q with adapters := others ++ [{ slot := slot, adapterId := id, version := v, rank := fld b 6 1, weightSet := fld b 0x10 2, digest := slice b 0x18 32, image := b, current := false, pending := true, unloaded := false }], adapterCounts := nput id v q.adapterCounts }).put
        (memKey spCommons 0 (adapterBase p slot)) b))
  ∧ (∀ (e : Entry) (s : State) (q : Paddock), Accepts 0x33 e s →
    let w := begun s 0x33 e
    let o := order s 0x33 e
    let id := o.field 40 8
    w.dev.pad? (o.field 32 1) = some q → (q.adapters.any fun a => a.adapterId = id && !a.unloaded) = true →
    exec (.adapterUnload e) s = answered s 0x33 e .done 0 []
      ((w.pad (o.field 32 1) fun q => { q with adapters := q.adapters.map fun a => if a.adapterId = id then { a with unloaded := true, current := false } else a }).freeVersions))

/-- An index is created, takes updates, starts a consolidation, takes a new generation for a later boundary, and is deleted (R168, R178, R209 to R214,
R225, R226, R230). -/
def Obligations.IndexCommandsAct : Prop :=
  (∀ (e : Entry) (s : State), Accepts 0x40 e s →
    let w := begun s 0x40 e
    let o := order s 0x40 e
    let b := w.payload o
    let d := parseIndexDesc (b.take 256)
    w.dev.createStatus s.clock.herd b = none →
    let w := w.prepare d
    let x := { Index.new d (parseCreate (b.drop 256)) with creating := if d.large then some (e.ring.val, o.index) else none, tombLog := w.tombs d }
    let w := { w with dev := { w.dev with indexes := w.dev.indexes ++ [x] } }
    exec (.indexCreate e) s = if d.large then .next (w.leave s) else answered s 0x40 e .done 0 [] w)
  ∧ (∀ (e : Entry) (s : State) (x : Index), Accepts 0x41 e s →
    let w := begun s 0x41 e
    let o := order s 0x41 e
    let id := o.field 40 8
    let b := w.payload o
    w.dev.index? id = some x → s.dev.shed.readOnly = false →
    let r := w.acceptRecords id e.ring.val o.index s.clock.herd b.length 0 b
    exec (.indexUpdate e) s = if r.2.1 = 0 then answered s 0x41 e .done 0 r.1 r.2.2
      else .next ((r.2.2.index id fun x => { x with updates := x.updates ++ [{ ring := e.ring.val, index := o.index, left := r.2.1, results := r.1 }] }).leave s))
  ∧ (∀ (e : Entry) (s : State) (x : Index), Accepts 0x42 e s →
    let w := begun s 0x42 e
    let o := order s 0x42 e
    w.dev.index? (o.field 40 8) = some x → x.consolidation = none → x.old = none →
    exec (.indexConsolidate e) s = .next ((w.index (o.field 40 8) fun x => { x with
      consolidation := some { ring := e.ring.val, index := o.index, fixed := false, limits := [], eD := [], next := 0, finish := none, ran := none } }).leave s))
  ∧ (∀ (e : Entry) (s : State) (x : Index), Accepts 0x43 e s →
    let w := begun s 0x43 e
    let o := order s 0x43 e
    let d := parseIndexDesc (w.payload o)
    w.dev.index? d.indexId = some x → indexDescOk s.dev.boot.part (w.payload o) = true → x.generationOk d = true → x.pendingGen = none →
    (d.needsBarn && !s.dev.boot.part.hasBarn) = false → w.dev.codebookTaken d = false → w.dev.pinnable (d.stretches x.psgLimit) = true →
    exec (.indexGeneration e) s = .next ((w.index d.indexId fun x => { x with
      pendingGen := some { ring := e.ring.val, index := o.index, desc := d, baseEpoch := o.field 36 4, copied := !d.large } }).leave s))
  ∧ (∀ (e : Entry) (s : State) (x : Index), Accepts 0x44 e s →
    let w := begun s 0x44 e
    let id := (order s 0x44 e).field 40 8
    w.dev.index? id = some x → x.closed = [] → x.openCut = [] → x.consolidation = none → x.pendingGen = none → x.creating = none →
    exec (.indexDelete e) s = answered s 0x44 e .done 0 []
      { w with dev := { w.dev with indexes := w.dev.indexes.filter fun y => y.desc.indexId ≠ id } })

/-- An embedding table is created with the lowest free handle as VALUE, takes a version for a later launch point, starts row migrations, and is deleted
(R304, R321, R322, R324, R435). -/
def Obligations.EmbCommandsAct : Prop :=
  (∀ (e : Entry) (s : State), Accepts 0x48 e s →
    let w := begun s 0x48 e
    let b := w.payload (order s 0x48 e)
    let d := parseEmbDesc (b.take 256)
    let h := (lowestFree 64 (w.dev.embs.map (·.handle))).getD 0
    w.embCreateStatus b = none →
    exec (.embCreate e) s = answered s 0x48 e .done h []
      { w with dev := { w.dev with embs := w.dev.embs ++ [Emb.new h (fld b 256 1) (fld b 260 4) d (w.hotTaken d)] } })
  ∧ (∀ (e : Entry) (s : State) (x : Emb), Accepts 0x49 e s →
    let w := begun s 0x49 e
    let o := order s 0x49 e
    let b := w.payload o
    let d := parseEmbDesc b
    w.dev.embById? d.embId = some x → embDescOk s.dev.boot.part b = true → x.versionOk d = true → x.pending = none →
    (d.tailSpace = spBarn → s.dev.boot.part.hasBarn = true) → w.reserveKept d = true →
    exec (.embVersion e) s = .next ((w.emb x.handle fun y => { y with pending := some (e.ring.val, o.index, d) }).leave s))
  ∧ (∀ (e : Entry) (s : State) (x : Emb), Accepts 0x4A e s →
    let w := begun s 0x4A e
    let o := order s 0x4A e
    let b := w.payload o
    w.dev.embById? (o.field 40 8) = some x → b.length % 8 = 0 → b.length ≤ 4096 * 8 → ((records 8 b).any fun y => !allZero (slice y 5 3)) = false →
    let r := (records 8 b).foldl (fun (acc : Bytes × W) y =>
      let z := acc.2.migrateEntry x.handle (fld y 0 4) (fld y 4 1)
      (acc.1 ++ migrateResult (fld y 0 4) z.1, z.2)) ([], w)
    exec (.embMigrate e) s = answered s 0x4A e .done 0 r.1 r.2)
  ∧ (∀ (e : Entry) (s : State) (x : Emb), Accepts 0x4B e s →
    let w := begun s 0x4B e
    w.dev.embById? ((order s 0x4B e).field 40 8) = some x → x.pending = none →
    let w := w.cancelRows x.handle
    exec (.embDelete e) s = answered s 0x4B e .done 0 [] { w with dev := { w.dev with embs := w.dev.embs.filter fun y => y.handle ≠ x.handle } })

/-- HOST_WRITE stores the payload where it names, HOST_READ answers what stands there, PEER_COPY sends it in trains over the port (R404, R425). The
channel number of such trains is a free value (log entry 45). -/
def Obligations.HostReachesMemory : Prop :=
  (∀ (e : Entry) (s : State), Accepts 0x50 e s →
    let w := begun s 0x50 e
    let o := order s 0x50 e
    let sp := o.field 32 1
    let a := o.field 40 8
    let b := w.payload o
    w.dev.hostRange sp a b.length = none → w.dev.hostOwner sp (o.field 33 1) a = true →
    w.dev.liveStatus (fun x => (w.dev.hostKeys sp a b.length).any x.hasKey) = none →
    exec (.hostWrite e) s = answered s 0x50 e .done 0 [] (w.store (w.dev.spaceCells sp a b)))
  ∧ (∀ (e : Entry) (s : State), Accepts 0x51 e s →
    let w := begun s 0x51 e
    let o := order s 0x51 e
    let sp := o.field 32 1
    let a := o.field 40 8
    let n := e.resultLen.toNat
    w.dev.hostRange sp a n = none → w.dev.hostOwner sp (o.field 33 1) a = true → failing w.dev (w.dev.hostKeys sp a n) = [] →
    exec (.hostRead e) s = answered s 0x51 e .done 0 ((List.range n).map fun i => w.peek (w.dev.sharedKey 0 0 sp (a + i))) w)
  ∧ (∀ (e : Entry) (s : State), Accepts 0x52 e s →
    let w := begun s 0x52 e
    let o := order s 0x52 e
    let n := o.field 36 4
    let a := o.field 40 8
    o.field 32 1 < s.dev.boot.part.ports → w.dev.hostRange spCommons a n = none → o.field 48 8 + n ≤ 2 ^ 46 → (s.dev.port (o.field 32 1)).isUp = true →
    failing w.dev (w.dev.hostKeys spCommons a n) = [] →
    let trains := trainsOf 0 (Config.freeNat s.dev.fresh % 65536) 0 (o.field 48 8) (w.spacePeeks spCommons a n)
    let w := { w with dev := { w.dev with fresh := s.dev.fresh + 1 } }
    exec (.peerCopy e) s = answered s 0x52 e .done 0 [] (W.each trains (W.sendTrain (o.field 32 1) (mkEntry oHost 0)) w))

/-- A page is retired and commons pages migrate: the work starts, and the command stays outstanding (R341, R356). A range that lies in the tier
already has nothing to move. -/
def Obligations.PagesRetireAndMigrate : Prop :=
  (∀ (e : Entry) (s : State) (page table : Nat), Accepts 0x54 e s →
    let w := begun s 0x54 e
    let o := order s 0x54 e
    let tier := o.field 32 1
    (tier = spStack ∨ (tier = spBarn ∧ s.dev.boot.part.hasBarn = true)) → w.dev.pageNamed tier (o.field 40 8) = some (page, table) →
    w.dev.tiers.remapped.contains (remapId tier page) = false → (w.dev.tiers.retiring.any fun x => x.tier = tier && x.page = page) = false →
    w.dev.remapUsed table < remapMax tier →
    exec (.pageRetire e) s = .next ((w.tiers fun t => { t with
      retiring := t.retiring ++ [{ tier := tier, page := page, ring := e.ring.val, index := o.index, filled := false, lost := [] }] }).leave s))
  ∧ (∀ (e : Entry) (s : State) (t : Nat), Accepts 0x53 e s →
    let w := begun s 0x53 e
    let o := order s 0x53 e
    let a := o.field 40 8
    let n := o.field 36 4
    flagTier (o.field 32 1) = some t → n % 65536 = 0 → n ≠ 0 → (t = spBarn → s.dev.boot.part.hasBarn = true) → a % 65536 = 0 → a + n ≤ 2 ^ 46 →
    ((w.dev.rangePages a n).all fun p => match w.dev.allocAt (p * 65536) with
      | some x => (x.paddock = o.field 33 1 || x.entry.shared) && !x.entry.pinned | none => false) = true →
    (t = spShed → s.dev.shed.readOnly = false) →
    let pages := (w.dev.rangePages a n).filter fun p => match w.dev.commonsPlace p with | some x => x.1 ≠ t | none => false
    (pages.any fun p => w.dev.tiers.migrations.any (·.page = p)) = false →
    exec (.commonsMigrate e) s = if pages = [] then answered s 0x53 e .done 0 [] w
      else .next ((w.tiers fun x => { x with
        migrations := x.migrations ++ pages.map fun p => CommonsMig.mk p t none false false 0 (some (e.ring.val, o.index)) }).placeMigrations.leave s))

/-- GROOM_REQUEST starts a service that finds its entries, ENERGY_SET takes allowance, window, throttle, depth and module state, FW_HANDOVER of a
verified image with the same STATE_FORMAT begins the handover, and ATTEST answers the report (R473, R481, R498 to R502). -/
def Obligations.DeviceCommandsAct : Prop :=
  (∀ (e : Entry) (s : State), Accepts 0x60 e s →
    let w := begun s 0x60 e
    let o := order s 0x60 e
    let b := w.payload o
    let g : GroomService :=
      { ring := e.ring.val, index := o.index, cmdId := e.cmdId.toNat, service := fld b 0 1, target := fld b 2 2, first := fld b 4 4, count := fld b 8 4
        running := true, queued := false, start := s.clock.herd, units := w.dev.groomUnits (fld b 0 1) (fld b 2 2) (fld b 4 4) (fld b 8 4) }
    b.length = 32 → fld b 1 1 = 0 → allZero (b.drop 12) = true → 1 ≤ fld b 0 1 → fld b 0 1 ≤ gsScrub →
    w.dev.groomTarget (fld b 0 1) (fld b 2 2) (fld b 4 4) (fld b 8 4) = true → s.dev.boot.part.groomAbsent (fld b 0 1) (fld b 2 2) = false →
    w.dev.groomGranted g = true →
    exec (.groomRequest e) s = .next ((w.addService g).leave s))
  ∧ (∀ (e : Entry) (s : State), Accepts 0x61 e s →
    let w := begun s 0x61 e
    let b := w.payload (order s 0x61 e)
    energyOk b = true → s.dev.regs.cfg.holder = none → fld b 0 1 < 4 →
    exec (.energySet e) s = answered s 0x61 e .done 0 [] (w.power fun p => { p with
      pendWindow := if (fld b 0 1).testBit 0 then some (fld b 4 4) else p.pendWindow, pendAllow := if (fld b 0 1).testBit 1 then some (fld b 8 2) else p.pendAllow }))
  ∧ (∀ (e : Entry) (s : State) (i : Image), Accepts 0x62 e s →
    let w := begun s 0x62 e
    let o := order s 0x62 e
    o.field 32 1 ≤ 1 → s.dev.boot.handover = none → s.dev.boot.verify [imFirmware] (w.payload o) = .ok i →
    (s.dev.boot.fw.map (·.stateFormat)).getD 0 = i.stateFormat →
    let h : Handover := { ring := e.ring.val, index := o.index, cmdId := e.cmdId.toNat, image := i, todo := List.range' 1 15 ++ [0], away := none
                          onNew := [], keepStore := (o.field 32 1).testBit 0, rewriting := false }
    exec (.fwHandover e) s = .next ((w.boot fun b => { b with handover := some h }).leave s))
  ∧ (∀ (e : Entry) (s : State), Accepts 0x63 e s → s.dev.boot.identityBad = false →
    let w := begun s 0x63 e
    w.dev.reportLen ≤ e.resultLen.toNat →
    exec (.attest e) s = answered s 0x63 e .done 0 (w.dev.report s.clock.herd e.inline) w)

/-- The host's index writes move their index and, but for what waited for room in a stream or storage ring, nothing else (R418, R420, R422, R532). -/
def Obligations.DoorbellsMoveIndices : Prop :=
  ∀ s : State, s.dev.hostReach = true →
    (∀ (r : Fin 64) (v : Byte), exec (.subTail r v) s = .next { s with dev := { s.dev with rings := tput r.val { s.dev.ring r.val with subTail := v.toNat } s.dev.rings } })
    ∧ (∀ (r : Fin 64) (v : Byte), exec (.cplHead r v) s = .next { s with dev := { s.dev with rings := tput r.val { s.dev.ring r.val with cplHead := v.toNat } s.dev.rings } })
    ∧ (∀ (r : Fin 64) (v : Byte), (s.dev.ring r.val).heldStr = [] →
      exec (.strHead r v) s = .next { s with dev := { s.dev with rings := tput r.val { s.dev.ring r.val with strHead := v.toNat } s.dev.rings } })
    ∧ (∀ v : BitVec 10, exec (.evtHead v) s = .next { s with dev := { s.dev with events := { s.dev.events with head := v.toNat } } })

/-! ### Storage queues -/

/-- A storage command that passes every check is accepted in order; one that fails a check completes with the check's status (R379, R383). -/
def Obligations.StorageCommandsAreAccepted : Prop :=
  ∀ (q : Fin 8) (c : StorageEntry) (s : State),
    let g := s.dev.queue q.val
    let fetched := (W.of s).queue q.val fun g => { g with subHead := (g.subHead + 1) % 64 }
    s.dev.storageServed = true → s.dev.halter.isUp = true → g.enable = true → g.resetting = false → g.subHead ≠ g.subTail → g.outstanding < 32 →
    ∀ (op : Nat) (i : Instr), (op, i) ∈ [(1, Instr.storageRead q c), (2, .storageWrite q c), (3, .storageDiscard q c)] →
      exec i s = match fetched.dev.storageStatus q.val op c with
        | some st => .next ((fetched.storageDone q.val c.tag.toNat st g.subHead 0).leave s)
        | none =>
          let gs := granulesOf c.shedAddr.toNat c.length.toNat
          let x : StorageCmd := { op := op, entry := c, index := g.subHead, herd := s.clock.herd, seq := s.dev.shed.place s.clock.herd q.val, started := false, todo := gs
                                  left := if op = 1 then [] else gs, lost := 0, saved := [] }
          let x := { x with started := decide (op = 3) && fetched.dev.mayStart q.val x }
          .next ((((fetched.queue q.val fun g => { g with out := g.out ++ [x] }).shed fun y => { y with nextSeq := s.dev.shed.nextSeq + 1 }).runStorage).leave s)

/-- A command that has nothing left to do completes with DONE, or with DATA_CHECK where granules were lost, and leaves its queue. What it discards
is durable then, and so is what its effect overlays (R382). -/
def Obligations.StorageCompletionEndsCommand : Prop :=
  ∀ (q : Fin 8) (tag : Fin 32) (s : State) (c : StorageCmd), s.dev.nandOn = true →
    (s.dev.queue q.val).out.find? (fun c => c.entry.tag.toNat = tag.val) = some c → c.todo = [] → (c.op = 2 → c.left = []) →
    let w := if c.op = 3 then (W.of s).discardDurable c else W.of s
    let w := w.queue q.val fun g => { g with out := g.out.filter (·.seq ≠ c.seq) }
    let mine := granulesOf c.entry.shedAddr.toNat c.entry.length.toNat
    let older := fun (x : StorageCmd) => if x.seq < c.seq then { x with left := x.left.filter fun g => !mine.contains g } else x
    let w := if c.op = 1 then w else w.storageCmds older
    exec (.storageCompletion q tag) s = .next (((w.storageDone q.val tag.val (if 0 < c.lost then .dataCheck else .done) c.index c.lost).runStorage).leave s)

/-- Doorbells of a storage queue that is not in reset move its indices. RESET completes what has not started with QUEUE_RESET, and the queue comes out
of reset with its indices at 0 and disabled (R379, R384). -/
def Obligations.StorageQueuesMoveAndReset : Prop :=
  ∀ (q : Fin 8) (s : State), s.dev.hostReach = true → s.dev.storageServed = true →
    (∀ v : BitVec 6, (s.dev.queue q.val).resetting = false →
      exec (.shedSubTail q v) s = .next (((W.of s).queue q.val fun g => { g with subTail := v.toNat }).leave s)
      ∧ ((s.dev.queue q.val).held = [] → exec (.compHead q v) s = .next (((W.of s).queue q.val fun g => { g with compHead := v.toNat }).leave s)))
    ∧ ((s.dev.queue q.val).resetting = false →
      let w := (W.of s).queue q.val fun g => { g with resetting := true, out := g.out.filter (·.started) }
      let gone := (s.dev.queue q.val).out.filter fun c => !c.started
      exec (.shedQueueReset q) s =
        .next (((W.each gone (fun c w => w.storageDone q.val c.entry.tag.toNat .queueReset c.index 0) w).runStorage).leave s))
    ∧ ((s.dev.queue q.val).resetting = true → (s.dev.queue q.val).out = [] → (s.dev.queue q.val).held = [] →
      let empty := fun (g : Queue) => { g with subHead := 0, subTail := 0, compHead := 0, compTail := 0, resetting := false, enable := false }
      exec (.queueResetEnd q) s = .next (((W.of s).queue q.val empty).leave s))

/-! ### Registers -/

/-- A configuration window opens where none is held, commits, is abandoned, closes on a write of CFG_REF, and a host's window closes after 100 ms
(R524 to R526). -/
def Obligations.ConfigurationWindowMoves : Prop :=
  (∀ (m : Master) (s : State), Reaches m s → masterPriv m = true → s.dev.regs.cfg.holder = none →
    exec (.cfgOpen m) s = winds s ((W.of s).cfg fun c => { c with
      holder := some (!masterHost m), openWait := false, openedAt := s.clock.herd, committing := false, state := 0
      sweep := c.sweep.map fun x => { x with windowSeen := true } }))
  ∧ (∀ (m : Master) (s : State), Reaches m s → masterPriv m = true → s.dev.regs.cfg.holder = some (!masterHost m) →
    exec (.cfgCommit m) s = winds s ((W.of s).cfg fun c => { c with committing := true })
    ∧ (s.dev.regs.cfg.openWait = false →
      let w := (W.of s).slots fun x => { x with swapWait := [] }
      (s.dev.regs.cfg.committing = false → exec (.cfgAbandon m) s = winds s (w.cfg fun c => { c with holder := none }))
      ∧ ∀ v : Word, exec (.cfgRefWrite m v) s = winds s (W.each s.dev.slots.swapWait W.swapNow (w.cfg fun c => { c with
          ref := v.toNat, committed := s.dev.checked.filter fun x => x.2 ≠ 0, state := 1, holder := none, committing := false, timeoutGone := true }))))
  ∧ (∀ (h : Nat) (s : State), AtWork s → s.dev.regs.cfg.holder = some false → s.dev.regs.cfg.committing = false → s.dev.regs.cfg.openWait = false →
    s.dev.regs.cfg.openedAt + 40_000_000 < h →
    exec (.cfgWindowTimeout h) s = winds (atHerd s h) (((W.of (atHerd s h)).slots fun x => { x with swapWait := [] }).cfg fun c => { c with
      timeout := true, timeoutGone := false, holder := none }))

/-- A SWAP of a table that the part has, or of the link maps, waits for the window while one is held; else it posts the change, unless the pending
table is not valid, which sets TABLE_ERR (R158, R161, R525). -/
def Obligations.SwapPostsTables : Prop :=
  ∀ (m : Master) (t : SwapTarget) (s : State), Reaches m s → masterPriv m = true →
    let n := swapTarget t
    let w := W.of s
    t = .links ∨ s.dev.tablePresent n = true →
    exec (.swap m t) s = winds s (
      if s.dev.regs.cfg.holder.isSome then w.slots fun x => { x with swapWait := insertNat n x.swapWait }
      else if t = .links then w.addChange { cause := 0, tables := [], links := true, stack := 0 }
      else if tableValid n (tableEntries s.dev.slots.pend n) then w.addChange { cause := 0, tables := [n], links := false, stack := 0 }
      else w.slots fun x => { x with tableErr := insertNat n x.tableErr })

/-- Writing word 0 of a record slot clears a record whose cause is gone and whose reaction is done; FLT_INJECT of a class up to 4 makes a record of
cause INJECTED that asks for no reaction, and class 5 a DEVICE record (R455, R458). -/
def Obligations.FaultRegistersAct : Prop :=
  ∀ (m : Master) (s : State), Reaches m s → masterPriv m = true →
    (∀ (slot : Fin 32) (r : FaultRec), tget? slot.val s.dev.faults.slots = some r → r.done = true → s.dev.causeLasts r = false →
      exec (.faultClear m slot) s = ends s ((W.of s).faults fun f => { f with slots := tdel slot.val f.slots }))
    ∧ (∀ cls : BitVec 3, cls.toNat ≤ 4 →
      let r : FaultRec := { cls := cls.toNat, reaction := reLogged, cause := caInjected, seq := s.dev.faults.seq, herd := s.clock.herd, ukind := 0, uindex := 0
                            detail := 0, arg := 0, attempt := 0, repeats := 1, paddocks := [], planId := 0, queuedBehind := false, standing := false
                            done := true, causePresent := false, fenceDelay := 0 }
      exec (.faultInject m cls) s = ends s (((W.of s).faults fun f => { f with seq := (f.seq + 1) % 2 ^ 32 }).record r))
    ∧ (∀ cls : BitVec 3, cls.toNat = 5 →
      exec (.faultInject m cls) s = ends s ((W.of s).device { cause := caInjected, cls := clDevice, ukind := 0, uindex := 0, detail := 0, arg := 0, pads := [], delay := 0 }))

/-- GO of MUSTER_CTL writes the muster record to the host, GO of RCV_CTL takes the image that IMAGE_WAIT asks for, and PWR_CTL asks for STANDBY or
leaves it (R437, R470, R493, R496). -/
def Obligations.BootAndPowerRegistersAct : Prop :=
  (∀ s : State, s.dev.reach .plain = true →
    exec .musterCtlGo s = ends s ((W.of s).writeHost clMuster 0 s.dev.regs.musterAddr (s.dev.muster s.clock.herd none)))
  ∧ (∀ (install : Bool) (i : Image) (s : State), s.dev.reach .secure = true → s.dev.boot.phase = .imageWait →
    s.dev.boot.verify s.dev.boot.wanted ((W.of s).peeks (hostKey (s.dev.boot.rcvHi * 2 ^ 32 + s.dev.boot.rcvLo)) s.dev.boot.rcvLen) = .ok i →
    ∃ t, exec (.rcvCtlGo .secure install) s = .next t ∧ t.mem = s.mem ∧ t.dev = { s.dev with boot := t.dev.boot } ∧
      t.dev.boot.rcvStatus = Status.done.code ∧
      (i.kind = imFirmware → t.dev.boot.fw = some i ∧ t.dev.boot.cfg = s.dev.boot.cfg ∧ t.dev.boot.tackFw = if install then some i else s.dev.boot.tackFw) ∧
      (i.kind = imConfig → t.dev.boot.cfg = some i ∧ t.dev.boot.fw = s.dev.boot.fw ∧ t.dev.boot.tackCfg = if install then some i else s.dev.boot.tackCfg) ∧
      if t.dev.boot.fw.isSome && t.dev.boot.cfg.isSome then t.dev.boot.phase = .bringUp ∧ t.dev.boot.stagesDone = 1 else t.dev.boot.phase = .imageWait)
  ∧ (∀ (m : Master) (s : State), Reaches m s → masterPriv m = true →
    (s.dev.boot.phase = .run → exec (.standbyEnter m) s = ends s ((W.of s).power fun p => { p with standbyAsked := true }))
    ∧ (s.dev.boot.phase = .standby →
      let busy := s.dev.pads.filter fun (x : Nat × Paddock) => !x.2.batches.isEmpty || !(s.dev.livePad x.1).isEmpty
      let awake := ((W.of s).power fun p => { p with standbyAsked := false }).boot fun b => { b with phase := .run }
      exec (.standbyExit m) s = winds s (W.each (busy.map (·.1)) W.wakePad awake)))

/-- An access that the register's privilege lets pass acts on it: a checked register takes a write of the window's holder, any other register does what
it does; a read answers the value, and a _LO captures its _HI; an indirect access goes to the register that IDX_ADDR names (R508, R515 to R518, R524). -/
def Obligations.RegisterAccessesAct : Prop :=
  (∀ (m : Master) (a : BitVec 24) (v : Word) (s : State) (r : Reg), Reaches m s → idxData a.toNat = none → s.dev.regAt s.clock.herd a.toNat = some r →
    (r.priv = true → masterPriv m = true) →
    (isChecked a.toNat = true → s.dev.regs.cfg.holder = some (!masterHost m) → s.dev.regs.cfg.committing = false →
      exec (.registerWrite m a v) s = winds s ((W.of s).putReg a.toNat v.toNat))
    ∧ (isChecked a.toNat = false → exec (.registerWrite m a v) s = winds s ((W.of s).actReg m a.toNat v.toNat))
    ∧ (tableOfCtl a.toNat = none → r.hi = false →
      let hi := match s.dev.regAt s.clock.herd (a.toNat + 4) with | some x => x.val | none => 0
      let w := if r.lo then (W.of s).regs fun g => { g with captured := nput (masterNo m * 2 ^ 48 + a.toNat + 4) hi g.captured } else W.of s
      exec (.loReadCapture m a) s = ends s (w.regs fun g => { g with readValue := r.val, readStatus := 0 })))
  ∧ (∀ (m : Master) (t : Fin 11) (k : Fin 4) (s : State), Reaches m s → s.dev.targetAbsent t.val = false →
    let key := s.dev.pairKey t.val k.val
    let w := W.each (targetDomains t.val) W.wakeFor (W.of s)
    exec (.indirectAccess m t k none) s = winds s ((w.readKey m key).advancePair t.val k.val)
    ∧ ∀ v : Word, exec (.indirectAccess m t k (some v)) s = winds s ((w.writeKey m (bIdx + t.val * 0x40 + k.val * 0x10 + 4) key v.toNat).advancePair t.val k.val))

/-- A PRIV register, reached directly or through an indirect pair, reads zero for a master without privilege, whose writes are dropped and counted in
PRIV_DROP, with the address in PRIV_LAST; the access answers OK (R512). -/
def Obligations.PrivilegedRegistersAreGuarded : Prop :=
  ∀ (m : Master) (k : Nat) (w : W) (r : Reg), w.dev.regAt w.herd k = some r → r.priv = true → masterPriv m = false →
    (∀ a v : Nat, a < 2 ^ 24 → w.writeKey m a k v = w.regs fun g => { g with privDrop := (g.privDrop + 1) % 2 ^ 16, privLast := a })
    ∧ (w.readKey m k).dev.regs.readValue = 0 ∧ (w.readKey m k).dev.regs.readStatus = 0
    ∧ (∀ (a : BitVec 24) (v : Word) (s : State), w = W.of s → k = a.toNat → Reaches m s → idxData k = none →
      exec (.registerWrite m a v) s = winds s (w.writeKey m k k v.toNat) ∧ exec (.loReadCapture m a) s = ends s (w.readKey m k))

/-- A write of a checked register takes effect only from the window's holder, and not after COMMIT: any other is dropped and counted in CFG_DROP (R524). -/
def Obligations.CheckedWritesNeedTheWindow : Prop :=
  ∀ (m : Master) (k : Nat) (w : W) (r : Reg), w.dev.regAt w.herd k = some r → (r.priv = true → masterPriv m = true) → isChecked k = true →
    (w.dev.regs.cfg.holder ≠ some (!masterHost m) ∨ w.dev.regs.cfg.committing = true) →
    ∀ a v : Nat, w.writeKey m a k v = w.cfg fun c => { c with drop := (c.drop + 1) % 2 ^ 32 }

/-- A SWAP that is written while a window is open waits; when the window closes, a commit applies it, by CFG_REF or by the sweep, and an abandon or a
timeout drops it and leaves TABLE_ERR and the active tables as they were (R525). -/
def Obligations.SwapsWaitForTheWindow : Prop :=
  (∀ (m : Master) (t : SwapTarget) (s : State), Reaches m s → masterPriv m = true → s.dev.regs.cfg.holder.isSome = true →
    (t = .links ∨ s.dev.tablePresent (swapTarget t) = true) →
    exec (.swap m t) s = winds s ((W.of s).slots fun x => { x with swapWait := insertNat (swapTarget t) x.swapWait }))
  ∧ (∀ w : W, (w.closeWindow true).dev.slots = (W.each w.dev.slots.swapWait W.swapNow (w.slots fun x => { x with swapWait := [] })).dev.slots
    ∧ (w.closeWindow false).dev.slots = { w.dev.slots with swapWait := [] })
  ∧ (∀ (m : Master) (v : Word) (s : State), Reaches m s → masterPriv m = true → s.dev.regs.cfg.holder = some (!masterHost m) →
    exec (.cfgRefWrite m v) s =
      winds s ((((W.of s).commitCfg s.dev.checked).cfg fun c => { c with ref := v.toNat, state := 1 }).closeWindow true)
    ∧ (s.dev.regs.cfg.committing = false → exec (.cfgAbandon m) s = winds s ((W.of s).closeWindow false)))
  ∧ (∀ (x : Sweep) (s : State), AtWork s → s.dev.regs.cfg.sweep = some x → x.forCommit = true → s.dev.regs.cfg.committing = true →
    ∃ w : W, exec .cfgSweepEnd s = winds s (w.closeWindow true) ∧ w.dev.slots = s.dev.slots)
  ∧ (∀ (h : Nat) (s : State), AtWork s → s.dev.regs.cfg.holder = some false → s.dev.regs.cfg.committing = false → s.dev.regs.cfg.openedAt + 40_000_000 < h →
    ∃ w : W, exec (.cfgWindowTimeout h) s = winds (atHerd s h) (w.closeWindow false) ∧ w.dev.slots = s.dev.slots)

/-! ### Links -/

/-- The Halter link: a good DATA flit in order is taken, a bad one is discarded with a NAK; a CONTROL flit acknowledges; a replay follows 4 µs without
progress; a lost lane takes the link DOWN, and training brings it UP, where everything that waited is written (R412 to R417). -/
def Obligations.HalterLinkActs : Prop :=
  ∀ s : State, AtWork s →
    let w := W.of s
    (∀ f : HalterFlit, s.dev.halter.isUp = true → flitGood 1 f = true → f.seq.toNat = (s.dev.halter.rxLast + 1) % 65536 →
      let w := (w.halterHead f).halter fun l => { l with rxLast := f.seq.toNat, discarding := false, freed := l.freed + 1 }
      let b := w.dev.halter.partialTx ++ fit 244 f.body
      exec (.halterDataFlit f) s = winds s (w.takeTransactions b.length b))
    ∧ (∀ f : HalterFlit, s.dev.halter.isUp = true → flitGood 1 f = false →
      exec (.halterDataFlit f) s = winds s w.halterNak)
    ∧ (∀ f : HalterFlit, s.dev.halter.isUp = true → flitGood 2 f = true → exec (.halterControlFlit f) s = ends s (w.halterHead f))
    ∧ (s.dev.halter.isUp = true → s.dev.halter.sent ≠ [] → exec .halterReplayTimeout s = ends s w.halterReplay)
    ∧ (∀ lanes : BitVec 16, s.dev.halter.isUp = true → lanes.toNat ≠ 0 →
      let w := (w.halter fun l => { l with state := 1 }).event 6 [Config.stateCode 2]
      let w := if lanes.toNat % 256 ≠ 0 then w.detect caLinkLost uHalter 0 lanes.toNat 0 w.dev.halterUsers else w
      exec (.halterLinkLost lanes) s = ends s (if lanes.toNat / 256 ≠ 0 then w.detect caLinkLost uHalter 1 lanes.toNat 0 w.dev.halterUsers else w))
    ∧ (∀ lanes : BitVec 16, s.dev.halterTrains = true → s.dev.halterState lanes.toNat ≠ 1 →
      let half := if lanes.toNat % 256 = 255 then 1 else 0
      let fenced := s.dev.unitFenced uHalter 0 || s.dev.unitFenced uHalter 1
      let up := s.dev.halterState lanes.toNat
      let w := (w.halter fun l => if l.state = 0 then l.start up 512 else { l with state := up }).event 6 [Config.stateCode (if up = 3 then 4 else 3)]
      let w := if up = 3 && !fenced && !w.dev.boot.starting then w.detect caLinkHalf uHalter half half 0 w.dev.halterUsers else w
      exec (.halterLinkUp lanes) s = winds s w.drainHost.flushHost)
    ∧ (∀ lanes : BitVec 16, s.dev.halterTrains = true → s.dev.halterState lanes.toNat = 1 →
      exec (.halterLinkUp lanes) s = winds s (w.halter fun l => { l with state := 1 }))

/-- A Drove port that is UP takes a good train in order and delivers it, refuses a bad one, reads acknowledgements, replays after a timeout, and goes
DOWN with a LINK_LOST record (R402, R403, R407). -/
def Obligations.DrovePortsAct : Prop :=
  ∀ (port : Fin 12) (s : State), AtWork s → (s.dev.port port.val).state = 2 →
    let w := W.of s
    let p := port.val
    (∀ (h : DroveHead) (data : List Bytes), droveHeadGood 1 h = true → trainGood h data = true →
      h.seq.toNat = ((s.dev.port p).rxLast + 1) % 2 ^ 32 →
      exec (.droveTrain port h data) s = ends s (((w.droveHead p h).port p fun l => { l with
        rxLast := h.seq.toNat, discarding := false, freed := l.freed + 1 + data.length }).deliverTrain p h data))
    ∧ (∀ (h : DroveHead) (data : List Bytes), droveHeadGood 1 h = false →
      exec (.droveTrain port h data) s = ends s (w.droveNak p))
    ∧ (∀ h : DroveHead, droveHeadGood 2 h = true → exec (.droveControl port h) s = ends s (w.droveHead p h))
    ∧ ((s.dev.port p).sent ≠ [] → exec (.droveReplayTimeout port) s = ends s (w.droveReplay p))
    ∧ (∀ lanes : Byte,
      let down := (w.port p fun l => { l with state := 0, toSend := [], sent := [], discarding := false }).event 6 [Config.stateCode 2]
      exec (.droveLinkLost port lanes) s = winds s (down.detect caLinkLost uDrove p lanes.toNat 0 (s.dev.portUsers p)))

/-- Lock-step: a digest that is formed goes to the peer in a DIGEST train, one that arrives is compared, and 100 µs without it are a mismatch (R81). -/
def Obligations.LockstepDigestsAct : Prop :=
  (∀ (p : Fin 64) (q : Paddock) (l : Lockstep) (own : Nat × Nat × Nat × Bool) (s : State), AtWork s → s.dev.pad? p.val = some q → q.lockstep = some l →
    l.own.find? (fun x => !x.2.2.2) = some own →
    let t : Train := { kind := 3, paddock := p.val, flags := 0, channel := 0, launch := own.1, offset := own.2.1, data := [] }
    let sent := l.own.map fun x => if x = own then (x.1, x.2.1, x.2.2.1, true) else x
    let w := ((W.of s).sendTrain l.port (mkEntry oLockstep p.val) t).pad p.val fun q => { q with lockstep := some { l with own := sent } }
    exec (.lockstepDigestReady p) s = winds s (w.lockCompare p.val))
  ∧ (∀ (port : Fin 12) (h : DroveHead) (data : List Bytes) (l : Lockstep) (s : State), AtWork s → (s.dev.port port.val).state = 2 →
    droveHeadGood 3 h = true → trainGood h data = true →
    h.seq.toNat = ((s.dev.port port.val).rxLast + 1) % 2 ^ 32 →
    let w := ((W.of s).droveHead port.val h).port port.val fun l => { l with
      rxLast := h.seq.toNat, discarding := false, freed := l.freed + 1 + data.length }
    let p := h.paddock.toNat
    (w.dev.pad? p).bind (·.lockstep) = some l → l.port = port.val →
    let got : Lockstep := { l with peer := l.peer ++ [(h.launch.toNat, h.offset.toNat)] }
    exec (.lockstepDigestReceived port h data) s = winds s ((w.pad p fun q => { q with lockstep := some got }).lockCompare p))
  ∧ (∀ (p : Fin 64) (q : Paddock) (l : Lockstep) (own : Nat × Nat × Nat × Bool) (rest : List (Nat × Nat × Nat × Bool)) (s : State), AtWork s →
    s.dev.pad? p.val = some q → q.lockstep = some l → l.own = own :: rest →
    let t := atHerd s (own.2.2.1 + 40_000)
    let w := (W.of t).pad p.val fun q => { q with gated := none, lockstep := some (l.drop own.1) }
    exec (.lockstepTimeout p) s = winds t (w.lockFailed p.val q caLockTimeout l.port own.2.1))

/-! ### Launch points, epochs and steps -/

/-- A launch point is a multiple of 2,048 herd ticks that has not gone by. At it the changes that wait there apply first, then each paddock in
turn launches, completes or decides what it can (R43, R60 to R62). One that has gone by does nothing. -/
def Obligations.LaunchPointsAct : Prop :=
  ∀ (h : Nat) (s : State), AtWork s →
    (h % 2048 = 0 → s.clock.herd ≤ h →
      let t := atHerd s h
      let w := ((((W.of t).applyFences).applyChanges).fencesDone).passEpochs h
      let w := ((((w.groomLaunchPoint).handoverPoint).energyPoint h).serveLaunchPoint).embLaunchPoint
      let w := (w.tiersPoint).padLaunchPoint
      let w := ((w.beginTeardowns).beginReforms).finishRecoveries 17
      exec (.launchPoint h) s = winds t (W.each (w.dev.pads.map (·.1)) (W.launchPad h) w).standbyPoint)
    ∧ (h % 2048 ≠ 0 ∨ h < s.clock.herd → exec (.launchPoint h) s = .next s)

/-- At the boundary of its next epoch an index closes the open cut of its updates, and a consolidation that waits for it, or the host's new generation,
takes effect (R177, R178, R218, R229). A copied codebook completes its creation, or readies its generation. A remap of an embedding table is due at a
multiple of REMAP_PERIOD with a copy complete, and a row's copy moves its bytes (R322, R323). -/
def Obligations.EpochsAndCopiesAct : Prop :=
  (∀ (h : Nat) (i : DWord) (x : Index) (s : State), AtWork s → s.dev.index? i.toNat = some x → h = x.desc.boundary x.nextEpoch →
    let t := atHerd s h
    let w := (W.of t).index i.toNat fun y => { y with
      epoch := x.nextEpoch, begun := true, closed := y.closed ++ y.openCut.filter fun u => decide (y.desc.cutOf u.accepted ≤ x.nextEpoch)
      openCut := y.openCut.filter fun u => decide (x.nextEpoch < y.desc.cutOf u.accepted), closedCut := x.nextEpoch }
    exec (.epochBoundary h i) s = winds t ((w.consolidated i.toNat).hostGeneration i.toNat))
  ∧ (∀ (i : DWord) (x : Index) (s : State), AtWork s → s.dev.index? i.toNat = some x →
    (∀ r j, x.creating = some (r, j) →
      exec (.codebookCopyDone i) s = winds s ((((W.of s).copyCodebook x.desc).index i.toNat fun x => { x with creating := none }).complete r j .done))
    ∧ (∀ g, x.creating = none → x.pendingGen = some g → g.copied = false →
      exec (.codebookCopyDone i) s = winds s (((W.of s).copyCodebook g.desc).index i.toNat fun x => { x with pendingGen := some { g with copied := true } })))
  ∧ (∀ (h : Nat) (e : Fin 64) (x : Emb) (s : State), AtWork s → s.dev.emb? e.val = some x → h % x.desc.remapPeriod = 0 → x.migrations.any (·.copied) = true →
    exec (.remapDue h e) s = ends (atHerd s h) ((W.of (atHerd s h)).emb e.val fun y =>
      if h % y.desc.remapPeriod = 0 && y.migrations.any (·.copied) && !y.lost then { y with remapDue := true } else y))
  ∧ (∀ (e : Fin 64) (row : Word) (x : Emb) (m : Migration) (s : State), AtWork s → s.dev.emb? e.val = some x →
    x.migrations.find? (fun m => m.row = row.toNat && !m.copied) = some m →
    let w := W.of s
    let tail := x.desc.tailKey row.toNat
    let hot := x.desc.hotKey (x.desc.bayOf row.toNat) (if m.promote then m.slot else dirSlot m.src)
    let w := if m.promote then w.put hot (w.peeks tail x.desc.rowStride) else w.put tail (w.peeks hot x.desc.rowStride)
    exec (.embCopyDone e row) s =
      winds s (w.emb e.val fun y => { y with migrations := y.migrations.map fun z => if z = m then { z with copied := true } else z }))

/-- A plan word that is due issues at its cycle: the step comes there, the deadlines up to it pass, host reads that cannot have arrived are missed,
pages are counted, the word has its effect, what it met on with other words is undefined, its results are awaited and what it locks is kept from
background, and what it wrote and read is taken in. A word whose source is absent or has a missed granule breaches the step instead (R51, R57 to R59, R83, R337). It holds of each of the 28 rows of
words. -/
def Obligations.PlanWordsIssue : Prop :=
  ∀ k ∈ wordRows, ∀ (p : Fin 64) (w j : Nat) (c c' : Ctx) (s : State), Due p.val w j c s → c.word.cls = k.cls → k.fits c (W.of s) = true →
    let t := atHerd s (c.step.herdAt c.slot)
    let left := (W.of t).atWord c
    left.dev.issue? c.p c.w c.rep = some c' →
    let (lost, ready) := left.losesPair c'
    (lost = false → c'.breaches ready.dev = false →
      let w0 := c'.countPages ready
      exec (k.command p w j) s = ends t ((((k.effect c' w0).clashes c').underWay c').wordDone c' w0))
    ∧ (lost = true ∨ c'.breaches ready.dev = true →
      exec (k.command p w j) s = ends t ((ready.step c'.p fun x => { x with breached := true }).noteBreach c'.p c'.w))

/-- A running step comes to its boundary, to a hold point, to the end of a hold and to a deadline, each at the herd count of its plan cycle; and a
granule that it waits for arrives (R58, R63 to R65, R477). -/
def Obligations.StepsRunTheirCourse : Prop :=
  ∀ (p : Fin 64) (x : Step) (s : State), AtWork s → s.dev.step? p.val = some x →
    (x.comesTo x.plan.length = true →
      exec (.stepBoundary p) s = winds (atHerd s (x.herdAt x.plan.length)) ((W.of (atHerd s (x.herdAt x.plan.length))).boundary p.val))
    ∧ (∀ c, x.nextHold = some c → x.held = none → x.upTo c = true →
      exec (.holdPoint p) s = winds (atHerd s (x.herdAt c)) ((W.of (atHerd s (x.herdAt c))).holdPoint p.val c))
    ∧ (x.mayResume s.dev.power.thrLevel = true →
      let n := x.frames s.clock.herd
      let t := atHerd s (x.launch + ticksOfCycles (x.cycle + 256 * (x.holdFrames + n)))
      exec (.holdEnd p) s = ends t ((W.of t).step p.val fun y => { y with held := none, holdFrames := y.holdFrames + n }))
    ∧ (∀ c, x.nextDeadline = some c → x.comesTo c = true →
      exec (.deadlineExpiry p) s = ends (atHerd s (x.herdAt c)) (((W.of (atHerd s (x.herdAt c))).comeTo p.val c).settleReads p.val))
    ∧ (∀ (n : Nat) (check : BitVec 16) (y : Posted), x.posted[n]? = some y →
      let g := y.granule fun k => x.peek (W.of s) k
      let bad := s.dev.granuleBad y.src || x.oldBad.contains (y.src / 64 * 64)
      let w := (W.of s).step p.val fun z => { z with posted := dropPosted y z.posted }
      let ok := s.dev.served x.posted n y && s.dev.sensed (x.landed.map (·.2.2.1)) s.clock.herd y
      (ok = false → exec (.deadlineReadArrival p n check) s = ends s (W.of s))
      ∧ (ok = true → y.isWrite = true → exec (.deadlineReadArrival p n check) s = ends s w)
      ∧ (ok = true → y.isWrite = false → granuleGood bad check.toNat g = true →
        let at_ := match y.dst with | some k => [(y.desc, y.rep, y.src, k + 64 - y.skip)] | none => []
        let seen := (w.land p.val y (y.cells g)).step p.val fun z => { z with landed := at_ ++ z.landed }
        exec (.deadlineReadArrival p n check) s =
          ends s (seen.step p.val fun z => chainArrivals (z.cycleNow s.clock.herd) s.clock.herd (fun k m => (List.range m).map fun i => z.peek seen (k + i)) z))
      ∧ (ok = true → y.isWrite = false → granuleGood bad check.toNat g = false →
        exec (.deadlineReadArrival p n check) s =
          ends s ((w.step p.val fun z => { z with missed := (y.desc, y.rep, y.src) :: z.missed }).arrivalFailed [p.val] y.src y.dst (granuleInverted bad check.toNat g))))

/-- What ends at a boundary: a step that was breached or fenced is replayed, up to three attempts, and commits nothing. The step has left, no memory of the
device changes by it, what it had to send to the host and the link had not taken is dropped, and the paddock waits to launch it again with its attempt
counted (R65, R66, R443). -/
def Obligations.FailedAttemptsAreReplayed : Prop :=
  ∀ (p : Nat) (q : Paddock) (x : Step) (w : W), w.dev.pad? p = some q → q.teardown = none → x.cancel = [] → x.attempt < 3 → x.batch.service = 0 →
    w.dev.faults.toFence = [] → w.dev.faults.recovering = none → x.undo = [] →
    ∃ y : Step, w.failAttempt p x = (w.dropHostOut p).pad p (fun q => { q with replay := some y }) ∧ y.attempt = x.attempt + 1 ∧ y.plan = x.plan ∧ y.batch = x.batch ∧ y.bound = x.bound ∧ y.cycle = 0

/-! ### Faults -/

/-- A detection makes its record and puts its fence in place; the second mismatch at a page since the start is RETIRE_ADVISED; recovery ends, the log is copied, the defect list grows, a scrub and a re-formation end
(R443 to R457, R486, R396, R409). -/
def Obligations.FaultHappeningsAct : Prop :=
  (∀ (x : Detection) (cls : Nat) (s : State), AtWork s → causeClass x.cause.toNat = some cls →
    let d := s.dev.detected x cls
    (d.ofPage = false → exec (.faultDetection x) s = winds s ((W.of s).raise d))
    ∧ (d.ofPage = true → d.cause = caGranuleCheck →
      let w := (W.of s).faults fun f => { f with badPages := insertNat (unitKey d.ukind d.detail) f.badPages }
      exec (.faultDetection x) s =
        winds s (w.raise (if s.dev.faults.badPages.contains (unitKey d.ukind d.detail) then { d with cause := caRetireAdvised } else d))))
  ∧ (∀ (r : FaultRec) (s : State), AtWork s → s.dev.faults.recovering = some r → s.dev.recoveryOver r = true →
    exec .recoveryEnd s = winds s (((W.of s).endRecovery).finishRecoveries 16))
  ∧ (∀ s : State, s.dev.boot.phase = .safe ∨ s.dev.boot.phase = .poweringDown →
    exec .faultLogCopy s = ends s ((W.of s).boot (Boot.setLogCopy (s.dev.faults.log.take 256))))
  ∧ (∀ (e : DefectEntry) (rest : List DefectEntry) (s : State), AtWork s → s.dev.boot.toAppend = e :: rest →
    (s.dev.boot.defects.any fun y => y.ukind = e.ukind && y.uindex = e.uindex) = false → s.dev.boot.defects.length < 8191 →
    exec .defectListAppend s = ends s (((W.of s).boot fun b => { b with toAppend := rest }).boot (Boot.setDefects (s.dev.boot.defects ++ [e]))))
  ∧ (∀ (p : Fin 64) (q : Paddock) (s : State), AtWork s → s.dev.pad? p.val = some q → q.scrubbing = true →
    let w := (W.of s).wipe (s.dev.scrubbed p.val q)
    (q.state ≠ .tearing → exec (.scrubEnd p) s = winds s (w.pad p.val fun q => { q with scrubbing := false, scrubDone := true }))
    ∧ (∀ t, q.state = .tearing → q.teardown = some t →
      let gone := { w with dev := { w.dev with pads := tdel p.val w.dev.pads } }
      exec (.scrubEnd p) s =
        winds s ((gone.faults fun f => { f with heldPages := f.heldPages.filter fun x => x.1 ≠ p.val }).complete t.ring t.index .done s.clock.herd)))
  ∧ (∀ (p : Fin 64) (q : Paddock) (s : State), AtWork s → s.dev.pad? p.val = some q → q.reform.isSome = true →
    exec (.reformationEnd p) s = winds s (((W.of s).reformEnd p.val).beginTeardown p.val))

/-- A sweep of the checked registers starts at each multiple of 400,000 ticks, and at its end it commits, matches, or records a mismatch
(R449, R522 to R524). -/
def Obligations.SweepsAct : Prop :=
  (∀ (h : Nat) (s : State), AtWork s → h % 400_000 = 0 → s.dev.regs.cfg.restoring = false →
    exec (.cfgSweepStart h) s = ends (atHerd s h) ((W.of (atHerd s h)).cfg fun c => { c with
      sweep := some { crc := sweepCrc s.dev.checked, startHerd := h, windowSeen := c.holder.isSome, forCommit := c.committing } }))
  ∧ (∀ (x : Sweep) (s : State), AtWork s → s.dev.regs.cfg.sweep = some x →
    let c := s.dev.regs.cfg
    let w := (W.of s).cfg fun c => { c with sweep := none, last := x.crc, sweeps := (c.sweeps + 1) % 2 ^ 32 }
    (x.forCommit = true → c.committing = true →
      exec .cfgSweepEnd s = winds s (((w.commitCfg s.dev.checked).cfg fun c => { c with ref := x.crc, state := 1 }).closeWindow true))
    ∧ (x.forCommit = false → x.windowSeen = false → c.holder = none → c.live = true → c.restoring = false →
      (x.crc = c.ref → exec .cfgSweepEnd s = winds s (w.cfg fun c => { c with state := 1 }))
      ∧ (x.crc ≠ c.ref → exec .cfgSweepEnd s = winds s ((w.cfg fun c => { c with state := 2 }).detect caCfgMismatch uHub 5 (x.crc + c.ref * 2 ^ 32) 0 [])))
    ∧ ((x.windowSeen = true ∨ c.holder ≠ none) → c.committing = false → exec .cfgSweepEnd s = winds s w))

/-! ### Temperature, power and energy -/

/-- A stack's report sets its temperature, its table change and its trip; a catastrophic signal and a lost reference clock stop the module; a sample of
the rails counts energy (R334 to R339, R442, R471 to R477). -/
def Obligations.TemperatureAndRailsAct : Prop :=
  (∀ (k : Fin 8) (c : Byte) (s : State), AtWork s → c.toNat < 105 →
    let t := s.dev.therm k.val
    let u := { t with temp := c.toNat, computed := nextLevel t.computed c.toNat, refresh2x := decide (95 ≤ c.toNat) || (t.refresh2x && decide (93 ≤ c.toNat)) }
    let w := (W.of s).tiers fun x => { x with therm := tput k.val u x.therm }
    exec (.stackTempReading k c) s =
      ends s (if u.computed ≠ u.applied then w.addChange { cause := 1, tables := stackTables k.val, links := false, stack := k.val } else w))
  ∧ (∀ (k : Fin 8) (c : Byte) (s : State), AtWork s →
    exec (.stackTrip k c) s =
      ends s (((W.of s).tiers fun x => { x with therm := tput k.val { s.dev.therm k.val with trip := true } x.therm }).detect caStackTrip uStack k.val 0 c.toNat []))
  ∧ (∀ s : State, AtWork s → (s.dev.boot.phase = .bringUp → s.dev.boot.stagesDone ≠ 0) → ∃ t, exec .refClkFault s = .next t ∧ t.dev.boot.phase = .safe)
  ∧ (∀ (r : RailSample) (s : State), s.dev.boot.phase ≠ .noPower →
    ∃ t, exec (.railSample r) s = .next t ∧ t.dev.power.inputUJ = s.dev.power.inputUJ + r.inputUJ ∧ t.dev.power.usedUJ = s.dev.power.usedUJ + r.inputUJ ∧
      t.dev.power.history = (r.inputUJ :: s.dev.power.history).take 200 ∧ t.dev.power.vinMV = r.vinMV)

/-- A stack's catastrophic signal, or a report at or above 105 °C, makes a DEVICE record of cause STACK_TRIP, and the module goes to the safe state (R338). -/
def Obligations.HotStackIsSafeState : Prop :=
  ∀ (k : Fin 8) (c : Byte) (i : Instr) (s : State), AtWork s → (i = .stackTrip k c ∨ i = .stackTempReading k c ∧ 105 ≤ c.toNat) →
    ∃ (t : State) (r : FaultRec), exec i s = .next t ∧ t.dev.boot.phase = .safe ∧ r.logBytes ∈ t.dev.faults.log ∧
      r.cls = clDevice ∧ r.cause = caStackTrip ∧ r.ukind = uStack ∧ r.uindex = k.val

/-- An energy window ends with its overdraft carried on, and a slice of a tenant's window ends: a new one begins at 0 and the oldest of 16 leaves (R294,
R473, R475, R476). -/
def Obligations.WindowsAndSlicesEnd : Prop :=
  (∀ (h : Nat) (s : State), AtWork s → h = s.dev.power.windowStart + s.dev.power.windowMS * 400_000 →
    let excess := s.dev.power.usedUJ - s.dev.power.allowW * s.dev.power.windowMS * 1000
    -- a batch above the whole allowance that has waited since the window began has waited through all of it (R475)
    let waited := s.dev.power.bigBatch.map fun x => (x.1, x.2.1, if x.2.2 ≤ s.dev.power.windowStart then 0 else x.2.2)
    exec (.energyWindowEnd h) s = ends (atHerd s h) ((W.of (atHerd s h)).power fun p => { p with
      windowStart := h, usedUJ := excess, overdraftIn := excess, bigBatch := waited }))
  ∧ (∀ (h : Nat) (t : Byte) (s : State), AtWork s → h % ((s.dev.tenant t.toNat).window / 16 * 2048) = 0 →
    exec (.budgetSliceEnd h t) s = ends (atHerd s h) ((W.of (atHerd s h)).tenant t.toNat fun x => { x with slices := (0 :: x.slices).take 16 }))

/-- A sleeping domain wakes, its wake completes, and an idle domain that no step holds goes one state deeper, no further than R464 and DEPTH_MAX let it,
once its idle time, or its gap in the running steps, reaches the minimum gap of that state; while background work runs in it, it stays IDLE. A wake for a
planned use begins when it is due. A domain that goes OFF loses its contents, and one that comes back has its registers reloaded and its Drove port trained
(R463 to R469, R482). -/
def Obligations.DomainsSleepAndWake : Prop :=
  ∀ (n : Fin 96) (s : State), s.dev.boot.phase.sleeps = true → s.dev.domainAbsent n.val = false →
    let x := s.dev.domain n.val
    let deeper := ends s ((W.of s).domain n.val fun x => { x with state := x.state + 1 })
    let gone := ends s (((W.of s).domain n.val fun x => { x with state := x.state + 1 }).domainLost n.val)
    (x.state ≠ 0 → x.waking = false → (s.dev.plannedUse n.val = true → s.dev.wakeDue s.clock.herd n.val = true) →
      let w := (W.of s).domain n.val fun x => { x with waking := true, wakes := (x.wakes + 1) % 65536 }
      ((portOf n.val = none ∨ x.state ≠ 4) → exec (.domainWake n) s = ends s w)
      ∧ (∀ p, portOf n.val = some p → x.state = 4 → exec (.domainWake n) s = ends s (w.port p fun l => { l with state := 1 })))
    ∧ (x.waking = true →
      let w := (W.of s).domain n.val fun x => { x with
        waking := false, state := if s.dev.plannedUse n.val && !s.dev.holdsDomain n.val then 0 else 1, idleSince := s.clock.herd }
      exec (.domainAwake n) s = ends s (if x.state = 4 then w.backFromOff n.val else w))
    ∧ (x.waking = false → s.dev.holdsDomain n.val = false → s.dev.plannedUse n.val = false → x.state < s.dev.deepestNow n.val →
      (x.state = 0 ∨ s.dev.backgroundDomains.contains n.val = false) → minGap (x.state + 1) * 8 ≤ (s.clock.herd - x.idleSince) * 21 →
      exec (.domainDeepen n) s = if x.state = 3 then gone else deeper)
    ∧ (x.waking = false → s.dev.holdsDomain n.val = false → s.dev.plannedUse n.val = true → x.state < s.dev.deepest n.val →
      (x.state = 0 ∨ s.dev.backgroundDomains.contains n.val = false) → minGap (x.state + 1) ≤ s.dev.gap n.val →
      exec (.domainDeepen n) s = if x.state = 3 then gone else deeper)
    ∧ (x.waking = false → x.state ≠ 0 → s.dev.backgroundDomains.contains n.val = true → exec (.domainDeepen n) s = ends s (W.of s))

/-! ### The shed, the tiers and the groom -/

/-- The shed's own work: its map is checkpointed, a block with the fewest valid granules is collected, a page is programmed, an erased block is free
and a failed one retired (R364 to R370). -/
def Obligations.ShedMaintainsItself : Prop :=
  ∀ s : State, s.dev.nandOn = true →
    exec .mapCheckpoint s = ends s ((W.of s).shed fun x => { x with checkpoint := x.map })
    ∧ (∀ (c : Fin 24) (b : Block), c.val < s.dev.shedN → (s.dev.shed.chan c.val).victim = none → (s.dev.shed.chan c.val).free c.val < 64 →
      firstBlock (fun b => (s.dev.shed.valid b).length) ((s.dev.shed.chan c.val).blocks.filter (·.state = 2)) = some b →
      exec (.garbageCollection c) s =
        ends s (((W.of s).programAll c.val (s.dev.shed.valid b)).chan c.val fun ch => { ch with victim := some b.number }).wakeBackground)
    ∧ (∀ (c : Fin 24) (b : Block), c.val < s.dev.shedN → s.dev.nextPage c.val ≠ [] → (s.dev.shed.chan c.val).opened c.val = some b →
      let page := s.dev.nextPage c.val
      exec (.pageProgramComplete c true) s =
        ends s (W.each page (fun b w => w.durable b.granule b.seq) ((W.of s).programPage c.val (page.map (·.granule)))).runStorage
      ∧ exec (.pageProgramComplete c false) s = ends s ((W.of s).retireBlock c.val b.number).runStorage)
    ∧ (∀ (c : Fin 24) (n : Nat), c.val < s.dev.shedN → (s.dev.shed.chan c.val).victim = some n →
      let b := (s.dev.shed.chan c.val).block n
      exec (.blockEraseComplete c n true) s =
        ends s ((W.of s).chan c.val fun ch => { (ch.putBlock { b with state := 0, erases := b.erases + 1, granules := [] }) with victim := none }).runStorage
      ∧ exec (.blockEraseComplete c n false) s = ends s (((W.of s).retireBlock c.val n).chan c.val fun ch => { ch with victim := none }).runStorage)

/-- The fill of a page that is being retired ends, and its replacement waits for a launch point; a commons page's copy completes, is made again where the
page was written meanwhile, and gives up the eighth time; automatic migration picks its pages at each period (R341, R356 to R358). -/
def Obligations.PagesAreFilledAndCopied : Prop :=
  (∀ (page : Nat) (lost : List Nat) (x : Retire) (s : State), AtWork s → s.dev.tiers.retiring.find? (fun x => x.page = page && !x.filled) = some x →
    let filled := fun (y : Retire) => if y.tier = x.tier && y.page = x.page then { y with filled := true, lost := lost } else y
    exec (.pageFillDone page lost) s = winds s ((W.of s).tiers fun t => { t with retiring := t.retiring.map filled }))
  ∧ (∀ (page : Nat) (m : CommonsMig) (s : State), AtWork s →
    s.dev.tiers.migrations.find? (fun m => m.page = page && !m.copied && m.place.isSome) = some m →
    let change := fun (f : CommonsMig → CommonsMig) => winds s ((W.of s).tiers fun t => { t with migrations := t.migrations.map fun y => if y.page = page then f y else y })
    (m.dirty = false → exec (.commonsCopyDone page) s = change fun y => { y with copied := true })
    ∧ (m.dirty = true → m.dirtyCount < 7 → exec (.commonsCopyDone page) s = change fun y => { y with dirty := false, dirtyCount := y.dirtyCount + 1 })
    ∧ (m.dirty = true → 7 ≤ m.dirtyCount → exec (.commonsCopyDone page) s = winds s ((W.of s).endMigration m .migrateBusy)))
  ∧ (∀ (h : Nat) (s : State), AtWork s → s.dev.tiers.commonsAuto = true → h % s.dev.migTicks = 0 →
    exec (.migPeriod h) s = winds (atHerd s h) (W.of (atHerd s h)).migrateAuto)

/-- A groom service ends and completes its command; a core comes back on the new firmware; the rewrite of the firmware region ends the handover
(R499 to R503). -/
def Obligations.GroomAndHandoverEnd : Prop :=
  (∀ (n : Nat) (ok : Bool) (g : GroomService) (s : State), AtWork s → s.dev.groom.services[n]? = some g → g.running = true → g.queued = false →
    (g.service = gsScrub ∨ g.service ≠ gsMemTest ∧ ok = false) →
    let st := if ok then Status.done else .groomFailed
    exec (.groomServiceEnd n ok []) s = winds s (((W.of s).groom fun x => {
      services := x.services.eraseIdx n, results := ((g.cmdId, st.code, g.service, s.clock.herd) :: x.results).take 16 }).complete g.ring g.index st g.start))
  ∧ (∀ (c : Fin 16) (h : Handover) (s : State), AtWork s → s.dev.boot.handover = some h → h.away = some c.val →
    (exec (.handoverCoreReturn c false) s = winds s (((W.of s).boot fun b => { b with handover := none }).complete h.ring h.index .handoverAborted))
    ∧ (h.todo ≠ [] →
      let g := { h with away := none, onNew := h.onNew ++ [c.val] }
      exec (.handoverCoreReturn c true) s = winds s ((W.of s).boot fun b => { b with handover := some g }))
    ∧ (h.todo = [] → h.keepStore = true →
      let w := ((W.of s).boot fun b => { b with fw := some h.image, handover := none }).mgmt fun m => { m with busyUntil := s.clock.herd + 40_000 }
      exec (.handoverCoreReturn c true) s = winds s (w.complete h.ring h.index .done h.image.version))
    ∧ (h.todo = [] → h.keepStore = false →
      let g := { h with away := none, onNew := h.onNew ++ [c.val], rewriting := true }
      let w := (W.of s).boot fun b => { b with fw := some h.image, handover := some g, tackFw := none }
      exec (.handoverCoreReturn c true) s = winds s (w.mgmt fun m => { m with busyUntil := s.clock.herd + 40_000 })))
  ∧ (∀ (ok : Bool) (h : Handover) (s : State), AtWork s → s.dev.boot.handover = some h → h.rewriting = true →
    exec (.tackRewriteDone ok) s = winds s (
      if ok then (((W.of s).boot (Boot.install h.image)).boot fun b => { b with handover := none }).complete h.ring h.index .done h.image.version
      else ((W.of s).boot fun b => { b with handover := none }).complete h.ring h.index .storeWrite 0))

/-! ### SYNC, power sequencing, the management bus and the TAP -/

/-- A valid SYNC message loads the herd count at stage 0 and is compared later; a bad check is counted; the count starts alone after 50 ms; 200 ms without
a message are STALE; and SYNC_OUT carries the count (R545 to R549). -/
def Obligations.SyncMessagesAct : Prop :=
  ∀ (count : DWord) (check : Byte) (h : Nat) (s : State), AtWork s →
    (count.toNat % 8 = 0 → syncGood count.toNat check.toNat = true →
      (s.dev.syncWaits = true → ∃ t, exec (.syncMessage count check false h) s = .next t ∧ t.clock.herd = count.toNat ∧ t.mem = s.mem ∧
        t.dev = { s.dev with sync := t.dev.sync } ∧ t.dev.sync.locked = true ∧ t.dev.sync.messages = (s.dev.sync.messages + 1) % 2 ^ 16)
      ∧ (s.dev.syncWaits = false → ∃ t, exec (.syncMessage count check false h) s = .next t ∧ t.clock = s.clock.advance h ∧ t.mem = s.mem ∧
        t.dev = { s.dev with sync := t.dev.sync } ∧ t.dev.sync.messages = (s.dev.sync.messages + 1) % 2 ^ 16 ∧
        t.dev.sync.mismatch = (s.dev.sync.mismatch || decide (count.toNat ≠ h))))
    ∧ (count.toNat % 8 = 0 → syncGood count.toNat check.toNat = false →
      exec (.syncMessage count check false h) s = ends s ((W.of s).sync fun y => { y with badCheck := (y.badCheck + 1) % 256 }))
    ∧ (s.dev.syncWaits = true → ∃ t, exec .syncWaitTimeout s = .next t ∧ t.clock.herd = 0 ∧ t.mem = s.mem ∧ t.dev = { s.dev with sync := { s.dev.sync with solo := true } })
    ∧ (s.dev.sync.locked = true →
      exec .syncStale s = ends (atHerd s (s.dev.sync.lastValid + 80_000_000)) ((W.of (atHerd s (s.dev.sync.lastValid + 80_000_000))).sync fun y => { y with stale := true }))
    ∧ (s.dev.sends = true → h % 2 ^ 22 = 0 →
      exec (.syncOutSend h) s = ends (atHerd s h) ((W.of (atHerd s h)).sync fun y => { y with out := some (1 + 2 * (h % 2 ^ 64) + 2 ^ 65 * syncCheck h) }))

/-- Where the pins and the input power take the module (R470, R541 to R543): from each state the phase that follows, and what a start or a power-down does
at once. -/
def Obligations.PowerSequencingActs : Prop :=
  ∀ s : State,
    let b := s.dev.boot
    let goes := fun (pwr reset : Bool) => if !pwr then Phase.held else if !reset then .inReset else .bringUp
    (b.phase = .noPower → ∃ t, exec .inputPowerApplied s = .next t ∧ t.dev.boot.phase = goes b.pwrEn b.resetN ∧ t.dev.boot.inputPresent = true)
    ∧ (b.phase = .held → b.inputPresent = true →
      ∃ t, exec .pwrEnRise s = .next t ∧ t.dev.boot.phase = goes true b.resetN ∧ (b.resetN = true → t.dev.boot.startCount = b.startCount + 1 ∧ t.dev.boot.prev = b.log))
    ∧ (b.phase = .run ∨ b.phase = .standby → ∃ t, exec .orderlyPowerDown s = .next t ∧ t.dev.boot.phase = .poweringDown ∧ t.mem = s.mem ∧
      (∀ p x, t.dev.step? p = some x → x.abandon = true))
    ∧ (b.phase = .bringUp ∨ b.phase = .imageWait ∨ b.phase = .safe ∨ b.phase = .inReset →
      ∃ t, exec .orderlyPowerDown s = .next t ∧ t.dev.boot.phase = .held ∧ t.dev.pads = [] ∧ t.dev.boot.pwrEn = false)
    ∧ (b.phase = .poweringDown → b.inputPresent = true → ∃ t, exec .heldEntry s = .next t ∧ t.dev.boot.phase = goes b.pwrEn b.resetN ∧
      t.dev.pads = [] ∧ t.dev.shed.buffer = [] ∧ t.dev.boot.logCopy = s.dev.faults.log.take 256)
    ∧ (b.phase ≠ .noPower → b.phase ≠ .held →
      ∃ t, exec .resetNLow s = .next t ∧ t.dev.boot.phase = .inReset ∧ t.dev.boot.resetN = false ∧ t.dev.pads = [] ∧ t.dev.faults.log = s.dev.faults.log)
    ∧ (b.phase = .inReset → b.inputPresent = true → b.pwrEn = true →
      ∃ t, exec .resetNRise s = .next t ∧ t.dev.boot.phase = .bringUp ∧ t.dev.boot.stagesDone = 0 ∧ t.dev.boot.startCount = b.startCount + 1)
    ∧ (∃ t, exec .inputPowerLost s = .next t ∧ t.dev.boot.phase = .noPower ∧ t.dev.boot.inputPresent = false ∧ t.dev.faults = Faults.reset ∧ t.dev.boot.log = [] ∧
      t.dev.pads = [])

/-- Bring-up: each stage that passes adds its report and the next begins; the images, the topology and the links are as found; a missing image or a wrong
topology waits for one; and stage 9 ends in RUN with the configuration committed. At stage 8 training is tried again (R491 to R495). -/
def Obligations.StagesComplete : Prop :=
  (∀ (f : StageFindings) (s : State), s.dev.boot.phase = .bringUp →
    (s.dev.boot.stagesDone = 0 → f.refClk = true → (s.dev.sync.locked = true ∨ s.dev.sync.solo = true) →
      ∃ t, exec (.stageComplete f) s = .next t ∧ t.dev.boot.stagesDone = 1 ∧ t.dev.boot.phase = .bringUp ∧ t.dev.boot.log.length = s.dev.boot.log.length + 1 ∧ t.mem = s.mem)
    ∧ (s.dev.boot.stagesDone = 1 → sfdpOffersNone f.sfdp = true → ∃ t, exec (.stageComplete f) s = .next t ∧ t.dev.boot.phase = .safe)
    ∧ (s.dev.boot.stagesDone = 1 → sfdpOffersNone f.sfdp = false → s.dev.boot.fw = none → f.fwOk = false →
      ∃ t, exec (.stageComplete f) s = .next t ∧ t.dev.boot.phase = .imageWait ∧ t.dev.boot.log.length = s.dev.boot.log.length + 1)
    ∧ (s.dev.boot.stagesDone = 3 → f.topologyOk = false →
      ∃ t, exec (.stageComplete f) s = .next t ∧ t.dev.boot.phase = .imageWait ∧ t.dev.boot.cfg = none)
    ∧ (s.dev.boot.stagesDone = 2 →
      ∃ t, exec (.stageComplete f) s = .next t ∧ t.dev.boot.stagesDone = 3 ∧ t.dev.boot.identityBad = !f.identityOk)
    ∧ (4 ≤ s.dev.boot.stagesDone → s.dev.boot.stagesDone ≤ 8 → (s.dev.boot.stagesDone = 8 → s.dev.halter.isUp = true) →
      ∃ t, exec (.stageComplete f) s = .next t ∧ t.dev.boot.stagesDone = s.dev.boot.stagesDone + 1 ∧ t.dev.boot.phase = .bringUp ∧
        t.dev.boot.log.length = s.dev.boot.log.length + 1)
    ∧ (s.dev.boot.stagesDone = 9 → (∀ e ∈ (s.dev.boot.cfg.map (·.entries)).getD [], isChecked e.1 = true) → ∃ t, exec (.stageComplete f) s = .next t ∧ t.dev.boot.phase = .run ∧ t.dev.boot.readyHerd = s.clock.herd ∧
        t.dev.regs.cfg.live = true ∧ t.dev.regs.cfg.state = 1))
  ∧ (∀ (lanes : BitVec 16) (s : State), s.dev.boot.phase = .bringUp → s.dev.boot.stagesDone = 8 → s.dev.halter.isUp = false → s.dev.halterState lanes.toNat ≠ 1 →
    exec (.halterTrainRetry lanes) s = ends s ((W.of s).halter (Link.start (s.dev.halterState lanes.toNat) 512)))

/-- The management bus answers its read commands in the states that R541 lets it answer in, and refuses every write with a NACK, whatever its code and
data (R479, R550). -/
def Obligations.ManagementBusAnswers : Prop :=
  (∀ (code : Byte) (data : Bytes) (s : State), ∃ t, exec (.pmbusWrite code data) s = .next t ∧ t.dev.mgmt.nack = true ∧ t.dev.mgmt.answer = [] ∧
    t = { s with dev := { s.dev with mgmt := t.dev.mgmt } })
  ∧ (∀ s : State, s.dev.busAnswers s.clock.herd = true →
    let tells := fun (b : Bytes) => ends s ((W.of s).mgmt fun m => { m with answer := b, nack := false })
    let p := s.dev.power
    exec .statusWord s = tells (leBytes 2 (b2n p.inputFault * 2 ^ 13 + b2n p.underVoltage * 2 ^ 3))
    ∧ exec .readVin s = tells (leBytes 2 (linear11 p.vinMV 1000))
    ∧ exec .readIin s = tells (leBytes 2 (linear11 p.inputMW (max 1 p.vinMV)))
    ∧ exec .readTemperature1 s = tells (leBytes 2 (linear11 s.dev.hottest 1))
    ∧ exec .readPin s = tells (leBytes 2 (linear11 p.inputMW 1000))
    ∧ exec .pmbusRevision s = tells (leBytes 1 0x33)
    ∧ exec .mfrEnergyBlock s = tells (leBytes 4 (p.usedUJ / 1000) ++ leBytes 4 p.allowance ++ leBytes 4 p.windowMS ++ leBytes 4 (s.dev.waiting s.clock.herd))
    ∧ (s.dev.alertN = some false → exec .alertResponse s = tells (leBytes 1 (2 * (0x40 + Config.smbAddr.toNat))))
    ∧ exec .smbusBusTimeout s = ends s ((W.of s).mgmt fun m => { m with answer := [], nack := false }))

/-- The TAP: each instruction is loaded while the gatehouse is powered and the module is not in the safe state; IDCODE scans its code, EXTEST, CLAMP and
HIGHZ act only while the module is HELD and as BYPASS else, and the TAP's reset selects IDCODE (R551). No TAP row changes anything but the TAP. -/
def Obligations.TapInstructionsLoad : Prop :=
  ∀ s : State,
    (s.dev.tapWorks = true →
      (∀ (i : Instr) (k : TapInstr), (i, k) ∈ [(.bypass, .bypass), (.idcode, .idcode), (.samplePreload none, .samplePreload), (.extest, .extest), (.clamp, .clamp), (.highz, .highz)] →
        ∃ t, exec i s = .next t ∧ t.dev.mgmt.tap = k ∧ t.mem = s.mem ∧ t.dev = { s.dev with mgmt := t.dev.mgmt, fresh := s.dev.fresh + 1 } ∧
          (k = .idcode → t.dev.mgmt.tdo = 0x0B7AC0F3) ∧ (k = .bypass → t.dev.mgmt.tdo = 0) ∧
          ((k = .extest ∨ k = .clamp ∨ k = .highz) → t.dev.tapActs = (if s.dev.boot.phase = .held then k else .bypass) ∧
            (s.dev.boot.phase ≠ .held → t.dev.mgmt.tdo = 0 ∧ t.dev.pinsFromBoundary = false)))
      ∧ ∀ v : BitVec 32, ∃ t, exec (.samplePreload (some v)) s = .next t ∧ t.dev.mgmt.tap = .samplePreload ∧ t.dev.mgmt.boundary = v.toNat)
    ∧ exec .tapReset s = ends s ((W.of s).mgmt fun m => { m with tap := .idcode, tapReset := true })
end

