-- ==== Sys2Proof/Laws/State.lean ====
section
/-! SUPPORT. What each change of a record of the device leaves of the rest: one lemma for each field under each change, true by unfolding. -/

namespace Sys2Proof.Machine

/-! ### `W.boot` -/

@[simp] theorem W.boot_st (f : Boot → Boot) (w : W) : (w.boot f).st = w.st := rfl
@[simp] theorem W.boot_log (f : Boot → Boot) (w : W) : (w.boot f).log = w.log := rfl
@[simp] theorem W.boot_boot (f : Boot → Boot) (w : W) : (w.boot f).dev.boot = f w.dev.boot := rfl
@[simp] theorem W.boot_sync (f : Boot → Boot) (w : W) : (w.boot f).dev.sync = w.dev.sync := rfl
@[simp] theorem W.boot_power (f : Boot → Boot) (w : W) : (w.boot f).dev.power = w.dev.power := rfl
@[simp] theorem W.boot_regs (f : Boot → Boot) (w : W) : (w.boot f).dev.regs = w.dev.regs := rfl
@[simp] theorem W.boot_slots (f : Boot → Boot) (w : W) : (w.boot f).dev.slots = w.dev.slots := rfl
@[simp] theorem W.boot_rings (f : Boot → Boot) (w : W) : (w.boot f).dev.rings = w.dev.rings := rfl
@[simp] theorem W.boot_events (f : Boot → Boot) (w : W) : (w.boot f).dev.events = w.dev.events := rfl
@[simp] theorem W.boot_faults (f : Boot → Boot) (w : W) : (w.boot f).dev.faults = w.dev.faults := rfl
@[simp] theorem W.boot_badStalls (f : Boot → Boot) (w : W) : (w.boot f).dev.badStalls = w.dev.badStalls := rfl
@[simp] theorem W.boot_columns (f : Boot → Boot) (w : W) : (w.boot f).dev.columns = w.dev.columns := rfl
@[simp] theorem W.boot_moves (f : Boot → Boot) (w : W) : (w.boot f).dev.moves = w.dev.moves := rfl
@[simp] theorem W.boot_goneStables (f : Boot → Boot) (w : W) : (w.boot f).dev.goneStables = w.dev.goneStables := rfl
@[simp] theorem W.boot_pads (f : Boot → Boot) (w : W) : (w.boot f).dev.pads = w.dev.pads := rfl
@[simp] theorem W.boot_serve (f : Boot → Boot) (w : W) : (w.boot f).dev.serve = w.dev.serve := rfl
@[simp] theorem W.boot_indexes (f : Boot → Boot) (w : W) : (w.boot f).dev.indexes = w.dev.indexes := rfl
@[simp] theorem W.boot_embs (f : Boot → Boot) (w : W) : (w.boot f).dev.embs = w.dev.embs := rfl
@[simp] theorem W.boot_tiers (f : Boot → Boot) (w : W) : (w.boot f).dev.tiers = w.dev.tiers := rfl
@[simp] theorem W.boot_shed (f : Boot → Boot) (w : W) : (w.boot f).dev.shed = w.dev.shed := rfl
@[simp] theorem W.boot_halter (f : Boot → Boot) (w : W) : (w.boot f).dev.halter = w.dev.halter := rfl
@[simp] theorem W.boot_drove (f : Boot → Boot) (w : W) : (w.boot f).dev.drove = w.dev.drove := rfl
@[simp] theorem W.boot_groom (f : Boot → Boot) (w : W) : (w.boot f).dev.groom = w.dev.groom := rfl
@[simp] theorem W.boot_mgmt (f : Boot → Boot) (w : W) : (w.boot f).dev.mgmt = w.dev.mgmt := rfl
@[simp] theorem W.boot_fresh (f : Boot → Boot) (w : W) : (w.boot f).dev.fresh = w.dev.fresh := rfl

/-! ### `W.sync` -/

@[simp] theorem W.sync_st (f : Sync → Sync) (w : W) : (w.sync f).st = w.st := rfl
@[simp] theorem W.sync_log (f : Sync → Sync) (w : W) : (w.sync f).log = w.log := rfl
@[simp] theorem W.sync_boot (f : Sync → Sync) (w : W) : (w.sync f).dev.boot = w.dev.boot := rfl
@[simp] theorem W.sync_sync (f : Sync → Sync) (w : W) : (w.sync f).dev.sync = f w.dev.sync := rfl
@[simp] theorem W.sync_power (f : Sync → Sync) (w : W) : (w.sync f).dev.power = w.dev.power := rfl
@[simp] theorem W.sync_regs (f : Sync → Sync) (w : W) : (w.sync f).dev.regs = w.dev.regs := rfl
@[simp] theorem W.sync_slots (f : Sync → Sync) (w : W) : (w.sync f).dev.slots = w.dev.slots := rfl
@[simp] theorem W.sync_rings (f : Sync → Sync) (w : W) : (w.sync f).dev.rings = w.dev.rings := rfl
@[simp] theorem W.sync_events (f : Sync → Sync) (w : W) : (w.sync f).dev.events = w.dev.events := rfl
@[simp] theorem W.sync_faults (f : Sync → Sync) (w : W) : (w.sync f).dev.faults = w.dev.faults := rfl
@[simp] theorem W.sync_badStalls (f : Sync → Sync) (w : W) : (w.sync f).dev.badStalls = w.dev.badStalls := rfl
@[simp] theorem W.sync_columns (f : Sync → Sync) (w : W) : (w.sync f).dev.columns = w.dev.columns := rfl
@[simp] theorem W.sync_moves (f : Sync → Sync) (w : W) : (w.sync f).dev.moves = w.dev.moves := rfl
@[simp] theorem W.sync_goneStables (f : Sync → Sync) (w : W) : (w.sync f).dev.goneStables = w.dev.goneStables := rfl
@[simp] theorem W.sync_pads (f : Sync → Sync) (w : W) : (w.sync f).dev.pads = w.dev.pads := rfl
@[simp] theorem W.sync_serve (f : Sync → Sync) (w : W) : (w.sync f).dev.serve = w.dev.serve := rfl
@[simp] theorem W.sync_indexes (f : Sync → Sync) (w : W) : (w.sync f).dev.indexes = w.dev.indexes := rfl
@[simp] theorem W.sync_embs (f : Sync → Sync) (w : W) : (w.sync f).dev.embs = w.dev.embs := rfl
@[simp] theorem W.sync_tiers (f : Sync → Sync) (w : W) : (w.sync f).dev.tiers = w.dev.tiers := rfl
@[simp] theorem W.sync_shed (f : Sync → Sync) (w : W) : (w.sync f).dev.shed = w.dev.shed := rfl
@[simp] theorem W.sync_halter (f : Sync → Sync) (w : W) : (w.sync f).dev.halter = w.dev.halter := rfl
@[simp] theorem W.sync_drove (f : Sync → Sync) (w : W) : (w.sync f).dev.drove = w.dev.drove := rfl
@[simp] theorem W.sync_groom (f : Sync → Sync) (w : W) : (w.sync f).dev.groom = w.dev.groom := rfl
@[simp] theorem W.sync_mgmt (f : Sync → Sync) (w : W) : (w.sync f).dev.mgmt = w.dev.mgmt := rfl
@[simp] theorem W.sync_fresh (f : Sync → Sync) (w : W) : (w.sync f).dev.fresh = w.dev.fresh := rfl

/-! ### `W.power` -/

@[simp] theorem W.power_st (f : Power → Power) (w : W) : (w.power f).st = w.st := rfl
@[simp] theorem W.power_log (f : Power → Power) (w : W) : (w.power f).log = w.log := rfl
@[simp] theorem W.power_boot (f : Power → Power) (w : W) : (w.power f).dev.boot = w.dev.boot := rfl
@[simp] theorem W.power_sync (f : Power → Power) (w : W) : (w.power f).dev.sync = w.dev.sync := rfl
@[simp] theorem W.power_power (f : Power → Power) (w : W) : (w.power f).dev.power = f w.dev.power := rfl
@[simp] theorem W.power_regs (f : Power → Power) (w : W) : (w.power f).dev.regs = w.dev.regs := rfl
@[simp] theorem W.power_slots (f : Power → Power) (w : W) : (w.power f).dev.slots = w.dev.slots := rfl
@[simp] theorem W.power_rings (f : Power → Power) (w : W) : (w.power f).dev.rings = w.dev.rings := rfl
@[simp] theorem W.power_events (f : Power → Power) (w : W) : (w.power f).dev.events = w.dev.events := rfl
@[simp] theorem W.power_faults (f : Power → Power) (w : W) : (w.power f).dev.faults = w.dev.faults := rfl
@[simp] theorem W.power_badStalls (f : Power → Power) (w : W) : (w.power f).dev.badStalls = w.dev.badStalls := rfl
@[simp] theorem W.power_columns (f : Power → Power) (w : W) : (w.power f).dev.columns = w.dev.columns := rfl
@[simp] theorem W.power_moves (f : Power → Power) (w : W) : (w.power f).dev.moves = w.dev.moves := rfl
@[simp] theorem W.power_goneStables (f : Power → Power) (w : W) : (w.power f).dev.goneStables = w.dev.goneStables := rfl
@[simp] theorem W.power_pads (f : Power → Power) (w : W) : (w.power f).dev.pads = w.dev.pads := rfl
@[simp] theorem W.power_serve (f : Power → Power) (w : W) : (w.power f).dev.serve = w.dev.serve := rfl
@[simp] theorem W.power_indexes (f : Power → Power) (w : W) : (w.power f).dev.indexes = w.dev.indexes := rfl
@[simp] theorem W.power_embs (f : Power → Power) (w : W) : (w.power f).dev.embs = w.dev.embs := rfl
@[simp] theorem W.power_tiers (f : Power → Power) (w : W) : (w.power f).dev.tiers = w.dev.tiers := rfl
@[simp] theorem W.power_shed (f : Power → Power) (w : W) : (w.power f).dev.shed = w.dev.shed := rfl
@[simp] theorem W.power_halter (f : Power → Power) (w : W) : (w.power f).dev.halter = w.dev.halter := rfl
@[simp] theorem W.power_drove (f : Power → Power) (w : W) : (w.power f).dev.drove = w.dev.drove := rfl
@[simp] theorem W.power_groom (f : Power → Power) (w : W) : (w.power f).dev.groom = w.dev.groom := rfl
@[simp] theorem W.power_mgmt (f : Power → Power) (w : W) : (w.power f).dev.mgmt = w.dev.mgmt := rfl
@[simp] theorem W.power_fresh (f : Power → Power) (w : W) : (w.power f).dev.fresh = w.dev.fresh := rfl

/-! ### `W.regs` -/

@[simp] theorem W.regs_st (f : Regs → Regs) (w : W) : (w.regs f).st = w.st := rfl
@[simp] theorem W.regs_log (f : Regs → Regs) (w : W) : (w.regs f).log = w.log := rfl
@[simp] theorem W.regs_boot (f : Regs → Regs) (w : W) : (w.regs f).dev.boot = w.dev.boot := rfl
@[simp] theorem W.regs_sync (f : Regs → Regs) (w : W) : (w.regs f).dev.sync = w.dev.sync := rfl
@[simp] theorem W.regs_power (f : Regs → Regs) (w : W) : (w.regs f).dev.power = w.dev.power := rfl
@[simp] theorem W.regs_regs (f : Regs → Regs) (w : W) : (w.regs f).dev.regs = f w.dev.regs := rfl
@[simp] theorem W.regs_slots (f : Regs → Regs) (w : W) : (w.regs f).dev.slots = w.dev.slots := rfl
@[simp] theorem W.regs_rings (f : Regs → Regs) (w : W) : (w.regs f).dev.rings = w.dev.rings := rfl
@[simp] theorem W.regs_events (f : Regs → Regs) (w : W) : (w.regs f).dev.events = w.dev.events := rfl
@[simp] theorem W.regs_faults (f : Regs → Regs) (w : W) : (w.regs f).dev.faults = w.dev.faults := rfl
@[simp] theorem W.regs_badStalls (f : Regs → Regs) (w : W) : (w.regs f).dev.badStalls = w.dev.badStalls := rfl
@[simp] theorem W.regs_columns (f : Regs → Regs) (w : W) : (w.regs f).dev.columns = w.dev.columns := rfl
@[simp] theorem W.regs_moves (f : Regs → Regs) (w : W) : (w.regs f).dev.moves = w.dev.moves := rfl
@[simp] theorem W.regs_goneStables (f : Regs → Regs) (w : W) : (w.regs f).dev.goneStables = w.dev.goneStables := rfl
@[simp] theorem W.regs_pads (f : Regs → Regs) (w : W) : (w.regs f).dev.pads = w.dev.pads := rfl
@[simp] theorem W.regs_serve (f : Regs → Regs) (w : W) : (w.regs f).dev.serve = w.dev.serve := rfl
@[simp] theorem W.regs_indexes (f : Regs → Regs) (w : W) : (w.regs f).dev.indexes = w.dev.indexes := rfl
@[simp] theorem W.regs_embs (f : Regs → Regs) (w : W) : (w.regs f).dev.embs = w.dev.embs := rfl
@[simp] theorem W.regs_tiers (f : Regs → Regs) (w : W) : (w.regs f).dev.tiers = w.dev.tiers := rfl
@[simp] theorem W.regs_shed (f : Regs → Regs) (w : W) : (w.regs f).dev.shed = w.dev.shed := rfl
@[simp] theorem W.regs_halter (f : Regs → Regs) (w : W) : (w.regs f).dev.halter = w.dev.halter := rfl
@[simp] theorem W.regs_drove (f : Regs → Regs) (w : W) : (w.regs f).dev.drove = w.dev.drove := rfl
@[simp] theorem W.regs_groom (f : Regs → Regs) (w : W) : (w.regs f).dev.groom = w.dev.groom := rfl
@[simp] theorem W.regs_mgmt (f : Regs → Regs) (w : W) : (w.regs f).dev.mgmt = w.dev.mgmt := rfl
@[simp] theorem W.regs_fresh (f : Regs → Regs) (w : W) : (w.regs f).dev.fresh = w.dev.fresh := rfl

/-! ### `W.slots` -/

@[simp] theorem W.slots_st (f : Slots → Slots) (w : W) : (w.slots f).st = w.st := rfl
@[simp] theorem W.slots_log (f : Slots → Slots) (w : W) : (w.slots f).log = w.log := rfl
@[simp] theorem W.slots_boot (f : Slots → Slots) (w : W) : (w.slots f).dev.boot = w.dev.boot := rfl
@[simp] theorem W.slots_sync (f : Slots → Slots) (w : W) : (w.slots f).dev.sync = w.dev.sync := rfl
@[simp] theorem W.slots_power (f : Slots → Slots) (w : W) : (w.slots f).dev.power = w.dev.power := rfl
@[simp] theorem W.slots_regs (f : Slots → Slots) (w : W) : (w.slots f).dev.regs = w.dev.regs := rfl
@[simp] theorem W.slots_slots (f : Slots → Slots) (w : W) : (w.slots f).dev.slots = f w.dev.slots := rfl
@[simp] theorem W.slots_rings (f : Slots → Slots) (w : W) : (w.slots f).dev.rings = w.dev.rings := rfl
@[simp] theorem W.slots_events (f : Slots → Slots) (w : W) : (w.slots f).dev.events = w.dev.events := rfl
@[simp] theorem W.slots_faults (f : Slots → Slots) (w : W) : (w.slots f).dev.faults = w.dev.faults := rfl
@[simp] theorem W.slots_badStalls (f : Slots → Slots) (w : W) : (w.slots f).dev.badStalls = w.dev.badStalls := rfl
@[simp] theorem W.slots_columns (f : Slots → Slots) (w : W) : (w.slots f).dev.columns = w.dev.columns := rfl
@[simp] theorem W.slots_moves (f : Slots → Slots) (w : W) : (w.slots f).dev.moves = w.dev.moves := rfl
@[simp] theorem W.slots_goneStables (f : Slots → Slots) (w : W) : (w.slots f).dev.goneStables = w.dev.goneStables := rfl
@[simp] theorem W.slots_pads (f : Slots → Slots) (w : W) : (w.slots f).dev.pads = w.dev.pads := rfl
@[simp] theorem W.slots_serve (f : Slots → Slots) (w : W) : (w.slots f).dev.serve = w.dev.serve := rfl
@[simp] theorem W.slots_indexes (f : Slots → Slots) (w : W) : (w.slots f).dev.indexes = w.dev.indexes := rfl
@[simp] theorem W.slots_embs (f : Slots → Slots) (w : W) : (w.slots f).dev.embs = w.dev.embs := rfl
@[simp] theorem W.slots_tiers (f : Slots → Slots) (w : W) : (w.slots f).dev.tiers = w.dev.tiers := rfl
@[simp] theorem W.slots_shed (f : Slots → Slots) (w : W) : (w.slots f).dev.shed = w.dev.shed := rfl
@[simp] theorem W.slots_halter (f : Slots → Slots) (w : W) : (w.slots f).dev.halter = w.dev.halter := rfl
@[simp] theorem W.slots_drove (f : Slots → Slots) (w : W) : (w.slots f).dev.drove = w.dev.drove := rfl
@[simp] theorem W.slots_groom (f : Slots → Slots) (w : W) : (w.slots f).dev.groom = w.dev.groom := rfl
@[simp] theorem W.slots_mgmt (f : Slots → Slots) (w : W) : (w.slots f).dev.mgmt = w.dev.mgmt := rfl
@[simp] theorem W.slots_fresh (f : Slots → Slots) (w : W) : (w.slots f).dev.fresh = w.dev.fresh := rfl

/-! ### `W.events` -/

@[simp] theorem W.events_st (f : EventRing → EventRing) (w : W) : (w.events f).st = w.st := rfl
@[simp] theorem W.events_log (f : EventRing → EventRing) (w : W) : (w.events f).log = w.log := rfl
@[simp] theorem W.events_boot (f : EventRing → EventRing) (w : W) : (w.events f).dev.boot = w.dev.boot := rfl
@[simp] theorem W.events_sync (f : EventRing → EventRing) (w : W) : (w.events f).dev.sync = w.dev.sync := rfl
@[simp] theorem W.events_power (f : EventRing → EventRing) (w : W) : (w.events f).dev.power = w.dev.power := rfl
@[simp] theorem W.events_regs (f : EventRing → EventRing) (w : W) : (w.events f).dev.regs = w.dev.regs := rfl
@[simp] theorem W.events_slots (f : EventRing → EventRing) (w : W) : (w.events f).dev.slots = w.dev.slots := rfl
@[simp] theorem W.events_rings (f : EventRing → EventRing) (w : W) : (w.events f).dev.rings = w.dev.rings := rfl
@[simp] theorem W.events_events (f : EventRing → EventRing) (w : W) : (w.events f).dev.events = f w.dev.events := rfl
@[simp] theorem W.events_faults (f : EventRing → EventRing) (w : W) : (w.events f).dev.faults = w.dev.faults := rfl
@[simp] theorem W.events_badStalls (f : EventRing → EventRing) (w : W) : (w.events f).dev.badStalls = w.dev.badStalls := rfl
@[simp] theorem W.events_columns (f : EventRing → EventRing) (w : W) : (w.events f).dev.columns = w.dev.columns := rfl
@[simp] theorem W.events_moves (f : EventRing → EventRing) (w : W) : (w.events f).dev.moves = w.dev.moves := rfl
@[simp] theorem W.events_goneStables (f : EventRing → EventRing) (w : W) : (w.events f).dev.goneStables = w.dev.goneStables := rfl
@[simp] theorem W.events_pads (f : EventRing → EventRing) (w : W) : (w.events f).dev.pads = w.dev.pads := rfl
@[simp] theorem W.events_serve (f : EventRing → EventRing) (w : W) : (w.events f).dev.serve = w.dev.serve := rfl
@[simp] theorem W.events_indexes (f : EventRing → EventRing) (w : W) : (w.events f).dev.indexes = w.dev.indexes := rfl
@[simp] theorem W.events_embs (f : EventRing → EventRing) (w : W) : (w.events f).dev.embs = w.dev.embs := rfl
@[simp] theorem W.events_tiers (f : EventRing → EventRing) (w : W) : (w.events f).dev.tiers = w.dev.tiers := rfl
@[simp] theorem W.events_shed (f : EventRing → EventRing) (w : W) : (w.events f).dev.shed = w.dev.shed := rfl
@[simp] theorem W.events_halter (f : EventRing → EventRing) (w : W) : (w.events f).dev.halter = w.dev.halter := rfl
@[simp] theorem W.events_drove (f : EventRing → EventRing) (w : W) : (w.events f).dev.drove = w.dev.drove := rfl
@[simp] theorem W.events_groom (f : EventRing → EventRing) (w : W) : (w.events f).dev.groom = w.dev.groom := rfl
@[simp] theorem W.events_mgmt (f : EventRing → EventRing) (w : W) : (w.events f).dev.mgmt = w.dev.mgmt := rfl
@[simp] theorem W.events_fresh (f : EventRing → EventRing) (w : W) : (w.events f).dev.fresh = w.dev.fresh := rfl

/-! ### `W.faults` -/

@[simp] theorem W.faults_st (f : Faults → Faults) (w : W) : (w.faults f).st = w.st := rfl
@[simp] theorem W.faults_log (f : Faults → Faults) (w : W) : (w.faults f).log = w.log := rfl
@[simp] theorem W.faults_boot (f : Faults → Faults) (w : W) : (w.faults f).dev.boot = w.dev.boot := rfl
@[simp] theorem W.faults_sync (f : Faults → Faults) (w : W) : (w.faults f).dev.sync = w.dev.sync := rfl
@[simp] theorem W.faults_power (f : Faults → Faults) (w : W) : (w.faults f).dev.power = w.dev.power := rfl
@[simp] theorem W.faults_regs (f : Faults → Faults) (w : W) : (w.faults f).dev.regs = w.dev.regs := rfl
@[simp] theorem W.faults_slots (f : Faults → Faults) (w : W) : (w.faults f).dev.slots = w.dev.slots := rfl
@[simp] theorem W.faults_rings (f : Faults → Faults) (w : W) : (w.faults f).dev.rings = w.dev.rings := rfl
@[simp] theorem W.faults_events (f : Faults → Faults) (w : W) : (w.faults f).dev.events = w.dev.events := rfl
@[simp] theorem W.faults_faults (f : Faults → Faults) (w : W) : (w.faults f).dev.faults = f w.dev.faults := rfl
@[simp] theorem W.faults_badStalls (f : Faults → Faults) (w : W) : (w.faults f).dev.badStalls = w.dev.badStalls := rfl
@[simp] theorem W.faults_columns (f : Faults → Faults) (w : W) : (w.faults f).dev.columns = w.dev.columns := rfl
@[simp] theorem W.faults_moves (f : Faults → Faults) (w : W) : (w.faults f).dev.moves = w.dev.moves := rfl
@[simp] theorem W.faults_goneStables (f : Faults → Faults) (w : W) : (w.faults f).dev.goneStables = w.dev.goneStables := rfl
@[simp] theorem W.faults_pads (f : Faults → Faults) (w : W) : (w.faults f).dev.pads = w.dev.pads := rfl
@[simp] theorem W.faults_serve (f : Faults → Faults) (w : W) : (w.faults f).dev.serve = w.dev.serve := rfl
@[simp] theorem W.faults_indexes (f : Faults → Faults) (w : W) : (w.faults f).dev.indexes = w.dev.indexes := rfl
@[simp] theorem W.faults_embs (f : Faults → Faults) (w : W) : (w.faults f).dev.embs = w.dev.embs := rfl
@[simp] theorem W.faults_tiers (f : Faults → Faults) (w : W) : (w.faults f).dev.tiers = w.dev.tiers := rfl
@[simp] theorem W.faults_shed (f : Faults → Faults) (w : W) : (w.faults f).dev.shed = w.dev.shed := rfl
@[simp] theorem W.faults_halter (f : Faults → Faults) (w : W) : (w.faults f).dev.halter = w.dev.halter := rfl
@[simp] theorem W.faults_drove (f : Faults → Faults) (w : W) : (w.faults f).dev.drove = w.dev.drove := rfl
@[simp] theorem W.faults_groom (f : Faults → Faults) (w : W) : (w.faults f).dev.groom = w.dev.groom := rfl
@[simp] theorem W.faults_mgmt (f : Faults → Faults) (w : W) : (w.faults f).dev.mgmt = w.dev.mgmt := rfl
@[simp] theorem W.faults_fresh (f : Faults → Faults) (w : W) : (w.faults f).dev.fresh = w.dev.fresh := rfl

/-! ### `W.serve` -/

@[simp] theorem W.serve_st (f : Serve → Serve) (w : W) : (w.serve f).st = w.st := rfl
@[simp] theorem W.serve_log (f : Serve → Serve) (w : W) : (w.serve f).log = w.log := rfl
@[simp] theorem W.serve_boot (f : Serve → Serve) (w : W) : (w.serve f).dev.boot = w.dev.boot := rfl
@[simp] theorem W.serve_sync (f : Serve → Serve) (w : W) : (w.serve f).dev.sync = w.dev.sync := rfl
@[simp] theorem W.serve_power (f : Serve → Serve) (w : W) : (w.serve f).dev.power = w.dev.power := rfl
@[simp] theorem W.serve_regs (f : Serve → Serve) (w : W) : (w.serve f).dev.regs = w.dev.regs := rfl
@[simp] theorem W.serve_slots (f : Serve → Serve) (w : W) : (w.serve f).dev.slots = w.dev.slots := rfl
@[simp] theorem W.serve_rings (f : Serve → Serve) (w : W) : (w.serve f).dev.rings = w.dev.rings := rfl
@[simp] theorem W.serve_events (f : Serve → Serve) (w : W) : (w.serve f).dev.events = w.dev.events := rfl
@[simp] theorem W.serve_faults (f : Serve → Serve) (w : W) : (w.serve f).dev.faults = w.dev.faults := rfl
@[simp] theorem W.serve_badStalls (f : Serve → Serve) (w : W) : (w.serve f).dev.badStalls = w.dev.badStalls := rfl
@[simp] theorem W.serve_columns (f : Serve → Serve) (w : W) : (w.serve f).dev.columns = w.dev.columns := rfl
@[simp] theorem W.serve_moves (f : Serve → Serve) (w : W) : (w.serve f).dev.moves = w.dev.moves := rfl
@[simp] theorem W.serve_goneStables (f : Serve → Serve) (w : W) : (w.serve f).dev.goneStables = w.dev.goneStables := rfl
@[simp] theorem W.serve_pads (f : Serve → Serve) (w : W) : (w.serve f).dev.pads = w.dev.pads := rfl
@[simp] theorem W.serve_serve (f : Serve → Serve) (w : W) : (w.serve f).dev.serve = f w.dev.serve := rfl
@[simp] theorem W.serve_indexes (f : Serve → Serve) (w : W) : (w.serve f).dev.indexes = w.dev.indexes := rfl
@[simp] theorem W.serve_embs (f : Serve → Serve) (w : W) : (w.serve f).dev.embs = w.dev.embs := rfl
@[simp] theorem W.serve_tiers (f : Serve → Serve) (w : W) : (w.serve f).dev.tiers = w.dev.tiers := rfl
@[simp] theorem W.serve_shed (f : Serve → Serve) (w : W) : (w.serve f).dev.shed = w.dev.shed := rfl
@[simp] theorem W.serve_halter (f : Serve → Serve) (w : W) : (w.serve f).dev.halter = w.dev.halter := rfl
@[simp] theorem W.serve_drove (f : Serve → Serve) (w : W) : (w.serve f).dev.drove = w.dev.drove := rfl
@[simp] theorem W.serve_groom (f : Serve → Serve) (w : W) : (w.serve f).dev.groom = w.dev.groom := rfl
@[simp] theorem W.serve_mgmt (f : Serve → Serve) (w : W) : (w.serve f).dev.mgmt = w.dev.mgmt := rfl
@[simp] theorem W.serve_fresh (f : Serve → Serve) (w : W) : (w.serve f).dev.fresh = w.dev.fresh := rfl

/-! ### `W.tiers` -/

@[simp] theorem W.tiers_st (f : Tiers → Tiers) (w : W) : (w.tiers f).st = w.st := rfl
@[simp] theorem W.tiers_log (f : Tiers → Tiers) (w : W) : (w.tiers f).log = w.log := rfl
@[simp] theorem W.tiers_boot (f : Tiers → Tiers) (w : W) : (w.tiers f).dev.boot = w.dev.boot := rfl
@[simp] theorem W.tiers_sync (f : Tiers → Tiers) (w : W) : (w.tiers f).dev.sync = w.dev.sync := rfl
@[simp] theorem W.tiers_power (f : Tiers → Tiers) (w : W) : (w.tiers f).dev.power = w.dev.power := rfl
@[simp] theorem W.tiers_regs (f : Tiers → Tiers) (w : W) : (w.tiers f).dev.regs = w.dev.regs := rfl
@[simp] theorem W.tiers_slots (f : Tiers → Tiers) (w : W) : (w.tiers f).dev.slots = w.dev.slots := rfl
@[simp] theorem W.tiers_rings (f : Tiers → Tiers) (w : W) : (w.tiers f).dev.rings = w.dev.rings := rfl
@[simp] theorem W.tiers_events (f : Tiers → Tiers) (w : W) : (w.tiers f).dev.events = w.dev.events := rfl
@[simp] theorem W.tiers_faults (f : Tiers → Tiers) (w : W) : (w.tiers f).dev.faults = w.dev.faults := rfl
@[simp] theorem W.tiers_badStalls (f : Tiers → Tiers) (w : W) : (w.tiers f).dev.badStalls = w.dev.badStalls := rfl
@[simp] theorem W.tiers_columns (f : Tiers → Tiers) (w : W) : (w.tiers f).dev.columns = w.dev.columns := rfl
@[simp] theorem W.tiers_moves (f : Tiers → Tiers) (w : W) : (w.tiers f).dev.moves = w.dev.moves := rfl
@[simp] theorem W.tiers_goneStables (f : Tiers → Tiers) (w : W) : (w.tiers f).dev.goneStables = w.dev.goneStables := rfl
@[simp] theorem W.tiers_pads (f : Tiers → Tiers) (w : W) : (w.tiers f).dev.pads = w.dev.pads := rfl
@[simp] theorem W.tiers_serve (f : Tiers → Tiers) (w : W) : (w.tiers f).dev.serve = w.dev.serve := rfl
@[simp] theorem W.tiers_indexes (f : Tiers → Tiers) (w : W) : (w.tiers f).dev.indexes = w.dev.indexes := rfl
@[simp] theorem W.tiers_embs (f : Tiers → Tiers) (w : W) : (w.tiers f).dev.embs = w.dev.embs := rfl
@[simp] theorem W.tiers_tiers (f : Tiers → Tiers) (w : W) : (w.tiers f).dev.tiers = f w.dev.tiers := rfl
@[simp] theorem W.tiers_shed (f : Tiers → Tiers) (w : W) : (w.tiers f).dev.shed = w.dev.shed := rfl
@[simp] theorem W.tiers_halter (f : Tiers → Tiers) (w : W) : (w.tiers f).dev.halter = w.dev.halter := rfl
@[simp] theorem W.tiers_drove (f : Tiers → Tiers) (w : W) : (w.tiers f).dev.drove = w.dev.drove := rfl
@[simp] theorem W.tiers_groom (f : Tiers → Tiers) (w : W) : (w.tiers f).dev.groom = w.dev.groom := rfl
@[simp] theorem W.tiers_mgmt (f : Tiers → Tiers) (w : W) : (w.tiers f).dev.mgmt = w.dev.mgmt := rfl
@[simp] theorem W.tiers_fresh (f : Tiers → Tiers) (w : W) : (w.tiers f).dev.fresh = w.dev.fresh := rfl

/-! ### `W.shed` -/

@[simp] theorem W.shed_st (f : Shed → Shed) (w : W) : (w.shed f).st = w.st := rfl
@[simp] theorem W.shed_log (f : Shed → Shed) (w : W) : (w.shed f).log = w.log := rfl
@[simp] theorem W.shed_boot (f : Shed → Shed) (w : W) : (w.shed f).dev.boot = w.dev.boot := rfl
@[simp] theorem W.shed_sync (f : Shed → Shed) (w : W) : (w.shed f).dev.sync = w.dev.sync := rfl
@[simp] theorem W.shed_power (f : Shed → Shed) (w : W) : (w.shed f).dev.power = w.dev.power := rfl
@[simp] theorem W.shed_regs (f : Shed → Shed) (w : W) : (w.shed f).dev.regs = w.dev.regs := rfl
@[simp] theorem W.shed_slots (f : Shed → Shed) (w : W) : (w.shed f).dev.slots = w.dev.slots := rfl
@[simp] theorem W.shed_rings (f : Shed → Shed) (w : W) : (w.shed f).dev.rings = w.dev.rings := rfl
@[simp] theorem W.shed_events (f : Shed → Shed) (w : W) : (w.shed f).dev.events = w.dev.events := rfl
@[simp] theorem W.shed_faults (f : Shed → Shed) (w : W) : (w.shed f).dev.faults = w.dev.faults := rfl
@[simp] theorem W.shed_badStalls (f : Shed → Shed) (w : W) : (w.shed f).dev.badStalls = w.dev.badStalls := rfl
@[simp] theorem W.shed_columns (f : Shed → Shed) (w : W) : (w.shed f).dev.columns = w.dev.columns := rfl
@[simp] theorem W.shed_moves (f : Shed → Shed) (w : W) : (w.shed f).dev.moves = w.dev.moves := rfl
@[simp] theorem W.shed_goneStables (f : Shed → Shed) (w : W) : (w.shed f).dev.goneStables = w.dev.goneStables := rfl
@[simp] theorem W.shed_pads (f : Shed → Shed) (w : W) : (w.shed f).dev.pads = w.dev.pads := rfl
@[simp] theorem W.shed_serve (f : Shed → Shed) (w : W) : (w.shed f).dev.serve = w.dev.serve := rfl
@[simp] theorem W.shed_indexes (f : Shed → Shed) (w : W) : (w.shed f).dev.indexes = w.dev.indexes := rfl
@[simp] theorem W.shed_embs (f : Shed → Shed) (w : W) : (w.shed f).dev.embs = w.dev.embs := rfl
@[simp] theorem W.shed_tiers (f : Shed → Shed) (w : W) : (w.shed f).dev.tiers = w.dev.tiers := rfl
@[simp] theorem W.shed_shed (f : Shed → Shed) (w : W) : (w.shed f).dev.shed = f w.dev.shed := rfl
@[simp] theorem W.shed_halter (f : Shed → Shed) (w : W) : (w.shed f).dev.halter = w.dev.halter := rfl
@[simp] theorem W.shed_drove (f : Shed → Shed) (w : W) : (w.shed f).dev.drove = w.dev.drove := rfl
@[simp] theorem W.shed_groom (f : Shed → Shed) (w : W) : (w.shed f).dev.groom = w.dev.groom := rfl
@[simp] theorem W.shed_mgmt (f : Shed → Shed) (w : W) : (w.shed f).dev.mgmt = w.dev.mgmt := rfl
@[simp] theorem W.shed_fresh (f : Shed → Shed) (w : W) : (w.shed f).dev.fresh = w.dev.fresh := rfl

/-! ### `W.halter` -/

@[simp] theorem W.halter_st (f : Link → Link) (w : W) : (w.halter f).st = w.st := rfl
@[simp] theorem W.halter_log (f : Link → Link) (w : W) : (w.halter f).log = w.log := rfl
@[simp] theorem W.halter_boot (f : Link → Link) (w : W) : (w.halter f).dev.boot = w.dev.boot := rfl
@[simp] theorem W.halter_sync (f : Link → Link) (w : W) : (w.halter f).dev.sync = w.dev.sync := rfl
@[simp] theorem W.halter_power (f : Link → Link) (w : W) : (w.halter f).dev.power = w.dev.power := rfl
@[simp] theorem W.halter_regs (f : Link → Link) (w : W) : (w.halter f).dev.regs = w.dev.regs := rfl
@[simp] theorem W.halter_slots (f : Link → Link) (w : W) : (w.halter f).dev.slots = w.dev.slots := rfl
@[simp] theorem W.halter_rings (f : Link → Link) (w : W) : (w.halter f).dev.rings = w.dev.rings := rfl
@[simp] theorem W.halter_events (f : Link → Link) (w : W) : (w.halter f).dev.events = w.dev.events := rfl
@[simp] theorem W.halter_faults (f : Link → Link) (w : W) : (w.halter f).dev.faults = w.dev.faults := rfl
@[simp] theorem W.halter_badStalls (f : Link → Link) (w : W) : (w.halter f).dev.badStalls = w.dev.badStalls := rfl
@[simp] theorem W.halter_columns (f : Link → Link) (w : W) : (w.halter f).dev.columns = w.dev.columns := rfl
@[simp] theorem W.halter_moves (f : Link → Link) (w : W) : (w.halter f).dev.moves = w.dev.moves := rfl
@[simp] theorem W.halter_goneStables (f : Link → Link) (w : W) : (w.halter f).dev.goneStables = w.dev.goneStables := rfl
@[simp] theorem W.halter_pads (f : Link → Link) (w : W) : (w.halter f).dev.pads = w.dev.pads := rfl
@[simp] theorem W.halter_serve (f : Link → Link) (w : W) : (w.halter f).dev.serve = w.dev.serve := rfl
@[simp] theorem W.halter_indexes (f : Link → Link) (w : W) : (w.halter f).dev.indexes = w.dev.indexes := rfl
@[simp] theorem W.halter_embs (f : Link → Link) (w : W) : (w.halter f).dev.embs = w.dev.embs := rfl
@[simp] theorem W.halter_tiers (f : Link → Link) (w : W) : (w.halter f).dev.tiers = w.dev.tiers := rfl
@[simp] theorem W.halter_shed (f : Link → Link) (w : W) : (w.halter f).dev.shed = w.dev.shed := rfl
@[simp] theorem W.halter_halter (f : Link → Link) (w : W) : (w.halter f).dev.halter = f w.dev.halter := rfl
@[simp] theorem W.halter_drove (f : Link → Link) (w : W) : (w.halter f).dev.drove = w.dev.drove := rfl
@[simp] theorem W.halter_groom (f : Link → Link) (w : W) : (w.halter f).dev.groom = w.dev.groom := rfl
@[simp] theorem W.halter_mgmt (f : Link → Link) (w : W) : (w.halter f).dev.mgmt = w.dev.mgmt := rfl
@[simp] theorem W.halter_fresh (f : Link → Link) (w : W) : (w.halter f).dev.fresh = w.dev.fresh := rfl

/-! ### `W.groom` -/

@[simp] theorem W.groom_st (f : Groom → Groom) (w : W) : (w.groom f).st = w.st := rfl
@[simp] theorem W.groom_log (f : Groom → Groom) (w : W) : (w.groom f).log = w.log := rfl
@[simp] theorem W.groom_boot (f : Groom → Groom) (w : W) : (w.groom f).dev.boot = w.dev.boot := rfl
@[simp] theorem W.groom_sync (f : Groom → Groom) (w : W) : (w.groom f).dev.sync = w.dev.sync := rfl
@[simp] theorem W.groom_power (f : Groom → Groom) (w : W) : (w.groom f).dev.power = w.dev.power := rfl
@[simp] theorem W.groom_regs (f : Groom → Groom) (w : W) : (w.groom f).dev.regs = w.dev.regs := rfl
@[simp] theorem W.groom_slots (f : Groom → Groom) (w : W) : (w.groom f).dev.slots = w.dev.slots := rfl
@[simp] theorem W.groom_rings (f : Groom → Groom) (w : W) : (w.groom f).dev.rings = w.dev.rings := rfl
@[simp] theorem W.groom_events (f : Groom → Groom) (w : W) : (w.groom f).dev.events = w.dev.events := rfl
@[simp] theorem W.groom_faults (f : Groom → Groom) (w : W) : (w.groom f).dev.faults = w.dev.faults := rfl
@[simp] theorem W.groom_badStalls (f : Groom → Groom) (w : W) : (w.groom f).dev.badStalls = w.dev.badStalls := rfl
@[simp] theorem W.groom_columns (f : Groom → Groom) (w : W) : (w.groom f).dev.columns = w.dev.columns := rfl
@[simp] theorem W.groom_moves (f : Groom → Groom) (w : W) : (w.groom f).dev.moves = w.dev.moves := rfl
@[simp] theorem W.groom_goneStables (f : Groom → Groom) (w : W) : (w.groom f).dev.goneStables = w.dev.goneStables := rfl
@[simp] theorem W.groom_pads (f : Groom → Groom) (w : W) : (w.groom f).dev.pads = w.dev.pads := rfl
@[simp] theorem W.groom_serve (f : Groom → Groom) (w : W) : (w.groom f).dev.serve = w.dev.serve := rfl
@[simp] theorem W.groom_indexes (f : Groom → Groom) (w : W) : (w.groom f).dev.indexes = w.dev.indexes := rfl
@[simp] theorem W.groom_embs (f : Groom → Groom) (w : W) : (w.groom f).dev.embs = w.dev.embs := rfl
@[simp] theorem W.groom_tiers (f : Groom → Groom) (w : W) : (w.groom f).dev.tiers = w.dev.tiers := rfl
@[simp] theorem W.groom_shed (f : Groom → Groom) (w : W) : (w.groom f).dev.shed = w.dev.shed := rfl
@[simp] theorem W.groom_halter (f : Groom → Groom) (w : W) : (w.groom f).dev.halter = w.dev.halter := rfl
@[simp] theorem W.groom_drove (f : Groom → Groom) (w : W) : (w.groom f).dev.drove = w.dev.drove := rfl
@[simp] theorem W.groom_groom (f : Groom → Groom) (w : W) : (w.groom f).dev.groom = f w.dev.groom := rfl
@[simp] theorem W.groom_mgmt (f : Groom → Groom) (w : W) : (w.groom f).dev.mgmt = w.dev.mgmt := rfl
@[simp] theorem W.groom_fresh (f : Groom → Groom) (w : W) : (w.groom f).dev.fresh = w.dev.fresh := rfl

/-! ### `W.mgmt` -/

@[simp] theorem W.mgmt_st (f : Mgmt → Mgmt) (w : W) : (w.mgmt f).st = w.st := rfl
@[simp] theorem W.mgmt_log (f : Mgmt → Mgmt) (w : W) : (w.mgmt f).log = w.log := rfl
@[simp] theorem W.mgmt_boot (f : Mgmt → Mgmt) (w : W) : (w.mgmt f).dev.boot = w.dev.boot := rfl
@[simp] theorem W.mgmt_sync (f : Mgmt → Mgmt) (w : W) : (w.mgmt f).dev.sync = w.dev.sync := rfl
@[simp] theorem W.mgmt_power (f : Mgmt → Mgmt) (w : W) : (w.mgmt f).dev.power = w.dev.power := rfl
@[simp] theorem W.mgmt_regs (f : Mgmt → Mgmt) (w : W) : (w.mgmt f).dev.regs = w.dev.regs := rfl
@[simp] theorem W.mgmt_slots (f : Mgmt → Mgmt) (w : W) : (w.mgmt f).dev.slots = w.dev.slots := rfl
@[simp] theorem W.mgmt_rings (f : Mgmt → Mgmt) (w : W) : (w.mgmt f).dev.rings = w.dev.rings := rfl
@[simp] theorem W.mgmt_events (f : Mgmt → Mgmt) (w : W) : (w.mgmt f).dev.events = w.dev.events := rfl
@[simp] theorem W.mgmt_faults (f : Mgmt → Mgmt) (w : W) : (w.mgmt f).dev.faults = w.dev.faults := rfl
@[simp] theorem W.mgmt_badStalls (f : Mgmt → Mgmt) (w : W) : (w.mgmt f).dev.badStalls = w.dev.badStalls := rfl
@[simp] theorem W.mgmt_columns (f : Mgmt → Mgmt) (w : W) : (w.mgmt f).dev.columns = w.dev.columns := rfl
@[simp] theorem W.mgmt_moves (f : Mgmt → Mgmt) (w : W) : (w.mgmt f).dev.moves = w.dev.moves := rfl
@[simp] theorem W.mgmt_goneStables (f : Mgmt → Mgmt) (w : W) : (w.mgmt f).dev.goneStables = w.dev.goneStables := rfl
@[simp] theorem W.mgmt_pads (f : Mgmt → Mgmt) (w : W) : (w.mgmt f).dev.pads = w.dev.pads := rfl
@[simp] theorem W.mgmt_serve (f : Mgmt → Mgmt) (w : W) : (w.mgmt f).dev.serve = w.dev.serve := rfl
@[simp] theorem W.mgmt_indexes (f : Mgmt → Mgmt) (w : W) : (w.mgmt f).dev.indexes = w.dev.indexes := rfl
@[simp] theorem W.mgmt_embs (f : Mgmt → Mgmt) (w : W) : (w.mgmt f).dev.embs = w.dev.embs := rfl
@[simp] theorem W.mgmt_tiers (f : Mgmt → Mgmt) (w : W) : (w.mgmt f).dev.tiers = w.dev.tiers := rfl
@[simp] theorem W.mgmt_shed (f : Mgmt → Mgmt) (w : W) : (w.mgmt f).dev.shed = w.dev.shed := rfl
@[simp] theorem W.mgmt_halter (f : Mgmt → Mgmt) (w : W) : (w.mgmt f).dev.halter = w.dev.halter := rfl
@[simp] theorem W.mgmt_drove (f : Mgmt → Mgmt) (w : W) : (w.mgmt f).dev.drove = w.dev.drove := rfl
@[simp] theorem W.mgmt_groom (f : Mgmt → Mgmt) (w : W) : (w.mgmt f).dev.groom = w.dev.groom := rfl
@[simp] theorem W.mgmt_mgmt (f : Mgmt → Mgmt) (w : W) : (w.mgmt f).dev.mgmt = f w.dev.mgmt := rfl
@[simp] theorem W.mgmt_fresh (f : Mgmt → Mgmt) (w : W) : (w.mgmt f).dev.fresh = w.dev.fresh := rfl

/-! ### `W.ring` -/

@[simp] theorem W.ring_st (r : Nat) (f : Ring → Ring) (w : W) : (w.ring r f).st = w.st := rfl
@[simp] theorem W.ring_log (r : Nat) (f : Ring → Ring) (w : W) : (w.ring r f).log = w.log := rfl
@[simp] theorem W.ring_boot (r : Nat) (f : Ring → Ring) (w : W) : (w.ring r f).dev.boot = w.dev.boot := rfl
@[simp] theorem W.ring_sync (r : Nat) (f : Ring → Ring) (w : W) : (w.ring r f).dev.sync = w.dev.sync := rfl
@[simp] theorem W.ring_power (r : Nat) (f : Ring → Ring) (w : W) : (w.ring r f).dev.power = w.dev.power := rfl
@[simp] theorem W.ring_regs (r : Nat) (f : Ring → Ring) (w : W) : (w.ring r f).dev.regs = w.dev.regs := rfl
@[simp] theorem W.ring_slots (r : Nat) (f : Ring → Ring) (w : W) : (w.ring r f).dev.slots = w.dev.slots := rfl
@[simp] theorem W.ring_events (r : Nat) (f : Ring → Ring) (w : W) : (w.ring r f).dev.events = w.dev.events := rfl
@[simp] theorem W.ring_faults (r : Nat) (f : Ring → Ring) (w : W) : (w.ring r f).dev.faults = w.dev.faults := rfl
@[simp] theorem W.ring_badStalls (r : Nat) (f : Ring → Ring) (w : W) : (w.ring r f).dev.badStalls = w.dev.badStalls := rfl
@[simp] theorem W.ring_columns (r : Nat) (f : Ring → Ring) (w : W) : (w.ring r f).dev.columns = w.dev.columns := rfl
@[simp] theorem W.ring_moves (r : Nat) (f : Ring → Ring) (w : W) : (w.ring r f).dev.moves = w.dev.moves := rfl
@[simp] theorem W.ring_goneStables (r : Nat) (f : Ring → Ring) (w : W) : (w.ring r f).dev.goneStables = w.dev.goneStables := rfl
@[simp] theorem W.ring_pads (r : Nat) (f : Ring → Ring) (w : W) : (w.ring r f).dev.pads = w.dev.pads := rfl
@[simp] theorem W.ring_serve (r : Nat) (f : Ring → Ring) (w : W) : (w.ring r f).dev.serve = w.dev.serve := rfl
@[simp] theorem W.ring_indexes (r : Nat) (f : Ring → Ring) (w : W) : (w.ring r f).dev.indexes = w.dev.indexes := rfl
@[simp] theorem W.ring_embs (r : Nat) (f : Ring → Ring) (w : W) : (w.ring r f).dev.embs = w.dev.embs := rfl
@[simp] theorem W.ring_tiers (r : Nat) (f : Ring → Ring) (w : W) : (w.ring r f).dev.tiers = w.dev.tiers := rfl
@[simp] theorem W.ring_shed (r : Nat) (f : Ring → Ring) (w : W) : (w.ring r f).dev.shed = w.dev.shed := rfl
@[simp] theorem W.ring_halter (r : Nat) (f : Ring → Ring) (w : W) : (w.ring r f).dev.halter = w.dev.halter := rfl
@[simp] theorem W.ring_drove (r : Nat) (f : Ring → Ring) (w : W) : (w.ring r f).dev.drove = w.dev.drove := rfl
@[simp] theorem W.ring_groom (r : Nat) (f : Ring → Ring) (w : W) : (w.ring r f).dev.groom = w.dev.groom := rfl
@[simp] theorem W.ring_mgmt (r : Nat) (f : Ring → Ring) (w : W) : (w.ring r f).dev.mgmt = w.dev.mgmt := rfl
@[simp] theorem W.ring_fresh (r : Nat) (f : Ring → Ring) (w : W) : (w.ring r f).dev.fresh = w.dev.fresh := rfl

/-! ### `W.port` -/

@[simp] theorem W.port_st (p : Nat) (f : Link → Link) (w : W) : (w.port p f).st = w.st := rfl
@[simp] theorem W.port_log (p : Nat) (f : Link → Link) (w : W) : (w.port p f).log = w.log := rfl
@[simp] theorem W.port_boot (p : Nat) (f : Link → Link) (w : W) : (w.port p f).dev.boot = w.dev.boot := rfl
@[simp] theorem W.port_sync (p : Nat) (f : Link → Link) (w : W) : (w.port p f).dev.sync = w.dev.sync := rfl
@[simp] theorem W.port_power (p : Nat) (f : Link → Link) (w : W) : (w.port p f).dev.power = w.dev.power := rfl
@[simp] theorem W.port_regs (p : Nat) (f : Link → Link) (w : W) : (w.port p f).dev.regs = w.dev.regs := rfl
@[simp] theorem W.port_slots (p : Nat) (f : Link → Link) (w : W) : (w.port p f).dev.slots = w.dev.slots := rfl
@[simp] theorem W.port_rings (p : Nat) (f : Link → Link) (w : W) : (w.port p f).dev.rings = w.dev.rings := rfl
@[simp] theorem W.port_events (p : Nat) (f : Link → Link) (w : W) : (w.port p f).dev.events = w.dev.events := rfl
@[simp] theorem W.port_faults (p : Nat) (f : Link → Link) (w : W) : (w.port p f).dev.faults = w.dev.faults := rfl
@[simp] theorem W.port_badStalls (p : Nat) (f : Link → Link) (w : W) : (w.port p f).dev.badStalls = w.dev.badStalls := rfl
@[simp] theorem W.port_columns (p : Nat) (f : Link → Link) (w : W) : (w.port p f).dev.columns = w.dev.columns := rfl
@[simp] theorem W.port_moves (p : Nat) (f : Link → Link) (w : W) : (w.port p f).dev.moves = w.dev.moves := rfl
@[simp] theorem W.port_goneStables (p : Nat) (f : Link → Link) (w : W) : (w.port p f).dev.goneStables = w.dev.goneStables := rfl
@[simp] theorem W.port_pads (p : Nat) (f : Link → Link) (w : W) : (w.port p f).dev.pads = w.dev.pads := rfl
@[simp] theorem W.port_serve (p : Nat) (f : Link → Link) (w : W) : (w.port p f).dev.serve = w.dev.serve := rfl
@[simp] theorem W.port_indexes (p : Nat) (f : Link → Link) (w : W) : (w.port p f).dev.indexes = w.dev.indexes := rfl
@[simp] theorem W.port_embs (p : Nat) (f : Link → Link) (w : W) : (w.port p f).dev.embs = w.dev.embs := rfl
@[simp] theorem W.port_tiers (p : Nat) (f : Link → Link) (w : W) : (w.port p f).dev.tiers = w.dev.tiers := rfl
@[simp] theorem W.port_shed (p : Nat) (f : Link → Link) (w : W) : (w.port p f).dev.shed = w.dev.shed := rfl
@[simp] theorem W.port_halter (p : Nat) (f : Link → Link) (w : W) : (w.port p f).dev.halter = w.dev.halter := rfl
@[simp] theorem W.port_groom (p : Nat) (f : Link → Link) (w : W) : (w.port p f).dev.groom = w.dev.groom := rfl
@[simp] theorem W.port_mgmt (p : Nat) (f : Link → Link) (w : W) : (w.port p f).dev.mgmt = w.dev.mgmt := rfl
@[simp] theorem W.port_fresh (p : Nat) (f : Link → Link) (w : W) : (w.port p f).dev.fresh = w.dev.fresh := rfl

/-! ### `W.index` -/

@[simp] theorem W.index_st (i : Nat) (f : Index → Index) (w : W) : (w.index i f).st = w.st := rfl
@[simp] theorem W.index_log (i : Nat) (f : Index → Index) (w : W) : (w.index i f).log = w.log := rfl
@[simp] theorem W.index_boot (i : Nat) (f : Index → Index) (w : W) : (w.index i f).dev.boot = w.dev.boot := rfl
@[simp] theorem W.index_sync (i : Nat) (f : Index → Index) (w : W) : (w.index i f).dev.sync = w.dev.sync := rfl
@[simp] theorem W.index_power (i : Nat) (f : Index → Index) (w : W) : (w.index i f).dev.power = w.dev.power := rfl
@[simp] theorem W.index_regs (i : Nat) (f : Index → Index) (w : W) : (w.index i f).dev.regs = w.dev.regs := rfl
@[simp] theorem W.index_slots (i : Nat) (f : Index → Index) (w : W) : (w.index i f).dev.slots = w.dev.slots := rfl
@[simp] theorem W.index_rings (i : Nat) (f : Index → Index) (w : W) : (w.index i f).dev.rings = w.dev.rings := rfl
@[simp] theorem W.index_events (i : Nat) (f : Index → Index) (w : W) : (w.index i f).dev.events = w.dev.events := rfl
@[simp] theorem W.index_faults (i : Nat) (f : Index → Index) (w : W) : (w.index i f).dev.faults = w.dev.faults := rfl
@[simp] theorem W.index_badStalls (i : Nat) (f : Index → Index) (w : W) : (w.index i f).dev.badStalls = w.dev.badStalls := rfl
@[simp] theorem W.index_columns (i : Nat) (f : Index → Index) (w : W) : (w.index i f).dev.columns = w.dev.columns := rfl
@[simp] theorem W.index_moves (i : Nat) (f : Index → Index) (w : W) : (w.index i f).dev.moves = w.dev.moves := rfl
@[simp] theorem W.index_goneStables (i : Nat) (f : Index → Index) (w : W) : (w.index i f).dev.goneStables = w.dev.goneStables := rfl
@[simp] theorem W.index_pads (i : Nat) (f : Index → Index) (w : W) : (w.index i f).dev.pads = w.dev.pads := rfl
@[simp] theorem W.index_serve (i : Nat) (f : Index → Index) (w : W) : (w.index i f).dev.serve = w.dev.serve := rfl
@[simp] theorem W.index_embs (i : Nat) (f : Index → Index) (w : W) : (w.index i f).dev.embs = w.dev.embs := rfl
@[simp] theorem W.index_tiers (i : Nat) (f : Index → Index) (w : W) : (w.index i f).dev.tiers = w.dev.tiers := rfl
@[simp] theorem W.index_shed (i : Nat) (f : Index → Index) (w : W) : (w.index i f).dev.shed = w.dev.shed := rfl
@[simp] theorem W.index_halter (i : Nat) (f : Index → Index) (w : W) : (w.index i f).dev.halter = w.dev.halter := rfl
@[simp] theorem W.index_drove (i : Nat) (f : Index → Index) (w : W) : (w.index i f).dev.drove = w.dev.drove := rfl
@[simp] theorem W.index_groom (i : Nat) (f : Index → Index) (w : W) : (w.index i f).dev.groom = w.dev.groom := rfl
@[simp] theorem W.index_mgmt (i : Nat) (f : Index → Index) (w : W) : (w.index i f).dev.mgmt = w.dev.mgmt := rfl
@[simp] theorem W.index_fresh (i : Nat) (f : Index → Index) (w : W) : (w.index i f).dev.fresh = w.dev.fresh := rfl

/-! ### `W.emb` -/

@[simp] theorem W.emb_st (h : Nat) (f : Emb → Emb) (w : W) : (w.emb h f).st = w.st := rfl
@[simp] theorem W.emb_log (h : Nat) (f : Emb → Emb) (w : W) : (w.emb h f).log = w.log := rfl
@[simp] theorem W.emb_boot (h : Nat) (f : Emb → Emb) (w : W) : (w.emb h f).dev.boot = w.dev.boot := rfl
@[simp] theorem W.emb_sync (h : Nat) (f : Emb → Emb) (w : W) : (w.emb h f).dev.sync = w.dev.sync := rfl
@[simp] theorem W.emb_power (h : Nat) (f : Emb → Emb) (w : W) : (w.emb h f).dev.power = w.dev.power := rfl
@[simp] theorem W.emb_regs (h : Nat) (f : Emb → Emb) (w : W) : (w.emb h f).dev.regs = w.dev.regs := rfl
@[simp] theorem W.emb_slots (h : Nat) (f : Emb → Emb) (w : W) : (w.emb h f).dev.slots = w.dev.slots := rfl
@[simp] theorem W.emb_rings (h : Nat) (f : Emb → Emb) (w : W) : (w.emb h f).dev.rings = w.dev.rings := rfl
@[simp] theorem W.emb_events (h : Nat) (f : Emb → Emb) (w : W) : (w.emb h f).dev.events = w.dev.events := rfl
@[simp] theorem W.emb_faults (h : Nat) (f : Emb → Emb) (w : W) : (w.emb h f).dev.faults = w.dev.faults := rfl
@[simp] theorem W.emb_badStalls (h : Nat) (f : Emb → Emb) (w : W) : (w.emb h f).dev.badStalls = w.dev.badStalls := rfl
@[simp] theorem W.emb_columns (h : Nat) (f : Emb → Emb) (w : W) : (w.emb h f).dev.columns = w.dev.columns := rfl
@[simp] theorem W.emb_moves (h : Nat) (f : Emb → Emb) (w : W) : (w.emb h f).dev.moves = w.dev.moves := rfl
@[simp] theorem W.emb_goneStables (h : Nat) (f : Emb → Emb) (w : W) : (w.emb h f).dev.goneStables = w.dev.goneStables := rfl
@[simp] theorem W.emb_pads (h : Nat) (f : Emb → Emb) (w : W) : (w.emb h f).dev.pads = w.dev.pads := rfl
@[simp] theorem W.emb_serve (h : Nat) (f : Emb → Emb) (w : W) : (w.emb h f).dev.serve = w.dev.serve := rfl
@[simp] theorem W.emb_indexes (h : Nat) (f : Emb → Emb) (w : W) : (w.emb h f).dev.indexes = w.dev.indexes := rfl
@[simp] theorem W.emb_tiers (h : Nat) (f : Emb → Emb) (w : W) : (w.emb h f).dev.tiers = w.dev.tiers := rfl
@[simp] theorem W.emb_shed (h : Nat) (f : Emb → Emb) (w : W) : (w.emb h f).dev.shed = w.dev.shed := rfl
@[simp] theorem W.emb_halter (h : Nat) (f : Emb → Emb) (w : W) : (w.emb h f).dev.halter = w.dev.halter := rfl
@[simp] theorem W.emb_drove (h : Nat) (f : Emb → Emb) (w : W) : (w.emb h f).dev.drove = w.dev.drove := rfl
@[simp] theorem W.emb_groom (h : Nat) (f : Emb → Emb) (w : W) : (w.emb h f).dev.groom = w.dev.groom := rfl
@[simp] theorem W.emb_mgmt (h : Nat) (f : Emb → Emb) (w : W) : (w.emb h f).dev.mgmt = w.dev.mgmt := rfl
@[simp] theorem W.emb_fresh (h : Nat) (f : Emb → Emb) (w : W) : (w.emb h f).dev.fresh = w.dev.fresh := rfl

/-! ### `W.pad` and `W.step` -/

@[simp] theorem W.pad_st (p : Nat) (f : Paddock → Paddock) (w : W) : (w.pad p f).st = w.st := by unfold W.pad; split <;> rfl
@[simp] theorem W.pad_log (p : Nat) (f : Paddock → Paddock) (w : W) : (w.pad p f).log = w.log := by unfold W.pad; split <;> rfl
@[simp] theorem W.step_st (p : Nat) (f : Step → Step) (w : W) : (w.step p f).st = w.st := W.pad_st p _ w
@[simp] theorem W.step_log (p : Nat) (f : Step → Step) (w : W) : (w.step p f).log = w.log := W.pad_log p _ w
@[simp] theorem W.pad_boot (p : Nat) (f : Paddock → Paddock) (w : W) : (w.pad p f).dev.boot = w.dev.boot := by unfold W.pad; split <;> rfl
@[simp] theorem W.step_boot (p : Nat) (f : Step → Step) (w : W) : (w.step p f).dev.boot = w.dev.boot := W.pad_boot p _ w
@[simp] theorem W.pad_sync (p : Nat) (f : Paddock → Paddock) (w : W) : (w.pad p f).dev.sync = w.dev.sync := by unfold W.pad; split <;> rfl
@[simp] theorem W.step_sync (p : Nat) (f : Step → Step) (w : W) : (w.step p f).dev.sync = w.dev.sync := W.pad_sync p _ w
@[simp] theorem W.pad_power (p : Nat) (f : Paddock → Paddock) (w : W) : (w.pad p f).dev.power = w.dev.power := by unfold W.pad; split <;> rfl
@[simp] theorem W.step_power (p : Nat) (f : Step → Step) (w : W) : (w.step p f).dev.power = w.dev.power := W.pad_power p _ w
@[simp] theorem W.pad_regs (p : Nat) (f : Paddock → Paddock) (w : W) : (w.pad p f).dev.regs = w.dev.regs := by unfold W.pad; split <;> rfl
@[simp] theorem W.step_regs (p : Nat) (f : Step → Step) (w : W) : (w.step p f).dev.regs = w.dev.regs := W.pad_regs p _ w
@[simp] theorem W.pad_slots (p : Nat) (f : Paddock → Paddock) (w : W) : (w.pad p f).dev.slots = w.dev.slots := by unfold W.pad; split <;> rfl
@[simp] theorem W.step_slots (p : Nat) (f : Step → Step) (w : W) : (w.step p f).dev.slots = w.dev.slots := W.pad_slots p _ w
@[simp] theorem W.pad_rings (p : Nat) (f : Paddock → Paddock) (w : W) : (w.pad p f).dev.rings = w.dev.rings := by unfold W.pad; split <;> rfl
@[simp] theorem W.step_rings (p : Nat) (f : Step → Step) (w : W) : (w.step p f).dev.rings = w.dev.rings := W.pad_rings p _ w
@[simp] theorem W.pad_events (p : Nat) (f : Paddock → Paddock) (w : W) : (w.pad p f).dev.events = w.dev.events := by unfold W.pad; split <;> rfl
@[simp] theorem W.step_events (p : Nat) (f : Step → Step) (w : W) : (w.step p f).dev.events = w.dev.events := W.pad_events p _ w
@[simp] theorem W.pad_faults (p : Nat) (f : Paddock → Paddock) (w : W) : (w.pad p f).dev.faults = w.dev.faults := by unfold W.pad; split <;> rfl
@[simp] theorem W.step_faults (p : Nat) (f : Step → Step) (w : W) : (w.step p f).dev.faults = w.dev.faults := W.pad_faults p _ w
@[simp] theorem W.pad_badStalls (p : Nat) (f : Paddock → Paddock) (w : W) : (w.pad p f).dev.badStalls = w.dev.badStalls := by unfold W.pad; split <;> rfl
@[simp] theorem W.step_badStalls (p : Nat) (f : Step → Step) (w : W) : (w.step p f).dev.badStalls = w.dev.badStalls := W.pad_badStalls p _ w
@[simp] theorem W.pad_columns (p : Nat) (f : Paddock → Paddock) (w : W) : (w.pad p f).dev.columns = w.dev.columns := by unfold W.pad; split <;> rfl
@[simp] theorem W.step_columns (p : Nat) (f : Step → Step) (w : W) : (w.step p f).dev.columns = w.dev.columns := W.pad_columns p _ w
@[simp] theorem W.pad_moves (p : Nat) (f : Paddock → Paddock) (w : W) : (w.pad p f).dev.moves = w.dev.moves := by unfold W.pad; split <;> rfl
@[simp] theorem W.step_moves (p : Nat) (f : Step → Step) (w : W) : (w.step p f).dev.moves = w.dev.moves := W.pad_moves p _ w
@[simp] theorem W.pad_goneStables (p : Nat) (f : Paddock → Paddock) (w : W) : (w.pad p f).dev.goneStables = w.dev.goneStables := by unfold W.pad; split <;> rfl
@[simp] theorem W.step_goneStables (p : Nat) (f : Step → Step) (w : W) : (w.step p f).dev.goneStables = w.dev.goneStables := W.pad_goneStables p _ w
@[simp] theorem W.pad_serve (p : Nat) (f : Paddock → Paddock) (w : W) : (w.pad p f).dev.serve = w.dev.serve := by unfold W.pad; split <;> rfl
@[simp] theorem W.step_serve (p : Nat) (f : Step → Step) (w : W) : (w.step p f).dev.serve = w.dev.serve := W.pad_serve p _ w
@[simp] theorem W.pad_indexes (p : Nat) (f : Paddock → Paddock) (w : W) : (w.pad p f).dev.indexes = w.dev.indexes := by unfold W.pad; split <;> rfl
@[simp] theorem W.step_indexes (p : Nat) (f : Step → Step) (w : W) : (w.step p f).dev.indexes = w.dev.indexes := W.pad_indexes p _ w
@[simp] theorem W.pad_embs (p : Nat) (f : Paddock → Paddock) (w : W) : (w.pad p f).dev.embs = w.dev.embs := by unfold W.pad; split <;> rfl
@[simp] theorem W.step_embs (p : Nat) (f : Step → Step) (w : W) : (w.step p f).dev.embs = w.dev.embs := W.pad_embs p _ w
@[simp] theorem W.pad_tiers (p : Nat) (f : Paddock → Paddock) (w : W) : (w.pad p f).dev.tiers = w.dev.tiers := by unfold W.pad; split <;> rfl
@[simp] theorem W.step_tiers (p : Nat) (f : Step → Step) (w : W) : (w.step p f).dev.tiers = w.dev.tiers := W.pad_tiers p _ w
@[simp] theorem W.pad_shed (p : Nat) (f : Paddock → Paddock) (w : W) : (w.pad p f).dev.shed = w.dev.shed := by unfold W.pad; split <;> rfl
@[simp] theorem W.step_shed (p : Nat) (f : Step → Step) (w : W) : (w.step p f).dev.shed = w.dev.shed := W.pad_shed p _ w
@[simp] theorem W.pad_halter (p : Nat) (f : Paddock → Paddock) (w : W) : (w.pad p f).dev.halter = w.dev.halter := by unfold W.pad; split <;> rfl
@[simp] theorem W.step_halter (p : Nat) (f : Step → Step) (w : W) : (w.step p f).dev.halter = w.dev.halter := W.pad_halter p _ w
@[simp] theorem W.pad_drove (p : Nat) (f : Paddock → Paddock) (w : W) : (w.pad p f).dev.drove = w.dev.drove := by unfold W.pad; split <;> rfl
@[simp] theorem W.step_drove (p : Nat) (f : Step → Step) (w : W) : (w.step p f).dev.drove = w.dev.drove := W.pad_drove p _ w
@[simp] theorem W.pad_groom (p : Nat) (f : Paddock → Paddock) (w : W) : (w.pad p f).dev.groom = w.dev.groom := by unfold W.pad; split <;> rfl
@[simp] theorem W.step_groom (p : Nat) (f : Step → Step) (w : W) : (w.step p f).dev.groom = w.dev.groom := W.pad_groom p _ w
@[simp] theorem W.pad_mgmt (p : Nat) (f : Paddock → Paddock) (w : W) : (w.pad p f).dev.mgmt = w.dev.mgmt := by unfold W.pad; split <;> rfl
@[simp] theorem W.step_mgmt (p : Nat) (f : Step → Step) (w : W) : (w.step p f).dev.mgmt = w.dev.mgmt := W.pad_mgmt p _ w
@[simp] theorem W.pad_fresh (p : Nat) (f : Paddock → Paddock) (w : W) : (w.pad p f).dev.fresh = w.dev.fresh := by unfold W.pad; split <;> rfl
@[simp] theorem W.step_fresh (p : Nat) (f : Step → Step) (w : W) : (w.step p f).dev.fresh = w.dev.fresh := W.pad_fresh p _ w

/-! ### Memory, the working record and the state that a command leaves -/

@[simp] theorem W.poke_st (k : Nat) (b : Byte) (w : W) : (w.poke k b).st = w.st := rfl
@[simp] theorem W.poke_dev (k : Nat) (b : Byte) (w : W) : (w.poke k b).dev = w.dev := rfl
@[simp] theorem W.poke_log (k : Nat) (b : Byte) (w : W) : (w.poke k b).log = (k, b) :: w.log := rfl
@[simp] theorem W.of_st (s : State) : (W.of s).st = s := rfl
@[simp] theorem W.of_dev (s : State) : (W.of s).dev = s.dev := rfl
@[simp] theorem W.of_log (s : State) : (W.of s).log = [] := rfl
@[simp] theorem W.leave_clock (s : State) (w : W) : (w.leave s).clock = s.clock := rfl
@[simp] theorem W.leave_pending (s : State) (w : W) : (w.leave s).pending = s.pending := rfl
@[simp] theorem W.leave_dev (s : State) (w : W) : (w.leave s).dev = w.dev := rfl
@[simp] theorem W.leave_mem (s : State) (w : W) : (w.leave s).mem = memWriteAll s.mem w.log.reverse := rfl
@[simp] theorem Clock.advance_herd (h : Nat) (c : Clock) : (c.advance h).herd = max c.herd h := rfl

end Sys2Proof.Machine
end

