-- ==== Sys2Proof/Laws/Memory.lean ====
section
/-! SUPPORT. Addressed memory: reads after writes, and the canonical form that every write keeps. -/

namespace Sys2Proof.Machine

open Host

/-- The canonical form, said as a proposition over the whole list. -/
theorem memory_wf_cons (k : Nat) (b : BitVec 8) (r : Memory) :
    Memory.wf ((k, b) :: r) = true ↔ (∀ x ∈ r.head?, k < x.1) ∧ b ≠ Memory.unlisted ∧ Memory.wf r = true := by
  cases r with
  | nil => simp [Memory.wf]
  | cons y r => obtain ⟨j, c⟩ := y; simp [Memory.wf, and_assoc]

/-- The first key of a memory after a write is the first key before it or the key written. -/
theorem head_memWrite {k : Nat} {b : Byte} {m : Memory} {x : Cell} (hx : x ∈ (memWrite k b m).head?) :
    x.1 = k ∨ x ∈ m.head? ∨ (∃ y ∈ m.head?, y.1 = k ∧ x ∈ m.tail.head?) := by
  cases m with
  | nil =>
    simp only [memWrite] at hx
    split at hx
    · simp at hx
    · simp only [List.head?_cons, Option.mem_some_iff] at hx; exact .inl (hx ▸ rfl)
  | cons y r =>
    obtain ⟨j, c⟩ := y
    simp only [memWrite] at hx
    split at hx
    · split at hx
      · exact .inr (.inl hx)
      · simp only [List.head?_cons, Option.mem_some_iff] at hx; exact .inl (hx ▸ rfl)
    · split at hx
      · rename_i _ e
        split at hx
        · exact .inr (.inr ⟨(j, c), rfl, e.symm, hx⟩)
        · simp only [List.head?_cons, Option.mem_some_iff] at hx; exact .inl (hx ▸ rfl)
      · simp only [List.head?_cons, Option.mem_some_iff] at hx ⊢; exact .inr (.inl hx)

/-- A write of one byte keeps the canonical form. -/
theorem memWrite_wf (k : Nat) (b : Byte) (m : Memory) (h : Memory.wf m = true) : Memory.wf (memWrite k b m) = true := by
  induction m with
  | nil =>
    simp only [memWrite]
    split
    · rfl
    · rename_i hb; simp [Memory.wf, hb]
  | cons y r ih =>
    obtain ⟨j, c⟩ := y
    obtain ⟨h1, h2, h3⟩ := (memory_wf_cons j c r).mp h
    simp only [memWrite]
    split
    · rename_i hk
      split
      · exact h
      · rename_i hb
        exact (memory_wf_cons _ _ _).mpr ⟨by simpa using hk, hb, h⟩
    · split
      · split
        · exact h3
        · rename_i e hb
          exact (memory_wf_cons _ _ _).mpr ⟨e ▸ h1, hb, h3⟩
      · rename_i hk hj
        refine (memory_wf_cons _ _ _).mpr ⟨?_, h2, ih h3⟩
        intro x hx
        rcases head_memWrite hx with e | e | ⟨y, hy, e, hx'⟩
        · omega
        · exact h1 x e
        · have := h1 y hy
          cases r with
          | nil => simp at hy
          | cons z r =>
            obtain ⟨i, d⟩ := z
            simp only [List.head?_cons, Option.mem_some_iff] at hy
            subst hy
            have hz := ((memory_wf_cons i d r).mp h3).1 x hx'
            simp only at this hz
            omega

/-- Writes in order keep the canonical form. -/
theorem memWriteAll_wf (ws : List Cell) (m : Memory) (h : Memory.wf m = true) : Memory.wf (memWriteAll m ws) = true := by
  induction ws generalizing m with
  | nil => exact h
  | cons x r ih => exact ih _ (memWrite_wf _ _ _ h)

/-- An address that is not listed below the first key reads as unlisted. -/
theorem memRead_below {k : Nat} {m : Memory} (h : Memory.wf m = true) (hk : ∀ x ∈ m.head?, k < x.1) : memRead m k = Memory.unlisted := by
  induction m with
  | nil => rfl
  | cons y r ih =>
    obtain ⟨j, c⟩ := y
    obtain ⟨h1, _, h3⟩ := (memory_wf_cons j c r).mp h
    have hj : k < j := hk (j, c) rfl
    have : memRead ((j, c) :: r) k = memRead r k := by
      simp [memRead, tget, tget?, Nat.ne_of_gt hj]
    rw [this]
    exact ih h3 fun x hx => lt_trans hj (h1 x hx)

/-- A byte written reads back. -/
theorem memRead_memWrite_same (k : Nat) (b : Byte) (m : Memory) (h : Memory.wf m = true) : memRead (memWrite k b m) k = b := by
  induction m with
  | nil =>
    simp only [memWrite]
    split
    · rename_i e; simp [memRead, tget, tget?, e]
    · simp [memRead, tget, tget?]
  | cons y r ih =>
    obtain ⟨j, c⟩ := y
    obtain ⟨h1, _, h3⟩ := (memory_wf_cons j c r).mp h
    simp only [memWrite]
    split
    · rename_i hk
      split
      · rename_i e
        rw [e]
        exact memRead_below h (by simpa using hk)
      · simp [memRead, tget, tget?]
    · split
      · rename_i _ e
        split
        · rename_i hb
          rw [hb]
          exact memRead_below h3 fun x hx => e ▸ h1 x hx
        · simp [memRead, tget, tget?]
      · rename_i hj
        have : memRead ((j, c) :: memWrite k b r) k = memRead (memWrite k b r) k := by
          simp [memRead, tget, tget?, Ne.symm hj]
        rw [this]
        exact ih h3

/-- A write of one byte leaves every other byte. -/
theorem memRead_memWrite_other {a k : Nat} (hne : a ≠ k) (b : Byte) (m : Memory) (h : Memory.wf m = true) :
    memRead (memWrite k b m) a = memRead m a := by
  induction m with
  | nil =>
    simp only [memWrite]
    split
    · rfl
    · simp [memRead, tget, tget?, Ne.symm hne]
  | cons y r ih =>
    obtain ⟨j, c⟩ := y
    obtain ⟨h1, _, h3⟩ := (memory_wf_cons j c r).mp h
    simp only [memWrite]
    split
    · split
      · rfl
      · simp [memRead, tget, tget?, Ne.symm hne]
    · split
      · rename_i _ e
        subst e
        split
        · simp [memRead, tget, tget?, Ne.symm hne]
        · simp [memRead, tget, tget?, Ne.symm hne]
      · have := ih h3
        simp only [memRead, tget, tget?] at this ⊢
        split
        · rfl
        · exact this

end Sys2Proof.Machine
end

