-- ==== Sys2Proof/Laws/Act.lean ====
section
/-! SUPPORT. What every meaning leaves of the state, whatever it does to the device: the queue, the herd count, and the canonical form of memory. -/

namespace Sys2Proof.Machine

open Host

/-- Everything that an action can do: it answers a next state with the clock and the queue of the state it began in, and memory changes by
writes. -/
theorem act_next {f : W → W} {s t : State} (h : act f s = .next t) :
    t.clock = s.clock ∧ t.pending = s.pending ∧ t.dev = (f (W.of s)).dev ∧ t.mem = memWriteAll s.mem (f (W.of s)).log.reverse := by
  simp only [act, Outcome.next.injEq] at h
  subst h
  exact ⟨rfl, rfl, rfl, rfl⟩

theorem act_eq (f : W → W) (s : State) : act f s = .next ((f (W.of s)).leave s) := rfl

/-- A happening at herd count `h` sets the clock to `h`, if that is later. -/
theorem actAt_next {n : Nat} {f : W → W} {s t : State} (h : actAt n f s = .next t) :
    t.clock.herd = max s.clock.herd n ∧ t.pending = s.pending ∧
    t.mem = memWriteAll s.mem (f (W.of { s with clock := s.clock.advance n })).log.reverse := by
  obtain ⟨h1, h2, _, h4⟩ := act_next h
  exact ⟨by rw [h1]; rfl, h2, h4⟩

/-- An action keeps the canonical form of memory. -/
theorem leave_wf (s : State) (w : W) (h : Memory.wf s.mem = true) : Memory.wf (w.leave s).mem = true := memWriteAll_wf _ _ h

theorem idle_eq (s : State) : idle s = .next s := rfl

end Sys2Proof.Machine
end

