-- ==== Sys2Proof/Laws/Tables.lean ====
section
/-! SUPPORT. Tables by number: what is read after an entry is put or deleted. -/

namespace Sys2Proof.Machine

/-- Keys of a table rise strictly. -/
def Rising : List (Nat × α) → Prop
  | [] => True
  | (k, _) :: r => (∀ x ∈ r, k < x.1) ∧ Rising r

theorem tget?_tput_same (k : Nat) (v : α) (l : List (Nat × α)) : tget? k (tput k v l) = some v := by
  induction l with
  | nil => simp [tput, tget?]
  | cons x r ih =>
    obtain ⟨j, u⟩ := x
    simp only [tput]
    split
    · simp [tget?]
    · split
      · simp [tget?]
      · rename_i h1 h2
        simp only [tget?, if_neg (fun e => h2 (Eq.symm e)), ih]

theorem tget?_tput_other {j k : Nat} (h : j ≠ k) (v : α) (l : List (Nat × α)) : tget? j (tput k v l) = tget? j l := by
  induction l with
  | nil => simp [tput, tget?, Ne.symm h]
  | cons x r ih =>
    obtain ⟨i, u⟩ := x
    simp only [tput]
    split
    · simp [tget?, Ne.symm h]
    · split
      · rename_i _ e
        subst e
        simp [tget?, Ne.symm h]
      · simp only [tget?, ih]

@[simp] theorem tget_tput_same (d : α) (k : Nat) (v : α) (l : List (Nat × α)) : tget d k (tput k v l) = v := by
  simp [tget, tget?_tput_same]

theorem tget_tput_other (d : α) {j k : Nat} (h : j ≠ k) (v : α) (l : List (Nat × α)) : tget d j (tput k v l) = tget d j l := by
  simp [tget, tget?_tput_other h]

/-- What a table that has been put to holds: the new entry, or an old one. -/
theorem mem_tput {x : Nat × α} {k : Nat} {v : α} {l : List (Nat × α)} (h : x ∈ tput k v l) : x = (k, v) ∨ x ∈ l := by
  induction l with
  | nil => simpa [tput] using h
  | cons y r ih =>
    obtain ⟨j, u⟩ := y
    simp only [tput] at h
    split at h
    · simpa using h
    · split at h
      · rcases List.mem_cons.mp h with e | e
        · exact .inl e
        · exact .inr (List.mem_cons_of_mem _ e)
      · rcases List.mem_cons.mp h with e | e
        · exact .inr (e ▸ List.mem_cons_self)
        · exact (ih e).imp_right (List.mem_cons_of_mem _)

theorem mem_tput_self (k : Nat) (v : α) (l : List (Nat × α)) : (k, v) ∈ tput k v l := by
  induction l with
  | nil => simp [tput]
  | cons y r ih =>
    obtain ⟨j, u⟩ := y
    simp only [tput]
    split
    · simp
    · split
      · simp
      · exact List.mem_cons_of_mem _ ih

theorem rising_tput (k : Nat) (v : α) (l : List (Nat × α)) (h : Rising l) : Rising (tput k v l) := by
  induction l with
  | nil => simp [tput, Rising]
  | cons y r ih =>
    obtain ⟨j, u⟩ := y
    obtain ⟨h1, h2⟩ := h
    simp only [tput]
    split
    · rename_i hk
      refine ⟨?_, h1, h2⟩
      intro x hx
      rcases List.mem_cons.mp hx with e | e
      · simpa [e] using hk
      · exact lt_trans hk (h1 x e)
    · split
      · rename_i _ e
        subst e
        exact ⟨h1, h2⟩
      · rename_i hk hj
        refine ⟨?_, ih h2⟩
        intro x hx
        rcases mem_tput hx with e | e
        · simp only [e]; omega
        · exact h1 x e

end Sys2Proof.Machine
end

