-- ==== Sys2Proof/Laws/Rings.lean ====
section
/-! SUPPORT. What the fetch of a ring entry is on a ring that waits for nothing: the command's own operation, on the record in which it begins. -/

namespace Sys2Proof.Machine

theorem sumNat_cons (a : Nat) (l : List Nat) : sumNat (a :: l) = a + sumNat l := by
  have h : ∀ (l : List Nat) (b : Nat), l.foldl (· + ·) b = b + l.foldl (· + ·) 0 := by
    intro l
    induction l with
    | nil => intro b; simp
    | cons x r ih => intro b; simp only [List.foldl_cons]; rw [ih (b + x), ih (0 + x)]; omega
  simp only [sumNat, List.foldl_cons]
  rw [h]; omega

/-- A sum over a table in which only the entry put counts. -/
theorem sum_tput_only (f : Nat × α → Nat) (k : Nat) (v : α) (l : List (Nat × α)) (h : ∀ x ∈ l, f x = 0) :
    sumNat ((tput k v l).map f) = f (k, v) := by
  have zero : ∀ l : List (Nat × α), (∀ x ∈ l, f x = 0) → sumNat (l.map f) = 0 := by
    intro l
    induction l with
    | nil => intro; rfl
    | cons x r ih => intro h; simp only [List.map_cons, sumNat_cons, h x List.mem_cons_self, ih fun y hy => h y (List.mem_cons_of_mem _ hy)]
  induction l with
  | nil => simp [tput, sumNat]
  | cons x r ih =>
    obtain ⟨j, u⟩ := x
    have hr := fun y hy => h y (List.mem_cons_of_mem (j, u) hy)
    simp only [tput]
    split
    · simp only [List.map_cons, sumNat_cons, h (j, u) List.mem_cons_self, zero r hr]; omega
    · split
      · simp only [List.map_cons, sumNat_cons, zero r hr]; omega
      · simp only [List.map_cons, sumNat_cons, h (j, u) List.mem_cons_self, ih hr]; omega

/-- The first answer in a table in which only the entry put answers. -/
theorem findSome?_tput_only (f : Nat × α → Option β) (k : Nat) (v : α) (l : List (Nat × α)) (h : ∀ x ∈ l, f x = none) :
    (tput k v l).findSome? f = f (k, v) := by
  have zero : ∀ l : List (Nat × α), (∀ x ∈ l, f x = none) → l.findSome? f = none := fun l h => List.findSome?_eq_none_iff.mpr h
  induction l with
  | nil => simp only [tput, List.findSome?_cons, List.findSome?_nil]; cases f (k, v) <;> rfl
  | cons x r ih =>
    obtain ⟨j, u⟩ := x
    have hr := fun y hy => h y (List.mem_cons_of_mem (j, u) hy)
    simp only [tput]
    split
    · rw [List.findSome?_cons, zero _ h]; cases f (k, v) <;> rfl
    · split
      · rw [List.findSome?_cons, zero r hr]; cases f (k, v) <;> rfl
      · rw [List.findSome?_cons, h (j, u) List.mem_cons_self]; exact ih hr

theorem tput_tput (k : Nat) (u v : α) (l : List (Nat × α)) : tput k v (tput k u l) = tput k v l := by
  induction l with
  | nil => simp [tput]
  | cons x r ih =>
    obtain ⟨j, y⟩ := x
    simp only [tput]
    split
    · simp [tput]
    · split
      · simp [tput]
      · rename_i h1 h2
        simp [tput, h1, h2, ih]

/-- Two changes of one ring are one change. -/
theorem W.ring_ring (r : Nat) (f g : Ring → Ring) (w : W) : (w.ring r f).ring r g = w.ring r fun x => g (f x) := by
  simp [W.ring, Dev.ring, tput_tput]

theorem W.ring_ring_self (r : Nat) (f : Ring → Ring) (w : W) : (w.ring r f).dev.ring r = f (w.dev.ring r) := by
  simp [W.ring, Dev.ring]

theorem W.ring_ring_other {r q : Nat} (h : q ≠ r) (f : Ring → Ring) (w : W) : (w.ring r f).dev.ring q = w.dev.ring q := by
  simp [W.ring, Dev.ring, tget_tput_other _ h]

/-- A ring of a quiet module has nothing outstanding. -/
theorem quiet_ring_out {r q : Nat} {s : State} (h : Quiet r s) : (s.dev.ring q).out = [] := by
  unfold Dev.ring tget
  cases e : tget? q s.dev.rings with
  | none => rfl
  | some g =>
    have : (q, g) ∈ s.dev.rings := by
      have hm : ∀ l : List (Nat × Ring), tget? q l = some g → (q, g) ∈ l := by
        intro l
        induction l with
        | nil => simp [tget?]
        | cons x r ih =>
          obtain ⟨j, u⟩ := x
          simp only [tget?]
          split
          · rename_i e; intro h; simp only [Option.some.injEq] at h; simp [e, h]
          · intro h; exact List.mem_cons_of_mem _ (ih h)
      exact hm _ e
    exact h.noOrders _ this

/-- The fetch of an entry on a quiet ring runs the entry's command at once and starts no other. -/
theorem fetch_quiet {op : Nat} {e : Entry} {s : State} (h : Quiet e.ring.val s) :
    W.fetch op e (W.of s) = (begun s op e).runCommand e.ring.val (order s op e) := by
  have hout : (s.dev.ring e.ring.val).out = [] := quiet_ring_out h
  let o : Outstanding := { order s op e with started := false }
  let w1 : W := (W.of s).ring e.ring.val fun g => { g with subHead := (g.subHead + 1) % 256, out := g.out ++ [o] }
  have hf : W.fetch op e (W.of s) = w1.wind := by
    have hm : (W.of s).dev.mayFetch e.ring.val = true := h.fetches
    simp only [W.fetch, hm, if_true]
    rfl
  have hrings : w1.dev.rings = tput e.ring.val { s.dev.ring e.ring.val with subHead := ((s.dev.ring e.ring.val).subHead + 1) % 256, out := [o] } s.dev.rings := by
    simp [w1, W.ring, hout]
  have hphase : w1.dev.boot.phase = .run := h.running
  have hwind : w1.wind = w1.settle w1.dev.unstarted := by
    have hc : w1.dev.boot.phase.collects = true := by rw [hphase]; rfl
    have hr : w1.resumeChanges = w1 := by
      have : w1.dev.regs.cfg.waiting = [] := h.noChange
      simp [W.resumeChanges, this]
    simp [W.wind, hc, hr]
  have hun : w1.dev.unstarted = 1 := by
    unfold Dev.unstarted
    rw [hrings, sum_tput_only]
    · simp [o]
    · intro x hx; simp [h.noOrders x hx]
  have hnext : w1.dev.nextStart = some (e.ring.val, o) := by
    unfold Dev.nextStart
    rw [hrings, findSome?_tput_only]
    · simp [Dev.mayStartCommand, o, hphase]
    · intro x hx; simp [h.noOrders x hx]
  rw [hf, hwind, hun]
  simp only [W.settle, hnext]
  simp only [W.startCommand]
  have : (w1.ring e.ring.val fun g => { g with out := g.out.map fun x => if x.index = o.index then { o with started := true } else x }) = begun s op e := by
    simp only [w1, W.ring_ring, begun]
    have hr : ∀ g g' : Ring, g = g' → W.ring e.ring.val (fun _ => g) (W.of s) = W.ring e.ring.val (fun _ => g') (W.of s) := fun _ _ e => by rw [e]
    have key : ∀ f f' : Ring → Ring, f (s.dev.ring e.ring.val) = f' (s.dev.ring e.ring.val) → W.ring e.ring.val f (W.of s) = W.ring e.ring.val f' (W.of s) := by
      intro f f' hff
      simp only [W.ring, W.of_dev, hff]
    apply key
    simp [hout, o, order]
  rw [this]
  rfl

/-- An accepted entry runs its operation. -/
theorem fetch_accepts {op : Nat} {e : Entry} {s : State} (h : Accepts op e s) :
    W.fetch op e (W.of s) = (begun s op e).operation e.ring.val (order s op e) := by
  rw [fetch_quiet h.quiet]
  have hadmin : ((begun s op e).dev.ring e.ring.val).admin = (s.dev.ring e.ring.val).admin := by
    simp [begun, W.ring_ring_self]
  have hop : (order s op e).op = op := rfl
  simp only [W.runCommand, hop, hadmin, h.wellMade]
  rcases h.allowed with a | a <;> simp [a]

/-- The command begins as the one outstanding command of its ring. -/
theorem begun_outstanding (s : State) (op : Nat) (e : Entry) :
    (begun s op e).dev.outstanding? e.ring.val (order s op e).index = some (order s op e) := by
  simp [Dev.outstanding?, begun, W.ring_ring_self]

end Sys2Proof.Machine
end

