-- ==== Sys2Proof/Laws/Host.lean ====
section
/-! SUPPORT. What reaches host memory and the Halter link: bytes, completions and events change these and nothing else. -/

namespace Sys2Proof.Machine

/-! ### Bytes poked -/

theorem W.pokes_dev (k : Nat) (b : Bytes) (w : W) : (w.pokes k b).dev = w.dev := by
  induction b generalizing k w with
  | nil => rfl
  | cons x r ih => rw [W.pokes, ih]; rfl

theorem W.pokes_st (k : Nat) (b : Bytes) (w : W) : (w.pokes k b).st = w.st := by
  induction b generalizing k w with
  | nil => rfl
  | cons x r ih => rw [W.pokes, ih]; rfl

theorem W.peek_poke_same (k : Nat) (b : Byte) (w : W) : (w.poke k b).peek k = b := by
  simp [W.peek, W.poke, tget?]

theorem W.peek_poke_other {j k : Nat} (h : j ≠ k) (b : Byte) (w : W) : (w.poke k b).peek j = w.peek j := by
  simp [W.peek, W.poke, tget?, Ne.symm h]

/-- Bytes outside the run that is poked stay. -/
theorem W.peek_pokes_other {j k : Nat} {b : Bytes} (h : j < k ∨ k + b.length ≤ j) (w : W) : (w.pokes k b).peek j = w.peek j := by
  induction b generalizing k w with
  | nil => rfl
  | cons x r ih =>
    simp only [List.length_cons] at h
    rw [W.pokes, ih (by omega), W.peek_poke_other (by omega)]

/-- Bytes of the run are those poked. -/
theorem W.peek_pokes_same {k i : Nat} {b : Bytes} (h : i < b.length) (w : W) : (w.pokes k b).peek (k + i) = b[i] := by
  induction b generalizing k i w with
  | nil => simp at h
  | cons x r ih =>
    cases i with
    | zero =>
      rw [W.pokes, W.peek_pokes_other (by omega)]
      exact W.peek_poke_same k x w
    | succ i =>
      have := @ih (k + 1) i (by simpa using h) (w.poke k x)
      rw [W.pokes]
      rw [show k + (i + 1) = k + 1 + i by omega, this]
      rfl

/-! ### Fields of a transaction header (R415) -/

theorem leBytes_length (n v : Nat) : (leBytes n v).length = n := by
  induction n generalizing v with
  | zero => rfl
  | succ n ih => simp [leBytes, ih]

theorem ofLe_leBytes (n v : Nat) : ofLe (leBytes n v) = v % 256 ^ n := by
  induction n generalizing v with
  | zero => simp [leBytes, ofLe, Nat.mod_one]
  | succ n ih =>
    rw [leBytes, ofLe, ih, Nat.pow_succ, Nat.mul_comm (256 ^ n) 256, Nat.mod_mul]
    rfl

theorem ofLe_lt (b : Bytes) : ofLe b < 256 ^ b.length := by
  induction b with
  | nil => simp [ofLe]
  | cons x r ih =>
    have := x.isLt
    simp only [ofLe, List.length_cons, Nat.pow_succ]
    omega

theorem fld_lt (b : Bytes) (off n : Nat) : fld b off n < 256 ^ n :=
  Nat.lt_of_lt_of_le (ofLe_lt _) (Nat.pow_le_pow_right (by omega) (List.length_take_le n _))

theorem txHeader_length (op flags tag len addr : Nat) : (txHeader op flags tag len addr).length = 16 := by
  simp only [txHeader, List.length_append, leBytes_length]

theorem txHeader_op (op flags tag len addr : Nat) (b : Bytes) : fld (txHeader op flags tag len addr ++ b) 0 1 = op % 256 := by
  simp only [fld, txHeader, List.append_assoc, List.drop_zero]
  rw [List.take_left' (leBytes_length 1 op), ofLe_leBytes, Nat.pow_one]

theorem txHeader_addr (op flags tag len addr : Nat) (b : Bytes) : fld (txHeader op flags tag len addr ++ b) 8 8 = addr % 2 ^ 64 := by
  have h : txHeader op flags tag len addr ++ b = (leBytes 1 op ++ leBytes 1 flags ++ leBytes 2 tag ++ leBytes 4 len) ++ (leBytes 8 addr ++ b) := by
    simp only [txHeader, List.append_assoc]
  rw [fld, h, List.drop_left' (by simp only [List.length_append, leBytes_length]), List.take_left' (leBytes_length 8 addr), ofLe_leBytes]
  rfl

theorem txHeader_data (op flags tag len addr : Nat) (b : Bytes) : (txHeader op flags tag len addr ++ b).drop 16 = b :=
  List.drop_left' (txHeader_length op flags tag len addr)

/-! ### Transactions sent -/

theorem W.emit_dev (tx : Bytes) (w : W) : (w.emit tx).dev = { w.dev with halter := Link.emit tx w.dev.halter } := by
  unfold W.emit
  split
  · rw [W.pokes_dev]; rfl
  · rfl

theorem W.emit_st (tx : Bytes) (w : W) : (w.emit tx).st = w.st := by
  unfold W.emit
  split
  · rw [W.pokes_st]; rfl
  · rfl

theorem keySpace_host {a i : Nat} (ha : a < 2 ^ 64) (hi : i < 2 ^ 64) : keySpace (hostKey a + i) = spHost := by
  simp only [keySpace, hostKey, memKey]
  omega

/-- A transaction changes no byte outside host memory. -/
theorem W.peek_emit_other {j : Nat} {tx : Bytes} (hj : keySpace j ≠ spHost) (hl : tx.length < 2 ^ 64) (w : W) : (w.emit tx).peek j = w.peek j := by
  unfold W.emit
  split
  · refine (W.peek_pokes_other ?_ _).trans rfl
    have ha := fld_lt tx 8 8
    by_contra hc
    refine hj ?_
    have hd : (tx.drop 16).length ≤ tx.length := by simp
    have hi : j = hostKey (fld tx 8 8) + (j - hostKey (fld tx 8 8)) := by omega
    rw [hi]
    exact keySpace_host (by simpa using ha) (by omega)
  · rfl

/-- The bytes of a WRITE that is sent stand in host memory. -/
theorem W.peek_emit_same {n a i : Nat} {b : Bytes} (h : i < b.length) (w : W) :
    (w.emit (txHeader 1 0 0 n a ++ b)).peek (hostKey (a % 2 ^ 64) + i) = b[i] := by
  have ho := txHeader_op 1 0 0 n a b
  simp only [W.emit, ho, txHeader_addr, txHeader_data, Nat.reduceMod, if_true]
  exact W.peek_pokes_same h _

/-- What sending a transaction does: nothing but the Halter link and host memory changes. -/
theorem W.sendTx_frame (cls key : Nat) (tx : Bytes) (w : W) :
    (w.sendTx cls key tx).dev = { w.dev with halter := (w.sendTx cls key tx).dev.halter } ∧ (w.sendTx cls key tx).st = w.st ∧
    (tx.length < 2 ^ 64 → ∀ j, keySpace j ≠ spHost → (w.sendTx cls key tx).peek j = w.peek j) := by
  unfold W.sendTx
  split
  · exact ⟨by rw [W.emit_dev], W.emit_st tx w, fun hl j hj => W.peek_emit_other hj hl w⟩
  · exact ⟨rfl, rfl, fun _ _ _ => rfl⟩

/-- A link on which nothing waits sends at once what it takes. -/
theorem W.sendTx_now {cls key : Nat} {tx : Bytes} {w : W} (hs : w.dev.halter.toSend = []) (ht : w.dev.halter.takes tx = true) :
    w.sendTx cls key tx = w.emit tx := by
  simp [W.sendTx, hs, ht]

/-! ### Writes to the host -/

theorem chunksAux_length {n f : Nat} {l c : List α} (h : c ∈ chunksAux n f l) : c.length ≤ n := by
  induction f generalizing l with
  | zero => simp [chunksAux] at h
  | succ f ih =>
    cases l with
    | nil => simp [chunksAux] at h
    | cons x r =>
      simp only [chunksAux, List.mem_cons] at h
      rcases h with rfl | h
      · exact List.length_take_le n _
      · exact ih h

theorem hostParts_length {b : Bytes} {x : Nat × Bytes} (h : x ∈ hostParts b) : x.2.length ≤ 4103 := by
  simp only [hostParts, List.mem_append, List.mem_map, List.mem_range] at h
  rcases h with ⟨i, hi, rfl⟩ | h
  · simp only [List.getD_eq_getElem?_getD, List.getElem?_eq_getElem hi, Option.getD_some]
    exact Nat.le_trans (chunksAux_length (List.getElem_mem hi)) (by omega)
  · split at h <;> rename_i hc
    · simp only [Bool.and_eq_true, decide_eq_true_eq] at hc
      split at h
      · rw [List.mem_singleton] at h
        subst h
        simp only [List.length_drop]
        omega
      · cases h
    · rw [if_neg (Nat.lt_irrefl _)] at h
      cases h

/-- Up to 4,096 bytes go in one WRITE. -/
theorem hostParts_short {b : Bytes} (h0 : b ≠ []) (h : b.length ≤ 4096) : hostParts b = [(0, b)] := by
  have hc : chunks 4096 b = [b] := by
    cases b with
    | nil => exact absurd rfl h0
    | cons x r =>
      have ht : (x :: r).take 4096 = x :: r := List.take_of_length_le h
      have hd : (x :: r).drop 4096 = [] := List.drop_of_length_le h
      simp only [chunks, List.length_cons, chunksAux, ht, hd]
      cases r <;> rfl
  have hn : decide (4096 < b.length) = false := by simpa using h
  simp [hostParts, hn, hc]

theorem W.writeHost_short {cls key a : Nat} {b : Bytes} (h0 : b ≠ []) (h : b.length ≤ 4096) (w : W) :
    w.writeHost cls key a b = w.sendTx cls key (txHeader 1 0 0 b.length a ++ b) := by
  simp [W.writeHost, hostParts_short h0 h, W.each]

theorem W.writeHost_nil (cls key a : Nat) (w : W) : w.writeHost cls key a [] = w := rfl

/-- What writing to the host does: nothing but the Halter link and host memory changes. -/
theorem W.writeHost_frame (cls key a : Nat) (b : Bytes) (w : W) :
    (w.writeHost cls key a b).dev = { w.dev with halter := (w.writeHost cls key a b).dev.halter } ∧ (w.writeHost cls key a b).st = w.st ∧
    ∀ j, keySpace j ≠ spHost → (w.writeHost cls key a b).peek j = w.peek j := by
  unfold W.writeHost W.each
  have hp : ∀ x ∈ hostParts b, x.2.length ≤ 4103 := fun x h => hostParts_length h
  generalize hostParts b = l at hp
  induction l generalizing w with
  | nil => exact ⟨rfl, rfl, fun _ _ => rfl⟩
  | cons x r ih =>
    have f := W.sendTx_frame cls key (txHeader 1 0 0 x.2.length (a + x.1) ++ x.2) w
    have hl := hp x (List.mem_cons_self ..)
    have g := ih (w.sendTx cls key (txHeader 1 0 0 x.2.length (a + x.1) ++ x.2)) fun y hy => hp y (List.mem_cons_of_mem _ hy)
    simp only [List.foldl_cons]
    refine ⟨?_, g.2.1.trans f.2.1, fun j hj => (g.2.2 j hj).trans (f.2.2 ?_ j hj)⟩
    · rw [g.1]; rw [f.1]
    · simp only [List.length_append, txHeader_length]; omega

theorem W.toHost_dev (a : Nat) (b : Bytes) (w : W) : (w.toHost a b).dev = { w.dev with halter := (w.toHost a b).dev.halter } :=
  (W.writeHost_frame ..).1

/-! ### Completions -/

theorem W.deliver_dev (r : Nat) (c : Completion) (w : W) :
    (w.deliver r c).dev = { w.dev with rings := (w.deliver r c).dev.rings, halter := (w.deliver r c).dev.halter } := by
  simp only [W.deliver, W.message]
  rw [(W.sendTx_frame ..).1]
  simp only [W.ring]
  rw [(W.writeHost_frame ..).1, (W.writeHost_frame ..).1]

theorem W.post_dev (r : Nat) (c : Completion) (w : W) :
    (w.post r c).dev = { w.dev with rings := (w.post r c).dev.rings, halter := (w.post r c).dev.halter } := by
  unfold W.post
  split
  · exact W.deliver_dev r c w
  · rfl

/-- The device after the completion of an outstanding command: it is outstanding no more, and its completion is written or held. -/
theorem complete_of_outstanding {r i : Nat} {o : Outstanding} {w : W} (h : w.dev.outstanding? r i = some o) (st : Status) (v : Nat) (b : Bytes) :
    w.complete r i st v b =
      (w.ring r fun g => { g with out := g.out.filter (·.index ≠ i), done := if o.op = 0x12 then o.entry.cmdId.toNat :: g.done else g.done }).post r
        { status := st.code, cmdId := o.entry.cmdId.toNat, herd := w.herd, index := i, value := v, resultAt := o.entry.result.toNat
          result := b.take o.entry.resultLen.toNat } := by
  simp only [W.complete, h]
  rfl

end Sys2Proof.Machine
end

