-- ==== Sys2Proof/WellFormed.lean ====
section
/-! DEFINITION. Which commands are well formed: every record operand has the length its table gives it. -/

namespace Sys2Proof

/-- A submission entry has 32 INLINE bytes (R419). -/
def Entry.wellFormed (e : Entry) : Bool := e.inline.length == 32

/-- A storage entry has 64 bytes, 40 of them after HOST_ADDR (R380). -/
def StorageEntry.wellFormed (c : StorageEntry) : Bool := c.rest.length == 40

/-- A Halter flit has a BODY of 244 bytes (R413). -/
def HalterFlit.wellFormed (f : HalterFlit) : Bool := f.body.length == 244

/-- A Drove head has 108 granule checks in its 216 bytes, and 0 to 27 data flits follow it (R402). -/
def DroveHead.wellFormed (h : DroveHead) : Bool := h.checks.length == 108 && h.flits.toNat ≤ 27

/-- A defect list may name physical stalls below 288 × 108 (R20) and columns of them; the prefix of a peer's DEVICE_ID has 16 bytes. -/
def StageFindings.wellFormed (f : StageFindings) : Bool :=
  f.stalls.all (· < 288 * 108) && f.columns.all (fun c => c.1 < 288 * 108) && f.peerIds.all (·.2.length == 16)

def Instr.wellFormed : Instr → Bool
  | .nop e | .muster e | .planLoad e | .planUnload e | .batch e | .cancel e | .admitRequest e | .input e | .pause e | .resume e
  | .paddockForm e | .paddockTeardown e | .serveSet e | .tenantSet e | .lockstepPair e | .tokenizerLoad e | .grammarLoad e
  | .adapterLoad e | .adapterUnload e | .indexCreate e | .indexUpdate e | .indexConsolidate e | .indexGeneration e
  | .indexDelete e | .embCreate e | .embVersion e | .embMigrate e | .embDelete e | .hostWrite e | .hostRead e | .peerCopy e
  | .commonsMigrate e | .pageRetire e | .groomRequest e | .energySet e | .fwHandover e | .attest e => e.wellFormed
  | .storageRead _ c | .storageWrite _ c | .storageDiscard _ c => c.wellFormed
  | .halterDataFlit f | .halterControlFlit f => f.wellFormed
  | .droveTrain _ h data | .lockstepDigestReceived _ h data => h.wellFormed && data.length == h.flits.toNat && data.all (·.length == 256)
  | .droveControl _ h => h.wellFormed
  | .launchPoint h => h % 2048 == 0
  | .cfgSweepStart h => h % 400000 == 0
  | .stageComplete f => f.wellFormed
  | .storageCompletion .. | .subTail .. | .cplHead .. | .strHead .. | .evtHead .. | .shedSubTail .. | .compHead ..
  | .shedQueueReset .. | .queueResetEnd .. | .swap .. | .cfgOpen .. | .cfgCommit .. | .cfgAbandon .. | .cfgRefWrite ..
  | .cfgWindowTimeout .. | .faultClear .. | .faultInject .. | .musterCtlGo | .rcvCtlGo .. | .standbyEnter .. | .standbyExit ..
  | .indirectAccess .. | .loReadCapture .. | .registerWrite .. | .halterReplayTimeout | .halterLinkLost .. | .halterLinkUp ..
  | .droveReplayTimeout .. | .droveLinkLost .. | .lockstepDigestReady .. | .lockstepTimeout ..
  | .epochBoundary .. | .remapDue .. | .planNop .. | .pass .. | .vec .. | .pack .. | .select8 .. | .select .. | .compact ..
  | .move .. | .bayTable .. | .bayHamming .. | .bayFetch .. | .bayHop .. | .bayQueueOut .. | .lookup .. | .update ..
  | .bayDecode .. | .merge .. | .tokenize .. | .detokenize .. | .mask .. | .shedRead .. | .barnRead .. | .barnWrite ..
  | .droveSend .. | .droveRecv .. | .hostOut .. | .random .. | .repeatWord .. | .stepBoundary .. | .holdPoint .. | .holdEnd ..
  | .deadlineExpiry .. | .deadlineReadArrival .. | .faultDetection .. | .recoveryEnd | .faultLogCopy | .defectListAppend
  | .scrubEnd .. | .reformationEnd .. | .cfgSweepEnd | .stackTempReading .. | .stackTrip .. | .railSample .. | .refClkFault
  | .energyWindowEnd .. | .budgetSliceEnd .. | .domainWake .. | .domainAwake .. | .domainDeepen .. | .mapCheckpoint
  | .garbageCollection .. | .pageProgramComplete .. | .blockEraseComplete .. | .pageFillDone .. | .commonsCopyDone ..
  | .migPeriod .. | .embCopyDone .. | .groomServiceEnd .. | .handoverCoreReturn .. | .tackRewriteDone .. | .syncMessage ..
  | .syncWaitTimeout | .syncStale | .syncOutSend .. | .inputPowerApplied | .pwrEnRise | .orderlyPowerDown | .heldEntry
  | .resetNLow | .resetNRise | .halterTrainRetry .. | .statusWord | .readVin | .readIin | .readTemperature1 | .readPin
  | .pmbusRevision | .mfrEnergyBlock | .pmbusWrite .. | .alertResponse | .bypass | .idcode | .samplePreload .. | .extest
  | .clamp | .highz | .codebookCopyDone .. | .inputPowerLost | .smbusBusTimeout | .tapReset => true

end Sys2Proof
end

