-- ==== Sys2Proof/Tests/Slice0.lean ====
section
/-! SUPPORT. Tests: an ill-formed command for each check of WellFormed, commands on small states, and witnesses that the hypotheses of the statements
can be met together. -/

namespace Sys2Proof.Tests

open Host Sys2Proof Sys2Proof.Machine

set_option Elab.async false

/-! ### Well-formedness -/

def entry (ring : Fin 64) (inl : Bytes) (payload len result : Nat) : Entry :=
  { ring := ring, flags := 0, reserved := 0, cmdId := 7, payload := BitVec.ofNat 64 payload, payloadLen := BitVec.ofNat 32 len
    resultLen := BitVec.ofNat 32 result, result := 0x8000, inline := inl }

def storage (tag len addr : Nat) : StorageEntry :=
  { tag := BitVec.ofNat 8 tag, flags := 0, reserved := 0, length := BitVec.ofNat 32 len, shedAddr := BitVec.ofNat 64 addr, hostAddr := 0x10000
    rest := zeros 40 }

def flit : HalterFlit := { fflags := 0, seq := 0, ack := 0, credits := 0, body := zeros 244, crc := 0 }

def head : DroveHead :=
  { flits := 1, paddock := 0, flags := 0, seq := 0, ack := 0, credits := 0, channel := 0, launch := 0, offset := 0, checks := List.replicate 108 0
    reserved := 0, crc := 0 }

def findings : StageFindings :=
  { durationMS := 1, refClk := true, peerIds := [], fwOk := true, cfgOk := true, status := 0, topologyOk := true, diesFound := 0, retrained := 0, pages := [], stalls := [], columns := []
    removedPc := [], halterLanes := 0xFFFF, droveUp := 0, mapRegion := 0, identityOk := true, savedUsed := false
    sfdp := { bytes := 2 ^ 27, addr4 := true, quadRead := true, pageProgram := true, erase4k := true, erase64k := true } }

theorem test_entry_inline_length : (Instr.nop (entry 0 (zeros 31) 0 0 0)).wellFormed = false := by decide
theorem test_entry_well_formed : (Instr.nop (entry 0 (zeros 32) 0 0 0)).wellFormed = true := by decide
theorem test_storage_rest_length : (Instr.storageRead 0 { storage 1 64 0 with rest := zeros 39 }).wellFormed = false := by decide
theorem test_flit_body_length : (Instr.halterDataFlit { flit with body := zeros 243 }).wellFormed = false := by decide +kernel
theorem test_head_checks_length : (Instr.droveControl 0 { head with checks := [] }).wellFormed = false := by decide
theorem test_head_flits_at_most_27 : (Instr.droveControl 0 { head with flits := 28 }).wellFormed = false := by decide
theorem test_train_flit_count : (Instr.droveTrain 0 head []).wellFormed = false := by decide
theorem test_train_flit_length : (Instr.droveTrain 0 head [zeros 255]).wellFormed = false := by decide +kernel
theorem test_launch_point_multiple : (Instr.launchPoint 2049).wellFormed = false := by decide
theorem test_sweep_start_multiple : (Instr.cfgSweepStart 400_001).wellFormed = false := by decide
theorem test_stage_stalls_bound : (Instr.stageComplete { findings with stalls := [288 * 108] }).wellFormed = false := by decide
theorem test_stage_peer_identity_length : (Instr.stageComplete { findings with peerIds := [(0, zeros 15)] }).wellFormed = false := by decide
theorem test_stage_columns_bound : (Instr.stageComplete { findings with columns := [(288 * 108, 0)] }).wellFormed = false := by decide


/-! ### A small running module -/

/-- A host image of `n` bytes: the fields at their places, zero elsewhere. -/
def image (n : Nat) (fields : List (Nat × Bytes)) : Bytes :=
  fields.foldl (fun b f => b.take f.1 ++ f.2 ++ b.drop (f.1 + f.2.length)) (zeros n)

/-- Host memory that holds `b` at address 0x10000. -/
def hostBytes (b : Bytes) : Memory := ((List.range b.length).map fun i => (hostKey (0x10000 + i), b.getD i 0)).filter fun x => x.2 ≠ 0

def ring0 : Ring := { Ring.reset with enable := true, admin := true, sub := 0x1000, cpl := 0x2000, subTail := 1 }

def dev0 : Dev :=
  { Dev.reset with boot := { Boot.reset with phase := .run, stagesDone := 10 }, halter := { Link.reset with state := 2 }, rings := [(0, ring0)] }

/-- RUN with the link UP and one entry in ring 0. -/
def run0 : State := { State.reset with clock := ⟨1000⟩, dev := dev0 }

/-- `run0` with a payload in host memory. -/
def withBytes (b : Bytes) : State := { run0 with mem := hostBytes b }

def pad0 : Paddock :=
  { state := .ready, stables := [0], mergeBase := 0, mergeBytes := 0, stageBytes := 0, resident := 0, prefill := 0, ratioSeen := (0, 0), pendServing := none
    serving := none, plans := [], batches := [], decided := [], step := none, replay := none, gated := none, adapters := [], adapterCounts := [], tenantPtr := 0, depthMax := 0
    formCmd := none, scrubbing := false, scrubDone := false, teardown := none, reform := none, lockstep := none, appended := [], flying := [] }

/-- `s` with paddock 3 as `q`. -/
def withPad (q : Paddock) (s : State) : State := { s with dev := { s.dev with pads := [(3, q)] } }

/-- What `Accepts` asks, as a computation. -/
def accepts (op : Nat) (e : Entry) (s : State) : Bool :=
  s.dev.mayFetch e.ring.val && decide (s.dev.boot.phase = .run) && s.dev.regs.cfg.waiting.isEmpty && s.dev.rings.all (fun x => x.2.out.isEmpty)
  && (order s op e).wellMade && (anyRing op || (s.dev.ring e.ring.val).admin)

theorem accepts_spec {op : Nat} {e : Entry} {s : State} (h : accepts op e s = true) : Accepts op e s := by
  simp only [accepts, Bool.and_eq_true, decide_eq_true_eq, List.isEmpty_iff, List.all_eq_true, Bool.or_eq_true] at h
  obtain ⟨⟨⟨⟨⟨h1, h2⟩, h3⟩, h4⟩, h5⟩, h6⟩ := h
  exact ⟨⟨h1, h2, h3, h4⟩, h5, h6⟩

/-- An entry of ring 0 with a payload of `n` bytes at address 0x10000, and inline bytes at their entry offsets. -/
def cmd (n : Nat) (fields : List (Nat × Bytes)) : Entry := entry 0 (image 32 (fields.map fun f => (f.1 - 32, f.2))) 0x10000 n 0x1000

/-- The payload that a command of opcode `op` reads when it starts. -/
def readBy (op : Nat) (e : Entry) (s : State) : Bytes := (begun s op e).payload (order s op e)

/-! ### Witnesses: the machine -/

theorem witness_StepRunsFrontCommand :
    ({ run0 with pending := [.nop (cmd 0 [])] } : State).pending = Instr.nop (cmd 0 []) :: [] ∧ run0.pending = [] := ⟨rfl, rfl⟩

theorem witness_CommandsLeaveQueue : ∃ t, exec (.nop (cmd 0 [])) run0 = .next t := ⟨_, rfl⟩

theorem witness_StepKeepsMemoryCanonical : MemoryCanonical run0 ∧ ∃ t, step run0 = .next t := ⟨rfl, _, rfl⟩

theorem witness_HerdNeverSetBack :
    let s : State := { run0 with pending := [.syncMessage 8 0 false 16] }
    (∃ t, step s = .next t) ∧ (∀ count check stop h rest, s.pending = .syncMessage count check stop h :: rest → s.dev.syncWaits = false) ∧
    (∀ rest, s.pending = .syncWaitTimeout :: rest → s.dev.syncWaits = false) :=
  ⟨⟨_, rfl⟩, fun _ _ _ _ _ _ => by decide, fun _ _ => by decide⟩

def safe0 : State := { run0 with dev := { dev0 with boot := { dev0.boot with phase := .safe } } }

theorem witness_SafeStateIsHeld : safe0.dev.boot.phase = .safe ∧ leavesSafe (.nop (cmd 0 [])) = false ∧ ∃ t, exec (.nop (cmd 0 [])) safe0 = .next t :=
  ⟨rfl, rfl, _, rfl⟩

theorem witness_ParkedModuleKeepsDevice : safe0.dev.boot.phase.collects = false := rfl

/-! ### Witnesses: command rings -/

theorem witness_NopCompletesDone : Accepts 0x01 (cmd 0 []) run0 ∧ ∃ t, exec (.nop (cmd 0 [])) run0 = .next t :=
  ⟨accepts_spec (by decide +kernel), _, rfl⟩

theorem witness_CompletionEntryIsWritten :
    Accepts 0x01 (cmd 0 []) run0 ∧ Memory.wf run0.mem = true ∧ run0.dev.halter.isUp = true ∧ (∃ t, exec (.nop (cmd 0 [])) run0 = .next t) ∧
    run0.dev.halter.credits = 0 ∧
    (let s : State := { run0 with dev := { dev0 with halter := { dev0.halter with credits := 1 } } }
     Accepts 0x01 (cmd 0 []) s ∧ s.dev.halter.isUp = true ∧ (∃ t, exec (.nop (cmd 0 [])) s = .next t) ∧ s.dev.halter.toSend = [] ∧
     s.dev.halter.credits ≠ 0) :=
  ⟨accepts_spec (by decide +kernel), rfl, rfl, ⟨_, rfl⟩, rfl, accepts_spec (by decide +kernel), rfl, ⟨_, rfl⟩, rfl, by decide⟩

theorem witness_CommandsNeedAdminAndWaitForFence :
    (let s : State := { run0 with dev := { dev0 with rings := [(0, { ring0 with admin := false })] } }
     Quiet 0 s ∧ anyRing 0x20 = false ∧ (s.dev.ring 0).admin = false)
    ∧ (let p := order run0 0x12 (cmd 0 [])
       let o := { p with index := 1, started := false, entry := { cmd 0 [] with flags := 1 } }
       ({ ring0 with out := [p, o] } : Ring).out = p :: [o] ∧ p ≠ o ∧ o.entry.flags.getLsbD 0 = true) :=
  ⟨⟨⟨by decide +kernel, by decide, by decide, by decide⟩, by decide, by decide⟩, by decide +kernel⟩

theorem witness_MusterWritesRecord : Accepts 0x02 (cmd 0 []) run0 := accepts_spec (by decide +kernel)

theorem witness_BatchQueues :
    let s := withPad pad0 run0
    let e := cmd 0 [(32, [3]), (36, leBytes 4 9)]
    let w := begun s 0x12 e
    Accepts 0x12 e s ∧ w.dev.pad? 3 = some pad0 ∧ (order s 0x12 e).field 32 1 = 3 ∧ pad0.state ≠ .tearing ∧ (order s 0x12 e).field 33 1 ≤ 3 ∧
    maxNat ((pad0.plans.filter fun x => x.family = (order s 0x12 e).field 36 4 && x.kind ≠ pkService).map
      (LoadEnv.hostExtent { dev := w.dev, p := 3, pad := pad0 })) ≤ (order s 0x12 e).payloadLen :=
  ⟨accepts_spec (by decide +kernel), by decide +kernel, by decide +kernel, by decide, by decide +kernel, by decide +kernel⟩

def req0 : Request :=
  { number := 5, admitted := 700, ring := 0, tenant := 0, cls := 0, paddock := 3, includeStop := false, logprobs := false, inLimit := 10, outLimit := 10
    protect := 0, seed := 1, stream := 0, sampler := 0, topK := 0, tableId := 1, tableVer := 1, adapterId := 0, adapterVer := 0, adapterSlot := 0
    grammarId := 0, grammarVer := 0, context := none, temp := 0, p := 0, mark := 0, stopTokens := [], stopStrings := [], state := .input
    pauseHost := false, pauseBudget := false, pauseLatency := false, pausePhase := false, resumedPhase := false, received := 0, buffers := [], carry := []
    heldTokens := [], heldBytes := [], inTokens := 0, prefilled := 0, outTokens := 0, lastToken := none, waited := 0, kv := [], resident := 0, cancelled := false }

def withReq (s : State) : State := { s with dev := { s.dev with serve := { Serve.reset with requests := [req0] } } }

/-- A queued batch of ring 0, and the BATCH command that stands for it. -/
def queued0 : Batch :=
  { ring := 0, index := 250, cmdId := 9, family := 0, seed := 0, launch := none, pauseLive := false, window := 0, windowLen := 0, tenant := 0, accepted := 900
    service := 0, ident := 0, epoch := 0, rows := [] }

def batchOrder : Outstanding := { index := 250, op := 0x12, entry := { cmd 0 [] with cmdId := 9 }, herd := 900, started := true }

theorem acceptsBeside_spec {op : Nat} {e : Entry} {s : State} (h : (s.dev.mayFetch e.ring.val && decide (s.dev.boot.phase = .run) &&
    s.dev.regs.cfg.waiting.isEmpty && s.dev.rings.all (fun x => x.2.out.all fun o => o.started) &&
    (s.dev.ring e.ring.val).out.all (fun o => decide (o.index ≠ (s.dev.ring e.ring.val).subHead)) && decide (e.flags = 0) && (order s op e).wellMade &&
    (anyRing op || (s.dev.ring e.ring.val).admin)) = true) : AcceptsBeside op e s := by
  simp only [Bool.and_eq_true, decide_eq_true_eq, List.isEmpty_iff, List.all_eq_true, Bool.or_eq_true] at h
  obtain ⟨⟨⟨⟨⟨⟨⟨h1, h2⟩, h3⟩, h4⟩, h5⟩, h6⟩, h7⟩, h8⟩ := h
  exact ⟨h1, h2, h3, h4, h5, h6, h7, h8⟩

theorem witness_CancelFinds :
    (let s := withPad { pad0 with batches := [queued0] } { run0 with dev := { dev0 with rings := [(0, { ring0 with out := [batchOrder] })] } }
     let e := cmd 0 [(32, [3]), (36, [9])]
     let o := order s 0x13 e
     AcceptsBeside 0x13 e s ∧ o.field 32 1 = 3 ∧ o.field 34 2 < 64 ∧ (s.dev.ring e.ring.val).admin = true ∧
     (s.dev.ring (o.field 34 2)).out.find? (fun x => x.entry.cmdId.toNat = o.field 36 4) = some batchOrder ∧ batchOrder.op = 0x12 ∧
     s.dev.batchAt (o.field 34 2) batchOrder.index = .queued 3)
    ∧ (let e := cmd 0 [(32, [3]), (36, [9])]
     let o := order run0 0x13 e
     Accepts 0x13 e run0 ∧ (o.field 32 1 = 2 ∨ o.field 32 1 = 3) ∧ o.field 34 2 < 64 ∧ ((run0.dev.ring 0).admin = true ∨ o.field 34 2 = 0))
    ∧ (let s := withReq run0
       let e := cmd 0 [(32, [1]), (36, [5]), (40, leBytes 8 700)]
       let o := order s 0x13 e
       let w := begun s 0x13 e
       Accepts 0x13 e s ∧ o.field 32 1 = 1 ∧ w.dev.named 0 o = .ok req0 ∧ (w.cancelRequest 5 700).1 = .done) :=
  ⟨⟨acceptsBeside_spec (by decide +kernel), by decide +kernel, by decide +kernel, by decide +kernel, by decide +kernel, rfl, by rfl⟩,
   ⟨accepts_spec (by decide +kernel), by decide +kernel, by decide +kernel, by decide +kernel⟩,
   ⟨accepts_spec (by decide +kernel), by decide +kernel, by rfl, by decide +kernel⟩⟩

theorem witness_RequestsTakeInputAndPause :
    let s := withReq { run0 with mem := hostBytes [0x61, 0x62] }
    let e := cmd 2 [(32, [1]), (36, [5]), (40, leBytes 8 700)]
    let o := order s 0x15 e
    (Accepts 0x15 e s ∧ (begun s 0x15 e).dev.named 0 o = .ok req0 ∧ o.field 32 1 ≤ 1 ∧ req0.state = .input ∧ req0.buffers.any (·.2) = false ∧
      req0.received + (readBy 0x15 e s).length ≤ 1_048_576)
    ∧ (let e := cmd 0 [(36, [5]), (40, leBytes 8 700)]
       Accepts 0x16 e s ∧ (begun s 0x16 e).dev.named 0 (order s 0x16 e) = .ok req0 ∧
       Accepts 0x17 e s ∧ (begun s 0x17 e).dev.named 0 (order s 0x17 e) = .ok req0) :=
  ⟨⟨accepts_spec (by decide +kernel), by rfl, by decide +kernel, by decide +kernel, by decide +kernel, by decide +kernel⟩,
   ⟨accepts_spec (by decide +kernel), by rfl, accepts_spec (by decide +kernel), by rfl⟩⟩

/-! ### Payloads that are not evaluated -/

/-- Memory cells that hold `b` from key `k`. -/
def cellsFrom : Nat → Bytes → Memory
  | _, [] => []
  | k, x :: r => (k, x) :: cellsFrom (k + 1) r

theorem cellsFrom_read (k i : Nat) (b : Bytes) : memRead (cellsFrom k b) (k + i) = b.getD i 0 := by
  induction b generalizing k i with
  | nil => rfl
  | cons x r ih =>
    cases i with
    | zero => simp [cellsFrom, memRead, tget, tget?]
    | succ i =>
      have := ih (k + 1) i
      rw [show k + 1 + i = k + (i + 1) by omega] at this
      simp only [memRead, tget, cellsFrom, tget?, show ¬ k = k + (i + 1) by omega, if_false] at this ⊢
      simpa using this

theorem peeks_cellsFrom {k : Nat} {b : Bytes} {w : W} (hl : w.log = []) (hm : w.st.mem = cellsFrom k b) : w.peeks k b.length = b := by
  apply List.ext_getElem
  · simp [W.peeks]
  · intro i h1 h2
    simp only [W.peeks, List.getElem_map, List.getElem_range, W.peek, hl, tget?, hm, cellsFrom_read]
    simp [List.getD, h2]

/-- `run0` with all of `b` in host memory. -/
def holding (b : Bytes) : State := { run0 with mem := cellsFrom (hostKey 0x10000) b }

theorem readBy_holding {b : Bytes} {op : Nat} {e : Entry} {s : State} (hs : s.mem = cellsFrom (hostKey 0x10000) b) (ha : e.payload.toNat = 0x10000)
    (hn : e.payloadLen.toNat = b.length) : readBy op e s = b := by
  have h : (begun s op e).peeks (hostKey e.payload.toNat) e.payloadLen.toNat = b := by
    rw [ha, hn]
    exact peeks_cellsFrom rfl hs
  exact h

theorem drop_first {a b : Bytes} {n : Nat} (h : a.length ≤ n) : (a ++ b).drop n = b.drop (n - a.length) := by
  rw [List.drop_append, List.drop_eq_nil_of_le h, List.nil_append]

theorem leBytes_length (n v : Nat) : (leBytes n v).length = n := by
  induction n generalizing v with
  | zero => rfl
  | succ n ih => simp [leBytes, ih]

theorem zeros_length (n : Nat) : (zeros n).length = n := List.length_replicate

theorem sha3_length (b : Bytes) : (sha3 b).length = 32 := by
  simp [sha3, leBytes_length, List.range_succ]

/-- A field within the first of two parts, and one within the second. -/
theorem fld_first {a b : Bytes} {k n : Nat} (h : k + n ≤ a.length) : fld (a ++ b) k n = fld a k n := by
  rw [fld, fld, List.drop_append, List.take_append_of_le_length (by simp; omega)]

theorem fld_second {a b : Bytes} {k n : Nat} (h : a.length ≤ k) : fld (a ++ b) k n = fld b (k - a.length) n := by
  rw [fld, fld, drop_first h]

theorem slice_first {a b : Bytes} {k n : Nat} (h : k + n ≤ a.length) : slice (a ++ b) k n = slice a k n := by
  rw [slice, slice, List.drop_append, List.take_append_of_le_length (by simp; omega)]

theorem slice_second {a b : Bytes} {k n : Nat} (h : a.length ≤ k) : slice (a ++ b) k n = slice b (k - a.length) n := by
  rw [slice, slice, drop_first h]

theorem slice_all {a : Bytes} {n : Nat} (h : a.length = n) : slice a 0 n = a := by
  simp [slice, ← h]

/-- A signed image of a kind with an empty body: its header, its signature. -/
def signedImage (kind : Nat) (key : Bytes) : Bytes :=
  (leBytes 4 (imageMagic kind) ++ [1, 0, BitVec.ofNat 8 kind, 0, 5, 0, 0, 0] ++ zeros 20) ++ (sha3 key ++ (sha3 [] ++ (zeros 32 ++ zeros 2420)))

theorem signedImage_length (kind : Nat) (key : Bytes) : (signedImage kind key).length = 2548 := by
  simp only [signedImage, List.length_append, leBytes_length, sha3_length, zeros_length, List.length_cons, List.length_nil]

/-- Where signatures verify, such an image of the asked kind is verified. -/
theorem signedImage_verifies {kind : Nat} {x : Boot} (hk : kind = imFirmware ∨ kind = imConfig) (sig : ∀ k d s, Config.sigVerify k d s = true) :
    ∃ i, x.verify [kind] (signedImage kind (x.trustedKey kind)) = .ok i ∧ i.stateFormat = 0 ∧ i.kind = kind := by
  let b := signedImage kind (x.trustedKey kind)
  let h := leBytes 4 (imageMagic kind) ++ [1, 0, BitVec.ofNat 8 kind, 0, 5, 0, 0, 0] ++ zeros 20
  have hh : h.length = 32 := by simp only [h, List.length_append, leBytes_length, zeros_length, List.length_cons, List.length_nil]
  have hb : b = h ++ (sha3 (x.trustedKey kind) ++ (sha3 [] ++ (zeros 32 ++ zeros 2420))) := rfl
  have head : ∀ k n, k + n ≤ 32 → fld b k n = fld h k n := fun k n e => by rw [hb]; exact fld_first (by omega)
  have heads : ∀ k n, k + n ≤ 32 → slice b k n = slice h k n := fun k n e => by rw [hb]; exact slice_first (by omega)
  have h1 : slice b 0x20 32 = sha3 (x.trustedKey kind) := by
    rw [hb, slice_second (by omega), hh, slice_first (by simp [sha3_length])]; exact slice_all (sha3_length _)
  have h2 : slice b 0x40 32 = sha3 [] := by
    rw [hb, slice_second (by omega), hh, slice_second (by simp [sha3_length]), sha3_length, slice_first (by simp [sha3_length])]
    exact slice_all (sha3_length _)
  have h3 : slice b 0x60 32 = zeros 32 := by
    rw [hb, slice_second (by omega), hh, slice_second (by simp [sha3_length]), sha3_length, slice_second (by simp [sha3_length]), sha3_length,
      slice_first (by simp [zeros_length])]
    exact slice_all (zeros_length _)
  have hl : b.length = 2548 := signedImage_length _ _
  have fmt : imageFormatOk b = true := by
    rcases hk with e | e <;> subst e <;>
      simp only [imageFormatOk, head, heads, h3, hl, Nat.reduceAdd, Nat.reduceLeDiff, h] <;> decide +kernel
  have hkind : fld b 6 1 = kind := by
    rw [head 6 1 (by omega)]
    rcases hk with e | e <;> subst e <;> simp only [h] <;> decide +kernel
  have body : imageBody b = [] := by
    have : fld b 0x0C 4 = 0 := by
      rw [head 0x0C 4 (by omega)]
      rcases hk with e | e <;> subst e <;> simp only [h] <;> decide +kernel
    simp [imageBody, this, slice]
  have signed : x.imageSigned b = true := by
    simp only [Boot.imageSigned, h1, h2, hkind, body, sig]
    simp
  have sf : fld b 0x10 4 = 0 := by
    rw [head 0x10 4 (by omega)]
    rcases hk with e | e <;> subst e <;> simp only [h] <;> decide +kernel
  refine ⟨{ kind := fld b 6 1, version := fld b 8 4, stateFormat := fld b 0x10 4, identity := imageIdentity b, body := imageBody b }, ?_, sf, hkind⟩
  show x.verify [kind] b = _
  simp only [Boot.verify, fmt, signed, hkind, List.contains_cons, beq_self_eq_true]
  rfl

def servingBlock : Bytes := image 128 [(0, [3]), (4, [1]), (6, [1]), (8, [1]), (9, [1]), (32, [8]), (40, [7])]

theorem witness_ServingSettingsAreTaken :
    (let s := withPad pad0 (withBytes servingBlock)
     let e := cmd 128 []
     let b := readBy 0x22 e s
     Accepts 0x22 e s ∧ (begun s 0x22 e).dev.pad? (fld b 0 1) = some pad0 ∧ servingOk b pad0 = true ∧
     (begun s 0x22 e).dev.servingKeeps (fld b 0 1) pad0 (parseServing b) = true)
    ∧ (let e := cmd 0 [(32, [4]), (33, [6]), (40, leBytes 4 1968), (44, [2])]
       Accepts 0x23 e run0 ∧ tenantOk (order run0 0x23 e) = true) :=
  ⟨⟨accepts_spec (by decide +kernel), by decide +kernel, by decide +kernel, by decide +kernel⟩, accepts_spec (by decide +kernel), by decide +kernel⟩

def formBlock : Bytes := image 64 [(0, [3]), (8, [1])]

theorem witness_PaddocksFormAndTearDown :
    (let s := withBytes formBlock
     let e := cmd 64 []
     Accepts 0x20 e s ∧ (begun s 0x20 e).dev.formStatus (readBy 0x20 e s) = none ∧ s.dev.regs.cfg.holder = none)
    ∧ (let s := withPad pad0 run0
       let e := cmd 0 [(32, [3])]
       let w := begun s 0x21 e
       let o := order s 0x21 e
       Accepts 0x21 e s ∧ w.dev.pad? (o.field 32 1) = some pad0 ∧ o.field 33 1 ≤ 1 ∧ pad0.teardown = none ∧
       (w.dev.indexes.any fun x => x.paddock = o.field 32 1) = false ∧ (w.dev.embs.any fun x => x.paddock = o.field 32 1) = false ∧ pad0.state = .ready) :=
  ⟨⟨accepts_spec (by decide +kernel), by decide +kernel, rfl⟩,
   accepts_spec (by decide +kernel), by decide +kernel, by decide +kernel, rfl, by decide +kernel, by decide +kernel, rfl⟩

def withPort (s : State) : State := { s with dev := { s.dev with drove := [(2, { Link.reset with state := 2 })] } }

theorem witness_LockstepPairs :
    let s := withPort (withPad pad0 run0)
    let off := cmd 0 [(32, [3])]
    let on := cmd 0 [(32, [3]), (33, [2]), (34, [2])]
    (Accepts 0x24 off s ∧ (begun s 0x24 off).dev.pad? ((order s 0x24 off).field 32 1) = some pad0 ∧ s.dev.boot.part.lockstep = true ∧
      (order s 0x24 off).field 34 1 = 0)
    ∧ (Accepts 0x24 on s ∧ (begun s 0x24 on).dev.pad? ((order s 0x24 on).field 32 1) = some pad0 ∧
      ((order s 0x24 on).field 34 1 = 1 ∨ (order s 0x24 on).field 34 1 = 2) ∧ pad0.state ≠ .tearing ∧
      (order s 0x24 on).field 33 1 < s.dev.boot.part.ports ∧ (s.dev.port ((order s 0x24 on).field 33 1)).isUp = true) :=
  ⟨⟨accepts_spec (by decide +kernel), by decide +kernel, rfl, by decide +kernel⟩,
   accepts_spec (by decide +kernel), by decide +kernel, by decide +kernel, by decide, by decide +kernel, by decide +kernel⟩

/-! ### Witnesses: indexes and tables -/

def indexBlock (generation : Nat) : Bytes :=
  image 256 [(0, leBytes 4 0x5844_4E49), (4, [1]), (6, [1]), (8, [7]), (16, leBytes 4 generation), (20, [32]), (23, [8]), (24, [64]), (28, [1]), (32, [3]),
    (96, leBytes 4 2000000), (100, leBytes 4 384), (104, leBytes 8 45056), (112, leBytes 8 0x1000_0000), (120, leBytes 8 0x1001_0000),
    (128, leBytes 8 0x1020_0000), (136, leBytes 8 0x1040_0000), (144, leBytes 8 0x1_0000_0000), (152, leBytes 8 0x2_0000_0000),
    (168, leBytes 8 0x3_0000_0000), (176, [6]), (177, [6]), (179, [6]), (180, [64])]

def createBlock : Bytes := indexBlock 1 ++ image 64 [(0, [3]), (4, [50]), (8, [51]), (12, [4]), (14, [16]), (16, [64]), (32, leBytes 8 4096)]

def index0 : Index := Index.new (parseIndexDesc (indexBlock 1)) (parseCreate (createBlock.drop 256))

def withIndex (s : State) : State := { s with dev := { s.dev with indexes := [index0] } }

/-- `s` with every BAY entry of the bays `bays` held by paddock 3. -/
def withBays (bays : List Nat) (s : State) : State :=
  { s with dev := { s.dev with slots := { s.dev.slots with act := bays.flatMap fun b => (List.range 256).map fun e => (b * 256 + e, mkEntry oBay 3) } } }

theorem witness_IndexCommandsAct :
    (let s := withBays [0, 1] (withPad pad0 (holding createBlock))
     let e := cmd 320 []
     Accepts 0x40 e s ∧ (begun s 0x40 e).dev.createStatus s.clock.herd (readBy 0x40 e s) = none)
    ∧ (let s := withIndex (withPad pad0 run0)
       let e := cmd 0 [(40, [7])]
       (Accepts 0x41 e s ∧ (begun s 0x41 e).dev.index? ((order s 0x41 e).field 40 8) = some index0 ∧ s.dev.shed.readOnly = false)
       ∧ (Accepts 0x42 e s ∧ (begun s 0x42 e).dev.index? ((order s 0x42 e).field 40 8) = some index0 ∧ index0.consolidation = none ∧ index0.old = none)
       ∧ (Accepts 0x44 e s ∧ (begun s 0x44 e).dev.index? ((order s 0x44 e).field 40 8) = some index0 ∧ index0.closed = [] ∧ index0.openCut = [] ∧
         index0.consolidation = none ∧ index0.pendingGen = none ∧ index0.creating = none))
    ∧ (let s := withIndex (withPad pad0 (holding (indexBlock 2)))
       let e := cmd 256 []
       let d := parseIndexDesc (readBy 0x43 e s)
       Accepts 0x43 e s ∧ (begun s 0x43 e).dev.index? d.indexId = some index0 ∧ indexDescOk s.dev.boot.part (readBy 0x43 e s) = true ∧
       index0.generationOk d = true ∧ index0.pendingGen = none ∧ (d.needsBarn && !s.dev.boot.part.hasBarn) = false ∧
       (begun s 0x43 e).dev.codebookTaken d = false ∧ (begun s 0x43 e).dev.pinnable (d.stretches index0.psgLimit) = true) := by
  have hc : readBy 0x40 (cmd 320 []) (withBays [0, 1] (withPad pad0 (holding createBlock))) = createBlock :=
    readBy_holding rfl (by decide +kernel) (by decide +kernel)
  have hg : readBy 0x43 (cmd 256 []) (withIndex (withPad pad0 (holding (indexBlock 2)))) = indexBlock 2 :=
    readBy_holding rfl (by decide +kernel) (by decide +kernel)
  refine
  ⟨⟨accepts_spec (by decide +kernel), by rw [hc]; decide +kernel⟩,
   ⟨⟨accepts_spec (by decide +kernel), by decide +kernel, rfl⟩,
    ⟨accepts_spec (by decide +kernel), by decide +kernel, by decide +kernel, by decide +kernel⟩,
    ⟨accepts_spec (by decide +kernel), by decide +kernel, by decide +kernel⟩⟩,
   ?_⟩
  simp only [hg]
  exact ⟨accepts_spec (by decide +kernel), by decide +kernel, by decide +kernel, by decide +kernel, by decide +kernel, by decide +kernel, by decide +kernel,
    by decide +kernel⟩

def embBlock (version : Nat) : Bytes :=
  image 256 [(0, leBytes 4 0x4C42_5445), (4, [1]), (6, [6]), (8, [9]), (16, leBytes 4 version), (20, [4]), (24, [64]), (26, leBytes 2 128), (28, [8]), (32, [1]),
    (96, leBytes 8 0x1000), (104, leBytes 8 0x2000), (112, leBytes 8 0x10000), (120, [6]), (122, [1]), (124, leBytes 4 400000), (128, [3])]

def emb0 : Emb := Emb.new 0 3 0 (parseEmbDesc (embBlock 1)) []

def withEmb (s : State) : State := { s with dev := { s.dev with embs := [emb0] } }

theorem witness_EmbCommandsAct :
    (let s := withBays [0, 1] (withPad pad0 (holding (embBlock 1 ++ image 16 [(0, [3])])))
     let e := cmd 272 []
     Accepts 0x48 e s ∧ (begun s 0x48 e).embCreateStatus (readBy 0x48 e s) = none)
    ∧ (let s := withEmb (withPad pad0 (holding (embBlock 2)))
       let e := cmd 256 []
       let d := parseEmbDesc (readBy 0x49 e s)
       Accepts 0x49 e s ∧ (begun s 0x49 e).dev.embById? d.embId = some emb0 ∧ embDescOk s.dev.boot.part (readBy 0x49 e s) = true ∧ emb0.versionOk d = true ∧
       emb0.pending = none ∧ (d.tailSpace = spBarn → s.dev.boot.part.hasBarn = true) ∧ (begun s 0x49 e).reserveKept d = true)
    ∧ (let s := withEmb (withPad pad0 (withBytes [2, 0, 0, 0, 1, 0, 0, 0]))
       let e := cmd 8 [(40, [9])]
       let b := readBy 0x4A e s
       Accepts 0x4A e s ∧ (begun s 0x4A e).dev.embById? ((order s 0x4A e).field 40 8) = some emb0 ∧ b.length % 8 = 0 ∧ b.length ≤ 4096 * 8 ∧
       ((records 8 b).any fun y => !allZero (slice y 5 3)) = false)
    ∧ (let s := withEmb (withPad pad0 run0)
       let e := cmd 0 [(40, [9])]
       Accepts 0x4B e s ∧ (begun s 0x4B e).dev.embById? ((order s 0x4B e).field 40 8) = some emb0 ∧ emb0.pending = none) := by
  have hc : readBy 0x48 (cmd 272 []) (withBays [0, 1] (withPad pad0 (holding (embBlock 1 ++ image 16 [(0, [3])])))) = embBlock 1 ++ image 16 [(0, [3])] :=
    readBy_holding rfl (by decide +kernel) (by decide +kernel)
  have hv : readBy 0x49 (cmd 256 []) (withEmb (withPad pad0 (holding (embBlock 2)))) = embBlock 2 :=
    readBy_holding rfl (by decide +kernel) (by decide +kernel)
  simp only [hc, hv]
  exact
  ⟨⟨accepts_spec (by decide +kernel), by decide +kernel⟩,
   ⟨accepts_spec (by decide +kernel), by decide +kernel, by decide +kernel, by decide +kernel, rfl, fun _ => rfl, by decide +kernel⟩,
   ⟨accepts_spec (by decide +kernel), by decide +kernel, by decide +kernel, by decide +kernel, by decide +kernel⟩,
   ⟨accepts_spec (by decide +kernel), by decide +kernel, rfl⟩⟩

/-! ### Witnesses: memory and the device -/

theorem witness_HostReachesMemory :
    (let s := withBytes [1, 2, 3]
     let e := cmd 3 [(32, [5]), (33, [3]), (40, [0x40])]
     let w := begun s 0x50 e
     let o := order s 0x50 e
     Accepts 0x50 e s ∧ w.dev.hostRange (o.field 32 1) (o.field 40 8) (readBy 0x50 e s).length = none ∧
     w.dev.hostOwner (o.field 32 1) (o.field 33 1) (o.field 40 8) = true ∧
     w.dev.liveStatus (fun x => (w.dev.hostKeys (o.field 32 1) (o.field 40 8) (readBy 0x50 e s).length).any x.hasKey) = none)
    ∧ (let e := { cmd 0 [(32, [6]), (33, [3]), (40, [0x40])] with resultLen := 64 }
       let w := begun run0 0x51 e
       let o := order run0 0x51 e
       Accepts 0x51 e run0 ∧ w.dev.hostRange (o.field 32 1) (o.field 40 8) 64 = none ∧
       w.dev.hostOwner (o.field 32 1) (o.field 33 1) (o.field 40 8) = true ∧ failing w.dev (w.dev.hostKeys (o.field 32 1) (o.field 40 8) 64) = [])
    ∧ (let s := withPort run0
       let e := cmd 0 [(32, [2])]
       let w := begun s 0x52 e
       let o := order s 0x52 e
       Accepts 0x52 e s ∧ o.field 32 1 < s.dev.boot.part.ports ∧ w.dev.hostRange spCommons (o.field 40 8) (o.field 36 4) = none ∧
       o.field 48 8 + o.field 36 4 ≤ 2 ^ 46 ∧ (s.dev.port (o.field 32 1)).isUp = true ∧
       failing w.dev (w.dev.hostKeys spCommons (o.field 40 8) (o.field 36 4)) = []) :=
  ⟨⟨accepts_spec (by decide +kernel), by decide +kernel, by decide +kernel, by decide +kernel⟩,
   ⟨accepts_spec (by decide +kernel), by decide +kernel, by decide +kernel, by decide +kernel⟩,
   ⟨accepts_spec (by decide +kernel), by decide +kernel, by decide +kernel, by decide +kernel, by decide +kernel, by decide +kernel⟩⟩

def alloc0 : Alloc :=
  { entry := { allocId := 1, set := 0, flags := 7, place := 7, length := 65536, commons := 0x10000, phys := 0, master := 0, masterSpace := 0, stackMask := 0, resvZero := true }
    paddock := 3, place := [(0, 5, 0)], bound := false }

def withAlloc (s : State) : State := { s with dev := { s.dev with tiers := { s.dev.tiers with allocs := [alloc0] } } }

theorem witness_PagesRetireAndMigrate :
    (let e := cmd 0 [(32, [5]), (40, leBytes 8 (2 ^ 40))]
     let w := begun run0 0x54 e
     let o := order run0 0x54 e
     Accepts 0x54 e run0 ∧ (o.field 32 1 = spStack ∨ (o.field 32 1 = spBarn ∧ run0.dev.boot.part.hasBarn = true)) ∧
     w.dev.pageNamed (o.field 32 1) (o.field 40 8) = some (2 ^ 40, 0) ∧ w.dev.tiers.remapped.contains (remapId (o.field 32 1) (2 ^ 40)) = false ∧
     (w.dev.tiers.retiring.any fun x => x.tier = o.field 32 1 && x.page = 2 ^ 40) = false ∧ w.dev.remapUsed 0 < remapMax (o.field 32 1))
    ∧ (let s := withAlloc run0
       let e := cmd 0 [(32, [2]), (33, [3]), (36, leBytes 4 65536), (40, leBytes 8 0x10000)]
       let w := begun s 0x53 e
       let o := order s 0x53 e
       let a := o.field 40 8
       let n := o.field 36 4
       Accepts 0x53 e s ∧ flagTier (o.field 32 1) = some spBarn ∧ n % 65536 = 0 ∧ n ≠ 0 ∧ (spBarn = spBarn → s.dev.boot.part.hasBarn = true) ∧ a % 65536 = 0 ∧
       a + n ≤ 2 ^ 46 ∧
       ((w.dev.rangePages a n).all fun p => match w.dev.allocAt (p * 65536) with
         | some x => (x.paddock = o.field 33 1 || x.entry.shared) && !x.entry.pinned | none => false) = true ∧
       (spBarn = spShed → s.dev.shed.readOnly = false) ∧
       (((w.dev.rangePages a n).filter fun p => match w.dev.commonsPlace p with | some x => x.1 ≠ spBarn | none => false).any
         fun p => w.dev.tiers.migrations.any (·.page = p)) = false) :=
  ⟨⟨accepts_spec (by decide +kernel), by decide +kernel, by decide +kernel, by decide +kernel, by decide +kernel, by decide +kernel⟩,
   ⟨accepts_spec (by decide +kernel), by decide +kernel, by decide +kernel, by decide +kernel, fun _ => rfl, by decide +kernel, by decide +kernel,
    by decide +kernel, fun _ => rfl, by decide +kernel⟩⟩

def groomBlock : Bytes := image 32 [(0, [4]), (2, [1]), (8, [1])]
def energyBlock : Bytes := image 32 [(0, [3]), (4, [100]), (8, leBytes 2 1000)]

theorem witness_DeviceCommandsAct :
    (let s := withBytes groomBlock
     let e := cmd 32 []
     let w := begun s 0x60 e
     let b := readBy 0x60 e s
     let g : GroomService :=
       { ring := 0, index := 0, cmdId := 7, service := fld b 0 1, target := fld b 2 2, first := fld b 4 4, count := fld b 8 4
         running := true, queued := false, start := 1000, units := w.dev.groomUnits (fld b 0 1) (fld b 2 2) (fld b 4 4) (fld b 8 4) }
     Accepts 0x60 e s ∧ b.length = 32 ∧ fld b 1 1 = 0 ∧ allZero (b.drop 12) = true ∧ 1 ≤ fld b 0 1 ∧ fld b 0 1 ≤ gsScrub ∧
     w.dev.groomTarget (fld b 0 1) (fld b 2 2) (fld b 4 4) (fld b 8 4) = true ∧ s.dev.boot.part.groomAbsent (fld b 0 1) (fld b 2 2) = false ∧
     w.dev.groomGranted g = true)
    ∧ (let s := withBytes energyBlock
       let e := cmd 32 []
       Accepts 0x61 e s ∧ energyOk (readBy 0x61 e s) = true ∧ s.dev.regs.cfg.holder = none ∧ fld (readBy 0x61 e s) 0 1 < 4)
    ∧ (let e := { cmd 0 [(40, [1])] with resultLen := 10000 }
       Accepts 0x63 e run0 ∧ run0.dev.boot.identityBad = false ∧ (begun run0 0x63 e).dev.reportLen ≤ e.resultLen.toNat) :=
  ⟨⟨accepts_spec (by decide +kernel), by decide +kernel, by decide +kernel, by decide +kernel, by decide +kernel, by decide +kernel,
    by decide +kernel, by decide +kernel, by decide +kernel⟩,
   ⟨accepts_spec (by decide +kernel), by decide +kernel, rfl, by decide +kernel⟩,
   ⟨accepts_spec (by decide +kernel), rfl, by decide +kernel⟩⟩

/-- A handover begins where signatures verify, which no rule lets a test compute. -/
theorem witness_FwHandover (sig : ∀ k d s, Config.sigVerify k d s = true) :
    ∃ (e : Entry) (s : State) (i : Image), Accepts 0x62 e s ∧ (order s 0x62 e).field 32 1 ≤ 1 ∧ s.dev.boot.handover = none ∧
      s.dev.boot.verify [imFirmware] (readBy 0x62 e s) = .ok i ∧ (s.dev.boot.fw.map (·.stateFormat)).getD 0 = i.stateFormat := by
  let b := signedImage imFirmware (dev0.boot.trustedKey imFirmware)
  let e := cmd 2548 []
  obtain ⟨i, hi, hs, -⟩ := signedImage_verifies (x := dev0.boot) (.inl rfl) sig
  refine ⟨e, holding b, i, accepts_spec (by decide +kernel), by decide +kernel, rfl, ?_, ?_⟩
  · rw [readBy_holding (b := b) rfl (by decide +kernel) (by rw [signedImage_length]; decide +kernel)]
    exact hi
  · rw [hs]; rfl

theorem witness_DoorbellsMoveIndices : run0.dev.hostReach = true ∧ (run0.dev.ring 0).heldStr = [] := by decide +kernel

/-! ### Witnesses: storage queues -/

def withQueue (q : Queue) : State :=
  { run0 with dev := { dev0 with shed := { Shed.reset with mounted := true, poolBytes := 2 ^ 40, queues := [(1, q)] } } }

def queue0 : Queue := { Queue.reset with enable := true, subTail := 1 }

theorem witness_StorageCommandsAreAccepted :
    let s := withQueue queue0
    s.dev.storageServed = true ∧ s.dev.halter.isUp = true ∧ (s.dev.queue 1).enable = true ∧ (s.dev.queue 1).resetting = false ∧
    (s.dev.queue 1).subHead ≠ (s.dev.queue 1).subTail ∧ (s.dev.queue 1).outstanding < 32 ∧
    s.dev.storageStatus 1 2 (storage 5 4096 0) = none ∧ s.dev.storageStatus 1 2 (storage 5 100 0) ≠ none := by decide +kernel

def write0 : StorageCmd := { op := 2, entry := storage 5 4096 0, index := 0, herd := 900, seq := 0, started := true, todo := [], left := [], lost := 0, saved := [] }

theorem witness_StorageCompletionEndsCommand :
    let s := withQueue { queue0 with out := [write0] }
    s.dev.nandOn = true ∧ (s.dev.queue 1).out.find? (fun c => c.entry.tag.toNat = 5) = some write0 ∧ write0.todo = [] ∧ (write0.op = 2 → write0.left = []) := by
  decide +kernel

theorem witness_StorageQueuesMoveAndReset :
    (let s := withQueue { queue0 with out := [{ write0 with started := false, todo := [0] }] }
     s.dev.hostReach = true ∧ s.dev.storageServed = true ∧ (s.dev.queue 1).resetting = false ∧ (s.dev.queue 1).held = [])
    ∧ (let s := withQueue { queue0 with resetting := true }
       s.dev.hostReach = true ∧ s.dev.storageServed = true ∧ (s.dev.queue 1).resetting = true ∧ (s.dev.queue 1).out = [] ∧ (s.dev.queue 1).held = []) := by
  decide +kernel

/-! ### Witnesses: registers -/

theorem reaches_spec {m : Master} {s : State} (h : (s.dev.reach m && decide (s.dev.boot.phase ≠ .imageWait)) = true) : Reaches m s := by
  simp only [Bool.and_eq_true, decide_eq_true_eq] at h
  exact ⟨h.1, h.2⟩

def withCfg (c : CfgCheck) : State := { run0 with dev := { dev0 with regs := { Regs.reset with cfg := c } } }

def hostWindow : CfgCheck := { CfgCheck.reset with holder := some false, openedAt := 500 }

theorem witness_ConfigurationWindowMoves :
    (Reaches .secure run0 ∧ masterPriv .secure = true ∧ run0.dev.regs.cfg.holder = none)
    ∧ (let s := withCfg hostWindow
       Reaches .secure s ∧ masterPriv .secure = true ∧ s.dev.regs.cfg.holder = some (!masterHost .secure) ∧ s.dev.regs.cfg.openWait = false ∧
       s.dev.regs.cfg.committing = false)
    ∧ (let s := withCfg hostWindow
       AtWork s ∧ s.dev.regs.cfg.holder = some false ∧ s.dev.regs.cfg.committing = false ∧ s.dev.regs.cfg.openWait = false ∧
       s.dev.regs.cfg.openedAt + 40_000_000 < 40_000_501) :=
  ⟨⟨reaches_spec rfl, rfl, rfl⟩, ⟨reaches_spec rfl, rfl, rfl, rfl, rfl⟩, ⟨rfl, rfl, rfl, rfl, by decide⟩⟩

theorem witness_SwapPostsTables :
    Reaches .secure run0 ∧ masterPriv .secure = true ∧ (SwapTarget.pc 0 = .links ∨ run0.dev.tablePresent (swapTarget (.pc 0)) = true) :=
  ⟨reaches_spec rfl, rfl, .inr (by decide +kernel)⟩

theorem witness_SwapsWaitForTheWindow :
    (let s := withCfg hostWindow
     Reaches .secure s ∧ masterPriv .secure = true ∧ s.dev.regs.cfg.holder.isSome = true ∧ s.dev.tablePresent (swapTarget (.barn 31)) = true ∧
     s.dev.regs.cfg.holder = some (!masterHost .secure) ∧ s.dev.regs.cfg.committing = false ∧ AtWork s ∧ s.dev.regs.cfg.holder = some false ∧
     s.dev.regs.cfg.openedAt + 40_000_000 < 40_000_501)
    ∧ (let x : Sweep := { crc := 0, startHerd := 0, windowSeen := true, forCommit := true }
       let s := withCfg { hostWindow with committing := true, sweep := some x }
       AtWork s ∧ s.dev.regs.cfg.sweep = some x ∧ x.forCommit = true ∧ s.dev.regs.cfg.committing = true) :=
  ⟨⟨reaches_spec rfl, rfl, rfl, by decide +kernel, rfl, rfl, rfl, rfl, by decide⟩, rfl, rfl, rfl, rfl⟩

def rec0 : FaultRec :=
  { cls := 2, reaction := 1, cause := caGranuleCheck, seq := 4, herd := 600, ukind := uPc, uindex := 7, detail := 2 ^ 40, arg := 0, attempt := 1, repeats := 1
    paddocks := [3], planId := 1, queuedBehind := false, standing := false, done := true, causePresent := false, fenceDelay := 0 }

def withFaults (f : Faults) : State := { run0 with dev := { dev0 with faults := f } }

theorem witness_FaultRegistersAct :
    let s := withFaults { Faults.reset with slots := [(2, rec0)] }
    Reaches .secure s ∧ masterPriv .secure = true ∧ tget? 2 s.dev.faults.slots = some rec0 ∧ rec0.done = true ∧ s.dev.causeLasts rec0 = false ∧
    (4 : BitVec 3).toNat ≤ 4 ∧ (5 : BitVec 3).toNat = 5 :=
  ⟨reaches_spec rfl, rfl, rfl, rfl, by decide +kernel, by decide, by decide⟩

theorem witness_BootAndPowerRegistersAct :
    run0.dev.reach .plain = true
    ∧ (Reaches .secure run0 ∧ masterPriv .secure = true ∧ run0.dev.boot.phase = .run)
    ∧ (let s : State := { run0 with dev := { dev0 with boot := { dev0.boot with phase := .standby } } }
       Reaches .secure s ∧ masterPriv .secure = true ∧ s.dev.boot.phase = .standby) :=
  ⟨rfl, ⟨reaches_spec rfl, rfl, rfl⟩, reaches_spec rfl, rfl, rfl⟩

/-- An image that IMAGE_WAIT asks for is taken where signatures verify. -/
theorem witness_RcvCtlGo (sig : ∀ k d s, Config.sigVerify k d s = true) :
    ∃ (i : Image) (s : State), s.dev.reach .secure = true ∧ s.dev.boot.phase = .imageWait ∧
      s.dev.boot.verify s.dev.boot.wanted ((W.of s).peeks (hostKey (s.dev.boot.rcvHi * 2 ^ 32 + s.dev.boot.rcvLo)) s.dev.boot.rcvLen) = .ok i ∧
      i.kind = imFirmware := by
  let t : Boot := { dev0.boot with phase := .imageWait, rcvLo := 0x10000, rcvLen := 2548 }
  let b := signedImage imFirmware (t.trustedKey imFirmware)
  let s : State := { run0 with mem := cellsFrom (hostKey 0x10000) b, dev := { dev0 with boot := t } }
  obtain ⟨i, hi, -, hk⟩ := signedImage_verifies (x := t) (.inl rfl) sig
  refine ⟨i, s, rfl, rfl, ?_, hk⟩
  have hp : (W.of s).peeks (hostKey 0x10000) 2548 = b := by
    have := peeks_cellsFrom (k := hostKey 0x10000) (b := b) (w := W.of s) rfl rfl
    rwa [signedImage_length] at this
  have e1 : hostKey (s.dev.boot.rcvHi * 2 ^ 32 + s.dev.boot.rcvLo) = hostKey 0x10000 := congrArg hostKey (Nat.zero_mul (2 ^ 32) ▸ Nat.zero_add _)
  have e2 : s.dev.boot.rcvLen = 2548 := rfl
  have e3 : s.dev.boot.wanted = [imFirmware] := rfl
  rw [e1, e2, e3, hp]
  exact hi

/-- RING_CTL of ring 0 is checked, FLT_SEL is not. -/
theorem witness_RegisterAccessesAct :
    (let s := withCfg hostWindow
     Reaches .secure s ∧ idxData 0x1_0000 = none ∧ (s.dev.regAt s.clock.herd 0x1_0000).isSome = true ∧ masterPriv .secure = true ∧ isChecked 0x1_0000 = true ∧
     s.dev.regs.cfg.holder = some (!masterHost .secure) ∧ s.dev.regs.cfg.committing = false ∧ tableOfCtl 0x1_0000 = none)
    ∧ (idxData 0x0 = none ∧ (run0.dev.regAt 1000 0x0).isSome = true ∧ isChecked 0x0 = false)
    ∧ run0.dev.targetAbsent 0 = false :=
  ⟨⟨reaches_spec rfl, by decide, by decide +kernel, rfl, by decide, rfl, rfl, by decide +kernel⟩, by decide +kernel, by decide +kernel⟩

theorem witness_PrivilegedRegistersAreGuarded :
    ∃ r, (W.of run0).dev.regAt (W.of run0).herd 0x1_0000 = some r ∧ r.priv = true ∧ masterPriv .plain = false ∧ idxData 0x1_0000 = none ∧ Reaches .plain run0 := by
  have h : ((W.of run0).dev.regAt (W.of run0).herd 0x1_0000).map (·.priv) = some true := by decide +kernel
  obtain ⟨r, hr, hp⟩ := Option.map_eq_some_iff.mp h
  exact ⟨r, hr, hp, rfl, by decide, reaches_spec rfl⟩

theorem witness_CheckedWritesNeedTheWindow :
    ∃ r, (W.of run0).dev.regAt (W.of run0).herd 0x1_0000 = some r ∧ (r.priv = true → masterPriv .secure = true) ∧ isChecked 0x1_0000 = true ∧
      ((W.of run0).dev.regs.cfg.holder ≠ some (!masterHost .secure) ∨ (W.of run0).dev.regs.cfg.committing = true) := by
  obtain ⟨r, hr⟩ := Option.isSome_iff_exists.mp (show ((W.of run0).dev.regAt (W.of run0).herd 0x1_0000).isSome = true by decide +kernel)
  exact ⟨r, hr, fun _ => rfl, by decide, .inl (by decide)⟩

/-! ### Witnesses: links -/

def goodFlit : HalterFlit := { flit with crc := BitVec.ofNat 32 (crc32 (flitHead 1 0 0 0 0 flit.body)) }
def goodControl : HalterFlit := { flit with crc := BitVec.ofNat 32 (crc32 (flitHead 2 0 0 0 0 flit.body)) }

def withHalter (l : Link) : State := { run0 with dev := { dev0 with halter := l } }

theorem witness_HalterLinkActs :
    (let s := withHalter { Link.reset with state := 2, sent := [(0, [])] }
     AtWork s ∧ s.dev.halter.isUp = true ∧ flitGood 1 goodFlit = true ∧ goodFlit.seq.toNat = (s.dev.halter.rxLast + 1) % 65536 ∧ flitGood 1 flit = false ∧
     flitGood 2 goodControl = true ∧ s.dev.halter.sent ≠ [] ∧ (0x8000 : BitVec 16).toNat ≠ 0)
    ∧ (let s := withHalter { Link.reset with state := 1 }
       s.dev.halterTrains = true ∧ s.dev.halterState (0xFFFF : BitVec 16).toNat ≠ 1 ∧ s.dev.halterState (0x0101 : BitVec 16).toNat = 1) :=
  ⟨⟨rfl, by decide +kernel, by decide +kernel, by decide +kernel, by decide +kernel, by decide +kernel, by decide +kernel, by decide⟩, by decide +kernel⟩

def headCrc (kind : Nat) : Word :=
  BitVec.ofNat 32 (fld (headBytes kind 1 0 0 0 0 0 0 0 0 (checkNats (List.replicate 108 0))) 252 4)

theorem witness_DrovePortsAct :
    let s : State := { run0 with dev := { dev0 with drove := [(2, { Link.reset with state := 2, rxLast := 2 ^ 32 - 1, sent := [(0, [])] })] } }
    let good := { head with crc := headCrc 1 }
    AtWork s ∧ (s.dev.port 2).state = 2 ∧ droveHeadGood 1 good = true ∧ trainGood good [] = true ∧ good.seq.toNat = ((s.dev.port 2).rxLast + 1) % 2 ^ 32 ∧
    droveHeadGood 1 head = false ∧ droveHeadGood 2 { head with crc := headCrc 2 } = true ∧ (s.dev.port 2).sent ≠ [] :=
  ⟨rfl, by decide +kernel, by decide +kernel, by decide +kernel, by decide +kernel, by decide +kernel, by decide +kernel, by decide +kernel⟩

def locked0 : Paddock := { pad0 with lockstep := some { port := 2, gate := true, own := [(2048, 77, 9000, false)], peer := [] } }

theorem witness_LockstepDigestsAct :
    (let s := withPad locked0 run0
     let l : Lockstep := { port := 2, gate := true, own := [(2048, 77, 9000, false)], peer := [] }
     AtWork s ∧ s.dev.pad? 3 = some locked0 ∧ locked0.lockstep = some l ∧ l.own.find? (fun x => !x.2.2.2) = some (2048, 77, 9000, false) ∧
     l.own = (2048, 77, 9000, false) :: [])
    ∧ (let l : Lockstep := { port := 2, gate := true, own := [(2048, 77, 9000, false)], peer := [] }
       let s0 := withPad locked0 run0
       let s : State := { s0 with dev := { s0.dev with drove := [(2, { Link.reset with state := 2, rxLast := 2 ^ 32 - 1 })] } }
       let h := { head with paddock := 3, crc := BitVec.ofNat 32 (fld (headBytes 3 1 3 0 0 0 0 0 0 0 (checkNats head.checks)) 252 4) }
       let w := ((W.of s).droveHead 2 h).port 2 fun l => { l with rxLast := h.seq.toNat, discarding := false, freed := l.freed + 1 + ([] : List Bytes).length }
       AtWork s ∧ (s.dev.port 2).state = 2 ∧ droveHeadGood 3 h = true ∧ trainGood h [] = true ∧ h.seq.toNat = ((s.dev.port 2).rxLast + 1) % 2 ^ 32 ∧
       (w.dev.pad? h.paddock.toNat).bind (·.lockstep) = some l ∧ l.port = 2) :=
  ⟨⟨rfl, rfl, rfl, rfl, rfl⟩, rfl, by decide +kernel, by decide +kernel, by decide +kernel, by decide +kernel, by decide +kernel, rfl⟩

/-! ### Witnesses: launch points, epochs and steps -/

theorem witness_LaunchPointsAct :
    AtWork run0 ∧ 2048 % 2048 = 0 ∧ run0.clock.herd ≤ 2048 ∧ (2049 % 2048 ≠ 0 ∨ 2049 < run0.clock.herd) ∧ (0 % 2048 ≠ 0 ∨ 0 < run0.clock.herd) := by
  refine ⟨rfl, by decide, by decide, .inl (by decide), .inr (by decide)⟩

def withIndexOf (x : Index) : State := { run0 with dev := { dev0 with indexes := [x] } }

theorem witness_EpochsAndCopiesAct :
    (let s := withIndexOf index0
     AtWork s ∧ s.dev.index? (7 : DWord).toNat = some index0 ∧ (index0.desc.boundary index0.nextEpoch) % 2048 = 0)
    ∧ (let x := { index0 with creating := some (0, 4) }
       let s := withIndexOf x
       AtWork s ∧ s.dev.index? (7 : DWord).toNat = some x ∧ x.creating = some (0, 4))
    ∧ (let g : PendingGen := { ring := 0, index := 4, desc := index0.desc, baseEpoch := 3, copied := false }
       let x := { index0 with pendingGen := some g }
       let s := withIndexOf x
       s.dev.index? (7 : DWord).toNat = some x ∧ x.creating = none ∧ x.pendingGen = some g ∧ g.copied = false)
    ∧ (let m : Migration := { row := 2, promote := true, src := 0, slot := 1, copied := true, tries := 0 }
       let x := { emb0 with migrations := [m, { m with row := 5, copied := false }] }
       let s : State := { run0 with dev := { dev0 with embs := [x] } }
       AtWork s ∧ s.dev.emb? 0 = some x ∧ 800_000 % x.desc.remapPeriod = 0 ∧ x.migrations.any (·.copied) = true ∧
       x.migrations.find? (fun m => m.row = (5 : Word).toNat && !m.copied) = some { m with row := 5, copied := false }) :=
  ⟨⟨rfl, by decide +kernel, by decide +kernel⟩, ⟨rfl, by decide +kernel, rfl⟩, ⟨by decide +kernel, by decide +kernel, rfl, rfl⟩,
   rfl, by decide +kernel, by decide +kernel, by decide +kernel, by decide +kernel⟩

/-- A NOP in cycle 8 with the source `a`. -/
def nopWord (a : Nat) : PWord := { slot := 8, cls := cNOP, v := false, s := false, l := false, resv := 0, kind := kDMA, mask := 1, dst := noDesc, srca := a, srcb := noDesc }

/-- 256 bytes of commons that must be there in cycle 6. -/
def desc0 : Desc := { space := spCommons, format := 0, flags := 1, length := 256, base := 0, strideUnit := 0, strideRep := 0, deadline := 6, binding := 0, guard := 0 }

def plan0 : Plan :=
  { planId := 1, version := 1, kind := 2, parts := 0, flags := 0, stalls := 108, prefillStables := 0, batch := 1, length := 420, energyMJ := 1, peakW := 1, units := 0
    fromSet := 0, toSet := 0, family := 9, digest := zeros 32, words := [nopWord 0, { nopWord noDesc with slot := 419, cls := cEND }], descs := [desc0]
    constants := [], residency := [], prefetch := [], shares := [], bindings := [], holds := [100], guards := [], energy := [], commits := [], k := 0x3F800000 }

def step0 : Step := Step.start plan0 Batch.blank 2048 1 0 []

def running (x : Step) : State := withPad { pad0 with plans := [plan0], step := some x } run0

/-- What `PlanWordsIssue` asks of the NOP row, as a computation. -/
def wordIssues (s : State) (b : Bool) : Bool :=
  match s.dev.issue? 3 0 0 with
  | none => false
  | some c => decide (c.word.cls = cNOP) &&
    match ((W.of (atHerd s (c.step.herdAt c.slot))).atWord c).dev.issue? c.p c.w c.rep with
    | some c' =>
      let r := ((W.of (atHerd s (c.step.herdAt c.slot))).atWord c).losesPair c'
      !r.1 && c'.breaches r.2.dev == b
    | none => false

theorem wordIssues_spec {s : State} {b : Bool} (h : wordIssues s b = true) :
    ∃ c c' : Ctx, s.dev.issue? 3 0 0 = some c ∧ c.word.cls = cNOP ∧
      (let left := (W.of (atHerd s (c.step.herdAt c.slot))).atWord c
       left.dev.issue? c.p c.w c.rep = some c' ∧ (left.losesPair c').1 = false ∧ c'.breaches (left.losesPair c').2.dev = b) := by
  unfold wordIssues at h
  split at h
  · cases h
  · rename_i c hc
    simp only [Bool.and_eq_true, decide_eq_true_eq] at h
    obtain ⟨h1, h2⟩ := h
    split at h2
    · rename_i c' hc'
      simp only [Bool.and_eq_true, Bool.not_eq_true', beq_iff_eq] at h2
      exact ⟨c, c', hc, h1, hc', h2.1, h2.2⟩
    · cases h2

theorem witness_PlanWordsIssue :
    (⟨.planNop, cNOP, anyWord, doNothing⟩ ∈ wordRows) ∧
    (∃ c c', Due 3 0 0 c (running step0) ∧ c.word.cls = cNOP ∧
      (let left := (W.of (atHerd (running step0) (c.step.herdAt c.slot))).atWord c
       left.dev.issue? c.p c.w c.rep = some c' ∧ (left.losesPair c').1 = false ∧ c'.breaches (left.losesPair c').2.dev = false)) ∧
    (∃ c c', Due 3 0 0 c (running { step0 with missed := [(0, 0, 0)] }) ∧ c.word.cls = cNOP ∧
      (let left := (W.of (atHerd (running { step0 with missed := [(0, 0, 0)] }) (c.step.herdAt c.slot))).atWord c
       left.dev.issue? c.p c.w c.rep = some c' ∧ (left.losesPair c').1 = false ∧ c'.breaches (left.losesPair c').2.dev = true)) := by
  refine ⟨List.Mem.head _, ?_, ?_⟩
  · obtain ⟨c, c', h1, h2, h3, h4⟩ := wordIssues_spec (show wordIssues (running step0) false = true by decide +kernel)
    exact ⟨c, c', ⟨rfl, h1⟩, h2, h3, h4⟩
  · obtain ⟨c, c', h1, h2, h3, h4⟩ := wordIssues_spec (show wordIssues (running { step0 with missed := [(0, 0, 0)] }) true = true by decide +kernel)
    exact ⟨c, c', ⟨rfl, h1⟩, h2, h3, h4⟩

def posted0 : Posted :=
  { desc := 0, rep := 0, deadline := 6, hasDeadline := true, missZero := false, breach := false, src := memKey spCommons 0 0, skip := 0, dst := none, len := 64
    data := none, stage := false, writer := 0 }

theorem witness_StepsRunTheirCourse :
    (let x := { step0 with issued := [(0, 0)], cycle := 8 }
     AtWork (running x) ∧ (running x).dev.step? 3 = some x ∧ x.comesTo x.plan.length = true ∧ x.nextHold = some 100 ∧ x.held = none ∧ x.upTo 100 = true)
    ∧ (let x := { step0 with issued := [(0, 0)], cycle := 100, held := some 16 }
       (running x).dev.step? 3 = some x ∧ x.mayResume (running x).dev.power.thrLevel = true)
    ∧ (let x := { step0 with posted := [posted0, { posted0 with breach := true }] }
       let g := posted0.granule fun k => x.peek (W.of (running x)) k
       (running x).dev.step? 3 = some x ∧ x.nextDeadline = some 6 ∧ x.comesTo 6 = true ∧ x.posted[0]? = some posted0 ∧ posted0.isWrite = false ∧
       let bad := (running x).dev.granuleBad posted0.src || x.oldBad.contains (posted0.src / 64 * 64)
       ((running x).dev.served x.posted 0 posted0 && (running x).dev.sensed (x.landed.map (·.2.2.1)) (running x).clock.herd posted0) = true ∧ granuleGood bad (BitVec.ofNat 16 (granuleCheck g)).toNat g = true ∧
       granuleGood bad (BitVec.ofNat 16 (granuleCheck g ^^^ 1)).toNat g = false ∧ x.posted[1]? = some { posted0 with breach := true } ∧
       ({ posted0 with breach := true } : Posted).isWrite = true ∧
       ((running x).dev.served x.posted 1 { posted0 with breach := true } &&
         (running x).dev.sensed (x.landed.map (·.2.2.1)) (running x).clock.herd { posted0 with breach := true }) = true)
    ∧ (let y := { posted0 with src := memKey spBarn 0 0 }
       let x := { step0 with posted := [y, { y with src := memKey spBarn 0 2048 }] }
       (running x).dev.step? 3 = some x ∧ ((running x).dev.served x.posted 1 { y with src := memKey spBarn 0 2048 } &&
         (running x).dev.sensed (x.landed.map (·.2.2.1)) (running x).clock.herd { y with src := memKey spBarn 0 2048 }) = false) :=
  ⟨⟨rfl, rfl, by decide +kernel, by decide +kernel, rfl, by decide +kernel⟩, ⟨rfl, by decide +kernel⟩,
   ⟨rfl, by decide +kernel, by decide +kernel, rfl, by decide +kernel, by decide +kernel, by decide +kernel, by decide +kernel, rfl, by decide +kernel, by decide +kernel⟩,
   rfl, by decide +kernel⟩

theorem witness_FailedAttemptsAreReplayed :
    let w := W.of (running step0)
    let q := { pad0 with plans := [plan0], step := some step0 }
    w.dev.pad? 3 = some q ∧ q.teardown = none ∧ step0.cancel = [] ∧ step0.attempt < 3 ∧ step0.batch.service = 0 ∧ w.dev.faults.toFence = [] ∧
    w.dev.faults.recovering = none ∧ step0.undo = [] := ⟨rfl, rfl, rfl, by decide, rfl, rfl, rfl, rfl⟩

/-! ### Witnesses: faults and sweeps -/

def detection0 : Detection := { cause := BitVec.ofNat 16 caGranuleCheck, ukind := BitVec.ofNat 8 uPc, uindex := 7, detail := 0x10000, arg := 0, users := [], delay := 1 }

def entry0 : DefectEntry := { ukind := uStall, source := 1, cause := 0x10, uindex := 44, start := 2 }

theorem witness_FaultHappeningsAct :
    (AtWork run0 ∧ causeClass detection0.cause.toNat = some clPage ∧ (run0.dev.detected detection0 clPage).ofPage = true ∧
      (run0.dev.detected detection0 clPage).cause = caGranuleCheck ∧
      causeClass ({ detection0 with ukind := 200 } : Detection).cause.toNat = some clPage ∧ (run0.dev.detected { detection0 with ukind := 200 } clPage).ofPage = false)
    ∧ (let r := { rec0 with reaction := reHeld, paddocks := [] }
       let s := withFaults { Faults.reset with recovering := some r }
       AtWork s ∧ s.dev.faults.recovering = some r ∧ s.dev.recoveryOver r = true)
    ∧ (safe0.dev.boot.phase = .safe ∨ safe0.dev.boot.phase = .poweringDown)
    ∧ (let s : State := { run0 with dev := { dev0 with boot := { dev0.boot with toAppend := [entry0] } } }
       AtWork s ∧ s.dev.boot.toAppend = entry0 :: [] ∧ (s.dev.boot.defects.any fun y => y.ukind = entry0.ukind && y.uindex = entry0.uindex) = false ∧
       s.dev.boot.defects.length < 8191)
    ∧ (let q := { pad0 with scrubbing := true }
       AtWork (withPad q run0) ∧ (withPad q run0).dev.pad? 3 = some q ∧ q.scrubbing = true ∧ q.state ≠ .tearing)
    ∧ (let t : Teardown := { ring := 0, index := 4, abandon := false }
       let q := { pad0 with scrubbing := true, state := .tearing, teardown := some t }
       (withPad q run0).dev.pad? 3 = some q ∧ q.scrubbing = true ∧ q.state = .tearing ∧ q.teardown = some t)
    ∧ (let q := { pad0 with reform := some { flat := 4, physStable := 9, physOld := 8 }, state := .reforming }
       (withPad q run0).dev.pad? 3 = some q ∧ q.reform.isSome = true) :=
  ⟨⟨rfl, by decide +kernel, by decide +kernel, by decide +kernel, by decide +kernel, by decide +kernel⟩, ⟨rfl, rfl, by decide +kernel⟩, .inl rfl,
   ⟨rfl, rfl, by decide +kernel, by decide +kernel⟩, ⟨rfl, rfl, rfl, by decide⟩, ⟨rfl, rfl, rfl, rfl⟩, rfl, rfl⟩

theorem witness_SweepsAct :
    (AtWork run0 ∧ 400_000 % 400_000 = 0 ∧ run0.dev.regs.cfg.restoring = false)
    ∧ (let x : Sweep := { crc := 5, startHerd := 0, windowSeen := true, forCommit := true }
       let s := withCfg { hostWindow with committing := true, sweep := some x }
       s.dev.regs.cfg.sweep = some x ∧ x.forCommit = true ∧ s.dev.regs.cfg.committing = true)
    ∧ (let x : Sweep := { crc := 5, startHerd := 0, windowSeen := false, forCommit := false }
       let c : CfgCheck := { CfgCheck.reset with live := true, sweep := some x }
       let s := withCfg { c with ref := 5 }
       s.dev.regs.cfg.sweep = some x ∧ x.forCommit = false ∧ x.windowSeen = false ∧ c.holder = none ∧ c.live = true ∧ c.restoring = false ∧
       x.crc = s.dev.regs.cfg.ref ∧ x.crc ≠ (withCfg c).dev.regs.cfg.ref)
    ∧ (let x : Sweep := { crc := 5, startHerd := 0, windowSeen := true, forCommit := false }
       let s := withCfg { hostWindow with sweep := some x }
       s.dev.regs.cfg.sweep = some x ∧ (x.windowSeen = true ∨ s.dev.regs.cfg.holder ≠ none) ∧ s.dev.regs.cfg.committing = false) :=
  ⟨⟨rfl, rfl, rfl⟩, by decide +kernel⟩

/-! ### Witnesses: temperature, power and energy -/

theorem witness_TemperatureAndRailsAct :
    AtWork run0 ∧ (104 : Byte).toNat < 105 ∧ run0.dev.boot.phase ≠ .noPower ∧ run0.dev.boot.phase ≠ .safe := ⟨rfl, by decide, by decide, by decide⟩

theorem witness_HotStackIsSafeState :
    AtWork run0 ∧ (Instr.stackTrip 7 90 = .stackTrip 7 90 ∨ Instr.stackTrip 7 90 = .stackTempReading 7 90 ∧ 105 ≤ (90 : Byte).toNat) ∧
    (Instr.stackTempReading 7 105 = .stackTrip 7 105 ∨ Instr.stackTempReading 7 105 = .stackTempReading 7 105 ∧ 105 ≤ (105 : Byte).toNat) :=
  ⟨rfl, .inl rfl, .inr ⟨rfl, by decide⟩⟩

theorem witness_WindowsAndSlicesEnd :
    AtWork run0 ∧ 40_000_000 = run0.dev.power.windowStart + run0.dev.power.windowMS * 400_000 ∧ 0 % ((run0.dev.tenant 4).window / 16 * 2048) = 0 :=
  ⟨rfl, by decide, by decide +kernel⟩

def withDomain (x : Domain) (s : State) : State := { s with dev := { s.dev with power := { s.dev.power with domains := [(5, x)] } } }

theorem witness_DomainsSleepAndWake :
    (let s := withDomain { Domain.reset with state := 3 } run0
     s.dev.boot.phase.sleeps = true ∧ s.dev.domainAbsent 5 = false ∧ (s.dev.domain 5).state ≠ 0 ∧ (s.dev.domain 5).waking = false ∧
     s.dev.plannedUse 5 = false ∧ portOf 5 = none)
    ∧ (let s : State := { run0 with dev := { run0.dev with power := { run0.dev.power with domains := [(77, { Domain.reset with state := 4 })] } } }
       s.dev.domainAbsent 77 = false ∧ (s.dev.domain 77).state = 4 ∧ (s.dev.domain 77).waking = false ∧ s.dev.plannedUse 77 = false ∧ portOf 77 = some 0)
    ∧ (let s := withDomain { Domain.reset with state := 3 } (withPad { pad0 with plans := [plan0], step := some { step0 with cycle := 20 } } run0)
       let t := { s with dev := { s.dev with power := { s.dev.power with domains := [(0, { Domain.reset with state := 1 })] } } }
       (t.dev.domain 0).state ≠ 0 ∧ t.dev.plannedUse 0 = true ∧ t.dev.wakeDue (step0.herdAt 430) 0 = true)
    ∧ (let s := withDomain { Domain.reset with state := 3, waking := true } run0
       (s.dev.domain 5).waking = true)
    ∧ (let s := withDomain { Domain.reset with state := 1 } { run0 with clock := ⟨1_000_000⟩ }
       (s.dev.domain 5).waking = false ∧ s.dev.holdsDomain 5 = false ∧ s.dev.plannedUse 5 = false ∧ (s.dev.domain 5).state < s.dev.deepestNow 5 ∧
       s.dev.backgroundDomains.contains 5 = false ∧ minGap ((s.dev.domain 5).state + 1) * 8 ≤ (s.clock.herd - (s.dev.domain 5).idleSince) * 21)
    ∧ (let s := withPad { pad0 with plans := [plan0], step := some { step0 with cycle := 20 } } run0
       s.dev.plannedUse 0 = true ∧ s.dev.holdsDomain 0 = false ∧ (s.dev.domain 0).waking = false ∧ (s.dev.domain 0).state < s.dev.deepest 0 ∧
       minGap ((s.dev.domain 0).state + 1) ≤ s.dev.gap 0 ∧ s.dev.domainAbsent 0 = false)
    ∧ (let s : State := { run0 with dev := { run0.dev with
         shed := { run0.dev.shed with buffer := [{ granule := 0, seq := 0, discard := false, old := [] }] }
         power := { run0.dev.power with domains := [(72, { Domain.reset with state := 1 })] } } }
       (s.dev.domain 72).waking = false ∧ (s.dev.domain 72).state ≠ 0 ∧ s.dev.backgroundDomains.contains 72 = true ∧ s.dev.domainAbsent 72 = false) := by
  decide +kernel

/-! ### Witnesses: the shed, the tiers and the groom -/

def withChannel (ch : ShedChannel) : State :=
  { run0 with dev := { dev0 with shed := { Shed.reset with mounted := true, poolBytes := 2 ^ 40, channels := [(2, ch)] } } }

def block0 : Block := { number := 6, state := 2, erases := 3, granules := [26] }

theorem firstBlock_some {l : List Block} (key : Block → Nat) (h : l ≠ []) : ∃ b, firstBlock key l = some b := by
  cases l with
  | nil => exact absurd rfl h
  | cons b r => exact ⟨_, rfl⟩

theorem witness_ShedMaintainsItself :
    (∃ (s : State) (b : Block), s.dev.nandOn = true ∧ 2 < s.dev.shedN ∧ (s.dev.shed.chan 2).victim = none ∧ (s.dev.shed.chan 2).free 2 < 64 ∧
      firstBlock (fun b => (s.dev.shed.valid b).length) ((s.dev.shed.chan 2).blocks.filter (·.state = 2)) = some b)
    ∧ (let ch : ShedChannel := { blocks := [{ block0 with state := 1 }], spares := 64, victim := some 4 }
       let s0 := withChannel ch
       let s : State := { s0 with dev := { s0.dev with shed := { s0.dev.shed with buffer := [{ granule := 26, seq := 0, discard := false, old := [] }] } } }
       s.dev.nandOn = true ∧ 2 < s.dev.shedN ∧ s.dev.nextPage 2 ≠ [] ∧ (s.dev.shed.chan 2).opened 2 = some { block0 with state := 1 } ∧
       (s.dev.shed.chan 2).victim = some 4) := by
  refine ⟨?_, by decide +kernel⟩
  let ch : ShedChannel := { blocks := List.replicate (Config.shedBlocks 2 + 1) block0, spares := 64, victim := none }
  have f : ch.blocks.filter (·.state = 2) = ch.blocks := List.filter_eq_self.mpr fun b hb => by rw [(List.mem_replicate.mp hb).2]; rfl
  have g : ch.blocks.filter (·.state ≠ 0) = ch.blocks := List.filter_eq_self.mpr fun b hb => by rw [(List.mem_replicate.mp hb).2]; rfl
  have hf : ch.free 2 < 64 := by
    unfold ShedChannel.free
    rw [g, List.length_replicate]
    omega
  obtain ⟨b, hb⟩ := firstBlock_some (l := (List.replicate (Config.shedBlocks 2 + 1) block0)) (fun b => ((withChannel ch).dev.shed.valid b).length) (by simp)
  refine ⟨withChannel ch, b, rfl, by decide +kernel, rfl, hf, ?_⟩
  show firstBlock _ (ch.blocks.filter (·.state = 2)) = some b
  rw [f]
  exact hb

def withTiers (t : Tiers) : State := { run0 with dev := { dev0 with tiers := t } }

theorem witness_PagesAreFilledAndCopied :
    (let x : Retire := { tier := spStack, page := 2 ^ 40, ring := 0, index := 4, filled := false, lost := [] }
     let s := withTiers { Tiers.reset with retiring := [x] }
     AtWork s ∧ s.dev.tiers.retiring.find? (fun x => x.page = 2 ^ 40 && !x.filled) = some x)
    ∧ (let m : CommonsMig := { page := 8, target := spStack, place := some 0, dirty := false, copied := false, dirtyCount := 0, cmd := none }
       let s := withTiers { Tiers.reset with migrations := [m, { m with page := 9, dirty := true, dirtyCount := 6 }, { m with page := 10, dirty := true, dirtyCount := 7 }] }
       AtWork s ∧ s.dev.tiers.migrations.find? (fun m => m.page = 8 && !m.copied && m.place.isSome) = some m ∧
       s.dev.tiers.migrations.find? (fun m => m.page = 9 && !m.copied && m.place.isSome) = some { m with page := 9, dirty := true, dirtyCount := 6 } ∧
       s.dev.tiers.migrations.find? (fun m => m.page = 10 && !m.copied && m.place.isSome) = some { m with page := 10, dirty := true, dirtyCount := 7 })
    ∧ (let s := withTiers { Tiers.reset with commonsAuto := true }
       AtWork s ∧ s.dev.tiers.commonsAuto = true ∧ 40_000_000 % s.dev.migTicks = 0) :=
  ⟨⟨rfl, by decide +kernel⟩, ⟨rfl, by decide +kernel, by decide +kernel, by decide +kernel⟩, rfl, rfl, by decide +kernel⟩

def service0 : GroomService :=
  { ring := 0, index := 4, cmdId := 7, service := gsScrub, target := 0, first := 0, count := 1, running := true, queued := false, start := 500, units := [] }

def firmware0 : Image := { kind := imFirmware, version := 6, stateFormat := 0, identity := 0, body := [] }

def handover0 : Handover :=
  { ring := 0, index := 4, cmdId := 7, image := firmware0, todo := [0], away := some 15, onNew := [], keepStore := true, rewriting := false }

def withHandover (h : Handover) : State := { run0 with dev := { dev0 with boot := { dev0.boot with handover := some h } } }

theorem witness_GroomAndHandoverEnd :
    (let s : State := { run0 with dev := { dev0 with groom := { services := [service0], results := [] } } }
     AtWork s ∧ s.dev.groom.services[0]? = some service0 ∧ service0.running = true ∧ service0.queued = false ∧
     (service0.service = gsScrub ∨ service0.service ≠ gsMemTest ∧ false = false))
    ∧ (let s := withHandover handover0
       AtWork s ∧ s.dev.boot.handover = some handover0 ∧ handover0.away = some 15 ∧ handover0.todo ≠ [])
    ∧ (let h := { handover0 with todo := [], away := some 0 }
       (withHandover h).dev.boot.handover = some h ∧ h.away = some 0 ∧ h.todo = [] ∧ h.keepStore = true ∧ ({ h with keepStore := false } : Handover).keepStore = false)
    ∧ (let h := { handover0 with todo := [], away := none, rewriting := true }
       AtWork (withHandover h) ∧ (withHandover h).dev.boot.handover = some h ∧ h.rewriting = true) :=
  ⟨⟨rfl, rfl, rfl, rfl, .inl rfl⟩, ⟨rfl, rfl, rfl, by decide⟩, ⟨rfl, rfl, rfl, rfl, rfl⟩, rfl, rfl, rfl⟩

/-! ### Witnesses: SYNC, power sequencing, the management bus and the TAP -/

def withBoot (b : Boot) : State := { run0 with dev := { dev0 with boot := b } }

theorem witness_SyncMessagesAct :
    (let s := withBoot Boot.reset
     AtWork s ∧ s.dev.syncWaits = true)
    ∧ (let s : State := { run0 with dev := { dev0 with sync := { Sync.reset with locked := true } } }
       AtWork s ∧ (2048 : DWord).toNat % 8 = 0 ∧ syncGood (2048 : DWord).toNat (8 : Byte).toNat = true ∧ syncGood (2048 : DWord).toNat (9 : Byte).toNat = false ∧
       s.dev.syncWaits = false ∧ s.dev.sync.locked = true ∧ s.dev.sends = true ∧ 2 ^ 22 % 2 ^ 22 = 0) :=
  ⟨⟨rfl, rfl⟩, rfl, by decide +kernel⟩

theorem witness_PowerSequencingActs :
    (withBoot { Boot.reset with phase := .noPower }).dev.boot.phase = .noPower
    ∧ (let b := (withBoot { Boot.reset with phase := .held }).dev.boot
       b.phase = .held ∧ b.inputPresent = true ∧ b.resetN = true)
    ∧ (run0.dev.boot.phase = .run ∨ run0.dev.boot.phase = .standby)
    ∧ ((withBoot Boot.reset).dev.boot.phase = .bringUp ∨ run0.dev.boot.phase = .imageWait ∨ run0.dev.boot.phase = .safe ∨ run0.dev.boot.phase = .inReset)
    ∧ (let b := (withBoot { Boot.reset with phase := .poweringDown }).dev.boot
       b.phase = .poweringDown ∧ b.inputPresent = true)
    ∧ (run0.dev.boot.phase ≠ .noPower ∧ run0.dev.boot.phase ≠ .held ∧ run0.dev.boot.inputPresent = true ∧ run0.dev.boot.pwrEn = true)
    ∧ (let b := (withBoot { Boot.reset with phase := .inReset }).dev.boot
       b.phase = .inReset ∧ b.inputPresent = true ∧ b.pwrEn = true) := by decide +kernel

def config0 : Image := { kind := imConfig, version := 1, stateFormat := 0, identity := 0, body := [] }

theorem witness_StagesComplete :
    (let s0 := withBoot Boot.reset
     let s : State := { s0 with dev := { s0.dev with sync := { Sync.reset with solo := true } } }
     s.dev.boot.phase = .bringUp ∧ s.dev.boot.stagesDone = 0 ∧ (s.dev.sync.locked = true ∨ s.dev.sync.solo = true))
    ∧ (let b := { Boot.reset with stagesDone := 1 }
       let f := { findings with fwOk := false }
       b.phase = .bringUp ∧ b.stagesDone = 1 ∧ b.fw = none ∧ f.fwOk = false)
    ∧ (let b := { Boot.reset with stagesDone := 3 }
       let f := { findings with topologyOk := false }
       b.phase = .bringUp ∧ b.stagesDone = 3 ∧ f.topologyOk = false ∧ ({ b with stagesDone := 2 } : Boot).stagesDone = 2)
    ∧ (let s := withBoot { Boot.reset with stagesDone := 8 }
       s.dev.boot.phase = .bringUp ∧ 4 ≤ s.dev.boot.stagesDone ∧ s.dev.boot.stagesDone ≤ 8 ∧ (s.dev.boot.stagesDone = 8 → s.dev.halter.isUp = true))
    ∧ (let s := withBoot { Boot.reset with stagesDone := 9, cfg := some config0 }
       s.dev.boot.phase = .bringUp ∧ s.dev.boot.stagesDone = 9 ∧ (∀ e ∈ (s.dev.boot.cfg.map (·.entries)).getD [], isChecked e.1 = true))
    ∧ (let s0 := withBoot { Boot.reset with stagesDone := 8 }
       let s : State := { s0 with dev := { s0.dev with halter := Link.reset } }
       s.dev.boot.phase = .bringUp ∧ s.dev.boot.stagesDone = 8 ∧ s.dev.halter.isUp = false ∧ s.dev.halterState (0xFFFF : BitVec 16).toNat ≠ 1) := by decide +kernel

theorem witness_ManagementBusAnswers :
    run0.dev.busAnswers run0.clock.herd = true ∧ (withFaults { Faults.reset with slots := [(2, rec0)], noteAlert := true }).dev.alertN = some false := by decide +kernel

theorem witness_TapInstructionsLoad :
    run0.dev.tapWorks = true ∧ run0.dev.boot.phase ≠ .held ∧ (withBoot { Boot.reset with phase := .held }).dev.boot.phase = .held ∧
    (withBoot { Boot.reset with phase := .held }).dev.tapWorks = true := by decide +kernel

/-! ### Witnesses: plans -/

/-- A plan of 1,000 cycles whose only word is its END and whose only hold point is its first cycle, less its digest. -/
def planBase : Bytes :=
  let words : Bytes := leBytes 2 noDesc ++ leBytes 2 noDesc ++ leBytes 2 noDesc ++ leBytes 4 1 ++ leBytes 2 (kCONTROL + cEND * 1024) ++ leBytes 4 1000
  image 388 [(0, leBytes 4 0x4E4C_5055), (4, [1]), (6, leBytes 2 256), (8, [9]), (0x14, [1]), (0x15, [7]), (0x18, [100]), (0x1E, [1]),
    (0x20, leBytes 4 1000), (0x2A, [2]), (0x2C, leBytes 4 256), (0x38, leBytes 4 388),
    (256, leBytes 2 1 ++ leBytes 2 1 ++ leBytes 4 320 ++ leBytes 4 16 ++ leBytes 4 (crc32c words)),
    (272, leBytes 2 8 ++ leBytes 2 1 ++ leBytes 4 384 ++ leBytes 4 4 ++ leBytes 4 (crc32c (zeros 4))), (320, words)]

def planImage : Bytes :=
  planBase.take 0x60 ++ leBytes 32 0xa80ef5334a1a89a6e29c4f8db18929e8340f130bacf42e2983f64f629de7589d ++ planBase.drop 0x80

def loadPlan : Entry := cmd 388 [(32, [3])]

def loadState : State := withPad pad0 (holding planImage)

theorem readBy_planImage : readBy 0x10 loadPlan loadState = planImage :=
  readBy_holding rfl (by decide +kernel) (by decide +kernel)

theorem planImage_passes :
    let w := begun loadState 0x10 loadPlan
    LoadEnv.check { dev := w.dev, p := 3, pad := pad0 } planImage = none := by decide +kernel

theorem planImage_fits :
    let w := begun loadState 0x10 loadPlan
    let x := parsePlan planImage
    w.dev.planElsewhere 3 x.planId = false ∧ w.dev.plansFull pad0 x.planId = false ∧ (w.dev.shed.readOnly && x.stagesShed) = false ∧ x.residency = [] := by
  decide +kernel

theorem witness_PlansLoadAndUnload :
    (let e := loadPlan
     let s := loadState
     let w := begun s 0x10 e
     let o := order s 0x10 e
     let x := parsePlan (w.payload o)
     Accepts 0x10 e s ∧ w.dev.pad? (o.field 32 1) = some pad0 ∧ pad0.state ≠ .tearing ∧
     LoadEnv.check { dev := w.dev, p := o.field 32 1, pad := pad0 } (w.payload o) = none ∧
     w.dev.planElsewhere (o.field 32 1) x.planId = false ∧ w.dev.plansFull pad0 x.planId = false ∧ (w.dev.shed.readOnly && x.stagesShed) = false ∧
     ∃ d, w.dev.makeAllocs (o.field 32 1) x.residency = .ok d)
    ∧ (let q := { pad0 with plans := [plan0] }
       let s := withPad q run0
       let e := cmd 0 [(32, [3]), (40, [1])]
       Accepts 0x11 e s ∧ (begun s 0x11 e).dev.pad? ((order s 0x11 e).field 32 1) = some q ∧
       q.plans.any (·.planId = (order s 0x11 e).field 40 8) = true) := by
  have hp : (begun loadState 0x10 loadPlan).payload (order loadState 0x10 loadPlan) = planImage := readBy_planImage
  have h3 : (order loadState 0x10 loadPlan).field 32 1 = 3 := by decide +kernel
  obtain ⟨f1, f2, f3, f4⟩ := planImage_fits
  refine ⟨⟨accepts_spec (by decide +kernel), ?_, by decide, ?_⟩, accepts_spec (by decide +kernel), by decide +kernel, by decide +kernel⟩
  · rw [h3]; decide +kernel
  · rw [hp, h3]
    exact ⟨planImage_passes, f1, f2, f3, ⟨_, by rw [f4]; rfl⟩⟩

/-! ### Witnesses: text objects and admission -/

/-- A tokenizer table of 512 tokens, the 256 bytes and 256 special ones, about its digest. -/
def tokHead : Bytes :=
  image 72 [(0, leBytes 4 0x4B4F_544E), (4, [1]), (8, [5]), (0x10, leBytes 4 512), (0x18, leBytes 4 256), (0x1C, leBytes 4 257), (0x20, leBytes 4 258),
    (0x24, leBytes 4 259), (0x28, leBytes 4 260), (0x2C, leBytes 4 261), (0x30, leBytes 4 262), (0x34, [1]), (0x38, leBytes 4 128), (0x3C, leBytes 4 4224),
    (0x40, leBytes 4 256), (0x44, leBytes 4 4480)]

def tokEntry (t : Nat) : Bytes := if t < 256 then leBytes 4 t ++ [1, 1, 0, 0] else [0, 0, 0, 0, 0, 2, 0, 0]

def tokEntries : Bytes := (List.range 512).flatMap tokEntry
def tokStrings : Bytes := (List.range 256).flatMap fun i => [BitVec.ofNat 8 i]

def tokWith (d : Bytes) : Bytes := tokHead ++ (d ++ (zeros 24 ++ (tokEntries ++ tokStrings)))

def tokImage : Bytes := tokWith (sha3 (tokWith (zeros 32)))

theorem tokHead_length : tokHead.length = 72 := by decide +kernel
theorem tokEntry_length (t : Nat) : (tokEntry t).length = 8 := by
  unfold tokEntry
  split <;> rfl

theorem flatMap_length {f : Nat → Bytes} {n : Nat} (hf : ∀ t, (f t).length = n) (l : List Nat) : (l.flatMap f).length = n * l.length := by
  induction l with
  | nil => rfl
  | cons a l ih => rw [List.flatMap_cons, List.length_append, ih, hf, List.length_cons, Nat.mul_succ, Nat.add_comm]

theorem drop_flatMap {f : Nat → Bytes} {n : Nat} (hf : ∀ t, (f t).length = n) (i : Nat) (l : List Nat) : (l.flatMap f).drop (n * i) = (l.drop i).flatMap f := by
  induction i generalizing l with
  | zero => rfl
  | succ i ih =>
    cases l with
    | nil => simp
    | cons a l =>
      rw [List.flatMap_cons, drop_first (by rw [hf, Nat.mul_succ]; omega), hf, show n * (i + 1) - n = n * i by rw [Nat.mul_succ]; omega, ih]
      rfl

theorem fld_flatMap {f : Nat → Bytes} {n m t k c : Nat} (hf : ∀ t, (f t).length = n) (ht : t < m) (hk : k + c ≤ n) :
    fld ((List.range m).flatMap f) (n * t + k) c = fld (f t) k c := by
  have h : (List.range m).drop t = t :: (List.range m).drop (t + 1) := by
    rw [List.drop_eq_getElem_cons (by rw [List.length_range]; exact ht), List.getElem_range]
  rw [fld, ← List.drop_drop, drop_flatMap hf, h, List.flatMap_cons]
  exact fld_first (a := f t) (by rw [hf]; exact hk)

theorem tokEntries_length : tokEntries.length = 4096 := by
  rw [tokEntries, flatMap_length tokEntry_length, List.length_range]

theorem tokStrings_length : tokStrings.length = 256 := by
  rw [tokStrings, flatMap_length (n := 1) fun _ => rfl, List.length_range]

theorem tokImage_length : tokImage.length = 4480 := by
  simp only [tokImage, tokWith, List.length_append, tokHead_length, sha3_length, zeros_length, tokEntries_length, tokStrings_length]

theorem tok_head {k n : Nat} (h : k + n ≤ 72) : fld tokImage k n = fld tokHead k n := fld_first (by rw [tokHead_length]; exact h)

theorem tok_entry {t k n : Nat} (ht : t < 512) (h : k + n ≤ 8) : fld tokImage (128 + 8 * t + k) n = fld (tokEntry t) k n := by
  rw [tokImage, tokWith, fld_second (by rw [tokHead_length]; omega), tokHead_length, fld_second (by rw [sha3_length]; omega), sha3_length,
    fld_second (by rw [zeros_length]; omega), zeros_length, fld_first (by rw [tokEntries_length]; omega),
    show 128 + 8 * t + k - 72 - 32 - 24 = 8 * t + k by omega]
  exact fld_flatMap tokEntry_length ht h

theorem tok_string {t : Nat} (ht : t < 256) : slice tokImage (4224 + t) 1 = [BitVec.ofNat 8 t] := by
  rw [tokImage, tokWith, slice_second (by rw [tokHead_length]; omega), tokHead_length, slice_second (by rw [sha3_length]; omega), sha3_length,
    slice_second (by rw [zeros_length]; omega), zeros_length, slice_second (by rw [tokEntries_length]; omega), tokEntries_length,
    show 4224 + t - 72 - 32 - 24 - 4096 = 1 * t by omega, slice, tokStrings, drop_flatMap (n := 1) (fun _ => rfl), List.drop_eq_getElem_cons (by rw [List.length_range]; exact ht),
    List.getElem_range, List.flatMap_cons]
  rfl

theorem tok_kind {t : Nat} (ht : t < 512) : tokKind tokImage t = if t < 256 then 1 else 2 := by
  have h : fld tokImage 0x38 4 = 128 := by rw [tok_head (by omega)]; decide +kernel
  rw [tokKind, h, tok_entry ht (by omega), tokEntry]
  split <;> rfl

theorem tok_len {t : Nat} (ht : t < 512) : tokLen tokImage t = if t < 256 then 1 else 0 := by
  have h : fld tokImage 0x38 4 = 128 := by rw [tok_head (by omega)]; decide +kernel
  rw [tokLen, h, tok_entry ht (by omega), tokEntry]
  split <;> rfl

theorem tokImage_vocab : tokVocab tokImage = 512 := by
  rw [tokVocab, tok_head (by omega)]; decide +kernel

theorem tok_offset {t : Nat} (ht : t < 512) : fld tokImage (128 + 8 * t) 4 = if t < 256 then t else 0 := by
  rw [show 128 + 8 * t = 128 + 8 * t + 0 from rfl, tok_entry ht (by omega), tokEntry]
  split
  · rw [fld_first (Nat.le_of_eq (leBytes_length 4 t).symm)]
    rename_i h
    have : ∀ t : Fin 256, fld (leBytes 4 t.val) 0 4 = t.val := by decide +kernel
    exact this ⟨t, h⟩
  · rfl

theorem tokImage_ok : tableOk tokImage = true := by
  have hd : sha3 (tokImage.take 0x48 ++ zeros 32 ++ tokImage.drop 0x68) = slice tokImage 0x48 32 := by
    have h1 : tokImage.take 0x48 = tokHead := by
      rw [tokImage, tokWith]; exact List.take_left' tokHead_length
    have h2 : tokImage.drop 0x68 = zeros 24 ++ (tokEntries ++ tokStrings) := by
      rw [tokImage, tokWith, drop_first (by rw [tokHead_length]; omega), tokHead_length, drop_first (Nat.le_of_eq (sha3_length _)), sha3_length]; rfl
    have h3 : slice tokImage 0x48 32 = sha3 (tokWith (zeros 32)) := by
      rw [tokImage]
      generalize hD : sha3 (tokWith (zeros 32)) = D
      have : D.length = 32 := by rw [← hD]; exact sha3_length _
      rw [tokWith, slice_second (Nat.le_of_eq tokHead_length), tokHead_length, slice_first (by omega)]
      exact slice_all this
    rw [h1, h2, h3, List.append_assoc]
    rfl
  have hz : slice tokImage 0x68 24 = zeros 24 := by
    rw [tokImage, tokWith, slice_second (by rw [tokHead_length]; omega), tokHead_length, slice_second (Nat.le_of_eq (sha3_length _)), sha3_length,
      slice_first (by simp [zeros_length])]
    exact slice_all (zeros_length _)
  have hn : (tokIndices tokImage).filter (fun t => tokKind tokImage t = 0) = [] := by
    rw [tokIndices, tokImage_vocab]
    refine List.filter_eq_nil_iff.mpr fun t ht => ?_
    rw [tok_kind (List.mem_range.mp ht)]
    split <;> decide
  have ha : (tokIndices tokImage).all (fun t =>
      decide (tokKind tokImage t ≤ 3) && decide (tokLen tokImage t ≤ 128) && fld tokImage (128 + 8 * t + 6) 2 = 0
      && decide (fld tokImage (128 + 8 * t) 4 + tokLen tokImage t ≤ 256)
      && (tokKind tokImage t = 0 || tokKind tokImage t = 1 || tokLen tokImage t = 0)) = true := by
    rw [tokIndices, tokImage_vocab]
    refine List.all_eq_true.mpr fun t ht => ?_
    have ht := List.mem_range.mp ht
    rw [tok_kind ht, tok_len ht, tok_entry ht (by omega), tok_offset ht, tokEntry]
    split
    · simp only [Bool.and_eq_true, decide_eq_true_eq, Bool.or_eq_true]
      refine ⟨⟨⟨⟨by omega, by omega⟩, rfl⟩, by omega⟩, by simp⟩
    · rfl
  have hb : (List.range 256).all (fun i =>
      tokKind tokImage (0 + i) = 1 && tokLen tokImage (0 + i) = 1 && tokString tokImage (0 + i) == [BitVec.ofNat 8 i]) = true := by
    refine List.all_eq_true.mpr fun i hi => ?_
    have hi := List.mem_range.mp hi
    have h38 : fld tokImage 0x38 4 = 128 := by rw [tok_head (by omega)]; decide +kernel
    have h3c : fld tokImage 0x3C 4 = 4224 := by rw [tok_head (by omega)]; decide +kernel
    simp only [Nat.zero_add, tokString, tok_kind (show i < 512 by omega), tok_len (show i < 512 by omega), tok_offset (show i < 512 by omega), h38, h3c, hi, if_true]
    rw [tok_string hi]
    simp
  have hs : [tokUnk tokImage, tokEos tokImage, fld tokImage 0x20 4, fld tokImage 0x24 4, fld tokImage 0x28 4, tokPad tokImage, tokMark tokImage] =
      [256, 257, 258, 259, 260, 261, 262] := by
    simp only [tokUnk, tokEos, tokPad, tokMark, tok_head, Nat.reduceAdd, Nat.reduceLeDiff]
    decide +kernel
  have hs' : [256, 257, 258, 259, 260, 261, 262].all (fun t => decide (t < 512) && tokKind tokImage t = 2 && tokLen tokImage t = 0) = true := by
    refine List.all_eq_true.mpr fun t ht => ?_
    have : 256 ≤ t ∧ t < 512 := by
      simp at ht; omega
    rw [tok_kind this.2, tok_len this.2]
    simp [this.2, show ¬ t < 256 by omega]
  have h38 : fld tokImage 0x38 4 = 128 := by rw [tok_head (by omega)]; decide +kernel
  have h3c : fld tokImage 0x3C 4 = 4224 := by rw [tok_head (by omega)]; decide +kernel
  have h40 : fld tokImage 0x40 4 = 256 := by rw [tok_head (by omega)]; decide +kernel
  have hB : tokByteBase tokImage = 0 := by rw [tokByteBase, tok_head (by omega)]; decide +kernel
  have hM : tokMaxLen tokImage = 1 := by rw [tokMaxLen, tok_head (by omega)]; decide +kernel
  simp only [tableOk, tokImage_vocab, h38, h3c, h40, hB, hM, hs]
  simp only [hd, hz, hn, ha, hb, hs', tokImage_length]
  simp only [tok_head, Nat.reduceAdd, Nat.reduceLeDiff, beq_self_eq_true]
  decide +kernel

theorem tokImage_id : tokId tokImage = 5 := by
  rw [tokId, tok_head (by omega)]; decide +kernel

def table0 : TokTable := { tableId := 5, version := 1, image := tokImage, current := true, pending := false }

def withTable (s : State) : State := { s with dev := { s.dev with serve := { Serve.reset with tables := [table0] } } }

/-- A grammar of one state that allows the tokens 0 to 255, less its digest. -/
def gramBase : Bytes :=
  image 120 [(0, leBytes 4 0x4D52_4747), (4, [1]), (8, [6]), (0x10, [5]), (0x18, [1]), (0x1C, [1]), (0x24, [1]), (0x26, [1]), (0x28, [96]), (0x2C, [104]),
    (0x30, [120]), (100, [1]), (108, [255])]

def gramImage : Bytes := gramBase.take 0x34 ++ leBytes 32 0xc86855e55494e758f32b06aeffcd19ccbbccb05aea35d3983bb930bfd290cf70 ++ gramBase.drop 0x54

/-- An adapter without entries, less its digest. -/
def adapterBase : Bytes := image 128 [(0, leBytes 4 0x5044_4141), (4, [1]), (6, [8]), (7, [BitVec.ofNat 8 fBF16]), (8, [4]), (0x14, [128])]

def adapterImage : Bytes := adapterBase.take 0x18 ++ leBytes 32 0xcd3b7ba61a1d0c15c749e64161c0326a035e6129be9400543121d54421c06d6e ++ adapterBase.drop 0x38

def serving0 : Serving :=
  { loadMode := false, prefillStables := 0, pcost := 1, dcost := 1, hyst := 1, age := 1, ctxCap := 4096, goal := [], rMax := 16, families := [] }

def pad1 : Paddock := { pad0 with serving := some serving0 }


theorem readBy_tok : readBy 0x30 (cmd 4480 []) (holding tokImage) = tokImage :=
  readBy_holding rfl (by decide +kernel) (by rw [tokImage_length]; decide +kernel)

theorem witness_TokenizerLoads :
    let s := holding tokImage
    let e := cmd 4480 []
    let b := readBy 0x30 e s
    let others := s.dev.serve.tables.filter fun t => !(t.tableId = tokId b && t.pending)
    Accepts 0x30 e s ∧ s.dev.unitFenced uTokenizer 0 = false ∧ tableOk b = true ∧ others.length < 4 ∧
    sumNat (others.map fun t => t.image.length) + b.length ≤ 96 * 2 ^ 20 := by
  have hb := readBy_tok
  refine ⟨accepts_spec (by decide +kernel), by decide +kernel, ?_, ?_, ?_⟩
  · rw [hb]; exact tokImage_ok
  · show ([] : List TokTable).length < 4
    decide
  · rw [hb, tokImage_length]
    show 0 + 4480 ≤ 96 * 2 ^ 20
    decide

theorem witness_GrammarLoads :
    let s := withTable (withBytes gramImage)
    let e := cmd 120 []
    let b := readBy 0x31 e s
    Accepts 0x31 e s ∧ s.dev.unitFenced uGrammar 0 = false ∧ s.dev.serve.currentTable (gramTable b) = some table0 ∧ tokVocab table0.image ≠ 0 ∧
    grammarOk b (tokVocab table0.image) = true ∧
    sumNat ((s.dev.serve.grammars.filter fun g => !(g.grammarId = gramId b && g.pending)).map fun g => g.image.length) + b.length ≤ 128 * 2 ^ 20 := by
  have hb : readBy 0x31 (cmd 120 []) (withTable (withBytes gramImage)) = gramImage := by decide +kernel
  have hv : tokVocab table0.image = 512 := tokImage_vocab
  have hg : gramTable gramImage = 5 := by decide +kernel
  refine ⟨accepts_spec (by decide +kernel), by decide +kernel, ?_, by rw [hv]; decide, ?_, ?_⟩
  · rw [hb, hg]; rfl
  · rw [hb, hv]; decide +kernel
  · rw [hb]; decide +kernel

theorem witness_AdaptersLoadAndUnload :
    (let s := withPad pad1 (withBytes adapterImage)
     let e := cmd 128 [(32, [3])]
     let b := readBy 0x32 e s
     Accepts 0x32 e s ∧ (begun s 0x32 e).dev.pad? ((order s 0x32 e).field 32 1) = some pad1 ∧ adapterOk b pad1 = true ∧
     (0 < Config.adapterSlots 3 → ∃ slot, lowestFree (adapterSlots 3)
       ((pad1.adapters.filter fun a => !(a.adapterId = fld b 8 8 && a.pending)).map (·.slot)) = some slot))
    ∧ (let a : AdapterVersion := { slot := 0, adapterId := 4, version := 1, rank := 8, weightSet := 0, digest := [], image := adapterImage, current := true
                                   pending := false, unloaded := false }
       let q := { pad1 with adapters := [a] }
       let s := withPad q run0
       let e := cmd 0 [(32, [3]), (40, [4])]
       Accepts 0x33 e s ∧ (begun s 0x33 e).dev.pad? ((order s 0x33 e).field 32 1) = some q ∧
       (q.adapters.any fun a => a.adapterId = (order s 0x33 e).field 40 8 && !a.unloaded) = true) := by
  refine ⟨⟨accepts_spec (by decide +kernel), by decide +kernel, by decide +kernel, fun h => ?_⟩, accepts_spec (by decide +kernel), by decide +kernel,
    by decide +kernel⟩
  refine ⟨0, ?_⟩
  have h1 : min (adapterSlots 3) (0 + 1) = 1 := by unfold adapterSlots; omega
  show (List.range (min (adapterSlots 3) (0 + 1))).find? (fun i => !([] : List Nat).contains i) = some 0
  rw [h1]
  rfl

def admitBlock : Bytes :=
  image 128 [(2, [3]), (4, [2]), (8, [1]), (16, [9]), (32, [5]), (56, leBytes 4 0x3F80_0000), (68, leBytes 4 0xFFFF_FFFF ++ leBytes 4 0xFFFF_FFFF ++
    leBytes 4 0xFFFF_FFFF ++ leBytes 4 0xFFFF_FFFF)]

/-- The KV pool of a ladder, 64 KiB long. -/
def kvAlloc : Alloc := { alloc0 with entry := { alloc0.entry with allocId := 0xFFFF_FF03 } }

def admitState : State :=
  let s := withTable (withPad pad1 (withBytes admitBlock))
  let tiers := { s.dev.tiers with allocs := [kvAlloc] }
  let r := { ring0 with streamEn := true }
  { s with dev := { s.dev with tiers := tiers, rings := [(0, r)] } }

/-- A request is admitted where the ladder's pool holds one KV block, whose size no rule gives. -/
theorem witness_AdmitMakesRequest (room : Config.kvBlockBytes 65536 ≤ 65536) :
    Accepts 0x14 (cmd 128 []) admitState ∧ (begun admitState 0x14 (cmd 128 [])).dev.admitStatus 0 (readBy 0x14 (cmd 128 []) admitState) = none := by
  refine ⟨accepts_spec (by decide +kernel), ?_⟩
  have hb : readBy 0x14 (cmd 128 []) admitState = admitBlock := by decide +kernel
  let d := (begun admitState 0x14 (cmd 128 [])).dev
  have h1 : d.admitOk 0 admitBlock = true := by decide +kernel
  have h2 : (d.freeKv (fld admitBlock 2 1) (kvNeed admitBlock)).isNone = false := by
    have e1 : fld admitBlock 2 1 = 3 := by decide +kernel
    have e2 : kvNeed admitBlock = 1 := by decide +kernel
    have e3 : (d.ladderAlloc 3 0xFFFF_FF03).map (·.bytes) = some 65536 := by decide +kernel
    obtain ⟨a, ha, hbytes⟩ := Option.map_eq_some_iff.mp e3
    have e4 : min (d.kvBlocks 3) (0 + 1) = 1 := by
      have : d.kvBlocks 3 = 65536 / max 1 (Config.kvBlockBytes 65536) := by rw [Dev.kvBlocks, ha]; simp only [hbytes]
      have : 1 ≤ 65536 / max 1 (Config.kvBlockBytes 65536) := (Nat.one_le_div_iff (by omega)).mpr (by omega)
      omega
    have e5 : ((d.livePad 3).map (·.kv)).flatten = [] := by decide +kernel
    rw [e1, e2, Dev.freeKv, e5]
    simp only [List.length_nil, e4]
    rfl
  show d.admitStatus 0 (readBy 0x14 (cmd 128 []) admitState) = none
  rw [hb]
  have h3 : d.serve.requests.length = 0 := rfl
  have h4 : decide ((d.tenant (fld admitBlock 0 1)).liveMax ≤ d.liveTenant (fld admitBlock 0 1)) = false := by decide +kernel
  have e5 : fld admitBlock 32 8 = 5 := by decide +kernel
  have h5 : (d.serve.currentTable (fld admitBlock 32 8)).isNone = false := by rw [e5]; rfl
  have h6 : fld admitBlock 40 8 = 0 := by decide +kernel
  have h7 : d.grammarStatus admitBlock = none := by rw [Dev.grammarStatus, if_pos (by decide +kernel)]
  simp [Dev.admitStatus, h1, h3, h4, h5, h6, h7, h2]

/-! ### The spec's worked examples, and published values of the checks it names -/

/-- The N4 column of "Worked dequantisation". -/
def n4Column (b : Nat) : Nat :=
  if b = 0 then 0x30 else if b = 96 then 0xD6
  else ([(120, 0x03), (132, 0x0E), (144, 0x01), (156, 0x08), (168, 0x07), (180, 0x00), (192, 0x09), (204, 0x04), (600, 0x08)].lookup b).getD 0

def n2Column (b : Nat) : Nat :=
  ([(0, 0x2C), (24, 0x1C), (48, 0xE9), (72, 0x0D), (84, 0x08), (96, 0x09), (108, 0x0E)].lookup b).getD 0

def decoded (f : Nat) (rd : Nat → Nat) (k : Nat) : Nat := f32OfNum [] (fetchElem f rd (fun k => weightPlace f k 0) k).num

/-- 0.75, −2, 0.25, −10.5, 3, 0, −0.25 and 1; the second escape of the block is 0 and sets ESCAPE_EXCESS. -/
theorem test_n4_worked : (List.range 8).map (decoded fN4 n4Column) =
      [0x3F40_0000, 0xC000_0000, 0x3E80_0000, 0xC128_0000, 0x4040_0000, 0, 0xBE80_0000, 0x3F80_0000] ∧
    decoded fN4 n4Column 40 = 0 ∧ (fetchElem fN4 n4Column (fun k => weightPlace fN4 k 0) 40).excess = true := by decide +kernel

/-- 0.375, −0.375, 0, 2.625, 0.375, −2.15625, 0 (a third escape), −0.375. -/
theorem test_n2_worked : (List.range 8).map (decoded fN2 n2Column) =
      [0x3EC0_0000, 0xBEC0_0000, 0, 0x4028_0000, 0x3EC0_0000, 0xC00A_0000, 0, 0xBEC0_0000] ∧
    (fetchElem fN2 n2Column (fun k => weightPlace fN2 k 0) 6).excess = true := by decide +kernel

def bayList (k ties : Nat) (es : List (Nat × Nat)) : Bytes :=
  image 256 [(0, [1]), (2, leBytes 2 k), (4, leBytes 2 es.length), (8, leBytes 4 ties), (16, es.flatMap fun e => leBytes 5 e.2 ++ [0] ++ leBytes 2 e.1)]

/-- The three lists of "A worked merge". -/
def mergeSlots : List Bytes :=
  [bayList 4 0 [(120, 0x0_0300_0010), (135, 0x0_0300_0022), (140, 0x0_0300_0005)],
   bayList 4 2 [(118, 0x0_0900_0001), (135, 0x0_0900_0040), (140, 0x0_0900_0012), (140, 0x0_0900_0013)],
   bayList 2 0 [(118, 0x0_0900_0001), (131, 0x4_0A00_0003)]]

def merged (k p : Nat) : Bytes := mergeLists { lists := 3, kOut := k, pops := p, exact := false, stride := 256, query := 0 } mergeSlots

/-- COUNT, SOURCES, TIES, flags and the ids in order. -/
def mergedTells (k p : Nat) : Nat × Nat × Nat × Nat × List Nat :=
  let b := merged k p
  (fld b 4 2, fld b 6 2, fld b 8 4, fld b 1 1, (List.range (fld b 4 2)).map fun i => fld b (16 + 16 * i) 5)

theorem test_merge_worked : mergedTells 4 8 = (4, 3, 1, 0, [0x0_0900_0001, 0x0_0300_0010, 0x4_0A00_0003, 0x0_0300_0022]) := by decide +kernel

/-- ALLOWANCE_OUT is set, and position 7 is a sentinel. -/
theorem test_merge_allowance : (mergedTells 8 8).1 = 7 ∧ (mergedTells 8 8).2.2.1 = 0 ∧ (mergedTells 8 8).2.2.2.1 = 2 ∧
    fld (merged 8 8) (16 + 16 * 7) 5 = 0xFF_FFFF_FFFF := by decide +kernel

theorem test_merge_ties_of_a_full_list : (mergedTells 8 9).1 = 8 ∧ (mergedTells 8 9).2.2.1 = 2 ∧ (mergedTells 8 9).2.2.2.2.getLast? = some 0x0_0900_0013 := by
  decide +kernel

/-- The two forms of one stack address (R330). -/
theorem test_stack_addresses : stackKey 0x0000_0196_0000_1040 = stackKey 0x0000_0080_0004_1B00 ∧ stackAddr (stackKey 0x0000_0196_0000_1040) = 0x0000_0080_0004_1B00 := by
  decide +kernel

/-- The check byte of the SYNC example (R545). -/
theorem test_sync_check : syncGood 0x0000_0001_2C00_0000 0x2D = true := by decide +kernel

/-- CRC-32, CRC-32C and SHA3-256 of their published test strings "123456789" and "". -/
theorem test_crcs : crc32 [0x31, 0x32, 0x33, 0x34, 0x35, 0x36, 0x37, 0x38, 0x39] = 0xCBF4_3926 ∧
    crc32c [0x31, 0x32, 0x33, 0x34, 0x35, 0x36, 0x37, 0x38, 0x39] = 0xE306_9283 := by decide +kernel

theorem test_sha3_of_nothing : (sha3 []).take 8 = [0xA7, 0xFF, 0xC6, 0xF8, 0xBF, 0x1E, 0xD7, 0x66] := by decide +kernel

/-- Philox4×32-10 of the zero key and counter, as its authors publish it. -/
theorem test_philox : philox 0 0 = [0x6627_E8D5, 0xE169_C58D, 0xBC57_AC4C, 0x9B00_DBD8] := by decide +kernel

/-- A row of a serving image is 128 bytes, an empty one too (R564). -/
theorem test_empty_row : (rowBytes State.reset.dev (emptyRow false)).length = 128 := by decide +kernel

/-- RING_CTL of ring 5 for tenant 17 with a stream ring, as the example of R532's chapter writes it: 0x1100_0003. -/
theorem test_ring_ctl : ({ Ring.reset with tenant := 0x11, streamEn := true, enable := true } : Ring).ctl = 0x1100_0003 := by decide +kernel

end Sys2Proof.Tests
end

section
/-! SUPPORT. A step runs the front command of the queue, and no step but those of stage 0 sets the herd count back (R41, R420, R546). -/

namespace Sys2Proof.Machine

open Host

/-! ### The front of the queue -/

theorem step_of_cons {c : Instr} {rest : List Instr} {s : State} (h : s.pending = c :: rest) : step s = exec c { s with pending := rest } := by
  simp only [step, h]

/-- With no command waiting the herd count advances by one tick. -/
theorem step_of_nil {s : State} (h : s.pending = []) : step s = .next { s with clock := { herd := s.clock.herd + 1 } } := by
  have hmax : max s.clock.herd (s.clock.herd + 1) = s.clock.herd + 1 := by omega
  simp only [step, h, Clock.advance, hmax]

/-! ### The herd count of an outcome -/

/-- Where `o` answers a next state, its herd count is `n` or more. -/
def HerdFrom (n : Nat) (o : Outcome State Fault Refusal) : Prop := ∀ t, o = .next t → n ≤ t.clock.herd

/-- An action leaves the herd count, with or without the commands that it lets start. -/
theorem herdFrom_act (f : W → W) (s : State) : HerdFrom s.clock.herd (act f s) := fun _ h =>
  Nat.le_of_eq (by rw [(act_next h).1])

theorem herdFrom_actWind (f : W → W) (s : State) : HerdFrom s.clock.herd (actWind f s) := herdFrom_act (fun w => (f w).wind) s

/-- A happening moves the herd count to its own, and never back. -/
theorem herdFrom_actAt (n : Nat) (f : W → W) (s : State) : HerdFrom s.clock.herd (actAt n f s) := fun _ h =>
  (actAt_next h).1 ▸ Nat.le_max_left _ _

theorem herdFrom_actWindAt (n : Nat) (f : W → W) (s : State) : HerdFrom s.clock.herd (actWindAt n f s) :=
  herdFrom_actAt n (fun w => (f w).wind) s

theorem herdFrom_ite {n : Nat} {c : Prop} [Decidable c] {a b : Outcome State Fault Refusal} (ha : HerdFrom n a) (hb : HerdFrom n b) :
    HerdFrom n (if c then a else b) := by
  split
  · exact ha
  · exact hb

/-- A word issues at the herd count of its cycle, or does nothing. -/
theorem herdFrom_runWord (cls : Nat) (ok : Ctx → W → Bool) (f : Ctx → W → W) (p w j : Nat) (s : State) :
    HerdFrom s.clock.herd (runWord cls ok f p w j s) := by
  unfold runWord
  split
  · exact herdFrom_act _ _
  · exact herdFrom_ite (herdFrom_actAt _ _ s) (herdFrom_act _ s)

/-! ### Rows that fall at a herd count of their own -/

theorem herdFrom_execLaunchPoint (h : Nat) (s : State) : HerdFrom s.clock.herd (execLaunchPoint h s) :=
  herdFrom_ite (herdFrom_actWindAt _ _ s) (herdFrom_act _ s)

theorem herdFrom_execStepBoundary (p : Fin 64) (s : State) : HerdFrom s.clock.herd (execStepBoundary p s) := by
  unfold execStepBoundary
  split
  · exact herdFrom_act _ _
  · exact herdFrom_ite (herdFrom_actWindAt _ _ s) (herdFrom_act _ s)

theorem herdFrom_execHoldPoint (p : Fin 64) (s : State) : HerdFrom s.clock.herd (execHoldPoint p s) := by
  unfold execHoldPoint
  split
  · exact herdFrom_act _ _
  · split
    · exact herdFrom_act _ _
    · exact herdFrom_ite (herdFrom_actWindAt _ _ s) (herdFrom_act _ s)

theorem herdFrom_execHoldEnd (p : Fin 64) (s : State) : HerdFrom s.clock.herd (execHoldEnd p s) := by
  unfold execHoldEnd
  split
  · exact herdFrom_act _ _
  · exact herdFrom_ite (herdFrom_actAt _ _ s) (herdFrom_act _ s)

theorem herdFrom_execDeadlineExpiry (p : Fin 64) (s : State) : HerdFrom s.clock.herd (execDeadlineExpiry p s) := by
  unfold execDeadlineExpiry
  split
  · exact herdFrom_act _ _
  · split
    · exact herdFrom_ite (herdFrom_actAt _ _ s) (herdFrom_act _ s)
    · exact herdFrom_act _ _

theorem herdFrom_execLockstepTimeout (p : Fin 64) (s : State) : HerdFrom s.clock.herd (execLockstepTimeout p s) := by
  unfold execLockstepTimeout
  split
  · exact herdFrom_act _ _
  · exact herdFrom_actWindAt _ _ _

theorem herdFrom_execSyncStale (s : State) : HerdFrom s.clock.herd (execSyncStale s) :=
  herdFrom_ite (herdFrom_actAt _ _ s) (herdFrom_act _ s)

/-- A SYNC message loads the count only while stage 0 waits for it. -/
theorem herdFrom_execSyncMessage (count : DWord) (check : Byte) (stop : Bool) (h : Nat) {s : State} (hw : s.dev.syncWaits = false) :
    HerdFrom s.clock.herd (execSyncMessage count check stop h s) := by
  simp only [execSyncMessage, hw, Bool.false_eq_true, if_false]
  exact herdFrom_ite (herdFrom_act _ s) (herdFrom_ite (herdFrom_act _ s) (herdFrom_actAt _ _ s))

/-- The SYNC wait ends without effect once stage 0 no longer waits. -/
theorem herdFrom_execSyncWaitTimeout {s : State} (hw : s.dev.syncWaits = false) : HerdFrom s.clock.herd (execSyncWaitTimeout s) := by
  simp only [execSyncWaitTimeout, hw, Bool.false_eq_true, if_false]
  exact herdFrom_act _ _

/-! ### Every row -/

/-- The two happenings of stage 0 that load or start the herd count (R546). -/
def setsHerd : Instr → Bool
  | .syncMessage .. | .syncWaitTimeout => true
  | _ => false

theorem herdFrom_exec (c : Instr) (s : State) (hs : setsHerd c = true → s.dev.syncWaits = false) : HerdFrom s.clock.herd (exec c s) := by
  unfold exec
  cases c with
  | nop | muster | planLoad | planUnload | batch | cancel | admitRequest | input | pause | resume | paddockForm | paddockTeardown | serveSet
  | tenantSet | lockstepPair | tokenizerLoad | grammarLoad | adapterLoad | adapterUnload | indexCreate | indexUpdate | indexConsolidate
  | indexGeneration | indexDelete | embCreate | embVersion | embMigrate | embDelete | hostWrite | hostRead | peerCopy | commonsMigrate | pageRetire
  | groomRequest | energySet | fwHandover | attest | storageRead | storageWrite | storageDiscard | storageCompletion | subTail | cplHead | strHead
  | evtHead | shedSubTail | compHead | shedQueueReset | queueResetEnd | faultClear | faultInject | musterCtlGo | rcvCtlGo | standbyEnter
  | loReadCapture | halterControlFlit | halterReplayTimeout | halterLinkLost | droveTrain | droveControl | droveReplayTimeout | deadlineReadArrival
  | faultLogCopy | defectListAppend | stackTempReading | stackTrip | railSample | refClkFault | domainWake | domainAwake | domainDeepen
  | mapCheckpoint | garbageCollection | pageProgramComplete | blockEraseComplete | inputPowerApplied | pwrEnRise | orderlyPowerDown | heldEntry
  | resetNLow | resetNRise | stageComplete | halterTrainRetry | statusWord | readVin | readIin | readTemperature1 | readPin | pmbusRevision
  | mfrEnergyBlock | pmbusWrite | alertResponse | bypass | idcode | samplePreload | extest | clamp | highz | inputPowerLost | smbusBusTimeout
  | tapReset => exact herdFrom_act _ s
  | swap | cfgOpen | cfgCommit | cfgAbandon | cfgRefWrite | standbyExit | indirectAccess | registerWrite | halterDataFlit | halterLinkUp
  | droveLinkLost | lockstepDigestReady | lockstepDigestReceived | faultDetection | recoveryEnd | scrubEnd | reformationEnd | cfgSweepEnd
  | pageFillDone | commonsCopyDone | embCopyDone | groomServiceEnd | handoverCoreReturn | tackRewriteDone | codebookCopyDone =>
    exact herdFrom_actWind _ s
  | remapDue | cfgSweepStart | energyWindowEnd | budgetSliceEnd | syncOutSend => exact herdFrom_actAt _ _ s
  | cfgWindowTimeout | epochBoundary | migPeriod => exact herdFrom_actWindAt _ _ s
  | planNop | pass | vec | pack | select8 | select | compact | move | bayTable | bayHamming | bayFetch | bayHop | bayQueueOut | lookup | update
  | bayDecode | merge | tokenize | detokenize | mask | shedRead | barnRead | barnWrite | droveSend | droveRecv | hostOut | random | repeatWord =>
    exact herdFrom_runWord _ _ _ _ _ _ s
  | launchPoint h => exact herdFrom_execLaunchPoint h s
  | stepBoundary p => exact herdFrom_execStepBoundary p s
  | holdPoint p => exact herdFrom_execHoldPoint p s
  | holdEnd p => exact herdFrom_execHoldEnd p s
  | deadlineExpiry p => exact herdFrom_execDeadlineExpiry p s
  | lockstepTimeout p => exact herdFrom_execLockstepTimeout p s
  | syncStale => exact herdFrom_execSyncStale s
  | syncMessage count check stop h => exact herdFrom_execSyncMessage count check stop h (hs rfl)
  | syncWaitTimeout => exact herdFrom_execSyncWaitTimeout (hs rfl)

/-- Settles O1: both cases are the definition of a step. -/
theorem stepRunsFrontCommand : Obligations.StepRunsFrontCommand :=
  ⟨fun _ _ _ h => step_of_cons h, fun _ h => step_of_nil h⟩

/-- Settles O6, by what each row does to the clock: an action keeps it, a happening or a word takes the maximum with its own herd count, and the two
rows that set it do so only while stage 0 waits. -/
theorem herdNeverSetBack : Obligations.HerdNeverSetBack := by
  intro s t ht hmessage htimeout
  cases hq : s.pending with
  | nil =>
    rw [step_of_nil hq, Outcome.next.injEq] at ht
    exact ht ▸ Nat.le_succ _
  | cons c rest =>
    rw [step_of_cons hq] at ht
    refine herdFrom_exec c { s with pending := rest } (fun hc => ?_) t ht
    cases c with
    | syncMessage count check stop h => exact hmessage count check stop h rest hq
    | syncWaitTimeout => exact htimeout rest hq
    | _ => exact absurd hc Bool.false_ne_true

end Sys2Proof.Machine
end

section
/-! SUPPORT. Plans that load and unload, and lock-step pairings that a ring's command makes and ends (R48, R49, R81). -/

namespace Sys2Proof.Machine

open Host

/-- An accepted ring entry runs its operation on the record in which it begins. -/
theorem act_fetch_accepts {op : Nat} {e : Entry} {s : State} (h : Accepts op e s) :
    act (W.fetch op e) s = .next (((begun s op e).operation e.ring.val (order s op e)).leave s) := by
  rw [act_eq, fetch_accepts h]

/-! ### PLAN_LOAD and PLAN_UNLOAD -/

/-- What the load of plan `x` leaves, once its allocations are made in device `d`: the plan stands in the place of one of its PLAN_ID, its constants in
the loft, and allocations that no plan names any more are freed (R48, R49). -/
def W.withPlan (p : Nat) (q : Paddock) (x : Plan) (d : Dev) (w : W) : W :=
  (((({ w with dev := d }).pad p fun q => { q with plans := q.plans.filter (fun (y : Plan) => y.planId ≠ x.planId) ++ [x] }).placeConstants
    q x).dropUnplanned p).freeAllocs

theorem doPlanLoad_done {w : W} {r : Nat} {o : Outstanding} {q : Paddock} {d : Dev} (hq : w.dev.pad? (o.field 32 1) = some q) (ht : q.state ≠ .tearing)
    (hc : LoadEnv.check { dev := w.dev, p := o.field 32 1, pad := q } (w.payload o) = none)
    (he : w.dev.planElsewhere (o.field 32 1) (parsePlan (w.payload o)).planId = false)
    (hf : w.dev.plansFull q (parsePlan (w.payload o)).planId = false)
    (hr : (w.dev.shed.readOnly && (parsePlan (w.payload o)).stagesShed) = false)
    (ha : w.dev.makeAllocs (o.field 32 1) (parsePlan (w.payload o)).residency = .ok d) :
    doPlanLoad w r o = (w.withPlan (o.field 32 1) q (parsePlan (w.payload o)) d).complete r o.index .done := by
  simp only [doPlanLoad, hq, if_neg ht, hc, he, hf, hr, ha, Bool.false_eq_true, if_false]
  rfl

theorem doPlanUnload_done {w : W} {r : Nat} {o : Outstanding} {q : Paddock} (hq : w.dev.pad? (o.field 32 1) = some q)
    (hp : q.plans.any (·.planId = o.field 40 8) = true) :
    doPlanUnload w r o = (w.unloadPlans (o.field 32 1) fun x => x.planId = o.field 40 8).complete r o.index .done := by
  simp only [doPlanUnload, hq, hp, Bool.not_true, Bool.false_eq_true, if_false]

/-- Settles O13: with every check passed, the two commands reach their last branch. -/
theorem plansLoadAndUnload : Obligations.PlansLoadAndUnload := by
  refine ⟨?_, ?_⟩
  · intro e s q d h w o p x hq ht hc he hf hr ha
    refine (act_fetch_accepts h).trans (congrArg (fun w' => Outcome.next (W.leave s w')) ?_)
    exact doPlanLoad_done hq ht hc he hf hr ha
  · intro e s q h w o hq hp
    refine (act_fetch_accepts h).trans (congrArg (fun w' => Outcome.next (W.leave s w')) ?_)
    exact doPlanUnload_done hq hp

/-! ### LOCKSTEP_PAIR -/

theorem doLockstepPair_off {w : W} {r : Nat} {o : Outstanding} {q : Paddock} (hq : w.dev.pad? (o.field 32 1) = some q)
    (hl : w.dev.boot.part.lockstep = true) (hm : o.field 34 1 = 0) :
    doLockstepPair w r o = (w.lockOff (o.field 32 1) q).complete r o.index .done := by
  simp [doLockstepPair, hq, hl, hm]

theorem doLockstepPair_on {w : W} {r : Nat} {o : Outstanding} {q : Paddock} (hq : w.dev.pad? (o.field 32 1) = some q)
    (hl : w.dev.boot.part.lockstep = true) (hm : o.field 34 1 = 1 ∨ o.field 34 1 = 2) (ht : q.state ≠ .tearing)
    (hp : o.field 33 1 < w.dev.boot.part.ports) (hu : (w.dev.port (o.field 33 1)).isUp = true) :
    doLockstepPair w r o = ((w.lockOff (o.field 32 1) q).pad (o.field 32 1) fun q =>
      { q with lockstep := some { port := o.field 33 1, gate := o.field 34 1 = 2, own := [], peer := [] } }).complete r o.index .done := by
  have hmode : ¬ 2 < o.field 34 1 ∧ o.field 34 1 ≠ 0 := by omega
  simp [doLockstepPair, hq, hl, hmode, ht, Nat.not_le.mpr hp, hu]

/-- Settles O20: OFF and the two pairing modes each reach their branch of the command. -/
theorem lockstepPairs : Obligations.LockstepPairs := by
  intro e s q h w o p port hq hl
  refine ⟨fun hm => ?_, fun hm ht hp hu => ?_⟩
  · refine (act_fetch_accepts h).trans (congrArg (fun w' => Outcome.next (W.leave s w')) ?_)
    exact doLockstepPair_off hq hl hm
  · refine (act_fetch_accepts h).trans (congrArg (fun w' => Outcome.next (W.leave s w')) ?_)
    exact doLockstepPair_on hq hl hm ht hp hu

end Sys2Proof.Machine
end

section
/-! SUPPORT. Happenings of a module at work, launch points, and the words of a running step (R43, R51, R57 to R62). -/

namespace Sys2Proof.Machine

open Host

/-! ### A module at work -/

/-- Of a module at work a happening has its effect. -/
theorem W.working_atWork {s : State} (h : AtWork s) (f : W → W) : W.working f (W.of s) = f (W.of s) := by
  have hc : s.dev.boot.phase.collects = true := h
  simp [W.working, W.when, hc]

theorem act_working {s : State} (h : AtWork s) (f : W → W) : act (W.working f) s = ends s (f (W.of s)) := by
  rw [act_eq, W.working_atWork h]
  rfl

theorem actWind_working {s : State} (h : AtWork s) (f : W → W) : actWind (W.working f) s = winds s (f (W.of s)) := by
  rw [actWind, act_eq, W.working_atWork h]
  rfl

theorem actWindAt_working {s : State} (n : Nat) (h : AtWork s) (f : W → W) :
    actWindAt n (W.working f) s = winds (atHerd s n) (f (W.of (atHerd s n))) :=
  actWind_working (s := atHerd s n) h f

theorem liveStep_atWork {s : State} (h : AtWork s) (p : Nat) : s.dev.liveStep? p = s.dev.step? p := by
  have hc : s.dev.boot.phase.collects = true := h
  simp [Dev.liveStep?, hc]

/-! ### Launch points -/

/-- Settles O42: the launch point is the composition that the statement writes out, behind a guard on its herd count. -/
theorem launchPointsAct : Obligations.LaunchPointsAct := by
  intro h s hs
  refine ⟨fun hmul hle => ?_, fun hno => ?_⟩
  · have hgo : (isLaunchPoint h && decide (s.clock.herd ≤ h)) = true := by simp [isLaunchPoint, hmul, hle]
    refine Eq.trans (if_pos hgo) ?_
    exact actWindAt_working h hs (W.launchPoint h)
  · have hstop : ¬ (isLaunchPoint h && decide (s.clock.herd ≤ h)) = true := by
      simp only [isLaunchPoint, Bool.and_eq_true, decide_eq_true_eq]
      omega
    exact (if_neg hstop).trans (idle_eq s)

/-! ### The issue of a word -/

/-- Each row of the plan words runs its class, its condition and its effect. -/
theorem exec_wordRow {k : WordRow} (hk : k ∈ wordRows) (p : Fin 64) (w j : Nat) (s : State) :
    exec (k.command p w j) s = runWord k.cls k.fits k.effect p.val w j s := by
  fin_cases hk <;> rfl

/-- A row whose word is due issues it at its herd count. -/
theorem runWord_due {cls : Nat} {ok : Ctx → W → Bool} (f : Ctx → W → W) {p w j : Nat} {c : Ctx} {s : State} (hd : Due p w j c s)
    (hc : c.word.cls = cls) (hok : ok c (W.of s) = true) :
    runWord cls ok f p w j s = ends (atHerd s (c.step.herdAt c.slot)) (W.issue c f (W.of (atHerd s (c.step.herdAt c.slot)))) := by
  have hw : s.dev.boot.phase.collects = true := hd.atWork
  simp only [runWord, hd.issue, hw, hc, hok, Bool.and_self, decide_true, if_true]
  rfl

/-- A word that its step still comes to breaches it, or has its effect. -/
theorem W.issue_reached {c c' : Ctx} {w ready : W} {lost : Bool} (h : (w.atWord c).dev.issue? c.p c.w c.rep = some c')
    (hp : (w.atWord c).losesPair c' = (lost, ready)) (f : Ctx → W → W) :
    w.issue c f =
      if lost || c'.breaches ready.dev then (ready.step c'.p fun x => { x with breached := true }).noteBreach c'.p c'.w
      else (((f c' (c'.countPages ready)).clashes c').underWay c').wordDone c' (c'.countPages ready) := by
  simp only [W.issue, h, hp]

/-- Settles O44: every row runs its word by `runWord`, and a word that is reached breaches or has its effect. -/
theorem planWordsIssue : Obligations.PlanWordsIssue := by
  intro k hk p w j c c' s hd hc hok t left hreached
  have hrun : exec (k.command p w j) s = ends t ((W.of t).issue c k.effect) := (exec_wordRow hk p w j s).trans (runWord_due k.effect hd hc hok)
  split
  next lost ready hp =>
    rw [hrun, W.issue_reached hreached hp]
    refine ⟨fun hlost hbreach => ?_, fun h => ?_⟩
    · simp only [hlost, hbreach, Bool.or_self, Bool.false_eq_true, if_false]
    · rw [if_pos (by simpa using h)]

end Sys2Proof.Machine
end

section
/-! SUPPORT. Changes beside the rings and the serving record: writes into memory with what follows from them, bytes that a step is left, and the wakes of
domains. Each keeps the state in which its command began, and so its herd count. -/

namespace Sys2Proof.Machine

open Host

/-- `w'` comes from `w` by changes beside its rings, its serving record and the state in which its command began. -/
structure W.Beside (w w' : W) : Prop where
  st : w'.st = w.st
  rings : w'.dev.rings = w.dev.rings
  serve : w'.dev.serve = w.dev.serve

namespace W.Beside

theorem refl (w : W) : Beside w w := ⟨rfl, rfl, rfl⟩

theorem trans {a b c : W} (h : Beside a b) (k : Beside b c) : Beside a c := ⟨k.st.trans h.st, k.rings.trans h.rings, k.serve.trans h.serve⟩

/-- A loop whose every turn is beside the rings is so as a whole. -/
theorem each {f : α → W → W} (hf : ∀ x w, Beside w (f x w)) (l : List α) (w : W) : Beside w (W.each l f w) := by
  induction l generalizing w with
  | nil => exact refl w
  | cons x r ih => exact (hf x w).trans (ih (f x w))

/-- Either branch of a choice. -/
theorem ite {c : Prop} [Decidable c] {w a b : W} (ha : Beside w a) (hb : Beside w b) : Beside w (if c then a else b) := by
  split
  · exact ha
  · exact hb

theorem herd {w w' : W} (h : Beside w w') : w'.herd = w.herd := by rw [W.herd, h.st]; rfl

/-! ### Records changed in place -/

theorem tiers (f : Tiers → Tiers) (w : W) : Beside w (w.tiers f) := ⟨rfl, rfl, rfl⟩
theorem shed (f : Shed → Shed) (w : W) : Beside w (w.shed f) := ⟨rfl, rfl, rfl⟩
theorem port (p : Nat) (f : Link → Link) (w : W) : Beside w (w.port p f) := ⟨rfl, rfl, rfl⟩
theorem pad (p : Nat) (f : Paddock → Paddock) (w : W) : Beside w (w.pad p f) := ⟨W.pad_st p f w, W.pad_rings p f w, W.pad_serve p f w⟩
theorem step (p : Nat) (f : Step → Step) (w : W) : Beside w (w.step p f) := pad p _ w
theorem countForeign (n : Nat) (w : W) : Beside w (countForeign n w) := ⟨rfl, rfl, rfl⟩
theorem freeBytes (n : Nat) (w : W) : Beside w (w.freeBytes n).2 := ⟨rfl, rfl, rfl⟩

/-! ### Writes into memory -/

theorem poke (k : Nat) (b : Byte) (w : W) : Beside w (w.poke k b) := ⟨rfl, rfl, rfl⟩

theorem pokeAll (ws : List Cell) (w : W) : Beside w (pokeAll ws w) := by
  show Beside w (W.each ws (fun x w => w.poke x.1 x.2) w)
  exact each (fun x w => poke x.1 x.2 w) ws w

theorem keepReads (n g : Nat) (w : W) : Beside w (w.keepReads n g) := by
  unfold W.keepReads
  exact ite (shed _ w) (refl w)

theorem bufferAs (n : Nat) (gs : List Nat) (discard : Bool) (w : W) : Beside w (w.bufferAs n gs discard) := by
  unfold W.bufferAs
  exact ite (refl w) ((shed _ w).trans (each (keepReads n) gs _))

theorem buffer (gs : List Nat) (w : W) : Beside w (w.buffer gs) := by
  unfold W.buffer
  exact ite (refl w) ((bufferAs _ gs false w).trans (shed _ _))

theorem wrote (ws : List Cell) (w : W) : Beside w (w.wrote ws) := by
  have marked : Beside w (if w.dev.tiers.badGranules.isEmpty then w
      else w.tiers fun t => { t with badGranules := t.badGranules.filter fun g => !ws.any fun x => decide (x.1 / 64 * 64 = g) }) :=
    ite (refl w) (tiers _ w)
  unfold W.wrote
  exact ite marked (marked.trans (tiers _ _))

theorem store (ws : List Cell) (w : W) : Beside w (w.store ws) :=
  ((buffer (shedGranules ws) w).trans (pokeAll ws _)).trans (wrote ws _)

theorem commonsPokes (a : Nat) (b : Bytes) (w : W) : Beside w (w.commonsPokes a b) := store _ w

/-! ### Bytes that a step is left -/

theorem captureReads (p : Nat) (ws : List Cell) (w : W) : Beside w (w.captureReads p ws) := by
  unfold W.captureReads
  split
  · exact refl w
  · exact ite (refl w) (step p _ w)

theorem leaveBytes (p : Nat) (stage : Bool) (ws : List Cell) (w : W) : Beside w (w.leaveBytes p stage ws) := by
  have filled := (captureReads p ws w).trans (step p (Step.filled (runs ws)) _)
  unfold W.leaveBytes
  exact ite (filled.trans (step p _ _)) (filled.trans (store ws _))

theorem spoil (p : Nat) (rs : List (Nat × Nat)) (w : W) : Beside w (w.spoil p rs) := by
  refine each (fun r w => ?_) rs w
  exact ((freeBytes r.2 w).trans (leaveBytes p true _ _)).trans (leaveBytes p false _ _)

theorem landClash (p : Nat) (ws : List Cell) (w : W) : Beside w (w.landClash p ws) := by
  unfold W.landClash
  split
  · exact refl w
  · exact ite (refl w) (spoil p _ w)

theorem land (p : Nat) (x : Posted) (ws : List Cell) (w : W) : Beside w (w.land p x ws) := by
  have left := (leaveBytes p x.stage ws w).trans (landClash p ws _)
  unfold W.land
  split
  · exact countForeign _ w
  · exact ite (refl w) (ite left (left.trans (step p _ _)))

/-! ### Wakes of domains -/

theorem domain (n : Nat) (f : Domain → Domain) (w : W) : Beside w (w.domain n f) := by
  unfold W.domain
  exact ite (refl w) ⟨rfl, rfl, rfl⟩

theorem when {f : W → W} (hf : ∀ w, Beside w (f w)) (c : Bool) (w : W) : Beside w (w.when c f) := by
  unfold W.when
  exact ite (hf w) (refl w)

theorem wake (n : Nat) (w : W) : Beside w (w.wake n) := by
  unfold W.wake
  dsimp only
  split
  · exact refl w
  · split
    · exact (domain n _ w).trans (when (port _ _) _ _)
    · exact domain n _ w

theorem wakePad (p : Nat) (w : W) : Beside w (w.wakePad p) := by
  unfold W.wakePad
  split
  · exact ite (refl w) (each wake _ w)
  · exact refl w

end W.Beside

end Sys2Proof.Machine
end

section
/-! SUPPORT. The course of a running step: its boundary, its holds, its deadlines and what arrives for it (R58, R63 to R66, R443, R477). -/

namespace Sys2Proof.Machine

open Host

/-! ### Boundary, holds and deadlines -/

section
variable {p : Fin 64} {x : Step} {s : State} (hs : AtWork s) (hx : s.dev.step? p.val = some x)
include hs hx

theorem liveStep_of_step : s.dev.liveStep? p.val = some x := by rw [liveStep_atWork hs, hx]

theorem execStepBoundary_comes (hc : x.comesTo x.plan.length = true) :
    execStepBoundary p s = winds (atHerd s (x.herdAt x.plan.length)) ((W.of (atHerd s (x.herdAt x.plan.length))).boundary p.val) := by
  simp only [execStepBoundary, liveStep_of_step hs hx, hc, if_true]
  rfl

theorem execHoldPoint_comes {c : Nat} (hn : x.nextHold = some c) (hh : x.held = none) (hu : x.upTo c = true) :
    execHoldPoint p s = winds (atHerd s (x.herdAt c)) ((W.of (atHerd s (x.herdAt c))).holdPoint p.val c) := by
  simp only [execHoldPoint, liveStep_of_step hs hx, hn, hh, hu, Option.isNone_none, Bool.and_self, if_true]
  rfl

theorem execHoldEnd_resumes (hm : x.mayResume s.dev.power.thrLevel = true) :
    execHoldEnd p s =
      let t := atHerd s (x.launch + ticksOfCycles (x.cycle + 256 * (x.holdFrames + x.frames s.clock.herd)))
      ends t ((W.of t).step p.val fun y => { y with held := none, holdFrames := y.holdFrames + x.frames s.clock.herd }) := by
  simp only [execHoldEnd, liveStep_of_step hs hx, hm, if_true]
  rfl

theorem execDeadlineExpiry_comes {c : Nat} (hn : x.nextDeadline = some c) (hc : x.comesTo c = true) :
    execDeadlineExpiry p s = ends (atHerd s (x.herdAt c)) (((W.of (atHerd s (x.herdAt c))).comeTo p.val c).settleReads p.val) := by
  simp only [execDeadlineExpiry, liveStep_of_step hs hx, hn, hc, if_true]
  rfl

end

/-! ### Arrivals -/

/-- The bytes of granule `g` lie where posting `y` copies them, and the step knows the copy. -/
def W.landCopy (p : Nat) (y : Posted) (g : Bytes) (w : W) : W :=
  let at_ := match y.dst with | some k => [(y.desc, y.rep, y.src, k + 64 - y.skip)] | none => []
  (w.land p y (y.cells g)).step p fun z => { z with landed := at_ ++ z.landed }

/-- What a granule that has landed leads to is posted (R197). -/
def W.chained (p : Nat) (w : W) : W :=
  w.step p fun z => chainArrivals (z.cycleNow w.herd) w.herd (fun k m => (List.range m).map fun i => z.peek w (k + i)) z

theorem W.landCopy_herd (p : Nat) (y : Posted) (g : Bytes) (w : W) : (w.landCopy p y g).herd = w.herd :=
  ((W.Beside.land p y (y.cells g) w).trans (W.Beside.step p _ _)).herd

/-- What posting `y` of the running step `x` does when its granule arrives with check `check`: a write is done with, a good granule lands, and a bad one
is missed and recorded. -/
def W.arrived (p check : Nat) (x : Step) (y : Posted) (w : W) : W :=
  let g := y.granule fun k => x.peek w k
  let bad := w.dev.granuleBad y.src || x.oldBad.contains (y.src / 64 * 64)
  let v := w.step p fun z => { z with posted := dropPosted y z.posted }
  if y.isWrite then v
  else if granuleGood bad check g then (v.landCopy p y g).chained p
  else (v.step p fun z => { z with missed := (y.desc, y.rep, y.src) :: z.missed }).arrivalFailed [p] y.src y.dst (granuleInverted bad check g)

theorem W.arrived_good {p check : Nat} {x : Step} {y : Posted} {w : W} (hr : ¬ y.isWrite = true)
    (hg : granuleGood (w.dev.granuleBad y.src || x.oldBad.contains (y.src / 64 * 64)) check (y.granule fun k => x.peek w k) = true) :
    w.arrived p check x y =
      ((w.step p fun z => { z with posted := dropPosted y z.posted }).landCopy p y (y.granule fun k => x.peek w k)).chained p :=
  (if_neg hr).trans (if_pos hg)

theorem W.arrived_bad {p check : Nat} {x : Step} {y : Posted} {w : W} (hr : ¬ y.isWrite = true)
    (hg : granuleGood (w.dev.granuleBad y.src || x.oldBad.contains (y.src / 64 * 64)) check (y.granule fun k => x.peek w k) = false) :
    w.arrived p check x y =
      ((w.step p fun z => { z with posted := dropPosted y z.posted }).step p fun z => { z with missed := (y.desc, y.rep, y.src) :: z.missed }).arrivalFailed
        [p] y.src y.dst (granuleInverted (w.dev.granuleBad y.src || x.oldBad.contains (y.src / 64 * 64)) check (y.granule fun k => x.peek w k)) :=
  (if_neg hr).trans (if_neg (by rw [hg]; exact Bool.false_ne_true))

/-- The channel and the medium of posting `y`, in place `n` of those of step `x`, can serve it now (R347, R376). -/
def W.serves (x : Step) (n : Nat) (y : Posted) (w : W) : Bool :=
  w.dev.served x.posted n y && w.dev.sensed (x.landed.map (·.2.2.1)) w.herd y

theorem W.arrive_served {p n check : Nat} {x : Step} {y : Posted} {w : W} (hx : w.dev.step? p = some x) (hy : x.posted[n]? = some y)
    (hs : w.serves x n y = true) : w.arrive p n check = w.arrived p check x y := by
  obtain ⟨q, hq, hqx⟩ := Option.bind_eq_some_iff.mp hx
  obtain ⟨hserved, hsensed⟩ := Bool.and_eq_true_iff.mp hs
  simp only [W.arrive, hq, hqx, hy, hserved, hsensed, Bool.not_true, Bool.or_self, Bool.false_eq_true, if_false, W.arrived]
  rfl

theorem W.arrive_unserved {p n : Nat} {x : Step} {y : Posted} {w : W} (hx : w.dev.step? p = some x) (hy : x.posted[n]? = some y)
    (hs : w.serves x n y = false) (check : Nat) : w.arrive p n check = w := by
  obtain ⟨q, hq, hqx⟩ := Option.bind_eq_some_iff.mp hx
  have hwait : (!w.dev.served x.posted n y || !w.dev.sensed (x.landed.map (·.2.2.1)) w.herd y) = true := by
    rw [← Bool.not_and]
    exact congrArg not hs
  simp only [W.arrive, hq, hqx, hy, hwait, if_true]

/-- Settles O45: each happening of a running step by the equation of its row; an arrival by whether it is served, and by what arrives. -/
theorem stepsRunTheirCourse : Obligations.StepsRunTheirCourse := by
  intro p x s hs hx
  refine ⟨execStepBoundary_comes hs hx, fun _ => execHoldPoint_comes hs hx, execHoldEnd_resumes hs hx, fun _ => execDeadlineExpiry_comes hs hx, ?_⟩
  intro n check y hy g bad w ok
  have hrow : exec (.deadlineReadArrival p n check) s = ends s ((W.of s).arrive p.val n check.toNat) := act_working hs _
  have hserves : ok = (W.of s).serves x n y := rfl
  have herd : (w.landCopy p.val y g).herd = s.clock.herd := (W.landCopy_herd ..).trans (W.Beside.step p.val _ (W.of s)).herd
  rw [hrow, hserves]
  refine ⟨fun hno => ?_, fun hok hwrite => ?_, fun hok hread hgood => ?_, fun hok hread hbad => ?_⟩
  · rw [W.arrive_unserved hx hy hno]
  · rw [W.arrive_served hx hy hok, W.arrived, if_pos hwrite]
  · rw [W.arrive_served hx hy hok, W.arrived_good (by simp [hread]) hgood, W.chained, herd]
    rfl
  · rw [W.arrive_served hx hy hok, W.arrived_bad (by simp [hread]) hbad]
    rfl

end Sys2Proof.Machine
end

section
/-! SUPPORT. Lock-step digests, and attempts that fail (R65, R66, R80, R81). -/

namespace Sys2Proof.Machine

open Host

/-! ### Lock-step digests -/

theorem W.lockReady_formed {p : Nat} {q : Paddock} {l : Lockstep} {own : Nat × Nat × Nat × Bool} {w : W} (hq : w.dev.pad? p = some q)
    (hl : q.lockstep = some l) (ho : l.own.find? (fun x => !x.2.2.2) = some own) :
    w.lockReady p =
      ((w.sendTrain l.port (mkEntry oLockstep p)
        { kind := 3, paddock := p, flags := 0, channel := 0, launch := own.1, offset := own.2.1, data := [] }).pad p fun q =>
        { q with lockstep := some { l with own := l.own.map fun x => if x = own then (x.1, x.2.1, x.2.2.1, true) else x } }).lockCompare p := by
  simp only [W.lockReady, hq, Option.bind_some, hl, ho]

theorem W.lockReceived_paired {port p launch digest : Nat} {l : Lockstep} {w : W} (hl : (w.dev.pad? p).bind (·.lockstep) = some l) (hp : l.port = port) :
    w.lockReceived port p launch digest =
      (w.pad p fun q => { q with lockstep := some { l with peer := l.peer ++ [(launch, digest)] } }).lockCompare p := by
  simp only [W.lockReceived, hl, if_pos hp]

/-- A good train in its order has its effect, once its head is taken in (R403). -/
theorem W.droveOrdered_good {kind port : Nat} {h : DroveHead} {data : List Bytes} {w : W} (hc : w.dev.boot.phase.collects = true)
    (hu : (w.dev.port port).state = 2) (hh : droveHeadGood kind h = true) (ht : trainGood h data = true)
    (hs : h.seq.toNat = ((w.dev.port port).rxLast + 1) % 2 ^ 32) (f : W → W) :
    w.droveOrdered kind port h data f =
      f ((w.droveHead port h).port port fun l => { l with rxLast := h.seq.toNat, discarding := false, freed := l.freed + 1 + data.length }) := by
  have hgo : ¬ ((decide ((w.dev.port port).state ≠ 2) || !w.dev.boot.phase.collects) = true) := by simp [hu, hc]
  simp only [W.droveOrdered, if_neg hgo, hh, ht, ← hs, ne_eq, not_true, Bool.not_true, Bool.false_eq_true, if_false]

theorem W.lockTimeout_paired {p : Nat} {q : Paddock} {l : Lockstep} {w : W} (hq : w.dev.pad? p = some q) (hl : q.lockstep = some l)
    (own : Nat × Nat × Nat × Bool) :
    w.lockTimeout p own = (w.pad p fun q => { q with gated := none, lockstep := some (l.drop own.1) }).lockFailed p q caLockTimeout l.port own.2.1 := by
  simp only [W.lockTimeout, hq, hl]

/-- Settles O41: a paired paddock sends its digest, takes the peer's, or fails the oldest comparison at its timeout. -/
theorem lockstepDigestsAct : Obligations.LockstepDigestsAct := by
  refine ⟨?_, ?_, ?_⟩
  · intro p q l own s hs hq hl ho t sent w
    refine (actWind_working hs (W.lockReady p.val)).trans (congrArg (winds s) ?_)
    exact W.lockReady_formed (w := W.of s) hq hl ho
  · intro port h data l s hs hu hh ht hseq w p hl hp got
    refine (actWind_working hs (W.droveDigest port.val h data)).trans (congrArg (winds s) ?_)
    exact (W.droveOrdered_good (w := W.of s) hs hu hh ht hseq _).trans (W.lockReceived_paired hl hp)
  · intro p q l own rest s hs hq hl ho t w
    have hown : ((s.dev.pad? p.val).bind (·.lockstep)).bind (fun l => l.own.head?) = some own := by simp [hq, hl, ho]
    have hrow : exec (.lockstepTimeout p) s = actWindAt (own.2.2.1 + lockWait) (W.working (W.lockTimeout p.val own)) s := by
      show execLockstepTimeout p s = _
      simp only [execLockstepTimeout, hown]
    refine (hrow.trans (actWindAt_working _ hs _)).trans (congrArg (winds t) ?_)
    exact W.lockTimeout_paired (w := W.of t) hq hl own

/-! ### Attempts that fail -/

theorem W.undoUpdates_none {x : Step} (h : x.undo = []) (w : W) : w.undoUpdates x = w := by
  rw [W.undoUpdates, h]
  rfl

/-- No stall or stable waits to be fenced, so no re-formation begins. -/
theorem W.beginReforms_none {w : W} (h : w.dev.faults.toFence = []) : w.beginReforms = w := by
  rw [W.beginReforms, h]
  rfl

theorem W.finishRecoveries_none {w : W} (h : w.dev.faults.recovering = none) (n : Nat) : w.finishRecoveries n = w := by
  cases n with
  | zero => rfl
  | succ n => simp only [W.finishRecoveries, h]

/-- An attempt below the third of a step that nothing cancels waits in its paddock to be launched again. -/
theorem W.failAttempt_replays {p : Nat} {q : Paddock} {x : Step} {w : W} (hq : w.dev.pad? p = some q) (ht : q.teardown = none) (hc : x.cancel = [])
    (ha : x.attempt < 3) (hf : w.dev.faults.toFence = []) (hr : w.dev.faults.recovering = none) (hu : x.undo = []) :
    w.failAttempt p x = (w.dropHostOut p).pad p fun q' => { q' with replay := some { x.again with last := stepRecord w.dev.S q x } } := by
  have hlow : ¬ 3 ≤ x.attempt := Nat.not_le.mpr ha
  simp only [W.failAttempt, hq, W.undoUpdates_none hu, hc, ht, List.any_nil, Bool.false_eq_true, if_false, hlow, decide_false]
  rw [W.beginReforms_none, W.finishRecoveries_none]
  · rfl
  · rw [W.pad_faults]; exact hr
  · rw [W.pad_faults]; exact hf

/-- Settles O46: the replay is the step begun again, with the record of the attempt that failed. -/
theorem failedAttemptsAreReplayed : Obligations.FailedAttemptsAreReplayed := by
  intro p q x w hq ht hc ha _ hf hr hu
  exact ⟨_, W.failAttempt_replays hq ht hc ha hf hr hu, rfl, rfl, rfl, rfl, rfl⟩

end Sys2Proof.Machine
end

section
/-! SUPPORT. The admission of a request (R77, R281, R431): what it adds to the serving record, and what stands in the rings after its completion. -/

namespace Sys2Proof.Machine

open Host

/-! ### What a completion leaves -/

theorem W.deliver_out (r : Nat) (c : Completion) (w : W) : ((w.deliver r c).dev.ring r).out = (w.dev.ring r).out := by
  have sent (cls key : Nat) (tx : Bytes) (v : W) : (v.sendTx cls key tx).dev.rings = v.dev.rings := by rw [(W.sendTx_frame cls key tx v).1]
  have written (cls key a : Nat) (b : Bytes) (v : W) : (v.writeHost cls key a b).dev.rings = v.dev.rings := by
    rw [(W.writeHost_frame cls key a b v).1]
  simp only [W.deliver, W.message, Dev.ring, sent, W.ring, tget_tput_same, written]

theorem W.post_out (r : Nat) (c : Completion) (w : W) : ((w.post r c).dev.ring r).out = (w.dev.ring r).out := by
  unfold W.post
  split
  · exact W.deliver_out r c w
  · rw [W.ring_ring_self]

/-- The command that completes is outstanding no more. -/
theorem W.complete_out (r i : Nat) (st : Status) (v : Nat) (b : Bytes) (w : W) :
    ((w.complete r i st v b).dev.ring r).out = (w.dev.ring r).out.filter (·.index ≠ i) := by
  cases ho : w.dev.outstanding? r i with
  | none =>
    have keeps : ∀ o ∈ (w.dev.ring r).out, decide (o.index ≠ i) = true := by
      simpa [Dev.outstanding?] using ho
    simp only [W.complete, ho]
    exact (List.filter_eq_self.mpr keeps).symm
  | some o => rw [complete_of_outstanding ho, W.post_out, W.ring_ring_self]

theorem W.complete_serve (r i : Nat) (st : Status) (v : Nat) (b : Bytes) (w : W) : (w.complete r i st v b).dev.serve = w.dev.serve := by
  cases ho : w.dev.outstanding? r i with
  | none => simp only [W.complete, ho]
  | some o => rw [complete_of_outstanding ho, W.post_dev]; rfl

/-! ### Requests -/

/-- `q'` is request `q` as it was admitted, whatever has become of it since. -/
structure Request.SameAdmission (q q' : Request) : Prop where
  number : q'.number = q.number
  admitted : q'.admitted = q.admitted
  seed : q'.seed = q.seed
  tenant : q'.tenant = q.tenant
  paddock : q'.paddock = q.paddock

namespace W.Beside

theorem tokenArea (r : Request) (pos : Nat) (toks : List Nat) (w : W) : Beside w (w.tokenArea r pos toks) := by
  unfold W.tokenArea
  split
  · exact commonsPokes _ _ w
  · exact refl w

theorem writeKvTable (r : Request) (w : W) : Beside w (w.writeKvTable r) := by
  unfold W.writeKvTable
  split
  · exact commonsPokes _ _ w
  · exact refl w

end W.Beside

theorem W.inputDone_rings (n : Nat) (toks : List Nat) (w : W) : (w.inputDone n toks).dev.rings = w.dev.rings := by
  unfold W.inputDone
  split
  · rfl
  · exact (W.Beside.tokenArea ..).rings

/-- The end of a request's input keeps every request. -/
theorem W.inputDone_keeps {q : Request} {w : W} (hq : q ∈ w.dev.serve.requests) (n : Nat) (toks : List Nat) :
    ∃ q' ∈ (w.inputDone n toks).dev.serve.requests, q.SameAdmission q' := by
  unfold W.inputDone
  split
  · exact ⟨q, hq, rfl, rfl, rfl, rfl, rfl⟩
  · simp only [W.request, W.serve_serve, (W.Beside.tokenArea ..).serve]
    refine ⟨_, List.mem_map_of_mem hq, ?_⟩
    split <;> exact ⟨rfl, rfl, rfl, rfl, rfl⟩

/-! ### ADMIT -/

/-- The seed of an admitted request: that of its descriptor, or for 0 one of the entropy source (R77). -/
def admitSeed (d : Dev) (b : Bytes) : Nat := if fld b 16 8 = 0 then (Config.entropy d.fresh).toNat else fld b 16 8

/-- The request that descriptor `b` makes now on ring `r`. -/
def W.requestOf (r : Nat) (b : Bytes) (w : W) : Request := w.dev.newRequest r w.herd (admitSeed w.dev b) b

/-- Request `q` joins the live ones, with a context of its grammar and its KV block table. -/
def W.join (q : Request) (w : W) : W :=
  let start := match w.dev.serve.currentGrammar q.grammarId with | some g => gramStart g.image | none => 0
  (w.fresh.2.serve fun v => { v with
    requests := v.requests ++ [q]
    contexts := match q.context with
      | some c => tput c { grammarId := q.grammarId, version := q.grammarVer, state := start, stack := [] } v.contexts
      | none => v.contexts }).writeKvTable q

/-- The input that descriptor `b` names in the commons is complete at once, where it names one (R431). -/
def W.givenInput (q : Request) (b : Bytes) (w : W) : W :=
  if (fld b 3 1).testBit 0 then
    w.inputDone q.number ((List.range (ofLe (w.commonsPeeks (fld b 92 8) 4))).map fun i => ofLe (w.commonsPeeks (fld b 92 8 + 64 + 4 * i) 4))
  else w

/-- Drawing a free value changes nothing that a request is made from. -/
theorem newRequest_fresh (r herd seed : Nat) (b : Bytes) (w : W) : w.fresh.2.dev.newRequest r herd seed b = w.dev.newRequest r herd seed b := rfl

/-- What an ADMIT does with the request `q` that its descriptor makes. -/
def W.takeRequest (r : Nat) (o : Outstanding) (q : Request) (w : W) : W :=
  (((w.join q).givenInput q (w.payload o)).wakePad q.paddock).complete r o.index .done 0 q.admission

theorem doAdmit_admitted {w : W} {r : Nat} {o : Outstanding} (h : w.dev.admitStatus r (w.payload o) = none) :
    doAdmit w r o = w.takeRequest r o (w.requestOf r (w.payload o)) := by
  have hq : w.fresh.2.dev.newRequest r w.herd (admitSeed w.dev (w.payload o)) (w.payload o) = w.requestOf r (w.payload o) := newRequest_fresh ..
  rw [← hq]
  unfold doAdmit
  extract_lets b
  split
  next st hst => exact absurd (h.symm.trans hst) nofun
  · rfl

theorem W.join_requests (q : Request) (w : W) : (w.join q).dev.serve.requests = w.dev.serve.requests ++ [q] := by
  rw [W.join, (W.Beside.writeKvTable ..).serve]
  rfl

theorem W.join_rings (q : Request) (w : W) : (w.join q).dev.rings = w.dev.rings := by
  rw [W.join, (W.Beside.writeKvTable ..).rings]
  rfl

theorem W.givenInput_rings (q : Request) (b : Bytes) (w : W) : (w.givenInput q b).dev.rings = w.dev.rings := by
  unfold W.givenInput
  split
  · exact W.inputDone_rings ..
  · rfl

theorem W.givenInput_keeps {q : Request} {w : W} (hq : q ∈ w.dev.serve.requests) (b : Bytes) :
    ∃ q' ∈ (w.givenInput q b).dev.serve.requests, q.SameAdmission q' := by
  unfold W.givenInput
  split
  · exact W.inputDone_keeps hq ..
  · exact ⟨q, hq, rfl, rfl, rfl, rfl, rfl⟩

/-- Settles O16: the request joins the live ones, input that its descriptor gives keeps what it was admitted with, and neither the wakes nor the
completion touch the serving record. -/
theorem admitMakesRequest : Obligations.AdmitMakesRequest := by
  intro e s h w b hst seed q
  let v := (w.join q).givenInput q b
  have hserve : ∀ res, (((v.wakePad q.paddock).complete e.ring.val (order s 0x14 e).index .done 0 res).dev.serve) = v.dev.serve := fun res => by
    rw [W.complete_serve, (W.Beside.wakePad ..).serve]
  have hrow : exec (.admitRequest e) s =
      .next (((v.wakePad q.paddock).complete e.ring.val (order s 0x14 e).index .done 0 q.admission).leave s) :=
    (act_fetch_accepts h).trans (congrArg (fun w' => Outcome.next (W.leave s w')) (doAdmit_admitted hst))
  refine ⟨_, hrow, ?_, ?_, fun hflag => ?_⟩
  · have hring : (v.wakePad q.paddock).dev.ring e.ring.val = w.dev.ring e.ring.val := by
      rw [Dev.ring, (W.Beside.wakePad ..).rings, W.givenInput_rings, W.join_rings]
      rfl
    rw [W.leave_dev, W.complete_out, hring]
    simp [w, begun, W.ring_ring_self]
  · have hmem : q ∈ (w.join q).dev.serve.requests := by rw [W.join_requests]; simp
    obtain ⟨q', hq', hsame⟩ := W.givenInput_keeps hmem b
    rw [W.leave_dev, hserve]
    exact ⟨q', hq', hsame.number, hsame.admitted, hsame.seed, hsame.tenant, hsame.paddock⟩
  · rw [W.leave_dev, hserve]
    have hv : v = w.join q := if_neg (by rw [hflag]; exact Bool.false_ne_true)
    rw [hv, W.join_requests]
    rfl

end Sys2Proof.Machine
end

section
/-! SUPPORT. The SWAP field of a table's control register: where the register lies, what a write of 1 to it does, and when the change waits
(R158, R161, R508 to R525). -/

namespace Sys2Proof.Machine

open Host

/-! ### Keys of indirect registers -/

theorem indKey_div {off : Nat} (t : Nat) (h : off < 2 ^ 32) : indKey t off / 2 ^ 32 = t + 1 := by
  unfold indKey
  omega

theorem indKey_mod {off : Nat} (t : Nat) (h : off < 2 ^ 32) : indKey t off % 2 ^ 32 = off := by
  unfold indKey
  omega

theorem indKey_aligned {off : Nat} (t : Nat) (h : off % 0x10 = 0) : indKey t off % 0x10 = 0 := by
  unfold indKey
  omega

/-- Outside IMAGE_WAIT the registers of an indirect target are those that its blocks give. -/
theorem Dev.regAt_indKey {d : Dev} {off : Nat} (herd t : Nat) (hw : d.boot.phase ≠ .imageWait) (hlt : off < 2 ^ 32) (hal : off % 4 = 0) :
    d.regAt herd (indKey t off) = d.targetReg herd t off := by
  have hal' : indKey t off % 4 = 0 := by unfold indKey; omega
  have hbig : 2 ^ 32 ≤ indKey t off := by unfold indKey; omega
  simp only [Dev.regAt, hal', hw, hbig, indKey_div t hlt, indKey_mod t hlt, ne_eq, not_true_eq_false, decide_false, Bool.false_and,
    Bool.false_eq_true, if_false, if_true, Nat.add_sub_cancel]

/-- The checked registers of an indirect target: the energy word of the gatehouse, and the pending tables and queue bases of the others (R521). -/
theorem isChecked_indKey {off : Nat} (t : Nat) (h : off < 2 ^ 32) :
    isChecked (indKey t off) =
      let within := fun (lo n : Nat) => decide (lo ≤ off) && decide (off < lo + n)
      if t = 0 then decide (off = 0x2_0008)
      else if t ≤ 8 then within 0x2_0000 (64 * 0x200)
      else if t = 9 then within 0x1_0000 (32 * 0x200)
      else within 0x1_0000 (24 * 0x200) || (within 0x4_0000 0x100 && decide (off % 0x20 < 0x10)) := by
  simp only [isChecked, indKey_div t h, indKey_mod t h, Nat.add_eq_zero_iff, Nat.add_eq_right, Nat.reduceLeDiff, Nat.reduceEqDiff, one_ne_zero,
    and_false, if_false]

/-- The control registers of the tables of an indirect target (R161). -/
theorem tableOfCtl_indKey {off : Nat} (t : Nat) (h : off < 2 ^ 32) :
    tableOfCtl (indKey t off) =
      let within := fun (base n t0 : Nat) => if decide (base ≤ off) && decide (off < base + n * 0x10) then some (t0 + (off - base) / 0x10) else none
      if t = 0 then none
      else if t ≤ 8 then within 0x4_0000 64 ((t - 1) * 64)
      else if t = 9 then within 0x3_0000 32 512
      else within 0x3_0000 24 544 := by
  simp only [tableOfCtl, indKey_div t h, indKey_mod t h, Nat.add_eq_zero_iff, Nat.add_eq_right, Nat.reduceLeDiff, Nat.reduceEqDiff,
    Nat.reduceSubDiff, one_ne_zero, and_false, if_false]

/-! ### The control registers of tables -/

/-- The control register of table `i` of a block stands after the block's pending and active tables. -/
theorem Dev.tableRegs_ctl (d : Dev) {n pend act ctl i : Nat} (herd t0 : Nat) (hi : i < n) (hp : pend + n * 0x200 ≤ ctl) (ha : act + n * 0x200 ≤ ctl) :
    d.tableRegs herd t0 n pend act ctl (ctl + i * 0x10) = privReg (if d.tablePresent (t0 + i) then d.slotCtl (t0 + i) else 0) := by
  have hpend : ¬ ctl + i * 0x10 < pend + n * 0x200 := by omega
  have hact : ¬ ctl + i * 0x10 < act + n * 0x200 := by omega
  simp [Dev.tableRegs, hpend, hact, hi]

/-- Between its counters and its queues the shed's target holds the registers of its tables. -/
theorem Dev.shedReg_tables (d : Dev) {off : Nat} (herd : Nat) (hlo : 0x1_0000 ≤ off) (hhi : off < 0x4_0000) :
    d.shedReg herd off = d.tableRegs herd 544 24 0x1_0000 0x2_0000 0x3_0000 off := by
  have hstat : off ≠ 0 := by omega
  have hcounters : ¬ off < 0x100 + 24 * 8 := by omega
  have hqueues : ¬ 0x4_0000 ≤ off := by omega
  simp [Dev.shedReg, hstat, hcounters, hqueues]

/-- What stands after a block is not in it. -/
theorem not_within_of_le {lo n off : Nat} (h : lo + n ≤ off) : (decide (lo ≤ off) && decide (off < lo + n)) = false := by
  simp [h]

/-- The test that finds the table of control register `i` of a block of `n`. -/
theorem ctl_within {base n i : Nat} (t0 : Nat) (hi : i < n) :
    (if decide (base ≤ base + i * 0x10) && decide (base + i * 0x10 < base + n * 0x10) then some (t0 + (base + i * 0x10 - base) / 0x10) else none) =
      some (t0 + i) := by
  simp [hi]

/-! ### The UNIT block -/

/-- Outside IMAGE_WAIT the UNIT block answers from its base on. -/
theorem Dev.regAt_unit {d : Dev} {off : Nat} (herd : Nat) (hw : d.boot.phase ≠ .imageWait) (hlt : off < 0x1_0000) (hal : off % 4 = 0) :
    d.regAt herd (bUnit + off) = d.unitReg herd off := by
  have hal' : (bUnit + off) % 4 = 0 := by unfold bUnit; omega
  have hbig : ¬ 2 ^ 32 ≤ bUnit + off := by unfold bUnit; omega
  have hbelow : ∀ k ≤ bUnit, ¬ bUnit + off < k := by omega
  have hidx : bUnit + off < bIdx := by unfold bUnit bIdx; omega
  simp only [Dev.regAt, hal', hw, hbig, hidx, hbelow bCfg (by decide), hbelow bBoot (by decide), hbelow bFault (by decide), hbelow 0x4000 (by decide),
    hbelow bRing (by decide), hbelow bFabric (by decide), hbelow bUnit le_rfl, Nat.add_sub_cancel_left, ne_eq, not_true_eq_false, decide_false,
    Bool.false_and, Bool.false_eq_true, if_false, if_true]

/-- The control register of unit `u`. -/
theorem Dev.unitReg_ctl (d : Dev) {u : Nat} (herd : Nat) (hu : u < 15) :
    d.unitReg herd (0x4000 + u * 0x10) = privReg (if d.tablePresent (tUnit u) then d.slotCtl (tUnit u) else 0) := by
  have htables : ¬ 0x4000 + u * 0x10 < 15 * 0x400 := by omega
  have hctl : 0x4000 + u * 0x10 < 0x4000 + 15 * 0x10 := by omega
  simp only [Dev.unitReg, htables, hctl, Nat.le_add_right, decide_true, Bool.and_self, if_false, if_true, Nat.add_mul_mod_self_right, Nat.reduceMod,
    Nat.add_sub_cancel_left, Nat.mul_div_cancel _ (show 0 < 0x10 by decide)]

/-- Of the UNIT block only the tables are checked. -/
theorem isChecked_unit {off : Nat} (hlo : 15 * 0x400 ≤ off) (hlt : off < 0x1_0000) : isChecked (bUnit + off) = false := by
  have hsmall : bUnit + off < 2 ^ 32 := by unfold bUnit; omega
  have hfault : bUnit + off ≠ bFault + 4 := by unfold bUnit bFault; omega
  have hring : ∀ i ≤ 0x1004, ¬ bUnit + off < bRing + i ∧ bUnit + off ≠ bRing + i := by
    intro i hi
    unfold bUnit bRing
    omega
  have hlink : ¬ bUnit + off < bFabric + 0x1000 + 119 * 0x100 := by unfold bUnit bFabric; omega
  have hunit : ¬ bUnit + off < bUnit + 15 * 0x400 := Nat.not_lt.mpr (Nat.add_le_add_left hlo _)
  simp only [isChecked, Nat.div_eq_of_lt hsmall, Nat.mod_eq_of_lt hsmall, hfault, hring 0x1000 (by omega), hring 0x1004 (by omega), hlink, hunit, if_true,
    decide_false, Bool.and_false, Bool.false_and, Bool.or_false]

/-! ### The registers that carry a SWAP field -/

theorem swapKey_unit (u : Fin 15) : swapKey (.unit u) = bUnit + (0x4000 + u.val * 0x10) := Nat.add_assoc ..

theorem swapTarget_eq_tLinks (t : SwapTarget) : swapTarget t = tLinks ↔ t = .links := by
  cases t with
  | links => exact iff_of_true rfl rfl
  | pc n => exact iff_of_false (Nat.ne_of_lt (show n.val < 583 by omega)) nofun
  | barn c => exact iff_of_false (Nat.ne_of_lt (show 512 + c.val < 583 by omega)) nofun
  | shed c => exact iff_of_false (Nat.ne_of_lt (show 544 + c.val < 583 by omega)) nofun
  | unit u => exact iff_of_false (Nat.ne_of_lt (show 568 + u.val < 583 by omega)) nofun

/-- A SWAP is never a checked register: the window delays it and does not drop it (R521, R525). -/
theorem isChecked_swapKey (t : SwapTarget) : isChecked (swapKey t) = false := by
  cases t with
  | pc n =>
    refine (isChecked_indKey (1 + n.val / 64) (by omega)).trans ?_
    rw [if_neg (by omega), if_pos (by omega)]
    exact not_within_of_le (by omega)
  | barn c => exact (isChecked_indKey 9 (by omega)).trans (not_within_of_le (by omega))
  | shed c =>
    have hqueues : ¬ 0x4_0000 ≤ 0x3_0000 + c.val * 0x10 := by omega
    refine (isChecked_indKey 10 (by omega)).trans (Bool.or_eq_false_iff.mpr ⟨not_within_of_le (by omega), ?_⟩)
    simp only [hqueues, decide_false, Bool.false_and]
  | unit u =>
    rw [swapKey_unit]
    exact isChecked_unit (by omega) (by omega)
  | links => decide

/-- Outside IMAGE_WAIT each of them is a privileged register (R511). -/
theorem Dev.regAt_swapKey {d : Dev} (herd : Nat) (hw : d.boot.phase ≠ .imageWait) (t : SwapTarget) : ∃ v, d.regAt herd (swapKey t) = privReg v := by
  cases t with
  | pc n =>
    have hreg := Dev.regAt_indKey herd (1 + n.val / 64) hw (off := 0x4_0000 + n.val % 64 * 0x10) (by omega) (by omega)
    rw [Dev.targetReg, if_neg (by omega), if_pos (by omega), if_neg (by omega)] at hreg
    exact ⟨_, hreg.trans (d.tableRegs_ctl herd _ (Nat.mod_lt _ (by decide)) (by decide) (by decide))⟩
  | barn c => exact ⟨_, (Dev.regAt_indKey herd 9 hw (by omega) (by omega)).trans (d.tableRegs_ctl herd 512 c.isLt (by decide) (by decide))⟩
  | shed c =>
    have hreg := Dev.regAt_indKey herd 10 hw (off := 0x3_0000 + c.val * 0x10) (by omega) (by omega)
    exact ⟨_, hreg.trans ((d.shedReg_tables herd (by omega) (by omega)).trans (d.tableRegs_ctl herd 544 c.isLt (by decide) (by decide)))⟩
  | unit u =>
    rw [swapKey_unit]
    exact ⟨_, (Dev.regAt_unit herd hw (by omega) (by omega)).trans (d.unitReg_ctl herd u.isLt)⟩
  | links =>
    refine ⟨d.linkCtl, ?_⟩
    simp only [Dev.regAt, hw, decide_false, Bool.false_and]
    rfl

/-- Each table's control register names its table. -/
theorem tableOfCtl_swapKey {t : SwapTarget} (ht : t ≠ .links) : tableOfCtl (swapKey t) = some (swapTarget t) := by
  cases t with
  | pc n =>
    refine (tableOfCtl_indKey (1 + n.val / 64) (by omega)).trans ?_
    rw [if_neg (by omega), if_pos (by omega)]
    refine (ctl_within _ (Nat.mod_lt _ (by decide))).trans (congrArg some ?_)
    simp only [swapTarget]; omega
  | barn c => exact (tableOfCtl_indKey 9 (by omega)).trans (ctl_within 512 c.isLt)
  | shed c => exact (tableOfCtl_indKey 10 (by omega)).trans (ctl_within 544 c.isLt)
  | unit u =>
    have hsmall : swapKey (.unit u) < 2 ^ 32 := by rw [swapKey_unit]; unfold bUnit; omega
    unfold tableOfCtl
    rw [Nat.div_eq_of_lt hsmall, Nat.mod_eq_of_lt hsmall]
    exact ctl_within 568 u.isLt
  | links => exact absurd rfl ht

theorem swapKey_aligned (t : SwapTarget) : swapKey t % 0x10 = 0 := by
  cases t with
  | links => rfl
  | unit u => exact Nat.add_mul_mod_self_right (bUnit + 0x4000) u.val 0x10
  | pc n => exact indKey_aligned _ (by omega)
  | barn c => exact indKey_aligned _ (by omega)
  | shed c => exact indKey_aligned _ (by omega)

/-! ### A write of 1 to SWAP -/

theorem W.writeTableCtl_one (t : Nat) (w : W) : w.writeTableCtl t 1 = w.swapTable t := by
  simp [W.writeTableCtl, W.when, show Nat.testBit 1 3 = false from rfl]

theorem W.actReg_swapKey (m : Master) (t : SwapTarget) (w : W) : w.actReg m (swapKey t) 1 = w.swapTable (swapTarget t) := by
  by_cases ht : t = .links
  · subst ht
    rfl
  · simp only [W.actReg, tableOfCtl_swapKey ht, swapKey_aligned, if_true, W.writeTableCtl_one]

theorem W.writeKey_swapKey {m : Master} {w : W} (hm : masterPriv m = true) (hw : w.dev.boot.phase ≠ .imageWait) (addr : Nat) (t : SwapTarget) :
    w.writeKey m addr (swapKey t) 1 = w.swapTable (swapTarget t) := by
  obtain ⟨v, hv⟩ := Dev.regAt_swapKey w.herd hw t
  simp [W.writeKey, hv, privReg, hm, isChecked_swapKey, W.actReg_swapKey]

theorem W.byMaster_reaches {m : Master} {s : State} (h : Reaches m s) (f : W → W) : W.byMaster m f (W.of s) = f (W.of s) := by
  simp [W.byMaster, W.when, h.reach]

/-- A privileged master's SWAP acts on the table that it names. -/
theorem exec_swap {m : Master} {s : State} (h : Reaches m s) (hm : masterPriv m = true) (t : SwapTarget) :
    exec (.swap m t) s = winds s ((W.of s).swapTable (swapTarget t)) := by
  refine congrArg (fun w => Outcome.next (W.leave s (W.wind w))) ?_
  exact (W.byMaster_reaches h _).trans (W.writeKey_swapKey hm h.noWait _ t)

/-- A SWAP of a table of the part, or of the link maps, waits for the window or acts now. -/
theorem W.swapTable_present {w : W} {t : Nat} (h : t = tLinks ∨ w.dev.tablePresent t = true) :
    w.swapTable t = if w.dev.regs.cfg.holder.isSome then w.slots fun x => { x with swapWait := insertNat t x.swapWait } else w.swapNow t := by
  have hgone : (decide (t ≠ tLinks) && !w.dev.tablePresent t) = false := by
    rcases h with rfl | hp <;> simp [*]
  simp only [W.swapTable, hgone, Bool.false_eq_true, if_false]

/-- With no window held a SWAP posts its change, or finds the pending table not valid. -/
theorem W.swapNow_swapTarget (t : SwapTarget) (w : W) :
    w.swapNow (swapTarget t) =
      if t = .links then w.addChange { cause := 0, tables := [], links := true, stack := 0 }
      else if tableValid (swapTarget t) (tableEntries w.dev.slots.pend (swapTarget t)) then
        w.addChange { cause := 0, tables := [swapTarget t], links := false, stack := 0 }
      else w.slots fun x => { x with tableErr := insertNat (swapTarget t) x.tableErr } := by
  by_cases ht : t = .links
  · rw [if_pos ht, W.swapNow, if_pos ((swapTarget_eq_tLinks t).mpr ht)]
  · rw [if_neg ht, W.swapNow, if_neg (mt (swapTarget_eq_tLinks t).mp ht)]

/-- Settles O32: the write reaches the SWAP of its table, which the window holds back, or which checks the pending table. -/
theorem swapPostsTables : Obligations.SwapPostsTables := by
  intro m t s h hm n w hpresent
  rw [exec_swap h hm t, W.swapTable_present (hpresent.imp_left (swapTarget_eq_tLinks t).mpr), W.swapNow_swapTarget, W.of_dev]

end Sys2Proof.Machine
end

section
/-! SUPPORT. The commands and happenings of indexes, and the copies of embedding rows (R69, R178, R209 to R230, R322, R323). -/

namespace Sys2Proof.Machine

open Host

/-- An accepted ring entry ends in what its operation makes of the record in which it begins. -/
theorem act_fetch_ends {op : Nat} {e : Entry} {s : State} {w : W} (h : Accepts op e s)
    (hw : (begun s op e).operation e.ring.val (order s op e) = w) : act (W.fetch op e) s = .next (w.leave s) :=
  hw ▸ act_fetch_accepts h

/-! ### INDEX_CREATE (R178, R217) -/

/-- The partitions of the index of payload `b` are prepared, and the index stands with those of the device. While a large one waits for its codebook it
names the command, `i` of ring `r`, that creates it. -/
def W.withIndex (r i : Nat) (b : Bytes) (w : W) : W :=
  let d := parseIndexDesc (b.take 256)
  let v := w.prepare d
  let x := { Index.new d (parseCreate (b.drop 256)) with creating := if d.large then some (r, i) else none, tombLog := v.tombs d }
  { v with dev := { v.dev with indexes := v.dev.indexes ++ [x] } }

theorem doIndexCreate_accepted {w : W} {r : Nat} {o : Outstanding} (hc : w.dev.createStatus o.herd (w.payload o) = none) :
    doIndexCreate w r o =
      if (parseIndexDesc ((w.payload o).take 256)).large then w.withIndex r o.index (w.payload o)
      else (w.withIndex r o.index (w.payload o)).complete r o.index .done := by
  unfold doIndexCreate W.withIndex
  extract_lets b
  rw [hc]

/-! ### The commands of an index that stands (R209 to R214, R225, R226, R230) -/

section
variable {w : W} {r : Nat} {o : Outstanding} {x : Index}

/-- With the shed writable, INDEX_UPDATE handles its records, and waits for the stamps of those that it accepts. -/
theorem doIndexUpdate_writable (hx : w.dev.index? (o.field 40 8) = some x) (hr : w.dev.shed.readOnly = false) :
    doIndexUpdate w r o =
      let z := w.acceptRecords (o.field 40 8) r o.index o.herd (w.payload o).length 0 (w.payload o)
      if z.2.1 = 0 then z.2.2.complete r o.index .done 0 z.1
      else z.2.2.index (o.field 40 8) fun x => { x with updates := x.updates ++ [{ ring := r, index := o.index, left := z.2.1, results := z.1 }] } := by
  simp only [doIndexUpdate, hx, hr, Bool.false_and, Bool.false_eq_true, if_false]

theorem doIndexConsolidate_starts (hx : w.dev.index? (o.field 40 8) = some x) (hc : x.consolidation = none) (ho : x.old = none) :
    doIndexConsolidate w r o = w.index (o.field 40 8) fun x => { x with
      consolidation := some { ring := r, index := o.index, fixed := false, limits := [], eD := [], next := 0, finish := none, ran := none } } := by
  simp only [doIndexConsolidate, hx, hc, ho, Option.isSome_none, Bool.or_self, Bool.false_eq_true, if_false]

theorem doIndexGeneration_waits {d : IndexDesc} (hd : parseIndexDesc (w.payload o) = d) (hx : w.dev.index? d.indexId = some x)
    (hok : indexDescOk w.dev.boot.part (w.payload o) = true) (hg : x.generationOk d = true) (hp : x.pendingGen = none)
    (hb : (d.needsBarn && !w.dev.boot.part.hasBarn) = false) (ht : w.dev.codebookTaken d = false)
    (hpin : w.dev.pinnable (d.stretches x.psgLimit) = true) :
    doIndexGeneration w r o = w.index d.indexId fun x => { x with
      pendingGen := some { ring := r, index := o.index, desc := d, baseEpoch := o.field 36 4, copied := !d.large } } := by
  simp only [doIndexGeneration, hd, hx, hok, hg, hp, hb, ht, hpin, Option.isSome_none, Bool.not_true, Bool.or_self, Bool.false_eq_true, if_false]

/-- INDEX_DELETE of an index for which no other command waits has none of them to complete. -/
theorem doIndexDelete_idle (hx : w.dev.index? (o.field 40 8) = some x) (hcl : x.closed = []) (hop : x.openCut = []) (hc : x.consolidation = none)
    (hp : x.pendingGen = none) (hcr : x.creating = none) :
    doIndexDelete w r o =
      W.complete r o.index .done 0 [] { w with dev := { w.dev with indexes := w.dev.indexes.filter fun y => y.desc.indexId ≠ o.field 40 8 } } := by
  simp only [doIndexDelete, hx, hcl, hop, hc, hp, hcr, List.append_nil, W.each, List.foldl_nil]

end

/-- Settles O22: with its checks passed, each command reaches the branch in which it acts. -/
theorem indexCommandsAct : Obligations.IndexCommandsAct := by
  refine ⟨?create, ?update, ?consolidate, ?generation, ?delete⟩
  case create =>
    intro e s h w o b d hc v x z
    have hz : z = w.withIndex e.ring.val o.index b := by
      unfold W.withIndex
      with_reducible rfl
    rw [hz]
    exact (act_fetch_ends h (doIndexCreate_accepted hc)).trans (apply_ite (fun w' => Outcome.next (W.leave s w')) _ _ _)
  case update =>
    intro e s x h w o id b hx hr z
    exact (act_fetch_ends h (doIndexUpdate_writable hx hr)).trans (apply_ite (fun w' => Outcome.next (W.leave s w')) _ _ _)
  case consolidate =>
    intro e s x h w o hx hc ho
    exact act_fetch_ends h (doIndexConsolidate_starts hx hc ho)
  case generation =>
    intro e s x h w o d hx hok hg hp hb ht hpin
    exact act_fetch_ends h (doIndexGeneration_waits rfl hx hok hg hp hb ht hpin)
  case delete =>
    intro e s x h w id hx hcl hop hc hp hcr
    exact act_fetch_ends h (doIndexDelete_idle hx hcl hop hc hp hcr)

/-! ### Boundaries of epochs and copies of codebooks (R69, R178) -/

/-- At the herd count of its next boundary the index passes it. -/
theorem W.epochBoundary_due {id : Nat} {x : Index} {w : W} (hx : w.dev.index? id = some x) :
    w.epochBoundary (x.desc.boundary x.nextEpoch) id = w.passEpoch id x.nextEpoch := by
  simp only [W.epochBoundary, hx, if_true]

theorem W.codebookDone_creating {id r i : Nat} {x : Index} {w : W} (hx : w.dev.index? id = some x) (hc : x.creating = some (r, i)) :
    w.codebookDone id = ((w.copyCodebook x.desc).index id fun x => { x with creating := none }).complete r i .done := by
  simp only [W.codebookDone, hx, hc]

theorem W.codebookDone_pending {id : Nat} {x : Index} {g : PendingGen} {w : W} (hx : w.dev.index? id = some x) (hc : x.creating = none)
    (hg : x.pendingGen = some g) (hn : g.copied = false) :
    w.codebookDone id = (w.copyCodebook g.desc).index id fun x => { x with pendingGen := some { g with copied := true } } := by
  simp only [W.codebookDone, hx, hc, hg, hn, Bool.false_eq_true, if_false]

/-! ### Remaps and copies of embedding rows (R322, R323) -/

theorem actAt_working {s : State} (n : Nat) (h : AtWork s) (f : W → W) : actAt n (W.working f) s = ends (atHerd s n) (f (W.of (atHerd s n))) :=
  act_working (s := atHerd s n) h f

/-- The bytes of migration `m` of table `x` are copied: to its hot slot for a promotion, back to its tail record for a demotion. -/
def W.copyRow (x : Emb) (m : Migration) (row : Nat) (w : W) : W :=
  let tail := x.desc.tailKey row
  let hot := x.desc.hotKey (x.desc.bayOf row) (if m.promote then m.slot else dirSlot m.src)
  if m.promote then w.put hot (w.peeks tail x.desc.rowStride) else w.put tail (w.peeks hot x.desc.rowStride)

theorem W.embCopied_found {h row : Nat} {x : Emb} {m : Migration} {w : W} (hx : w.dev.emb? h = some x)
    (hm : x.migrations.find? (fun m => m.row = row && !m.copied) = some m) :
    w.embCopied h row =
      (w.copyRow x m row).emb h fun y => { y with migrations := y.migrations.map fun z => if z = m then { z with copied := true } else z } := by
  simp only [W.embCopied, hx, hm, W.copyRow]

/-- Settles O43: each happening of a module at work reaches the branch of its row in which it acts. -/
theorem epochsAndCopiesAct : Obligations.EpochsAndCopiesAct := by
  refine ⟨?boundary, ?codebook, ?remap, ?row⟩
  case boundary =>
    intro h i x s hs hx hh t w
    subst hh
    exact (actWindAt_working _ hs _).trans (congrArg (winds t) (W.epochBoundary_due (w := W.of t) hx))
  case codebook =>
    intro i x s hs hx
    have hrow : exec (.codebookCopyDone i) s = winds s ((W.of s).codebookDone i.toNat) := actWind_working hs _
    refine ⟨fun r j hc => ?_, fun g hc hg hn => ?_⟩
    · rw [hrow, W.codebookDone_creating hx hc]
    · rw [hrow, W.codebookDone_pending hx hc hg hn]
  case remap =>
    intro h e x s hs _ _ _
    exact actAt_working h hs (W.remapTick h e.val)
  case row =>
    intro e row x m s hs hx hm w tail hot v
    exact (actWind_working hs _).trans (congrArg (winds s) (W.embCopied_found (w := W.of s) hx hm))

end Sys2Proof.Machine
end

section
/-! SUPPORT. Input and pauses of a live request, and the loads of tokenizer tables, grammars and adapters (R252 to R254, R257, R259, R270 to R272, R296,
R299, R300). -/

namespace Sys2Proof.Machine

open Host

/-! ### INPUT, PAUSE and RESUME (R257, R259, R296) -/

section
variable {w : W} {r : Nat} {o : Outstanding} {q : Request}

/-- A request in INPUT state takes the buffer while no buffer was its last one and it has room. -/
theorem doInput_taken (hn : w.dev.named r o = .ok q) (hfinal : o.field 32 1 ≤ 1) (hst : q.state = .input) (hlast : q.buffers.any (·.2) = false)
    (hroom : q.received + (w.payload o).length ≤ 1_048_576) :
    doInput w r o = (w.request q.number fun q => { q with
      received := q.received + (w.payload o).length
      buffers := q.buffers ++ [(w.payload o, decide (o.field 32 1 = 1))] }).complete r o.index .done := by
  simp only [doInput, hn, hst, hlast, Nat.not_lt.mpr hfinal, Nat.not_lt.mpr hroom, ne_eq, not_true_eq_false, decide_false, Bool.or_self,
    Bool.false_eq_true, if_false]

theorem W.hostPause_named (on : Bool) (hn : w.dev.named r o = .ok q) :
    w.hostPause on r o = (w.request q.number fun q => { q with pauseHost := on }).complete r o.index .done := by
  simp only [W.hostPause, hn]

end

/-- Settles O17: INPUT passes its checks to its last branch, and PAUSE and RESUME are one change of the HOST bit, set and cleared. -/
theorem requestsTakeInputAndPause : Obligations.RequestsTakeInputAndPause := by
  refine ⟨?input, ?pause, ?resume⟩
  case input =>
    intro e s q h w o b hn hfinal hst hlast hroom
    exact act_fetch_ends h (doInput_taken hn hfinal hst hlast hroom)
  case pause =>
    intro e s q h hn
    exact act_fetch_ends h (W.hostPause_named true hn)
  case resume =>
    intro e s q h hn
    exact act_fetch_ends h (W.hostPause_named false hn)

/-! ### Tokenizer tables and grammars (R252 to R254, R270 to R272) -/

/-- The tables beside which image `b` is loaded: all but the waiting version that it replaces. -/
def Serve.tablesBeside (b : Bytes) (v : Serve) : List TokTable := v.tables.filter fun t => !(t.tableId = tokId b && t.pending)

/-- The version that the load of table image `b` gives. -/
def Serve.tableVersion (b : Bytes) (v : Serve) : Nat := nextVersion v.tableCounts (tokId b)

/-- Table image `b` is loaded: current where no version of its identity is, else waiting for a launch point (log entry 76). -/
def Serve.withTable (b : Bytes) (v : Serve) : Serve :=
  let first := !(v.tables.filter fun t => t.tableId = tokId b).any (·.current)
  { v with
    tables := v.tablesBeside b ++ [{ tableId := tokId b, version := v.tableVersion b, image := b, current := first, pending := !first }]
    tableCounts := nput (tokId b) (v.tableVersion b) v.tableCounts }

/-- The grammars beside which image `b` is loaded: all but the waiting version that it replaces. -/
def Serve.grammarsBeside (b : Bytes) (v : Serve) : List Grammar := v.grammars.filter fun g => !(g.grammarId = gramId b && g.pending)

/-- The version that the load of grammar image `b` gives. -/
def Serve.grammarVersion (b : Bytes) (v : Serve) : Nat := nextVersion v.grammarCounts (gramId b)

/-- Grammar image `b` is loaded: current where no version of its identity is, else waiting for a launch point (log entry 76). -/
def Serve.withGrammar (b : Bytes) (v : Serve) : Serve :=
  let first := !(v.grammars.filter fun g => g.grammarId = gramId b).any (·.current)
  { v with
    grammars := v.grammarsBeside b ++ [{ grammarId := gramId b, version := v.grammarVersion b, image := b, current := first, pending := !first }]
    grammarCounts := nput (gramId b) (v.grammarVersion b) v.grammarCounts }

section
variable {w : W} {r : Nat} {o : Outstanding}

theorem doTokenizerLoad_loaded (hf : w.dev.unitFenced uTokenizer 0 = false) (hok : tableOk (w.payload o) = true)
    (hn : (w.dev.serve.tablesBeside (w.payload o)).length < 4)
    (hsize : sumNat ((w.dev.serve.tablesBeside (w.payload o)).map fun t => t.image.length) + (w.payload o).length ≤ 96 * 2 ^ 20) :
    doTokenizerLoad w r o =
      (w.serve (Serve.withTable (w.payload o))).complete r o.index .done (w.dev.serve.tableVersion (w.payload o)) := by
  unfold Serve.tablesBeside at hn hsize
  simp only [doTokenizerLoad, hf, hok, Nat.not_le.mpr hn, Nat.not_lt.mpr hsize, decide_false, Bool.not_true, Bool.or_self,
    Bool.false_eq_true, if_false]
  rfl

theorem doGrammarLoad_loaded {tab : TokTable} (hf : w.dev.unitFenced uGrammar 0 = false)
    (ht : w.dev.serve.currentTable (gramTable (w.payload o)) = some tab) (hv : tokVocab tab.image ≠ 0)
    (hok : grammarOk (w.payload o) (tokVocab tab.image) = true)
    (hsize : sumNat ((w.dev.serve.grammarsBeside (w.payload o)).map fun g => g.image.length) + (w.payload o).length ≤ 128 * 2 ^ 20) :
    doGrammarLoad w r o =
      (w.serve (Serve.withGrammar (w.payload o))).complete r o.index .done (w.dev.serve.grammarVersion (w.payload o)) := by
  unfold Serve.grammarsBeside at hsize
  simp only [doGrammarLoad, hf, ht, hok, hv, Nat.not_lt.mpr hsize, decide_false, Bool.not_true, Bool.or_self, Bool.false_eq_true, if_false]
  rfl

end

/-! ### Adapters (R299, R300) -/

/-- The adapters beside which image `b` is loaded: all but the waiting version that it replaces. -/
def Paddock.adaptersBeside (b : Bytes) (q : Paddock) : List AdapterVersion := q.adapters.filter fun a => !(a.adapterId = fld b 8 8 && a.pending)

/-- The version that the load of adapter image `b` gives. -/
def Paddock.adapterVersion (b : Bytes) (q : Paddock) : Nat := nextVersion q.adapterCounts (fld b 8 8)

/-- Adapter image `b` waits in slot `slot` for a launch point, beside the adapters that `q` keeps. -/
def Paddock.loadedAdapter (slot : Nat) (b : Bytes) (q : Paddock) : AdapterVersion :=
  { slot := slot, adapterId := fld b 8 8, version := q.adapterVersion b, rank := fld b 6 1, weightSet := fld b 0x10 2, digest := slice b 0x18 32
    image := b, current := false, pending := true, unloaded := false }

/-- Adapter image `b` is loaded into slot `slot` of paddock `p`, which is `q`, and lies in the commons (log entry 14). -/
def W.withAdapter (p slot : Nat) (b : Bytes) (q : Paddock) (w : W) : W :=
  (w.pad p fun x => { x with
    adapters := q.adaptersBeside b ++ [q.loadedAdapter slot b]
    adapterCounts := nput (fld b 8 8) (q.adapterVersion b) x.adapterCounts }).put (memKey spCommons 0 (adapterBase p slot)) b

/-- No version of adapter `id` of paddock `p` is found any more, and versions that nothing pins or binds are freed. -/
def W.withoutAdapter (p id : Nat) (w : W) : W :=
  (w.pad p fun q => { q with
    adapters := q.adapters.map fun a => if a.adapterId = id then { a with unloaded := true, current := false } else a }).freeVersions

section
variable {w : W} {r : Nat} {o : Outstanding} {q : Paddock}

theorem doAdapterLoad_loaded {slot : Nat} (hq : w.dev.pad? (o.field 32 1) = some q) (hok : adapterOk (w.payload o) q = true)
    (hslot : lowestFree (adapterSlots (o.field 32 1)) ((q.adaptersBeside (w.payload o)).map (·.slot)) = some slot) :
    doAdapterLoad w r o =
      (w.withAdapter (o.field 32 1) slot (w.payload o) q).complete r o.index .done (q.adapterVersion (w.payload o)) := by
  unfold Paddock.adaptersBeside at hslot
  simp only [doAdapterLoad, hq, hok, hslot, Bool.not_true, Bool.false_eq_true, if_false]
  rfl

theorem doAdapterUnload_loaded (hq : w.dev.pad? (o.field 32 1) = some q)
    (ha : (q.adapters.any fun a => a.adapterId = o.field 40 8 && !a.unloaded) = true) :
    doAdapterUnload w r o = (w.withoutAdapter (o.field 32 1) (o.field 40 8)).complete r o.index .done := by
  simp only [doAdapterUnload, W.withoutAdapter, hq, ha, Bool.not_true, Bool.false_eq_true, if_false]

end

/-- Settles O21: with its checks passed, each load reaches its last branch, where its object joins those that it does not replace. That a first version
of a table or grammar is current at once (log entry 76) and the place of an adapter's image (log entry 14) are the model's choices. -/
theorem textObjectsLoad : Obligations.TextObjectsLoad := by
  refine ⟨?table, ?grammar, ?adapter, ?unload⟩
  case table =>
    intro e s h w b same others v hf hok hn hsize
    exact act_fetch_ends h (doTokenizerLoad_loaded hf hok hn hsize)
  case grammar =>
    intro e s tab h w b same others v hf ht hv hok hsize
    exact act_fetch_ends h (doGrammarLoad_loaded hf ht hv hok hsize)
  case adapter =>
    intro e s q slot h w o b p id others v hq hok hslot
    exact act_fetch_ends h (doAdapterLoad_loaded hq hok hslot)
  case unload =>
    intro e s q h w o id hq ha
    exact act_fetch_ends h (doAdapterUnload_loaded hq ha)

end Sys2Proof.Machine
end

section
/-! SUPPORT. Settings of serving and of tenants, and ends of energy windows and budget slices (R285, R294, R295, R473, R475). -/

namespace Sys2Proof.Machine

open Host

/-! ### SERVE_SET and TENANT_SET (R285, R294, R295) -/

theorem doServeSet_taken {w : W} {r : Nat} {o : Outstanding} {q : Paddock} (hq : w.dev.pad? (fld (w.payload o) 0 1) = some q)
    (hok : servingOk (w.payload o) q = true) (hk : w.dev.servingKeeps (fld (w.payload o) 0 1) q (parseServing (w.payload o)) = true) :
    doServeSet w r o = (w.pad (fld (w.payload o) 0 1) fun q => q.serveSet (parseServing (w.payload o))).complete r o.index .done := by
  simp only [doServeSet, hq, hok, hk, Bool.not_true, Bool.or_self, Bool.false_eq_true, if_false]

/-- What the SET bits of TENANT_SET `o` select of tenant `t`; budget and window wait for the next launch point. -/
def Tenant.taking (o : Outstanding) (t : Tenant) : Tenant :=
  let set := o.field 33 1
  { t with
    pendBudget := if set.testBit 0 then some (o.field 36 4) else t.pendBudget
    pendWindow := if set.testBit 1 then some (o.field 40 4) else t.pendWindow
    liveMax := if set.testBit 2 then o.field 44 4 else t.liveMax
    rowCap := if set.testBit 3 then o.field 48 2 else t.rowCap
    replaceInvalid := if set.testBit 4 then (o.field 34 1).testBit 0 else t.replaceInvalid }

theorem doTenantSet_taken {w : W} {r : Nat} {o : Outstanding} (hok : tenantOk o = true) :
    doTenantSet w r o = (w.tenant (o.field 32 1) (Tenant.taking o)).complete r o.index .done := by
  simp only [doTenantSet, hok, Bool.not_true, Bool.false_eq_true, if_false]
  rfl

/-- Settles O18: with their checks passed, both commands reach their last branch. -/
theorem servingSettingsAreTaken : Obligations.ServingSettingsAreTaken := by
  refine ⟨?serve, ?tenant⟩
  case serve =>
    intro e s q h w b hq hok hk
    exact act_fetch_ends h (doServeSet_taken hq hok hk)
  case tenant =>
    intro e s h o set hok
    exact act_fetch_ends h (doTenantSet_taken hok)

/-! ### Energy windows and budget slices (R294, R473, R475) -/

/-- A happening that asks for a module at work and for a condition `c` of the device has its effect where both hold. -/
theorem actAt_when {s : State} (n : Nat) {c : W → Bool} (hs : AtWork s) (hc : c (W.of (atHerd s n)) = true) (f : W → W) :
    actAt n (fun w => w.when (w.dev.boot.phase.collects && c w) f) s = ends (atHerd s n) (f (W.of (atHerd s n))) := by
  have hgo : ((atHerd s n).dev.boot.phase.collects && c (W.of (atHerd s n))) = true := Bool.and_eq_true_iff.mpr ⟨hs, hc⟩
  exact (act_eq _ (atHerd s n)).trans (congrArg (ends (atHerd s n)) (if_pos hgo))

/-- Settles O51: at its herd count each end has its effect; that a batch above the whole allowance has waited through the window when it waited from
its start is log entry 110. -/
theorem windowsAndSlicesEnd : Obligations.WindowsAndSlicesEnd := by
  refine ⟨?window, ?slice⟩
  case window =>
    intro h s hs hh excess waited
    have hdue : decide (h = (atHerd s h).dev.power.windowEnd) = true := decide_eq_true hh
    exact actAt_when h (c := fun w => decide (h = w.dev.power.windowEnd)) hs hdue (W.power (Power.nextWindow h))
  case slice =>
    intro h t s hs hh
    exact actAt_when h (c := fun w => decide (h % (w.dev.tenant t.toNat).sliceTicks = 0)) hs (decide_eq_true hh) _

end Sys2Proof.Machine
end

section
/-! SUPPORT. CANCEL of a queued batch, of what is gone and of a live request (R297, R420, R434, R475). -/

namespace Sys2Proof.Machine

open Host

/-! ### A fetch beside outstanding commands (R420) -/

/-- What holds of a ring after reset and of every ring in the table holds of each ring. -/
theorem Dev.ring_of_rings {d : Dev} {P : Ring → Prop} (h0 : P Ring.reset) (h : ∀ x ∈ d.rings, P x.2) (r : Nat) : P (d.ring r) := by
  have found : ∀ l : List (Nat × Ring), (∀ x ∈ l, P x.2) → P (tget Ring.reset r l) := by
    intro l
    induction l with
    | nil => exact fun _ => h0
    | cons x l ih =>
      obtain ⟨j, g⟩ := x
      intro hl
      obtain ⟨hg, hrest⟩ := List.forall_mem_cons.mp hl
      by_cases hj : j = r
      · simpa [tget, tget?, hj] using hg
      · simpa [tget, tget?, hj] using ih hrest
  exact found d.rings h

/-- The command that entry `e` becomes before it starts. -/
def fetchedOrder (s : State) (op : Nat) (e : Entry) : Outstanding := { order s op e with started := false }

/-- The working record in which that command is fetched, behind the outstanding ones of its ring. -/
def fetched (s : State) (op : Nat) (e : Entry) : W :=
  (W.of s).ring e.ring.val fun g => { g with subHead := (g.subHead + 1) % 256, out := g.out ++ [fetchedOrder s op e] }

theorem filter_unstarted_nil {l : List Outstanding} (hl : ∀ o ∈ l, o.started = true) : l.filter (fun o => !o.started) = [] :=
  List.filter_eq_nil_iff.mpr fun o ho => by simp [hl o ho]

/-- No command that has started may start. -/
theorem find?_mayStart_none (d : Dev) (g : Ring) {l : List Outstanding} (hl : ∀ o ∈ l, o.started = true) : l.find? (d.mayStartCommand g) = none :=
  List.find?_eq_none.mpr fun o ho => by simp [Dev.mayStartCommand, hl o ho]

section
variable {op : Nat} {e : Entry} {s : State} (h : AcceptsBeside op e s)
include h

theorem outstanding_started (r : Nat) : ∀ o ∈ (s.dev.ring r).out, o.started = true :=
  Dev.ring_of_rings (P := fun g => ∀ o ∈ g.out, o.started = true) (fun _ ho => absurd ho List.not_mem_nil) h.allStarted r

/-- The fetched command is the only one that has not started. -/
theorem fetched_unstarted : (fetched s op e).dev.unstarted = 1 := by
  simp only [Dev.unstarted, fetched, W.ring]
  rw [sum_tput_only]
  · simp [filter_unstarted_nil (outstanding_started h e.ring.val), fetchedOrder]
  · exact fun x hx => by rw [filter_unstarted_nil (h.allStarted x hx)]; rfl

theorem fetched_nextStart : (fetched s op e).dev.nextStart = some (e.ring.val, fetchedOrder s op e) := by
  simp only [Dev.nextStart, fetched, W.ring]
  rw [findSome?_tput_only]
  · rw [List.find?_append, W.of_dev, find?_mayStart_none _ _ (outstanding_started h e.ring.val)]
    simp [Dev.mayStartCommand, fetchedOrder, order, h.running, h.noFence]
  · exact fun x hx => by rw [find?_mayStart_none _ _ (h.allStarted x hx)]; rfl

/-- Its start leaves the other commands of the ring as they are. -/
theorem startCommand_fetched : (fetched s op e).startCommand e.ring.val (fetchedOrder s op e) = (begunBeside s op e).runCommand e.ring.val (order s op e) := by
  have others : (s.dev.ring e.ring.val).out.map (fun x => if x.index = (order s op e).index then order s op e else x) = (s.dev.ring e.ring.val).out :=
    (List.map_congr_left fun o ho => if_neg (h.newIndex o ho)).trans (List.map_id _)
  have started : ((fetched s op e).ring e.ring.val fun g => { g with
      out := g.out.map fun x => if x.index = (order s op e).index then order s op e else x }) = begunBeside s op e := by
    rw [fetched, W.ring_ring]
    simp only [begunBeside, W.ring, W.of_dev, List.map_append, others]
    simp [fetchedOrder]
  exact congrArg (fun w => w.runCommand e.ring.val (order s op e)) started

/-- The command has the right that its opcode asks for, and its entry is well made. -/
theorem runCommand_begunBeside :
    (begunBeside s op e).runCommand e.ring.val (order s op e) = (begunBeside s op e).operation e.ring.val (order s op e) := by
  have hadmin : ((begunBeside s op e).dev.ring e.ring.val).admin = (s.dev.ring e.ring.val).admin := by rw [begunBeside, W.ring_ring_self]; rfl
  have hop : (order s op e).op = op := rfl
  simp only [W.runCommand, hop, hadmin, h.wellMade]
  rcases h.allowed with a | a <;> simp [a]

/-- With nothing else to start, an entry without FENCE runs its command beside the outstanding ones of its ring. -/
theorem fetch_acceptsBeside : W.fetch op e (W.of s) = (begunBeside s op e).operation e.ring.val (order s op e) := by
  have hfetch : W.fetch op e (W.of s) = (fetched s op e).wind := if_pos h.fetches
  have hchanges : (fetched s op e).resumeChanges = fetched s op e := by
    have hnone : (fetched s op e).dev.regs.cfg.waiting = [] := h.noChange
    simp [W.resumeChanges, hnone]
  have hcollects : (fetched s op e).dev.boot.phase.collects = true := congrArg Phase.collects h.running
  simp only [hfetch, W.wind, if_pos hcollects, hchanges, fetched_unstarted h, W.settle, fetched_nextStart h, startCommand_fetched h,
    runCommand_begunBeside h]

end

/-! ### CANCEL of a batch (R434, R475) -/

/-- The batch of ring `r` and index `i` waits in paddock `p` no more. -/
def W.unqueue (p r i : Nat) (w : W) : W :=
  w.pad p fun q => { q with batches := q.batches.filter fun x => !x.isOf r i, decided := q.decided.filter fun x => !x.batch.isOf r i }

/-- The batch `i` of ring `r` as `W.forgetBig` knows it. -/
def batchNamed (r i : Nat) : Batch := { Batch.blank with ring := r, index := i }

theorem cancelBatch_queued {w : W} {r i t k p : Nat} (hb : w.dev.batchAt t k = .queued p) :
    w.cancelBatch r i (t, k) = ((((w.unqueue p t k).forgetBig (batchNamed t k)).complete t k .cancelled).complete r i .done) := by
  simp only [W.cancelBatch, hb]
  rfl

/-- The cancel finds on ring `r` what that ring held before it, and not itself. -/
theorem find?_begunBeside {op : Nat} {e : Entry} {s : State} (h : AcceptsBeside op e s) {r : Nat} {p : Outstanding → Bool} {b : Outstanding}
    (hb : (s.dev.ring r).out.find? p = some b) :
    (((begunBeside s op e).dev.ring r).out.find? fun x => p x && !(r = e.ring.val && x.index = (order s op e).index)) = some b := by
  have notSelf : ∀ x ∈ (s.dev.ring r).out, (p x && !(r = e.ring.val && x.index = (order s op e).index)) = p x := by
    intro x hx
    by_cases hr : r = e.ring.val
    · subst hr
      simp [show x.index ≠ (order s op e).index from h.newIndex x hx]
    · simp [hr]
  have held := (List.find?_congr notSelf).trans hb
  by_cases hr : r = e.ring.val
  · subst hr
    rw [begunBeside, W.ring_ring_self]
    exact List.find?_append.trans (by rw [W.of_dev, held]; rfl)
  · rw [begunBeside, W.ring_ring_other hr]
    exact held

section
variable {w : W} {r : Nat} {o : Outstanding} (hkind : o.field 32 1 = 2 ∨ o.field 32 1 = 3) (hr : o.field 34 2 < 64)
  (hown : (w.dev.ring r).admin = true ∨ o.field 34 2 = r)
include hkind hr hown

/-- A CANCEL of a command on a ring that the cancel's ring may name passes its checks. -/
theorem cancel_checks : o.field 32 1 ≠ 1 ∧ (decide (o.field 32 1 ≠ 2) && decide (o.field 32 1 ≠ 3)) = false ∧
    (decide (64 ≤ o.field 34 2) || (!(w.dev.ring r).admin && decide (o.field 34 2 ≠ r))) = false := by
  refine ⟨by omega, ?_, ?_⟩
  · rcases hkind with a | a <;> simp [a]
  · rw [decide_eq_false (Nat.not_le.mpr hr), Bool.false_or]
    rcases hown with a | a <;> simp [a]

theorem doCancel_batch {b : Outstanding} (hop : b.op = 0x12)
    (hb : ((w.dev.ring (o.field 34 2)).out.find? fun x => decide (x.entry.cmdId.toNat = o.field 36 4) &&
      !(o.field 34 2 = r && x.index = o.index)) = some b) :
    doCancel w r o = w.cancelBatch r o.index (o.field 34 2, b.index) := by
  obtain ⟨hrequest, hcommand, hring⟩ := cancel_checks hkind hr hown
  simp only [doCancel, if_neg hrequest, hcommand, hring, hb, hop, Bool.false_eq_true, if_false, if_true]

theorem doCancel_gone
    (hb : ((w.dev.ring (o.field 34 2)).out.find? fun x => decide (x.entry.cmdId.toNat = o.field 36 4) &&
      !(o.field 34 2 = r && x.index = o.index)) = none) :
    doCancel w r o =
      w.complete r o.index (if (w.dev.ring (o.field 34 2)).done.contains (o.field 36 4) then .alreadyComplete else .notFound) := by
  obtain ⟨hrequest, hcommand, hring⟩ := cancel_checks hkind hr hown
  simp only [doCancel, if_neg hrequest, hcommand, hring, hb, Bool.false_eq_true, if_false]

end

/-- CANCEL of a batch that waits in its queue: besides what R434 says, a batch that was the one R475 speaks of holds the others back no more. -/
theorem exec_cancel_queued {e : Entry} {s : State} {b : Outstanding} {p : Nat} (h : AcceptsBeside 0x13 e s)
    (hkind : (order s 0x13 e).field 32 1 = 2 ∨ (order s 0x13 e).field 32 1 = 3) (hr : (order s 0x13 e).field 34 2 < 64)
    (hown : (s.dev.ring e.ring.val).admin = true ∨ (order s 0x13 e).field 34 2 = e.ring.val)
    (hb : (s.dev.ring ((order s 0x13 e).field 34 2)).out.find? (fun x => x.entry.cmdId.toNat = (order s 0x13 e).field 36 4) = some b)
    (hop : b.op = 0x12) (hat : s.dev.batchAt ((order s 0x13 e).field 34 2) b.index = .queued p) :
    exec (.cancel e) s = .next ((((((begunBeside s 0x13 e).unqueue p ((order s 0x13 e).field 34 2) b.index).forgetBig
      (batchNamed ((order s 0x13 e).field 34 2) b.index)).complete ((order s 0x13 e).field 34 2) b.index .cancelled).complete
        e.ring.val (order s 0x13 e).index .done).leave s) := by
  have hown' : ((begunBeside s 0x13 e).dev.ring e.ring.val).admin = true ∨ (order s 0x13 e).field 34 2 = e.ring.val := by
    rw [begunBeside, W.ring_ring_self]
    exact hown
  have hcancel := (doCancel_batch hkind hr hown' hop (find?_begunBeside h hb)).trans (cancelBatch_queued (w := begunBeside s 0x13 e) hat)
  exact (act_eq ..).trans (congrArg (fun w => Outcome.next (W.leave s w)) ((fetch_acceptsBeside h).trans hcancel))

/-! ### CANCEL of what is gone, and of a live request (R297, R434) -/

/-- On a ring that waits for nothing a CANCEL finds no command but itself. -/
theorem find?_begun {op : Nat} {e : Entry} {s : State} (h : Quiet e.ring.val s) (r : Nat) (p : Outstanding → Bool) :
    (((begun s op e).dev.ring r).out.find? fun x => p x && !(r = e.ring.val && x.index = (order s op e).index)) = none := by
  by_cases hr : r = e.ring.val
  · subst hr
    simp [begun, W.ring_ring_self]
  · rw [begun, W.ring_ring_other hr, W.of_dev, quiet_ring_out h]
    rfl

/-- CANCEL of what no ring holds: the second clause of `Obligations.CancelFinds`, which holds. -/
theorem exec_cancel_gone {e : Entry} {s : State} (h : Accepts 0x13 e s)
    (hkind : (order s 0x13 e).field 32 1 = 2 ∨ (order s 0x13 e).field 32 1 = 3) (hr : (order s 0x13 e).field 34 2 < 64)
    (hown : (s.dev.ring e.ring.val).admin = true ∨ (order s 0x13 e).field 34 2 = e.ring.val) :
    exec (.cancel e) s = answered s 0x13 e
      (if (s.dev.ring ((order s 0x13 e).field 34 2)).done.contains ((order s 0x13 e).field 36 4) then .alreadyComplete else .notFound) 0 []
      (begun s 0x13 e) := by
  have hown' : ((begun s 0x13 e).dev.ring e.ring.val).admin = true ∨ (order s 0x13 e).field 34 2 = e.ring.val := by
    rw [begun, W.ring_ring_self]
    exact hown
  have hdone (r : Nat) : ((begun s 0x13 e).dev.ring r).done = (s.dev.ring r).done := by
    by_cases hr : r = e.ring.val
    · rw [hr, begun, W.ring_ring_self]; rfl
    · rw [begun, W.ring_ring_other hr]; rfl
  have hcancel := doCancel_gone hkind hr hown' (find?_begun h.quiet _ _)
  rw [hdone] at hcancel
  exact act_fetch_ends h hcancel

/-- CANCEL of a live request that no step carries: the third clause of `Obligations.CancelFinds`, which holds. -/
theorem exec_cancel_liveRequest {e : Entry} {s : State} {q : Request} (h : Accepts 0x13 e s) (hkind : (order s 0x13 e).field 32 1 = 1)
    (hq : (begun s 0x13 e).dev.named e.ring.val (order s 0x13 e) = .ok q)
    (hend : ((begun s 0x13 e).cancelRequest q.number q.admitted).1 = .done) :
    exec (.cancel e) s = answered s 0x13 e .done 0 [] ((begun s 0x13 e).cancelRequest q.number q.admitted).2 := by
  have hcancel : doCancel (begun s 0x13 e) e.ring.val (order s 0x13 e) =
      W.complete e.ring.val (order s 0x13 e).index .done 0 [] ((begun s 0x13 e).cancelRequest q.number q.admitted).2 := by
    simp only [doCancel, if_pos hkind, W.cancelNamed, hq, hend, reduceCtorEq, if_false]
  exact act_fetch_ends h hcancel

/-! ### A batch that R475 speaks of is cancelled -/

theorem W.complete_power (r i : Nat) (st : Status) (v : Nat) (b : Bytes) (w : W) : (w.complete r i st v b).dev.power = w.dev.power := by
  cases ho : w.dev.outstanding? r i with
  | none => simp only [W.complete, ho]
  | some o => rw [complete_of_outstanding ho, W.post_dev]; rfl

/-- The BATCH command of CMD_ID 9 on ring 0, which has started. -/
def bigOrder : Outstanding :=
  { index := 250, op := 0x12, herd := 900, started := true
    entry := { ring := 0, flags := 0, reserved := 0, cmdId := 9, payload := 0, payloadLen := 0, resultLen := 0, result := 0, inline := zeros 32 } }

/-- The module runs, its link is UP, and the batch of that command waits in paddock 3, larger than a whole allowance, since herd count 900. -/
def bigWaiting : State :=
  let ring := { Ring.reset with enable := true, admin := true, subTail := 1, out := [bigOrder] }
  let pad := { Paddock.new [0] 0 0 0 (0, 0) with state := .ready, formCmd := none, batches := [batchNamed 0 250] }
  { State.reset with
    clock := ⟨1000⟩
    dev := { Dev.reset with
      boot := { Boot.reset with phase := .run }
      halter := { Link.reset with state := 2 }
      rings := [(0, ring)]
      pads := [(3, pad)]
      power := { Power.reset with bigBatch := some (0, 250, 900) } } }

/-- The CANCEL of KIND 3, CMD_ID 9 and ring 0. -/
def bigCancel : Entry :=
  { ring := 0, flags := 0, reserved := 0, cmdId := 10, payload := 0, payloadLen := 0, resultLen := 0, result := 0
    inline := [3, 0, 0, 0, 9, 0, 0, 0] ++ zeros 24 }

theorem bigCancel_accepted : AcceptsBeside 0x13 bigCancel bigWaiting where
  fetches := by decide +kernel
  running := rfl
  noChange := rfl
  allStarted := by decide +kernel
  newIndex := by decide +kernel
  noFence := rfl
  wellMade := by decide +kernel
  allowed := .inl rfl

/-- Refutes O15, in its first clause: a batch larger than a whole allowance that waits in its queue is the one that R475 lets hold the others back, and
its CANCEL takes that away as well (`exec_cancel_queued`), where the statement leaves the power record as it was. -/
theorem not_cancelFinds : ¬ Obligations.CancelFinds := by
  intro ⟨hqueued, _, _⟩
  have hkind : (order bigWaiting 0x13 bigCancel).field 32 1 = 3 := by decide +kernel
  have hring : (order bigWaiting 0x13 bigCancel).field 34 2 < 64 := by decide +kernel
  have hfound : (bigWaiting.dev.ring ((order bigWaiting 0x13 bigCancel).field 34 2)).out.find?
      (fun x => x.entry.cmdId.toNat = (order bigWaiting 0x13 bigCancel).field 36 4) = some bigOrder := by decide +kernel
  have hat : bigWaiting.dev.batchAt ((order bigWaiting 0x13 bigCancel).field 34 2) bigOrder.index = .queued 3 := by rfl
  have claimed := hqueued bigCancel bigWaiting bigOrder 3 bigCancel_accepted (.inr hkind) hring (.inl rfl) hfound rfl hat
  have answered := exec_cancel_queued bigCancel_accepted (.inr hkind) hring (.inl rfl) hfound rfl hat
  have hpower := congrArg (fun t => t.dev.power.bigBatch) (Outcome.next.inj (answered.symm.trans claimed))
  simp only [W.leave_dev, W.complete_power, W.pad_power] at hpower
  have forgotten : (((begunBeside bigWaiting 0x13 bigCancel).unqueue 3 ((order bigWaiting 0x13 bigCancel).field 34 2) bigOrder.index).forgetBig
    (batchNamed ((order bigWaiting 0x13 bigCancel).field 34 2) bigOrder.index)).dev.power.bigBatch = none := by decide +kernel
  exact absurd (forgotten.symm.trans hpower) nofun

end Sys2Proof.Machine
end

section
/-! SUPPORT. The commands of embedding tables: creation, versions, migrations of rows and deletion (R304, R321, R322, R324, R435). -/

namespace Sys2Proof.Machine

open Host

/-- The table of payload `b` stands with those of the device, under the lowest handle that none of them has, with the hot slots that its directory
names taken. -/
def W.withEmb (b : Bytes) (w : W) : W :=
  let d := parseEmbDesc (b.take 256)
  let h := (lowestFree 64 (w.dev.embs.map (·.handle))).getD 0
  { w with dev := { w.dev with embs := w.dev.embs ++ [Emb.new h (fld b 256 1) (fld b 260 4) d (w.hotTaken d)] } }

/-- One MIGRATE entry `y` of table `h`, behind the results `acc` of those before it: its result joins them (log entry 22). -/
def W.migrateNext (h : Nat) (acc : Bytes × W) (y : Bytes) : Bytes × W :=
  let z := acc.2.migrateEntry h (fld y 0 4) (fld y 4 1)
  (acc.1 ++ migrateResult (fld y 0 4) z.1, z.2)

section
variable {w : W} {r : Nat} {o : Outstanding} {x : Emb}

theorem doEmbCreate_accepted (hc : w.embCreateStatus (w.payload o) = none) :
    doEmbCreate w r o = (w.withEmb (w.payload o)).complete r o.index .done ((lowestFree 64 (w.dev.embs.map (·.handle))).getD 0) := by
  unfold doEmbCreate W.withEmb
  extract_lets b
  rw [hc]

/-- A version that passes its checks waits for a launch point, and its command stays outstanding (R324). -/
theorem doEmbVersion_waits {d : EmbDesc} (hd : parseEmbDesc (w.payload o) = d) (hx : w.dev.embById? d.embId = some x)
    (hok : embDescOk w.dev.boot.part (w.payload o) = true) (hv : x.versionOk d = true) (hp : x.pending = none)
    (hb : d.tailSpace = spBarn → w.dev.boot.part.hasBarn = true) (hr : w.reserveKept d = true) :
    doEmbVersion w r o = w.emb x.handle fun y => { y with pending := some (r, o.index, d) } := by
  have hbarn : (decide (d.tailSpace = spBarn) && !w.dev.boot.part.hasBarn) = false := by simpa using hb
  simp only [doEmbVersion, hd, hx, hok, hv, hp, hbarn, hr, Option.isSome_none, Bool.not_true, Bool.or_self, Bool.false_eq_true, if_false]

/-- Whole entries, at most 4,096, with their reserved bytes zero are handled in their order (R321, R435). -/
theorem doEmbMigrate_entries (hx : w.dev.embById? (o.field 40 8) = some x) (hlen : (w.payload o).length % 8 = 0)
    (hmax : (w.payload o).length ≤ 4096 * 8) (hzero : ((records 8 (w.payload o)).any fun y => !allZero (slice y 5 3)) = false) :
    doEmbMigrate w r o =
      let z := (records 8 (w.payload o)).foldl (W.migrateNext x.handle) ([], w)
      z.2.complete r o.index .done 0 z.1 := by
  simp only [doEmbMigrate, hx, hlen, Nat.not_lt.mpr hmax, hzero, ne_eq, not_true_eq_false, decide_false, Bool.or_self, Bool.false_eq_true, if_false]
  rfl

/-- With no version waiting, EMB_DELETE ends the table's migrations and has no other command to complete. -/
theorem doEmbDelete_idle (hx : w.dev.embById? (o.field 40 8) = some x) (hp : x.pending = none) :
    doEmbDelete w r o =
      let v := w.cancelRows x.handle
      W.complete r o.index .done 0 [] { v with dev := { v.dev with embs := v.dev.embs.filter fun y => y.handle ≠ x.handle } } := by
  simp only [doEmbDelete, hx, hp]

end

/-- Settles O23: with its checks passed, each command reaches the branch in which it acts. The layout of the results of EMB_MIGRATE is the model's
choice (log entry 22). -/
theorem embCommandsAct : Obligations.EmbCommandsAct := by
  refine ⟨?create, ?version, ?migrate, ?delete⟩
  case create =>
    intro e s h w b d n hc
    exact act_fetch_ends h (doEmbCreate_accepted hc)
  case version =>
    intro e s x h w o b d hx hok hv hp hb hr
    exact act_fetch_ends h (doEmbVersion_waits rfl hx hok hv hp hb hr)
  case migrate =>
    intro e s x h w o b hx hlen hmax hzero z
    exact act_fetch_ends h (doEmbMigrate_entries hx hlen hmax hzero)
  case delete =>
    intro e s x h w hx hp v
    exact act_fetch_ends h (doEmbDelete_idle hx hp)

end Sys2Proof.Machine
end

section
/-! SUPPORT. Every row of the opcode table answers by an action at some herd count, so every step keeps the canonical form of memory (R333, R370). -/

namespace Sys2Proof.Machine

open Host

/-! ### Outcomes of actions -/

/-- `o` answers what an action leaves of `s` with its clock at some herd count. -/
def ActsOn (s : State) (o : Outcome State Fault Refusal) : Prop := ∃ (f : W → W) (c : Clock), o = act f { s with clock := c }

theorem actsOn_act (f : W → W) (s : State) : ActsOn s (act f s) := ⟨f, s.clock, rfl⟩

theorem actsOn_actWind (f : W → W) (s : State) : ActsOn s (actWind f s) := actsOn_act (fun w => (f w).wind) s

theorem actsOn_actAt (n : Nat) (f : W → W) (s : State) : ActsOn s (actAt n f s) := ⟨f, s.clock.advance n, rfl⟩

theorem actsOn_actWindAt (n : Nat) (f : W → W) (s : State) : ActsOn s (actWindAt n f s) := actsOn_actAt n (fun w => (f w).wind) s

theorem actsOn_ite {s : State} {c : Prop} [Decidable c] {a b : Outcome State Fault Refusal} (ha : ActsOn s a) (hb : ActsOn s b) :
    ActsOn s (if c then a else b) := by
  split
  · exact ha
  · exact hb

/-- A word issues at the herd count of its cycle, or does nothing. -/
theorem actsOn_runWord (cls : Nat) (ok : Ctx → W → Bool) (f : Ctx → W → W) (p w j : Nat) (s : State) : ActsOn s (runWord cls ok f p w j s) := by
  unfold runWord
  split
  · exact actsOn_act _ s
  · exact actsOn_ite (actsOn_actAt _ _ s) (actsOn_act _ s)

/-! ### Rows that fall at a herd count of their own -/

theorem actsOn_execLaunchPoint (h : Nat) (s : State) : ActsOn s (execLaunchPoint h s) :=
  actsOn_ite (actsOn_actWindAt _ _ s) (actsOn_act _ s)

theorem actsOn_execStepBoundary (p : Fin 64) (s : State) : ActsOn s (execStepBoundary p s) := by
  unfold execStepBoundary
  split
  · exact actsOn_act _ s
  · exact actsOn_ite (actsOn_actWindAt _ _ s) (actsOn_act _ s)

theorem actsOn_execHoldPoint (p : Fin 64) (s : State) : ActsOn s (execHoldPoint p s) := by
  unfold execHoldPoint
  split
  · exact actsOn_act _ s
  · split
    · exact actsOn_act _ s
    · exact actsOn_ite (actsOn_actWindAt _ _ s) (actsOn_act _ s)

theorem actsOn_execHoldEnd (p : Fin 64) (s : State) : ActsOn s (execHoldEnd p s) := by
  unfold execHoldEnd
  split
  · exact actsOn_act _ s
  · exact actsOn_ite (actsOn_actAt _ _ s) (actsOn_act _ s)

theorem actsOn_execDeadlineExpiry (p : Fin 64) (s : State) : ActsOn s (execDeadlineExpiry p s) := by
  unfold execDeadlineExpiry
  split
  · exact actsOn_act _ s
  · split
    · exact actsOn_ite (actsOn_actAt _ _ s) (actsOn_act _ s)
    · exact actsOn_act _ s

theorem actsOn_execLockstepTimeout (p : Fin 64) (s : State) : ActsOn s (execLockstepTimeout p s) := by
  unfold execLockstepTimeout
  split
  · exact actsOn_act _ s
  · exact actsOn_actWindAt _ _ s

theorem actsOn_execSyncStale (s : State) : ActsOn s (execSyncStale s) := actsOn_ite (actsOn_actAt _ _ s) (actsOn_act _ s)

/-- A good SYNC message is compared at its marker, or loads the count that stage 0 waits for (R546). -/
theorem actsOn_execSyncMessage (count : DWord) (check : Byte) (stop : Bool) (h : Nat) (s : State) :
    ActsOn s (execSyncMessage count check stop h s) :=
  actsOn_ite (actsOn_act _ s) (actsOn_ite (actsOn_act _ s) (actsOn_ite ⟨_, _, rfl⟩ (actsOn_actAt _ _ s)))

theorem actsOn_execSyncWaitTimeout (s : State) : ActsOn s (execSyncWaitTimeout s) := actsOn_ite ⟨_, _, rfl⟩ (actsOn_act _ s)

/-! ### Every row -/

/-- Nine rows and the plan words choose whether they act; every other row is an action, at the present herd count or at its own. -/
theorem actsOn_exec (c : Instr) (s : State) : ActsOn s (exec c s) := by
  unfold exec
  cases c with
  | launchPoint h => exact actsOn_execLaunchPoint h s
  | stepBoundary p => exact actsOn_execStepBoundary p s
  | holdPoint p => exact actsOn_execHoldPoint p s
  | holdEnd p => exact actsOn_execHoldEnd p s
  | deadlineExpiry p => exact actsOn_execDeadlineExpiry p s
  | lockstepTimeout p => exact actsOn_execLockstepTimeout p s
  | syncStale => exact actsOn_execSyncStale s
  | syncMessage count check stop h => exact actsOn_execSyncMessage count check stop h s
  | syncWaitTimeout => exact actsOn_execSyncWaitTimeout s
  | planNop | pass | vec | pack | select8 | select | compact | move | bayTable | bayHamming | bayFetch | bayHop | bayQueueOut | lookup | update
  | bayDecode | merge | tokenize | detokenize | mask | shedRead | barnRead | barnWrite | droveSend | droveRecv | hostOut | random | repeatWord =>
    exact actsOn_runWord _ _ _ _ _ _ s
  | swap | cfgOpen | cfgCommit | cfgAbandon | cfgRefWrite | standbyExit | indirectAccess | registerWrite | halterDataFlit | halterLinkUp
  | droveLinkLost | lockstepDigestReady | lockstepDigestReceived | faultDetection | recoveryEnd | scrubEnd | reformationEnd | cfgSweepEnd
  | pageFillDone | commonsCopyDone | embCopyDone | groomServiceEnd | handoverCoreReturn | tackRewriteDone | codebookCopyDone =>
    exact actsOn_actWind _ s
  | remapDue | cfgSweepStart | energyWindowEnd | budgetSliceEnd | syncOutSend => exact actsOn_actAt _ _ s
  | cfgWindowTimeout | epochBoundary | migPeriod => exact actsOn_actWindAt _ _ s
  | _ => exact actsOn_act _ s

/-! ### The canonical form -/

/-- An action changes memory by writes alone, and they keep its canonical form. -/
theorem ActsOn.memoryCanonical {s t : State} {o : Outcome State Fault Refusal} (h : ActsOn s o) (hs : MemoryCanonical s) (ht : o = .next t) :
    MemoryCanonical t := by
  obtain ⟨f, c, rfl⟩ := h
  rw [act_eq, Outcome.next.injEq] at ht
  exact ht ▸ leave_wf _ _ hs

/-- Settles O4: an idle tick leaves memory, and every command acts on it by writes. -/
theorem stepKeepsMemoryCanonical : Obligations.StepKeepsMemoryCanonical := by
  intro s t hs ht
  cases hq : s.pending with
  | nil =>
    rw [step_of_nil hq, Outcome.next.injEq] at ht
    exact ht ▸ hs
  | cons c rest =>
    rw [step_of_cons hq] at ht
    exact (actsOn_exec c { s with pending := rest }).memoryCanonical hs ht

end Sys2Proof.Machine
end

section
/-! SUPPORT. Records of class DEVICE stop the module, and reports of the stacks, the reference clock and samples of the rails (R334 to R338, R442, R450, R461,
R471). -/

namespace Sys2Proof.Machine

open Host

/-! ### What conditional changes and loops keep -/

/-- A change that keeps what `g` reads keeps it under a condition. -/
theorem W.when_keeps {f : W → W} {g : W → β} (hf : ∀ w, g (f w) = g w) (c : Bool) (w : W) : g (w.when c f) = g w := by
  unfold W.when
  split
  · exact hf w
  · rfl

/-- A loop whose turns keep what `g` reads keeps it as a whole. -/
theorem W.each_keeps {f : α → W → W} {g : W → β} (hf : ∀ x w, g (f x w) = g w) (l : List α) (w : W) : g (W.each l f w) = g w := by
  induction l generalizing w with
  | nil => rfl
  | cons x r ih => exact (ih (f x w)).trans (hf x w)

/-! ### Events and completions beside the device's own records (R421, R423) -/

theorem W.writeEvent_dev (b : Bytes) (w : W) :
    (w.writeEvent b).dev = { w.dev with events := (w.writeEvent b).dev.events, halter := (w.writeEvent b).dev.halter } := by
  simp only [W.writeEvent, W.message]
  rw [(W.sendTx_frame ..).1]
  simp only [W.events]
  rw [W.toHost_dev]

theorem W.event_dev (kind : Nat) (b : Bytes) (w : W) :
    (w.event kind b).dev = { w.dev with events := (w.event kind b).dev.events, halter := (w.event kind b).dev.halter } := by
  simp only [W.event]
  split
  · rfl
  · split
    · exact W.writeEvent_dev _ w
    · rfl

theorem W.complete_boot (r i : Nat) (st : Status) (v : Nat) (b : Bytes) (w : W) : (w.complete r i st v b).dev.boot = w.dev.boot := by
  cases ho : w.dev.outstanding? r i with
  | none => simp only [W.complete, ho]
  | some o => rw [complete_of_outstanding ho, W.post_dev]; rfl

theorem W.abortHandover_phase (w : W) : w.abortHandover.dev.boot.phase = w.dev.boot.phase := by
  unfold W.abortHandover
  split
  · rfl
  · rw [W.complete_boot]; rfl

theorem W.abortHandover_power (w : W) : w.abortHandover.dev.power = w.dev.power := by
  unfold W.abortHandover
  split
  · rfl
  · rw [W.complete_power]; rfl

/-! ### DEVICE records (R450) -/

/-- What the gatehouse counts of the input: its energy, that of the window, the last samples and the voltage (R471, R473). -/
def Power.meters (p : Power) : Nat × Nat × List Nat × Nat := (p.inputUJ, p.usedUJ, p.history, p.vinMV)

/-- `w'` is what a DEVICE record of this cause against this unit leaves of `w`: the module in the safe state, its log with the record, and its meters as
they were. -/
structure W.StoppedBy (cause ukind uindex : Nat) (w w' : W) : Prop where
  phase : w'.dev.boot.phase = .safe
  logged : ∃ r : FaultRec, r.logBytes ∈ w'.dev.faults.log ∧ r.cls = clDevice ∧ r.cause = cause ∧ r.ukind = ukind ∧ r.uindex = uindex
  meters : w'.dev.power.meters = w.dev.power.meters

theorem W.record_log (r : FaultRec) (w : W) : (w.record r).dev.faults.log = (r.logBytes :: (w.latch r).dev.faults.log).take 1024 := by
  rw [W.record, W.event_dev]
  rfl

theorem W.record_power (r : FaultRec) (w : W) : (w.record r).dev.power = w.dev.power := by
  rw [W.record, W.event_dev]
  rfl

/-- The record is the last but one of the log: the safe-state record follows it. -/
theorem W.mem_log_safeState (r : FaultRec) (w : W) : r.logBytes ∈ (w.safeState r).dev.faults.log := by
  show r.logBytes ∈ (_ :: (w.record r).dev.faults.log).take 1024
  simp [W.record_log]

theorem W.safeState_meters (r : FaultRec) (w : W) : (w.safeState r).dev.power.meters = w.dev.power.meters :=
  Eq.trans (b := (w.record r).dev.power.meters) rfl (congrArg Power.meters (W.record_power r w))

theorem W.device_stops (d : Detect) (w : W) : StoppedBy d.cause d.ukind d.uindex w (w.device d) where
  phase := rfl
  logged := ⟨_, W.mem_log_safeState _ _, rfl, rfl, rfl, rfl⟩
  meters := W.safeState_meters _ _

/-- A DEVICE detection while the collector works makes its record, once a handover of the core that it names has ended (R500). -/
theorem W.raise_device {d : Detect} {w : W} (hc : w.dev.boot.phase.collects = true) (hd : d.cls = clDevice) :
    w.raise d = (w.when (w.dev.handsOver (unitKey d.ukind d.uindex)) W.abortHandover).device d := by
  have hphase : (w.when (w.dev.handsOver (unitKey d.ukind d.uindex)) W.abortHandover).dev.boot.phase = w.dev.boot.phase :=
    W.when_keeps (g := fun w => w.dev.boot.phase) W.abortHandover_phase _ w
  have hnote : decide (clDevice ≠ clNote) = true := rfl
  simp only [W.raise, hd, hc, hnote, Bool.true_and, hphase, Bool.not_true, Bool.false_eq_true, if_false, if_true]

theorem W.raise_stops {d : Detect} {w : W} (hc : w.dev.boot.phase.collects = true) (hd : d.cls = clDevice) :
    StoppedBy d.cause d.ukind d.uindex w (w.raise d) := by
  rw [W.raise_device hc hd]
  obtain ⟨hphase, hlogged, hmeters⟩ := W.device_stops d (w.when (w.dev.handsOver (unitKey d.ukind d.uindex)) W.abortHandover)
  exact ⟨hphase, hlogged, hmeters.trans (congrArg Power.meters (W.when_keeps (g := fun w => w.dev.power) W.abortHandover_power _ w))⟩

theorem W.detect_stops {cause : Nat} {w : W} (hc : w.dev.boot.phase.collects = true) (hcause : causeClass cause = some clDevice)
    (ukind uindex detail arg : Nat) (pads : List Nat) : StoppedBy cause ukind uindex w (w.detect cause ukind uindex detail arg pads) := by
  have hcls : (causeClass cause).getD clNote = clDevice := by rw [hcause]; rfl
  exact W.raise_stops (d := .mk cause _ ukind uindex detail arg pads 0 0 0) hc hcls

/-- While the collector does not work, a detection has no effect. -/
theorem W.raise_parked {d : Detect} {w : W} (hc : w.dev.boot.phase.collects = false) : w.raise d = w := by
  simp [W.raise, hc, W.when]

theorem W.raise_meters {d : Detect} (hd : d.cls = clDevice) (w : W) : (w.raise d).dev.power.meters = w.dev.power.meters := by
  cases hc : w.dev.boot.phase.collects with
  | false => rw [W.raise_parked hc]
  | true => exact (W.raise_stops hc hd).meters

/-! ### Reports of a stack (R334 to R338) -/

/-- What a report of `c` °C makes of a stack's record. -/
def Therm.reporting (c : Nat) (t : Therm) : Therm :=
  { t with temp := c, computed := nextLevel t.computed c, trip := t.trip || decide (105 ≤ c)
           refresh2x := decide (95 ≤ c) || (t.refresh2x && decide (93 ≤ c)) }

/-- The report stands in the record of stack `s`, and a level that is not in the active tables waits as a change. -/
def W.reported (s c : Nat) (w : W) : W :=
  let t := (w.dev.therm s).reporting c
  let v := w.tiers fun x => { x with therm := tput s t x.therm }
  if t.computed ≠ t.applied then v.addChange { cause := 1, tables := stackTables s, links := false, stack := s } else v

theorem W.reported_boot (s c : Nat) (w : W) : (w.reported s c).dev.boot = w.dev.boot := by
  simp only [W.reported]
  split <;> rfl

theorem W.temperature_below {s c : Nat} (h : c < 105) (w : W) : w.temperature s c = w.reported s c := by
  have htrip : decide (105 ≤ c) = false := decide_eq_false (Nat.not_le.mpr h)
  simp only [W.temperature, htrip, Bool.false_eq_true, if_false, W.reported, Therm.reporting]

theorem W.temperature_hot {s c : Nat} (h : 105 ≤ c) (w : W) : w.temperature s c = (w.reported s c).detect caStackTrip uStack s 0 c [] := by
  have htrip : decide (105 ≤ c) = true := decide_eq_true h
  simp only [W.temperature, htrip, if_true, W.reported, Therm.reporting]

theorem Therm.reporting_below {c : Nat} (h : c < 105) (t : Therm) :
    t.reporting c =
      { t with temp := c, computed := nextLevel t.computed c, refresh2x := decide (95 ≤ c) || (t.refresh2x && decide (93 ≤ c)) } := by
  simp [Therm.reporting, Nat.not_le.mpr h]

/-- Settles O50: the signal and the hot report both raise STACK_TRIP, which is of class DEVICE, while the collector works. -/
theorem hotStackIsSafeState : Obligations.HotStackIsSafeState := by
  intro k c i s hs hi
  have trips : ∃ v : W, v.dev.boot = s.dev.boot ∧ exec i s = ends s (v.detect caStackTrip uStack k.val 0 c.toNat []) := by
    rcases hi with rfl | ⟨rfl, hc⟩
    · exact ⟨_, rfl, act_working hs (W.tripStack k.val c.toNat)⟩
    · exact ⟨_, W.reported_boot _ _ _, (act_working hs (W.temperature k.val c.toNat)).trans (congrArg (ends s) (W.temperature_hot hc _))⟩
  obtain ⟨v, hv, hexec⟩ := trips
  have hcollects : v.dev.boot.phase.collects = true := by rw [hv]; exact hs
  obtain ⟨hphase, ⟨r, hlog, hcls, hcause, hukind, huindex⟩, _⟩ := W.detect_stops (cause := caStackTrip) hcollects rfl uStack k.val 0 c.toNat []
  exact ⟨_, r, hexec, hphase, hlog, hcls, hcause, hukind, huindex⟩

/-! ### Samples of the rails (R471, R477) -/

theorem W.chargeSteps_meters (dom : List (Nat × Nat)) (w : W) : (w.chargeSteps dom).dev.power.meters = w.dev.power.meters := by
  refine (W.each_keeps (g := fun w => w.dev.power.meters) (fun p w => ?_) _ _).trans rfl
  split
  · rw [W.step_power]
  · rfl

theorem W.throttle_meters (w : W) : w.throttle.dev.power.meters = w.dev.power.meters := by
  refine (W.each_keeps (g := fun w => w.dev.power.meters) (fun p w => by rw [W.step_power]) _ _).trans ?_
  simp only [W.power_power]
  split <;> rfl

/-- A fault of the rails, of class DEVICE, counts no energy. -/
theorem W.railFault_meters (n mv : Nat) (w : W) : (w.detect caRail uHub 1 n mv []).dev.power.meters = w.dev.power.meters := W.raise_meters rfl w

theorem W.inputFault_meters (w : W) : (w.power fun p => { p with inputFault := true }).dev.power.meters = w.dev.power.meters := rfl

/-- What follows from a sample counts no energy beside it. -/
theorem W.sample_meters (r : RailSample) (w : W) : (w.sample r).dev.power.meters = (w.measure r).dev.power.meters := by
  simp only [W.sample]
  split
  · rfl
  · split
    · rw [W.inputFault_meters, W.railFault_meters, W.throttle_meters, W.chargeSteps_meters]
    · split
      · rw [W.inputFault_meters, W.railFault_meters, W.throttle_meters, W.chargeSteps_meters]
      · split
        · rw [W.railFault_meters, W.throttle_meters, W.chargeSteps_meters]
        · rw [W.throttle_meters, W.chargeSteps_meters]

/-- Settles O49: a report below the trip and the trip by their rows; a lost reference clock is of class DEVICE; a sample's effects count no energy beside it. -/
theorem temperatureAndRailsAct : Obligations.TemperatureAndRailsAct := by
  refine ⟨?report, ?trip, ?clock, ?sample⟩
  case report =>
    intro k c s hs hc t u w
    have hu : (s.dev.therm k.val).reporting c.toNat = u := Therm.reporting_below hc t
    refine (act_working hs (W.temperature k.val c.toNat)).trans (congrArg (ends s) ?_)
    rw [W.temperature_below hc, W.reported, W.of_dev, hu]
  case trip =>
    intro k c s hs
    exact act_working hs (W.tripStack k.val c.toNat)
  case clock =>
    intro s hs hstage
    have hon : (!(decide (s.dev.boot.phase = .bringUp) && decide (s.dev.boot.stagesDone = 0))) = true := by
      simpa [imp_iff_not_or] using hstage
    refine ⟨_, (act_eq _ s).trans (congrArg (ends s) (if_pos hon)), ?_⟩
    exact (W.detect_stops (cause := caRail) (w := (W.of s).boot fun b => { b with herdInvalid := true }) hs rfl ..).phase
  case sample =>
    intro r s hp
    refine ⟨_, (act_eq _ s).trans (congrArg (ends s) (if_pos (decide_eq_true hp))), ?_⟩
    have hm := W.sample_meters r (W.of s)
    simp only [Power.meters, Prod.mk.injEq] at hm
    exact hm

end Sys2Proof.Machine
end

section
/-! SUPPORT. Pages that are retired and commons pages that migrate: the commands that begin it, the ends of fills and copies, and automatic migration (R341,
R356 to R358). -/

namespace Sys2Proof.Machine

open Host

/-! ### PAGE_RETIRE and COMMONS_MIGRATE (R341, R351, R356) -/

section
variable {w : W} {r : Nat} {o : Outstanding}

/-- A page of a tier that the part has is retired where it has neither been retired nor is in work, and its remap table has room. -/
theorem doPageRetire_begins {page table : Nat}
    (htier : o.field 32 1 = spStack ∨ (o.field 32 1 = spBarn ∧ w.dev.boot.part.hasBarn = true))
    (hpage : w.dev.pageNamed (o.field 32 1) (o.field 40 8) = some (page, table))
    (hnew : w.dev.tiers.remapped.contains (remapId (o.field 32 1) page) = false)
    (hidle : (w.dev.tiers.retiring.any fun x => x.tier = o.field 32 1 && x.page = page) = false)
    (hroom : w.dev.remapUsed table < remapMax (o.field 32 1)) :
    doPageRetire w r o = w.tiers fun t => { t with
      retiring := t.retiring ++ [{ tier := o.field 32 1, page := page, ring := r, index := o.index, filled := false, lost := [] }] } := by
  have hkind : (decide (o.field 32 1 ≠ spStack) && decide (o.field 32 1 ≠ spBarn)) = false := by
    rcases htier with h | ⟨h, _⟩ <;> simp [h]
  have hhas : (decide (o.field 32 1 = spBarn) && !w.dev.boot.part.hasBarn) = false := by
    rcases htier with h | ⟨_, h⟩ <;> simp [h]
  simp only [doPageRetire, hkind, hhas, hpage, hnew, hidle, Nat.not_le.mpr hroom, Bool.false_eq_true, if_false]

/-- Commons page `p` may migrate for paddock `pad`: its allocation is the paddock's or shared, and is not pinned (R351). -/
def Dev.mayMigrate (d : Dev) (pad p : Nat) : Bool :=
  match d.allocAt (p * 65536) with
  | some x => (x.paddock = pad || x.entry.shared) && !x.entry.pinned
  | none => false

/-- Commons page `p` is beyond paddock `pad`: it has no allocation, or one that is another's alone. -/
def Dev.foreignPage (d : Dev) (pad p : Nat) : Bool :=
  match d.allocAt (p * 65536) with
  | some x => x.paddock ≠ pad && !x.entry.shared
  | none => true

def Dev.pinnedPage (d : Dev) (p : Nat) : Bool :=
  match d.allocAt (p * 65536) with
  | some x => x.entry.pinned
  | none => false

/-- The pages of a range that lie outside tier `t`. -/
def Dev.pagesOutside (d : Dev) (t a n : Nat) : List Nat :=
  (d.rangePages a n).filter fun p => match d.commonsPlace p with | some x => x.1 ≠ t | none => false

/-- Pages `ps` begin to migrate to tier `t` for command `c`. -/
def W.migratePages (t : Nat) (ps : List Nat) (c : Nat × Nat) (w : W) : W :=
  (w.tiers fun x => { x with migrations := x.migrations ++ ps.map fun p => CommonsMig.mk p t none false false 0 (some c) }).placeMigrations

/-- What may migrate is in reach of its paddock and is not pinned. -/
theorem Dev.mayMigrate_checks {d : Dev} {pad p : Nat} (h : d.mayMigrate pad p = true) : d.foreignPage pad p = false ∧ d.pinnedPage p = false := by
  revert h
  unfold Dev.mayMigrate Dev.foreignPage Dev.pinnedPage
  cases d.allocAt (p * 65536) with
  | none => exact fun h => absurd h Bool.false_ne_true
  | some x => simp [imp_iff_not_or]

/-- A range of pages that may migrate to a tier which the part has and which takes pages: those outside the tier begin to move. -/
theorem doCommonsMigrate_begins {t : Nat} (ht : flagTier (o.field 32 1) = some t) (hn : o.field 36 4 % 65536 = 0) (hn0 : o.field 36 4 ≠ 0)
    (hbarn : t = spBarn → w.dev.boot.part.hasBarn = true) (ha : o.field 40 8 % 65536 = 0) (hend : o.field 40 8 + o.field 36 4 ≤ 2 ^ 46)
    (hpages : (w.dev.rangePages (o.field 40 8) (o.field 36 4)).all (w.dev.mayMigrate (o.field 33 1)) = true)
    (hshed : t = spShed → w.dev.shed.readOnly = false)
    (hfree : ((w.dev.pagesOutside t (o.field 40 8) (o.field 36 4)).any fun p => w.dev.tiers.migrations.any (·.page = p)) = false) :
    doCommonsMigrate w r o =
      if w.dev.pagesOutside t (o.field 40 8) (o.field 36 4) = [] then w.complete r o.index .done
      else w.migratePages t (w.dev.pagesOutside t (o.field 40 8) (o.field 36 4)) (r, o.index) := by
  have checks := fun p hp => Dev.mayMigrate_checks (List.all_eq_true.mp hpages p hp)
  have hreach : (w.dev.rangePages (o.field 40 8) (o.field 36 4)).any (w.dev.foreignPage (o.field 33 1)) = false :=
    List.any_eq_false.mpr fun p hp => by simp [(checks p hp).1]
  have hloose : (w.dev.rangePages (o.field 40 8) (o.field 36 4)).any w.dev.pinnedPage = false :=
    List.any_eq_false.mpr fun p hp => by simp [(checks p hp).2]
  have hlength : (decide (o.field 36 4 % 65536 ≠ 0) || decide (o.field 36 4 = 0)) = false := by simp [hn, hn0]
  have hhas : (decide (t = spBarn) && !w.dev.boot.part.hasBarn) = false := by simpa using hbarn
  have haddress : (decide (o.field 40 8 % 65536 ≠ 0) || decide (2 ^ 46 < o.field 40 8 + o.field 36 4)
      || (w.dev.rangePages (o.field 40 8) (o.field 36 4)).any (w.dev.foreignPage (o.field 33 1))) = false := by
    rw [hreach, decide_eq_false (Nat.not_lt.mpr hend)]
    simp [ha]
  have hwritable : (decide (t = spShed) && w.dev.shed.readOnly) = false := by simpa using hshed
  have passes {c : Bool} (hc : c = false) {a b : W} : (if c = true then a else b) = b := if_neg (by simp [hc])
  simp only [doCommonsMigrate, ht]
  refine (passes hlength).trans ((passes hhas).trans ((passes haddress).trans ((passes hloose).trans ((passes hwritable).trans
    ((passes hfree).trans ?_)))))
  exact if_congr List.isEmpty_iff rfl rfl

end

/-- Settles O25: with its checks passed, each command reaches the branch in which it begins. -/
theorem pagesRetireAndMigrate : Obligations.PagesRetireAndMigrate := by
  refine ⟨?retire, ?migrate⟩
  case retire =>
    intro e s page table h w o tier htier hpage hnew hidle hroom
    exact act_fetch_ends h (doPageRetire_begins htier hpage hnew hidle hroom)
  case migrate =>
    intro e s t h w o a n ht hn hn0 hbarn ha hend hpages hshed pages hfree
    exact (act_fetch_ends h (doCommonsMigrate_begins ht hn hn0 hbarn ha hend hpages hshed hfree)).trans
      (apply_ite (fun w' => Outcome.next (W.leave s w')) _ _ _)

/-! ### Fills, copies and periods (R341, R356 to R358) -/

theorem W.pageFilled_found {page : Nat} {x : Retire} {w : W} (hx : w.dev.tiers.retiring.find? (fun x => x.page = page && !x.filled) = some x)
    (lost : List Nat) :
    w.pageFilled page lost = w.tiers fun t => { t with
      retiring := t.retiring.map fun y => if y.tier = x.tier && y.page = x.page then { y with filled := true, lost := lost } else y } := by
  simp only [W.pageFilled, hx]

/-- Changes the migrations of commons page `page`. -/
def W.changeMigration (page : Nat) (f : CommonsMig → CommonsMig) (w : W) : W :=
  w.tiers fun t => { t with migrations := t.migrations.map fun y => if y.page = page then f y else y }

section
variable {page : Nat} {m : CommonsMig} {w : W} (hm : w.dev.tiers.migrations.find? (fun m => m.page = page && !m.copied && m.place.isSome) = some m)
include hm

theorem W.commonsCopied_clean (hd : m.dirty = false) : w.commonsCopied page = w.changeMigration page fun y => { y with copied := true } := by
  simp only [W.commonsCopied, hm, hd, Bool.false_eq_true, if_false]
  rfl

theorem W.commonsCopied_dirty (hd : m.dirty = true) (hc : m.dirtyCount < 7) :
    w.commonsCopied page = w.changeMigration page fun y => { y with dirty := false, dirtyCount := y.dirtyCount + 1 } := by
  simp only [W.commonsCopied, hm, hd, Nat.not_le.mpr hc, if_true, if_false]
  rfl

theorem W.commonsCopied_givesUp (hd : m.dirty = true) (hc : 7 ≤ m.dirtyCount) : w.commonsCopied page = w.endMigration m .migrateBusy := by
  simp only [W.commonsCopied, hm, hd, hc, if_true]

end

/-- Settles O54: each end by the branch of its row in which it acts, and the period by its condition at its own herd count. -/
theorem pagesAreFilledAndCopied : Obligations.PagesAreFilledAndCopied := by
  refine ⟨?fill, ?copy, ?period⟩
  case fill =>
    intro page lost x s hs hx filled
    exact (actWind_working hs _).trans (congrArg (winds s) (W.pageFilled_found (w := W.of s) hx lost))
  case copy =>
    intro page m s hs hm change
    have hrow : exec (.commonsCopyDone page) s = winds s ((W.of s).commonsCopied page) := actWind_working hs _
    refine ⟨fun hd => ?_, fun hd hc => ?_, fun hd hc => ?_⟩
    · rw [hrow, W.commonsCopied_clean hm hd]
      rfl
    · rw [hrow, W.commonsCopied_dirty hm hd hc]
      rfl
    · rw [hrow, W.commonsCopied_givesUp hm hd hc]
  case period =>
    intro h s hs hauto hdue
    have hgo : (s.dev.boot.phase.collects && s.dev.tiers.commonsAuto && decide (h % s.dev.migTicks = 0)) = true :=
      Bool.and_eq_true_iff.mpr ⟨Bool.and_eq_true_iff.mpr ⟨hs, hauto⟩, decide_eq_true hdue⟩
    have hwhen : (W.of (atHerd s h)).when (s.dev.boot.phase.collects && s.dev.tiers.commonsAuto && decide (h % s.dev.migTicks = 0)) W.migrateAuto =
        (W.of (atHerd s h)).migrateAuto := if_pos hgo
    exact Eq.trans (b := winds (atHerd s h) _) rfl (congrArg (winds (atHerd s h)) hwhen)

end Sys2Proof.Machine
end

section
/-! SUPPORT. Memory right after reset, the storage queues and the shed's own work: commands accepted and ended, doorbells and resets of a queue, and the
happenings of the NAND controller (R364 to R370, R379 to R384). -/

namespace Sys2Proof.Machine

open Host

/-- Settles O5: no byte is listed right after reset. -/
theorem resetMemoryCanonical : Obligations.ResetMemoryCanonical :=
  show Memory.wf [] = true from rfl

/-- A command that asks for condition `c` of the device has its effect where the condition holds. -/
theorem act_when (c : Dev → Bool) {s : State} (hc : c s.dev = true) (f : W → W) : act (fun w => w.when (c w.dev) f) s = ends s (f (W.of s)) :=
  congrArg (ends s) (if_pos hc)

/-! ### Acceptance (R379, R383) -/

/-- Queue `q` once the command at its SUB_HEAD is fetched. -/
def W.pastHead (q : Nat) (w : W) : W := w.queue q fun g => { g with subHead := (g.subHead + 1) % 64 }

/-- The command that entry `e` with opcode `op`, fetched from index `i` of queue `q`, becomes when it is accepted. Only a DISCARD that may start has
started. -/
def W.acceptedCmd (q op i : Nat) (e : StorageEntry) (w : W) : StorageCmd :=
  let gs := granulesOf e.shedAddr.toNat e.length.toNat
  let c : StorageCmd := { op := op, entry := e, index := i, herd := w.herd, seq := w.dev.shed.place w.herd q, started := false, todo := gs
                          left := if op = 1 then [] else gs, lost := 0, saved := [] }
  { c with started := op = 3 && w.dev.mayStart q c }

/-- The device may fetch the command at SUB_HEAD of queue `q`. -/
structure Dev.Fetches (q : Nat) (d : Dev) : Prop where
  served : d.storageServed = true
  up : d.halter.isUp = true
  enabled : (d.queue q).enable = true
  noReset : (d.queue q).resetting = false
  waiting : (d.queue q).subHead ≠ (d.queue q).subTail
  room : (d.queue q).outstanding < 32

section
variable {q : Nat} {w : W} (h : w.dev.Fetches q) (op : Nat) (e : StorageEntry)
include h

/-- None of the conditions holds under which a fetch has no effect. -/
theorem Dev.Fetches.unblocked : (!w.dev.storageServed || !w.dev.halter.isUp || !(w.dev.queue q).enable || (w.dev.queue q).resetting
    || decide ((w.dev.queue q).subHead = (w.dev.queue q).subTail) || decide (32 ≤ (w.dev.queue q).outstanding)) = false := by
  simp [h.served, h.up, h.enabled, h.noReset, h.waiting, h.room]

/-- A command that fails a check completes at once with the status of the check. -/
theorem W.storageFetch_refused {st : Status} (hst : (w.pastHead q).dev.storageStatus q op e = some st) :
    w.storageFetch q op e = (w.pastHead q).storageDone q e.tag.toNat st (w.dev.queue q).subHead 0 := by
  unfold W.pastHead at hst
  simp only [W.storageFetch, h.unblocked, Bool.false_eq_true, if_false, hst]
  rfl

/-- A command that passes every check joins its queue as the last one accepted. -/
theorem W.storageFetch_accepted (hst : (w.pastHead q).dev.storageStatus q op e = none) :
    w.storageFetch q op e =
      (((w.pastHead q).queue q fun g => { g with out := g.out ++ [(w.pastHead q).acceptedCmd q op (w.dev.queue q).subHead e] }).shed fun y =>
        { y with nextSeq := y.nextSeq + 1 }).runStorage := by
  unfold W.pastHead at hst
  simp only [W.storageFetch, h.unblocked, Bool.false_eq_true, if_false, hst]
  rfl

end

/-- Each row of the storage commands fetches an entry of its opcode. -/
theorem exec_storageRow {q : Fin 8} {e : StorageEntry} {op : Nat} {i : Instr}
    (hi : (op, i) ∈ [(1, Instr.storageRead q e), (2, .storageWrite q e), (3, .storageDiscard q e)]) (s : State) :
    exec i s = act (W.storageFetch q.val op e) s := by
  simp only [List.mem_cons, Prod.mk.injEq, List.not_mem_nil, or_false] at hi
  rcases hi with ⟨rfl, rfl⟩ | ⟨rfl, rfl⟩ | ⟨rfl, rfl⟩ <;> rfl

/-- Settles O28: the three rows fetch alike, and the status of the checks decides between completion and acceptance. -/
theorem storageCommandsAreAccepted : Obligations.StorageCommandsAreAccepted := by
  intro q e s g fetched hserved hup henable hreset hwait hroom op i hi
  have h : (W.of s).dev.Fetches q.val := ⟨hserved, hup, henable, hreset, hwait, hroom⟩
  rw [exec_storageRow hi, act_eq]
  split
  next st hst => rw [W.storageFetch_refused h op e hst]; rfl
  next hst => rw [W.storageFetch_accepted h op e hst]; rfl

/-! ### Completion (R382) -/

/-- The effect of `c` overlays those of the commands accepted before it: their data for its granules is not awaited any more. A READ has no effect. -/
def W.overlaid (c : StorageCmd) (w : W) : W :=
  let mine := granulesOf c.entry.shedAddr.toNat c.entry.length.toNat
  if c.op = 1 then w else w.storageCmds fun x => if x.seq < c.seq then { x with left := x.left.filter fun g => !mine.contains g } else x

/-- A command with nothing left to do leaves its queue and completes; what it discards is durable then. -/
theorem W.storageEnd_finished {q tag : Nat} {c : StorageCmd} {w : W} (hc : (w.dev.queue q).out.find? (fun c => c.entry.tag.toNat = tag) = some c)
    (htodo : c.todo = []) (hleft : c.op = 2 → c.left = []) :
    w.storageEnd q tag =
      ((((if c.op = 3 then w.discardDurable c else w).queue q fun g => { g with out := g.out.filter (·.seq ≠ c.seq) }).overlaid c).storageDone q tag
        (if 0 < c.lost then .dataCheck else .done) c.index c.lost).runStorage := by
  have hfinished : (!c.todo.isEmpty || (decide (c.op = 2) && !c.left.isEmpty)) = false := by simpa [htodo] using hleft
  simp only [W.storageEnd, hc, hfinished, Bool.false_eq_true, if_false]
  rfl

/-- Settles O29: the NAND controller is at work, and the command has nothing left to do. -/
theorem storageCompletionEndsCommand : Obligations.StorageCompletionEndsCommand := by
  intro q tag s c hon hc htodo hleft
  have hrow : exec (.storageCompletion q tag) s = ends s ((W.of s).storageEnd q.val tag.val) := act_when Dev.nandOn hon _
  rw [hrow, W.storageEnd_finished hc htodo hleft]
  rfl

/-! ### Doorbells and resets (R379, R384) -/

/-- A change of a queue is what it makes of the queue as it stands. -/
theorem W.queue_congr {q : Nat} {f g : Queue → Queue} {w : W} (h : f (w.dev.queue q) = g (w.dev.queue q)) : w.queue q f = w.queue q g := by
  unfold Dev.queue at h
  simp only [W.queue, W.shed, h]

theorem Queue.moveHead_served {g : Queue} (h : g.resetting = false) (v : Nat) : g.moveHead v = { g with compHead := v } := by
  simp [Queue.moveHead, h]

theorem W.queueReset_begins {q : Nat} {w : W} (h : (w.dev.queue q).resetting = false) :
    w.queueReset q =
      (W.each ((w.dev.queue q).out.filter fun c => !c.started) (fun c w => w.storageDone q c.entry.tag.toNat .queueReset c.index 0)
        (w.queue q fun g => { g with resetting := true, out := g.out.filter (·.started) })).runStorage := by
  simp only [W.queueReset, h, Bool.false_eq_true, if_false]

theorem W.queueResetOver_ends {q : Nat} {w : W} (hp : w.dev.boot.phase.collects = true) (hr : (w.dev.queue q).resetting = true)
    (hout : (w.dev.queue q).out = []) (hheld : (w.dev.queue q).held = []) :
    w.queueResetOver q =
      w.queue q fun g => { g with subHead := 0, subTail := 0, compHead := 0, compTail := 0, resetting := false, enable := false } := by
  simp only [W.queueResetOver, hp, hr, hout, hheld, List.isEmpty_nil, Bool.and_self, if_true]

theorem Dev.hostReach_collects {d : Dev} (h : d.hostReach = true) : d.boot.phase.collects = true := by
  simp only [Dev.hostReach, Bool.and_eq_true] at h
  exact h.1.2

/-- Settles O30: the host reaches a queue that is served, so each row has its effect; COMP_HEAD lets nothing go on where no completion waits. -/
theorem storageQueuesMoveAndReset : Obligations.StorageQueuesMoveAndReset := by
  intro q s hreach hserved
  have hopen : (s.dev.hostReach && s.dev.storageServed) = true := Bool.and_eq_true_iff.mpr ⟨hreach, hserved⟩
  refine ⟨fun v hreset => ⟨?tail, fun hheld => ?head⟩, fun hreset => ?reset, fun hreset hout hheld => ?finish⟩
  case tail =>
    exact act_when (fun d => d.hostReach && d.storageServed && !(d.queue q.val).resetting) (by simp [hopen, hreset]) _
  case head =>
    refine (act_when (fun d => d.hostReach && d.storageServed) hopen _).trans (congrArg (ends s) ?_)
    have hnone : ((W.of s).dev.queue q.val).held.length = 0 := List.length_eq_zero_iff.mpr hheld
    rw [hnone, W.flushQueue]
    exact W.queue_congr (Queue.moveHead_served hreset v.toNat)
  case reset =>
    refine (act_when (fun d => d.hostReach && d.storageServed) hopen _).trans (congrArg (ends s) ?_)
    exact W.queueReset_begins (w := W.of s) hreset
  case finish =>
    exact congrArg (ends s) (W.queueResetOver_ends (w := W.of s) (Dev.hostReach_collects hreach) hreset hout hheld)

/-! ### The shed's own work (R364 to R370) -/

theorem Dev.nandOn_mounted {d : Dev} (h : d.nandOn = true) : d.shed.mounted = true := (Bool.and_eq_true_iff.mp h).1

/-- A happening on a channel that the part has has its effect. -/
theorem act_onChannel {s : State} {c : Nat} (hon : s.dev.nandOn = true) (hc : c < s.dev.shedN) (f : W → W) :
    act (fun w => w.when (w.dev.nandOn && decide (c < w.dev.shedN)) f) s = ends s (f (W.of s)) :=
  act_when (fun d => d.nandOn && decide (c < d.shedN)) (Bool.and_eq_true_iff.mpr ⟨hon, decide_eq_true hc⟩) f

/-- With few free blocks and no victim, the first full block in the order of R367 is the victim, and what it holds is written elsewhere. -/
theorem W.collect_picks {c : Nat} {b : Block} {w : W} (hm : w.dev.shed.mounted = true) (hc : c < w.dev.shedN)
    (hv : (w.dev.shed.chan c).victim = none) (hf : (w.dev.shed.chan c).free c < 64)
    (hb : firstBlock (fun b => (w.dev.shed.valid b).length) ((w.dev.shed.chan c).blocks.filter (·.state = 2)) = some b) :
    w.collect c = ((w.programAll c (w.dev.shed.valid b)).chan c fun ch => { ch with victim := some b.number }).wakeBackground := by
  simp only [W.collect, hc, hm, hv, hf, hb, Option.isNone_none, decide_true, Bool.and_self, if_true]

section
variable {c : Nat} {b : Block} {w : W} (hp : w.dev.nextPage c ≠ []) (hb : (w.dev.shed.chan c).opened c = some b)
include hp hb

/-- A page that is programmed has its granules durable. -/
theorem W.pageProgram_good :
    w.pageProgram c true =
      W.each (w.dev.nextPage c) (fun b w => w.durable b.granule b.seq) (w.programPage c ((w.dev.nextPage c).map (·.granule))) := by
  simp [W.pageProgram, hp, hb]

/-- A failed page program retires the open block. -/
theorem W.pageProgram_failed : w.pageProgram c false = w.retireBlock c b.number := by
  simp [W.pageProgram, hp, hb]

end

section
variable {c n : Nat} {w : W} (hv : (w.dev.shed.chan c).victim = some n)
include hv

/-- The erased victim is a free block, erased once more. -/
theorem W.erased_good :
    w.erased c n true = w.chan c fun ch =>
      { (ch.putBlock { (w.dev.shed.chan c).block n with state := 0, erases := ((w.dev.shed.chan c).block n).erases + 1, granules := [] }) with
        victim := none } := by
  simp only [W.erased, hv, if_true]

theorem W.erased_failed : w.erased c n false = (w.retireBlock c n).chan c fun ch => { ch with victim := none } := by
  simp only [W.erased, hv, Bool.false_eq_true, if_true, if_false]

end

/-- Settles O53: while the NAND controller is at work, each happening reaches the branch of its row in which it acts. -/
theorem shedMaintainsItself : Obligations.ShedMaintainsItself := by
  intro s hon
  refine ⟨?checkpoint, ?collect, ?program, ?erase⟩
  case checkpoint => exact act_when Dev.nandOn hon _
  case collect =>
    intro c b hc hv hf hb
    exact (act_when Dev.nandOn hon _).trans (congrArg (ends s) (W.collect_picks (w := W.of s) (Dev.nandOn_mounted hon) hc hv hf hb))
  case program =>
    intro c b hc hp hb page
    refine ⟨(act_onChannel hon hc _).trans (congrArg (ends s) ?_), (act_onChannel hon hc _).trans (congrArg (ends s) ?_)⟩
    · exact congrArg W.runStorage (W.pageProgram_good (w := W.of s) hp hb)
    · exact congrArg W.runStorage (W.pageProgram_failed (w := W.of s) hp hb)
  case erase =>
    intro c n hc hv b
    refine ⟨(act_onChannel hon hc _).trans (congrArg (ends s) ?_), (act_onChannel hon hc _).trans (congrArg (ends s) ?_)⟩
    · exact congrArg W.runStorage (W.erased_good (w := W.of s) hv)
    · exact congrArg W.runStorage (W.erased_failed (w := W.of s) hv)

end Sys2Proof.Machine
end

section
/-! SUPPORT. Drove ports: heads that fail, acknowledgement, replay after a timeout, and the loss of a port (R402, R403, R407). -/

namespace Sys2Proof.Machine

open Host

section
variable {port : Nat} {h : DroveHead} {w : W}

/-- A train whose head fails its CRC is refused, whatever it carries (R403). -/
theorem W.droveOrdered_badHead {kind : Nat} (hc : w.dev.boot.phase.collects = true) (hu : (w.dev.port port).state = 2)
    (hh : droveHeadGood kind h = false) (data : List Bytes) (f : W → W) : w.droveOrdered kind port h data f = w.droveNak port := by
  have hgo : (decide ((w.dev.port port).state ≠ 2) || !w.dev.boot.phase.collects) = false := by simp [hu, hc]
  simp only [W.droveOrdered, hgo, hh, Bool.not_false, Bool.false_eq_true, if_false, if_true]

theorem W.droveControl_good (hu : (w.dev.port port).state = 2) (hh : droveHeadGood 2 h = true) : w.droveControl port h = w.droveHead port h := by
  have hgo : (decide ((w.dev.port port).state ≠ 2) || !droveHeadGood 2 h) = false := by simp [hu, hh]
  simp only [W.droveControl, hgo, Bool.false_eq_true, if_false]

/-- A port that is UP replays where trains wait for their acknowledgement (R403). -/
theorem W.droveTimeout_replays (hu : (w.dev.port port).state = 2) (hs : (w.dev.port port).sent ≠ []) : w.droveTimeout port = w.droveReplay port := by
  have hgo : (decide ((w.dev.port port).state = 2) && !(w.dev.port port).sent.isEmpty) = true := by simp [hu, hs]
  rw [W.droveTimeout, if_pos hgo]

/-- The users that the record of a lost port names are those that it had while it was UP (R407, R443). -/
theorem W.droveLost_up (hu : (w.dev.port port).state = 2) (lanes : Nat) :
    w.droveLost port lanes =
      ((w.port port fun l => { l with state := 0, toSend := [], sent := [], discarding := false }).event 6 [Config.stateCode 2]).detect
        caLinkLost uDrove port lanes 0 (w.dev.portUsers port) := by
  rw [W.droveLost, if_neg (not_not_intro hu)]
  rfl

end

/-- Settles O40: each happening of a port that is UP reaches the branch of its row in which it acts. That a lost port writes
a LINK event is the model's choice (log entry 86). -/
theorem drovePortsAct : Obligations.DrovePortsAct := by
  intro port s hs hu w p
  refine ⟨?train, ?badHead, ?control, ?timeout, ?lost⟩
  case train =>
    intro h data hh ht hseq
    refine (act_working hs (W.droveTrain p h data)).trans (congrArg (ends s) ?_)
    exact W.droveOrdered_good (w := W.of s) hs hu hh ht hseq _
  case badHead =>
    intro h data hh
    refine (act_working hs (W.droveTrain p h data)).trans (congrArg (ends s) ?_)
    exact W.droveOrdered_badHead (w := W.of s) hs hu hh data _
  case control =>
    intro h hh
    exact (act_working hs (W.droveControl p h)).trans (congrArg (ends s) (W.droveControl_good hu hh))
  case timeout =>
    intro hsent
    exact (act_working hs (W.droveTimeout p)).trans (congrArg (ends s) (W.droveTimeout_replays hu hsent))
  case lost =>
    intro lanes down
    exact (actWind_working hs (W.droveLost p lanes.toNat)).trans (congrArg (winds s) (W.droveLost_up hu lanes.toNat))

end Sys2Proof.Machine
end

section
/-! SUPPORT. Detections, the ends of recoveries, scrubs and re-formations, the copy of the log and the defect list (R394, R396, R443 to R457, R486). -/

namespace Sys2Proof.Machine

open Host

/-! ### Detections (R333, R443) -/

section
variable {x : Detection} {cls : Nat} {w : W}

theorem W.detection_raised (hx : causeClass x.cause.toNat = some cls) (hp : (w.dev.detected x cls).ofPage = false) :
    w.detection x = w.raise (w.dev.detected x cls) := by
  simp only [W.detection, hx, hp, Bool.false_eq_true, if_false]

theorem W.detection_ofPage (hx : causeClass x.cause.toNat = some cls) (hp : (w.dev.detected x cls).ofPage = true) :
    w.detection x = w.pageDetection (w.dev.detected x cls) := by
  simp only [W.detection, hx, hp, if_true]

end

/-- A granule check at a page raises its record, whose cause is RETIRE_ADVISED from the second at the page on. -/
theorem W.pageDetection_granuleCheck {d : Detect} (hd : d.cause = caGranuleCheck) (w : W) :
    w.pageDetection d =
      (w.faults fun f => { f with badPages := insertNat (unitKey d.ukind d.detail) f.badPages }).raise
        (if w.dev.faults.badPages.contains (unitKey d.ukind d.detail) then { d with cause := caRetireAdvised } else d) := by
  have hne : d.cause ≠ caUncorrectable := by rw [hd]; decide
  simp only [W.pageDetection, if_pos hne]
  cases w.dev.faults.badPages.contains (unitKey d.ukind d.detail) with
  | false => simp only [Bool.and_false, Bool.false_eq_true, if_false]
  | true => simp only [hd, decide_true, Bool.and_true, if_true]

/-! ### Recoveries (R453) -/

theorem W.finishRecoveries_over {r : FaultRec} {w : W} (hr : w.dev.faults.recovering = some r) (ho : w.dev.recoveryOver r = true) (n : Nat) :
    w.finishRecoveries (n + 1) = w.endRecovery.finishRecoveries n := by
  simp only [W.finishRecoveries, hr, ho, if_true]

/-! ### The defect list (R486) -/

/-- A unit that is not on the list, which has room, goes to its end: the list grows, and no entry is left for this start only. -/
theorem W.addDefects_appends {e : DefectEntry} {w : W} (hn : (w.dev.boot.defects.any fun y => y.ukind = e.ukind && y.uindex = e.uindex) = false)
    (hl : w.dev.boot.defects.length < 8191) : w.addDefects [e] = w.boot (Boot.setDefects (w.dev.boot.defects ++ [e])) := by
  have hlisted : ((w.dev.boot.defects ++ [e]).any fun y => y.ukind = e.ukind && y.uindex = e.uindex) = true := by simp
  have hlonger : decide ((w.dev.boot.defects ++ [e]).length ≠ w.dev.boot.defects.length) = true := by simp
  simp only [W.addDefects, W.when, List.foldl_cons, List.foldl_nil, hn, Nat.not_le.mpr hl, decide_false, Bool.or_self, Bool.false_eq_true, if_false,
    List.filter_cons, List.filter_nil, hlisted, hlonger, Bool.not_true, List.isEmpty_nil, if_true]

theorem W.appendDefect_oldest {e : DefectEntry} {rest : List DefectEntry} {w : W} (ht : w.dev.boot.toAppend = e :: rest)
    (hn : (w.dev.boot.defects.any fun y => y.ukind = e.ukind && y.uindex = e.uindex) = false) (hl : w.dev.boot.defects.length < 8191) :
    w.appendDefect = (w.boot fun b => { b with toAppend := rest }).boot (Boot.setDefects (w.dev.boot.defects ++ [e])) := by
  simp only [W.appendDefect, ht]
  exact W.addDefects_appends hn hl

/-! ### Scrubs (R394, R396) -/

theorem W.wipe_st (f : Nat → Bool) (w : W) : (w.wipe f).st = w.st :=
  W.each_keeps (f := fun k => W.poke k 0) (g := W.st) (fun _ _ => rfl) _ w

section
variable {p : Nat} {q : Paddock} {w : W}

theorem W.scrubEnd_forming (hq : w.dev.pad? p = some q) (hs : q.scrubbing = true) (ht : q.state ≠ .tearing) :
    w.scrubEnd p = (w.wipe (w.dev.scrubbed p q)).pad p fun q => { q with scrubbing := false, scrubDone := true } := by
  simp only [W.scrubEnd, hq, hs, if_neg ht, Bool.not_true, Bool.false_eq_true, if_false]

/-- With the scrub of its teardown a paddock is gone, its held pages with it, and its command completes. -/
theorem W.scrubEnd_tearing {t : Teardown} (hq : w.dev.pad? p = some q) (hs : q.scrubbing = true) (ht : q.state = .tearing) (hd : q.teardown = some t) :
    w.scrubEnd p =
      let v := w.wipe (w.dev.scrubbed p q)
      (({ v with dev := { v.dev with pads := tdel p v.dev.pads } } : W).faults fun f =>
        { f with heldPages := f.heldPages.filter fun x => x.1 ≠ p }).complete t.ring t.index .done w.herd := by
  have hherd : (w.wipe (w.dev.scrubbed p q)).herd = w.herd := by rw [W.herd, W.wipe_st]; rfl
  simp only [W.scrubEnd, hq, hs, if_pos ht, hd, Bool.not_true, Bool.false_eq_true, if_false, ← hherd]
  rfl

end

/-! ### Re-formations (R396, R411) -/

/-- A teardown that waited for the re-formation begins with its end. -/
theorem exec_reformationEnd {p : Fin 64} {q : Paddock} {s : State} (hs : AtWork s) (hq : s.dev.pad? p.val = some q) (hr : q.reform.isSome = true) :
    exec (.reformationEnd p) s = winds s (((W.of s).reformEnd p.val).beginTeardown p.val) := by
  refine (actWind_working hs _).trans (congrArg (winds s) ?_)
  simp only [W.of_dev, hq, hr, if_true]

/-- Settles O47: each happening by the equation of its row, a detection by whether it is of a page, and a scrub by whether its paddock is torn down. -/
theorem faultHappeningsAct : Obligations.FaultHappeningsAct := by
  refine ⟨?detection, ?recovery, ?logCopy, ?defects, ?scrub, ?reform⟩
  case detection =>
    intro x cls s hs hx d
    have hrow : exec (.faultDetection x) s = winds s ((W.of s).detection x) := actWind_working hs (W.detection x)
    refine ⟨?_, ?_⟩
    · intro hp
      rw [hrow, W.detection_raised hx hp]; rfl
    · intro hp hd w
      rw [hrow, W.detection_ofPage hx hp]
      exact congrArg (winds s) (W.pageDetection_granuleCheck hd (W.of s))
  case recovery =>
    intro r s hs hr ho
    exact (actWind_working hs (W.finishRecoveries 17)).trans (congrArg (winds s) (W.finishRecoveries_over hr ho 16))
  case logCopy =>
    intro s hp
    exact act_when (fun d => d.boot.phase = .safe || d.boot.phase = .poweringDown) (by simpa using hp) W.copyLog
  case defects =>
    intro e rest s hs ht hn hl
    exact (act_working hs W.appendDefect).trans (congrArg (ends s) (W.appendDefect_oldest ht hn hl))
  case scrub =>
    intro p q s hs hq hscrub w
    have hrow : exec (.scrubEnd p) s = winds s ((W.of s).scrubEnd p.val) := actWind_working hs (W.scrubEnd p.val)
    refine ⟨?_, ?_⟩
    · intro ht
      exact hrow.trans (congrArg (winds s) (W.scrubEnd_forming hq hscrub ht))
    · intro t ht hd gone
      exact hrow.trans (congrArg (winds s) (W.scrubEnd_tearing hq hscrub ht hd))
  case reform =>
    intro p q s hs hq hr
    exact exec_reformationEnd hs hq hr

end Sys2Proof.Machine
end

section
/-! SUPPORT. Paddocks that form and that are torn down, and the host's accesses to device memory (R391 to R396, R404, R425). -/

namespace Sys2Proof.Machine

open Host

theorem begun_ring_out (s : State) (op : Nat) (e : Entry) : ((begun s op e).dev.ring e.ring.val).out = [order s op e] := by
  rw [begun, W.ring_ring_self]

/-! ### PADDOCK_FORM (R391, R392) -/

/-- The paddock that form block `f` makes for the command at index `i` of ring `r`. -/
def W.newPaddock (r i : Nat) (f : FormBlock) (w : W) : Paddock :=
  Paddock.new f.stables ((w.dev.mergePlace f.mergeBytes).getD 0) f.mergeBytes f.stageBytes (r, i)

/-- That paddock stands among those of the device. -/
def W.forming (r i : Nat) (f : FormBlock) (w : W) : W := { w with dev := { w.dev with pads := tput f.paddock (w.newPaddock r i f) w.dev.pads } }

/-- The shares of form block `f` are written into the pending tables, and a change of these waits for a launch point where there are any. -/
def W.writeShares (f : FormBlock) (w : W) : W :=
  let v := w.firmwareChange (W.slots fun s => { s with pend := putShares f.paddock f.shares s.pend, linkPend := putLinks f.paddock f.shares s.linkPend })
  if f.shares.isEmpty then v
  else v.addChange { cause := 4, tables := shareTables f.shares, links := f.shares.any (·.target = 8), stack := 0 }

/-- What neither the configuration check nor the change itself touches, a change of firmware leaves. -/
theorem W.firmwareChange_keeps {f : W → W} {g : W → β} (hc : ∀ c w, g (W.cfg c w) = g w) (hf : ∀ w, g (f w) = g w) (w : W) :
    g (w.firmwareChange f) = g w := by
  simp only [W.firmwareChange, W.commitCfg]
  split
  · exact hf w
  · rw [hc, hc, hf]

/-- Shares are written into the slot tables and the configuration check alone. -/
theorem W.writeShares_keeps {g : W → β} (hc : ∀ c w, g (W.cfg c w) = g w) (hs : ∀ c w, g (W.slots c w) = g w) (f : FormBlock) (w : W) :
    g (w.writeShares f) = g w := by
  simp only [W.writeShares, W.addChange]
  split
  · exact W.firmwareChange_keeps hc (hs _) w
  · rw [hs, W.firmwareChange_keeps hc (hs _)]

section
variable {w : W} {r : Nat} {o : Outstanding}

/-- A form block that passes its checks makes its paddock, while nobody holds the configuration window. -/
theorem doPaddockForm_forms (hf : w.dev.formStatus (w.payload o) = none) (hh : w.dev.regs.cfg.holder = none) :
    doPaddockForm w r o = (w.forming r o.index (parseForm (w.payload o))).writeShares (parseForm (w.payload o)) := by
  have hb : w.dev.regs.cfg.blocks = false := by simp only [CfgCheck.blocks, hh]
  simp only [doPaddockForm, hf, hb, Bool.false_eq_true, if_false]
  rfl

/-! ### PADDOCK_TEARDOWN (R396) -/

theorem doPaddockTeardown_begins {q : Paddock} (hq : w.dev.pad? (o.field 32 1) = some q) (hm : o.field 33 1 ≤ 1) (ht : q.teardown = none)
    (hi : (w.dev.indexes.any fun x => x.paddock = o.field 32 1) = false) (he : (w.dev.embs.any fun x => x.paddock = o.field 32 1) = false)
    (hs : q.state = .ready) :
    doPaddockTeardown w r o =
      (w.pad (o.field 32 1) fun q => { q with
        teardown := some { ring := r, index := o.index, abandon := o.field 33 1 = 1 } }).beginTeardown (o.field 32 1) := by
  have hnow : (decide (q.state = .reforming) || decide (q.state = .forming)) = false := by rw [hs]; rfl
  simp only [doPaddockTeardown, hq, ht, hi, he, hnow, Nat.not_lt.mpr hm, Option.isSome_none, decide_false, Bool.false_eq_true, if_false]

end

/-- Settles O19: the paddock that PADDOCK_FORM makes, its ring and memory are what the writing of its shares leaves; PADDOCK_TEARDOWN reaches its last
branch. -/
theorem paddocksFormAndTearDown : Obligations.PaddocksFormAndTearDown := by
  refine ⟨?form, ?teardown⟩
  case form =>
    intro e s h w f hf hh
    let v := w.forming e.ring.val (order s 0x20 e).index f
    have hpads : (v.writeShares f).dev.pads = v.dev.pads := W.writeShares_keeps (g := (·.dev.pads)) (fun _ _ => rfl) (fun _ _ => rfl) f v
    have hrings : (v.writeShares f).dev.rings = v.dev.rings := W.writeShares_keeps (g := (·.dev.rings)) (fun _ _ => rfl) (fun _ _ => rfl) f v
    have hlog : (v.writeShares f).log = [] := W.writeShares_keeps (g := W.log) (fun _ _ => rfl) (fun _ _ => rfl) f v
    have hpad : (v.writeShares f).dev.pad? f.paddock = some (w.newPaddock e.ring.val (order s 0x20 e).index f) := by
      rw [Dev.pad?, hpads]
      exact tget?_tput_same _ _ _
    refine ⟨(v.writeShares f).leave s, _, act_fetch_ends h (doPaddockForm_forms hf hh), hpad, rfl, rfl, ?_, ?_⟩
    · rw [W.leave_dev, Dev.ring, hrings]
      exact begun_ring_out s 0x20 e
    · rw [W.leave_mem, hlog]
      rfl
  case teardown =>
    intro e s q h w o p hq hm ht hi he hs
    exact act_fetch_ends h (doPaddockTeardown_begins hq hm ht hi he hs)

/-! ### HOST_WRITE, HOST_READ and PEER_COPY (R404, R425) -/

section
variable {w : W} {r : Nat} {o : Outstanding}

theorem doHostWrite_stores (hr : w.dev.hostRange (o.field 32 1) (o.field 40 8) (w.payload o).length = none)
    (ho : w.dev.hostOwner (o.field 32 1) (o.field 33 1) (o.field 40 8) = true)
    (hl : w.dev.liveStatus (fun x => (w.dev.hostKeys (o.field 32 1) (o.field 40 8) (w.payload o).length).any x.hasKey) = none) :
    doHostWrite w r o = (w.store (w.dev.spaceCells (o.field 32 1) (o.field 40 8) (w.payload o))).complete r o.index .done := by
  simp only [doHostWrite, hr, ho, hl, Bool.not_true, Bool.false_eq_true, if_false]

/-- With no granule that fails its check, HOST_READ answers the bytes that stand there. -/
theorem doHostRead_answers (hr : w.dev.hostRange (o.field 32 1) (o.field 40 8) o.entry.resultLen.toNat = none)
    (ho : w.dev.hostOwner (o.field 32 1) (o.field 33 1) (o.field 40 8) = true)
    (hg : failing w.dev (w.dev.hostKeys (o.field 32 1) (o.field 40 8) o.entry.resultLen.toNat) = []) :
    doHostRead w r o =
      w.complete r o.index .done 0 (w.spacePeeks (o.field 32 1) (o.field 40 8) o.entry.resultLen.toNat) := by
  simp only [doHostRead, hr, ho, hg, W.hostReadBytes, Bool.not_true, Bool.false_eq_true, if_false, List.isEmpty_nil, if_true, List.contains_nil]
  rfl

/-- With no granule that fails its check, PEER_COPY sends what stands there in trains of a channel whose number is a free value (log entry 45). -/
theorem doPeerCopy_sends (hp : o.field 32 1 < w.dev.boot.part.ports) (hr : w.dev.hostRange spCommons (o.field 40 8) (o.field 36 4) = none)
    (ha : o.field 48 8 + o.field 36 4 ≤ 2 ^ 46) (hu : (w.dev.port (o.field 32 1)).isUp = true)
    (hg : failing w.dev (w.dev.hostKeys spCommons (o.field 40 8) (o.field 36 4)) = []) :
    doPeerCopy w r o =
      (W.each (trainsOf 0 (Config.freeNat w.fresh.1 % 65536) 0 (o.field 48 8) (w.spacePeeks spCommons (o.field 40 8) (o.field 36 4)))
        (W.sendTrain (o.field 32 1) (mkEntry oHost 0)) w.fresh.2).complete r o.index .done := by
  have hg' : failing w.fresh.2.dev (w.fresh.2.dev.hostKeys spCommons (o.field 40 8) (o.field 36 4)) = [] := hg
  simp only [doPeerCopy, Nat.not_le.mpr hp, hr, Nat.not_lt.mpr ha, hu, hg', Bool.not_true, Bool.false_eq_true, if_false]
  rfl

end

/-- Settles O24: with its checks passed, each command reaches the branch in which it acts. The channel of PEER_COPY's trains is the model's choice
(log entry 45). -/
theorem hostReachesMemory : Obligations.HostReachesMemory := by
  refine ⟨?write, ?read, ?copy⟩
  case write =>
    intro e s h w o sp a b hr ho hl
    exact act_fetch_ends h (doHostWrite_stores hr ho hl)
  case read =>
    intro e s h w o sp a n hr ho hg
    exact act_fetch_ends h (doHostRead_answers hr ho hg)
  case copy =>
    intro e s h w o n a hp hr ha hu hg trains v
    exact act_fetch_ends h (doPeerCopy_sends hp hr ha hu hg)

end Sys2Proof.Machine
end

section
/-! SUPPORT. The Halter link: flits that are taken and refused, the replay, the loss of lanes and the end of training (R412 to R417). -/

namespace Sys2Proof.Machine

open Host

section
variable {f : HalterFlit} {lanes : Nat} {w : W}

/-- A DATA flit in order is acknowledged, and its BODY is taken behind what the last one left of a transaction (R413 to R415). -/
theorem W.halterData_good (hu : w.dev.halter.isUp = true) (hf : flitGood 1 f = true) (hs : f.seq.toNat = (w.dev.halter.rxLast + 1) % 65536) :
    w.halterData f =
      let v := (w.halterHead f).halter fun l => { l with rxLast := f.seq.toNat, discarding := false, freed := l.freed + 1 }
      let b := v.dev.halter.partialTx ++ fit 244 f.body
      v.takeTransactions b.length b := by
  simp only [W.halterData, hu, hf, if_pos hs, Bool.not_true, Bool.false_eq_true, if_false]

/-- A DATA flit that fails its CRC is refused, whatever it carries (R414). -/
theorem W.halterData_bad (hu : w.dev.halter.isUp = true) (hf : flitGood 1 f = false) : w.halterData f = w.halterNak := by
  simp only [W.halterData, hu, hf, Bool.not_true, Bool.not_false, Bool.false_eq_true, if_false, if_true]

theorem W.halterControl_good (hu : w.dev.halter.isUp = true) (hf : flitGood 2 f = true) : w.halterControl f = w.halterHead f := by
  have hgo : (!w.dev.halter.isUp || !flitGood 2 f) = false := by simp [hu, hf]
  simp only [W.halterControl, hgo, Bool.false_eq_true, if_false]

/-- A link that is UP replays where flits wait for their acknowledgement (R414). -/
theorem W.halterTimeout_replays (hu : w.dev.halter.isUp = true) (hs : w.dev.halter.sent ≠ []) : w.halterTimeout = w.halterReplay := by
  have hgo : (w.dev.halter.isUp && !w.dev.halter.sent.isEmpty) = true := by simp [hu, hs]
  rw [W.halterTimeout, if_pos hgo]

/-- The link is DOWN with its event, and trains anew. -/
def W.halterDown (w : W) : W := (w.halter fun l => { l with state := 1 }).event 6 [Config.stateCode 2]

/-- A half of the link, of whose lanes `lost` have lost lock, leaves its record if it has lost any. -/
def W.halfLost (half lanes lost : Nat) (w : W) : W := if lost ≠ 0 then w.detect caLinkLost uHalter half lanes 0 w.dev.halterUsers else w

/-- The link goes DOWN with the first lane that is lost, whichever half has it (R412, R416). -/
theorem W.halterLost_up (hu : w.dev.halter.isUp = true) (hl : lanes ≠ 0) :
    w.halterLost lanes = (w.halterDown.halfLost 0 lanes (lanes % 256)).halfLost 1 lanes (lanes / 256) := by
  have hgo : (!w.dev.halter.isUp || decide (lanes = 0)) = false := by simp [hu, hl]
  simp only [W.halterLost, hgo, Bool.false_eq_true, if_false]
  rfl

/-- The link is UP in state `up`, the full rate or half of it, with its event. -/
def W.halterTrained (up : Nat) (w : W) : W :=
  (w.halter fun l => if l.state = 0 then l.start up 512 else { l with state := up }).event 6 [Config.stateCode (if up = 3 then 4 else 3)]

/-- Training ends on lanes that lock: the link is UP, and what waited for the host is written (R412, R417). -/
theorem W.halterUp_locks (ht : w.dev.halterTrains = true) (hl : w.dev.halterState lanes ≠ 1) :
    w.halterUp lanes =
      let half := if lanes % 256 = 255 then 1 else 0
      let fenced := w.dev.unitFenced uHalter 0 || w.dev.unitFenced uHalter 1
      let up := w.dev.halterState lanes
      let v := w.halterTrained up
      (if up = 3 && !fenced && !v.dev.boot.starting then v.detect caLinkHalf uHalter half half 0 v.dev.halterUsers else v).drainHost.flushHost := by
  simp only [W.halterUp, ht, if_neg hl, Bool.not_true, Bool.false_eq_true, if_false]
  rfl

/-- Where no half locks the link goes on training. -/
theorem W.halterUp_unlocked (ht : w.dev.halterTrains = true) (hl : w.dev.halterState lanes = 1) :
    w.halterUp lanes = w.halter fun l => { l with state := 1 } := by
  simp only [W.halterUp, ht, if_pos hl, Bool.not_true, Bool.false_eq_true, if_false]

end

/-- Settles O39: each happening of the Halter link reaches the branch of its row in which it acts. That a half under a standing fence leaves no LINK_HALF
record (log entry 112), and that retraining keeps the sequence state (log entry 86), are the model's choices. -/
theorem halterLinkActs : Obligations.HalterLinkActs := by
  intro s hs w
  refine ⟨?data, ?badData, ?control, ?timeout, ?lost, ?trained, ?untrained⟩
  case data =>
    intro f hu hf hseq
    exact (actWind_working hs (W.halterData f)).trans (congrArg (winds s) (W.halterData_good (w := W.of s) hu hf hseq))
  case badData =>
    intro f hu hf
    exact (actWind_working hs (W.halterData f)).trans (congrArg (winds s) (W.halterData_bad (w := W.of s) hu hf))
  case control =>
    intro f hu hf
    exact (act_working hs (W.halterControl f)).trans (congrArg (ends s) (W.halterControl_good (w := W.of s) hu hf))
  case timeout =>
    intro hu hsent
    exact (act_working hs W.halterTimeout).trans (congrArg (ends s) (W.halterTimeout_replays (w := W.of s) hu hsent))
  case lost =>
    intro lanes hu hl
    exact (act_working hs (W.halterLost lanes.toNat)).trans (congrArg (ends s) (W.halterLost_up (w := W.of s) hu hl))
  case trained =>
    intro lanes ht hl
    exact (actWind_working hs (W.halterUp lanes.toNat)).trans (congrArg (winds s) (W.halterUp_locks (w := W.of s) ht hl))
  case untrained =>
    intro lanes ht hl
    exact (actWind_working hs (W.halterUp lanes.toNat)).trans (congrArg (winds s) (W.halterUp_unlocked (w := W.of s) ht hl))

end Sys2Proof.Machine
end

section
/-! SUPPORT. Every command answers a next state with the queue as it was, and the host's index writes change their index alone (R418, R420, R422, R424). -/

namespace Sys2Proof.Machine

open Host

/-! ### Every command -/

theorem ActsOn.answers {s : State} {o : Outcome State Fault Refusal} (h : ActsOn s o) : ∃ t, o = .next t := by
  obtain ⟨f, c, rfl⟩ := h
  exact ⟨_, rfl⟩

/-- An action leaves the queue, at whatever herd count it falls. -/
theorem ActsOn.pending {s t : State} {o : Outcome State Fault Refusal} (h : ActsOn s o) (ht : o = .next t) : t.pending = s.pending := by
  obtain ⟨f, c, rfl⟩ := h
  obtain ⟨_, hq, _, _⟩ := act_next ht
  exact hq

/-- Settles O2: every row is an action, and an action answers a next state. -/
theorem everyCommandAnswers : Obligations.EveryCommandAnswers := fun c s => (actsOn_exec c s).answers

/-- Settles O3: every row is an action, and an action leaves the queue. -/
theorem commandsLeaveQueue : Obligations.CommandsLeaveQueue := fun c s _ ht => (actsOn_exec c s).pending ht

/-! ### Doorbells -/

/-- A ring whose stream store is empty writes nothing. -/
theorem W.drainStream_nil {r : Nat} {w : W} (h : (w.dev.ring r).heldStr = []) : w.drainStream r (w.dev.ring r).heldStr.length = w := by
  rw [h]
  rfl

/-- Settles O27: the host reaches the registers, so each row has its effect; STR_HEAD lets nothing go on where no stream entry waits. -/
theorem doorbellsMoveIndices : Obligations.DoorbellsMoveIndices := by
  intro s hreach
  refine ⟨fun r v => ?subTail, fun r v => ?cplHead, fun r v hheld => ?strHead, fun v => ?evtHead⟩
  case subTail => exact act_when Dev.hostReach hreach (W.ring r.val fun g => { g with subTail := v.toNat })
  case cplHead => exact act_when Dev.hostReach hreach (W.ring r.val fun g => { g with cplHead := v.toNat })
  case strHead =>
    refine (act_when Dev.hostReach hreach _).trans (congrArg (ends s) (W.drainStream_nil ?_))
    rw [W.ring_ring_self]
    exact hheld
  case evtHead => exact act_when Dev.hostReach hreach (W.events fun e => { e with head := v.toNat })

end Sys2Proof.Machine
end

section
/-! SUPPORT. The completion of a command: what it leaves of the rings, which bytes it writes, and the entry that then stands in host memory (R420, R421). -/

namespace Sys2Proof.Machine

open Host

/-! ### Memory after a command's writes -/

/-- A write of one byte leaves every other byte, whatever form the memory has: entries of other keys keep their order. -/
theorem memRead_memWrite_ne {a k : Nat} (hne : a ≠ k) (b : Byte) (m : Memory) : memRead (memWrite k b m) a = memRead m a := by
  have put (c : Byte) (r : Memory) : memRead ((k, c) :: r) a = memRead r a := by simp [memRead, tget, tget?, Ne.symm hne]
  induction m with
  | nil =>
    simp only [memWrite]
    split
    · rfl
    · exact put b []
  | cons y r ih =>
    obtain ⟨j, c⟩ := y
    have kept : memRead ((j, c) :: memWrite k b r) a = memRead ((j, c) :: r) a := by
      simp only [memRead, tget, tget?] at ih ⊢
      split
      · rfl
      · exact ih
    simp only [memWrite]
    split
    · split
      · rfl
      · exact put b _
    · split
      · rename_i heq
        subst heq
        split
        · exact (put c r).symm
        · exact (put b r).trans (put c r).symm
      · exact kept

theorem memWriteAll_append (m : Memory) (l : List Cell) (x : Cell) : memWriteAll m (l ++ [x]) = memWrite x.1 x.2 (memWriteAll m l) := by
  simp [memWriteAll]

/-- In a canonical memory the bytes that a command leaves are those that its working record reads. -/
theorem memRead_leave {s : State} {w : W} (hm : Memory.wf s.mem = true) (hs : w.st = s) (k : Nat) : memRead (w.leave s).mem k = w.peek k := by
  obtain ⟨st, dev, log⟩ := w
  subst hs
  show memRead (memWriteAll st.mem log.reverse) k = W.peek ⟨st, dev, log⟩ k
  induction log with
  | nil => rfl
  | cons x l ih =>
    obtain ⟨j, b⟩ := x
    rw [List.reverse_cons, memWriteAll_append]
    by_cases hk : k = j
    · subst hk
      rw [memRead_memWrite_same _ _ _ (memWriteAll_wf _ _ hm)]
      exact (W.peek_poke_same k b ⟨st, dev, l⟩).symm
    · rw [memRead_memWrite_ne hk, ih hm]
      exact (W.peek_poke_other hk b ⟨st, dev, l⟩).symm

/-! ### Writes that reach host memory alone -/

/-- Every byte that the working record has written lies in host memory. -/
def W.HostOnly (w : W) : Prop := ∀ x ∈ w.log, keySpace x.1 = spHost

theorem W.HostOnly.memRead {s : State} {w : W} (h : w.HostOnly) {k : Nat} (hk : keySpace k ≠ spHost) :
    memRead (w.leave s).mem k = Machine.memRead s.mem k := by
  have unwritten : ∀ l : List Cell, (∀ x ∈ l, keySpace x.1 = spHost) → Machine.memRead (memWriteAll s.mem l.reverse) k = Machine.memRead s.mem k := by
    intro l
    induction l with
    | nil => intro _; rfl
    | cons x l ih =>
      intro hl
      have hne : k ≠ x.1 := fun e => hk (e ▸ hl x List.mem_cons_self)
      rw [List.reverse_cons, memWriteAll_append, memRead_memWrite_ne hne]
      exact ih fun y hy => hl y (List.mem_cons_of_mem _ hy)
  exact unwritten w.log h

theorem W.HostOnly.pokes {w : W} (h : w.HostOnly) {k : Nat} {b : Bytes} (hk : ∀ i < b.length, keySpace (k + i) = spHost) : (w.pokes k b).HostOnly := by
  induction b generalizing k w with
  | nil => exact h
  | cons x r ih =>
    refine ih (w := w.poke k x) (k := k + 1) (fun y hy => ?_) fun i hi => ?_
    · rcases List.mem_cons.mp hy with rfl | hy
      · exact hk 0 (Nat.succ_pos _)
      · exact h y hy
    · rw [Nat.add_assoc, Nat.add_comm 1 i]
      exact hk (i + 1) (Nat.succ_lt_succ hi)

theorem W.HostOnly.emit {w : W} (h : w.HostOnly) {tx : Bytes} (hl : tx.length < 2 ^ 64) : (w.emit tx).HostOnly := by
  unfold W.emit
  split
  · refine HostOnly.pokes (w := w.halter (Link.emit tx)) h fun i hi => keySpace_host (fld_lt tx 8 8) ?_
    rw [List.length_drop] at hi
    omega
  · exact h

theorem W.HostOnly.sendTx {w : W} (h : w.HostOnly) {cls key : Nat} {tx : Bytes} (hl : tx.length < 2 ^ 64) : (w.sendTx cls key tx).HostOnly := by
  unfold W.sendTx
  split
  · exact h.emit hl
  · exact h

theorem W.HostOnly.writeHost {w : W} (h : w.HostOnly) (cls key a : Nat) (b : Bytes) : (w.writeHost cls key a b).HostOnly := by
  unfold W.writeHost W.each
  have hp : ∀ x ∈ hostParts b, x.2.length ≤ 4103 := fun x hx => hostParts_length hx
  generalize hostParts b = l at hp
  induction l generalizing w with
  | nil => exact h
  | cons x r ih =>
    refine ih (h.sendTx ?_) fun y hy => hp y (List.mem_cons_of_mem _ hy)
    have hx := hp x List.mem_cons_self
    rw [List.length_append, txHeader_length]
    omega

theorem W.HostOnly.message {w : W} (h : w.HostOnly) (cls v : Nat) : (w.message cls v).HostOnly := h.sendTx (by rw [txHeader_length]; decide)

theorem W.HostOnly.ring {w : W} (h : w.HostOnly) (r : Nat) (f : Ring → Ring) : (w.ring r f).HostOnly := h

theorem W.HostOnly.deliver {w : W} (h : w.HostOnly) (r : Nat) (c : Completion) : (w.deliver r c).HostOnly := by
  unfold W.deliver
  have hdata := h.writeHost clData 0 c.resultAt c.result
  exact W.HostOnly.message (W.HostOnly.ring (W.HostOnly.writeHost hdata _ _ _ _) r _) _ r

theorem W.HostOnly.post {w : W} (h : w.HostOnly) (r : Nat) (c : Completion) : (w.post r c).HostOnly := by
  unfold W.post
  split
  · exact h.deliver r c
  · exact h

/-- A completion writes host memory alone. -/
theorem W.HostOnly.complete {w : W} (h : w.HostOnly) (r i : Nat) (st : Status) (v : Nat) (b : Bytes) : (w.complete r i st v b).HostOnly := by
  cases ho : w.dev.outstanding? r i with
  | none => simpa only [W.complete, ho] using h
  | some o =>
    rw [complete_of_outstanding ho]
    exact W.HostOnly.post (h.ring r _) r _

/-! ### The rings after a completion -/

theorem W.writeHost_rings (cls key a : Nat) (b : Bytes) (w : W) : (w.writeHost cls key a b).dev.rings = w.dev.rings := by
  rw [(W.writeHost_frame cls key a b w).1]

theorem W.message_rings (cls v : Nat) (w : W) : (w.message cls v).dev.rings = w.dev.rings := by
  rw [W.message, (W.sendTx_frame ..).1]

/-- The place of the next completion: one further, and PHASE inverts with the wrap (R421). -/
def Ring.delivered (g : Ring) : Ring := { g with cplTail := (g.cplTail + 1) % 256, phase := if g.cplTail = 255 then !g.phase else g.phase }

theorem W.deliver_rings (r : Nat) (c : Completion) (w : W) : (w.deliver r c).dev.rings = tput r (w.dev.ring r).delivered w.dev.rings := by
  simp only [W.deliver, W.message_rings, W.ring, Dev.ring, W.writeHost_rings]
  rfl

/-- What a completion does to the rings: its own has moved the place of the next one, or holds it among those that wait for the link. -/
theorem W.post_rings (r : Nat) (c : Completion) (w : W) :
    ∃ g : Ring, g.subHead = (w.dev.ring r).subHead ∧ (w.post r c).dev.rings = tput r g w.dev.rings := by
  unfold W.post
  split
  · exact ⟨(w.dev.ring r).delivered, rfl, W.deliver_rings r c w⟩
  · exact ⟨{ w.dev.ring r with heldCpl := (w.dev.ring r).heldCpl ++ [c] }, rfl, rfl⟩

/-- A completion changes no other ring. -/
theorem W.complete_ring_other {r q : Nat} (hq : q ≠ r) (i : Nat) (st : Status) (v : Nat) (b : Bytes) (w : W) :
    (w.complete r i st v b).dev.ring q = w.dev.ring q := by
  cases ho : w.dev.outstanding? r i with
  | none => simp only [W.complete, ho]
  | some o =>
    obtain ⟨g, -, hrings⟩ := W.post_rings r _ (w.ring r _)
    rw [complete_of_outstanding ho, Dev.ring, hrings, tget_tput_other _ hq]
    exact W.ring_ring_other hq _ w

/-- A completion leaves SUB_HEAD. -/
theorem W.complete_subHead (r i : Nat) (st : Status) (v : Nat) (b : Bytes) (w : W) :
    ((w.complete r i st v b).dev.ring r).subHead = (w.dev.ring r).subHead := by
  cases ho : w.dev.outstanding? r i with
  | none => simp only [W.complete, ho]
  | some o =>
    obtain ⟨g, hhead, hrings⟩ := W.post_rings r _ (w.ring r _)
    rw [complete_of_outstanding ho, Dev.ring, hrings, tget_tput_same, hhead, W.ring_ring_self]

theorem W.complete_dev (r i : Nat) (st : Status) (v : Nat) (b : Bytes) (w : W) :
    (w.complete r i st v b).dev =
      { w.dev with rings := (w.complete r i st v b).dev.rings, halter := (w.complete r i st v b).dev.halter } := by
  cases ho : w.dev.outstanding? r i with
  | none => simp only [W.complete, ho]
  | some o => rw [complete_of_outstanding ho, W.post_dev]; rfl

/-! ### NOP -/

theorem exec_nop {e : Entry} {s : State} (h : Accepts 0x01 e s) : exec (.nop e) s = answered s 0x01 e .done 0 [] (begun s 0x01 e) :=
  act_fetch_accepts h

/-- Settles O9: NOP is its completion, which changes its ring, the link and host memory. -/
theorem nopCompletesDone : Obligations.NopCompletesDone := by
  intro e s h
  refine ⟨exec_nop h, fun t ht => ?_⟩
  rw [exec_nop h, answered, Outcome.next.injEq] at ht
  subst ht
  let w := begun s 0x01 e
  have hwritten : W.HostOnly w := fun _ hx => nomatch hx
  refine ⟨?out, ?subHead, ?device, fun q hq => ?others, fun k hk => ?memory⟩
  case out => rw [W.leave_dev, W.complete_out, begun_ring_out]; simp
  case subHead => rw [W.leave_dev, W.complete_subHead, begun, W.ring_ring_self]; rfl
  case device => exact W.complete_dev _ _ _ _ _ w
  case others => exact (W.complete_ring_other hq _ _ _ _ w).trans (W.ring_ring_other hq _ _)
  case memory => exact (hwritten.complete _ _ _ _ _).memRead hk

end Sys2Proof.Machine
end

section
/-! SUPPORT. The entry of a completion: its transaction, when that stands in host memory, and when it waits for credits (R414, R415, R421). -/

namespace Sys2Proof.Machine

open Host

theorem W.deliver_st (r : Nat) (c : Completion) (w : W) : (w.deliver r c).st = w.st := by
  simp only [W.deliver, W.message]
  rw [(W.sendTx_frame ..).2.1, W.ring_st, (W.writeHost_frame ..).2.1, (W.writeHost_frame ..).2.1]

/-! ### Fields of the entry (R421) -/

theorem Completion.bytes_length (c : Completion) (r : Nat) (ph : Bool) : (c.bytes r ph).length = 32 := by
  simp only [Completion.bytes, List.length_append, leBytes_length]

theorem Completion.bytes_status (c : Completion) (r : Nat) (ph : Bool) : ((c.bytes r ph).drop 2).take 2 = leBytes 2 c.status := by
  simp only [Completion.bytes, List.append_assoc]
  rw [List.drop_left' (leBytes_length 2 _), List.take_left' (leBytes_length 2 _)]

theorem Completion.bytes_cmdId (c : Completion) (r : Nat) (ph : Bool) : ((c.bytes r ph).drop 4).take 4 = leBytes 4 c.cmdId := by
  rw [show 4 = 2 + 2 from rfl, ← List.drop_drop]
  simp only [Completion.bytes, List.append_assoc]
  rw [List.drop_left' (leBytes_length 2 _), List.drop_left' (leBytes_length 2 _), List.take_left' (leBytes_length 4 _)]

theorem Completion.bytes_herd (c : Completion) (r : Nat) (ph : Bool) : ((c.bytes r ph).drop 8).take 8 = leBytes 8 c.herd := by
  rw [show ((c.bytes r ph).drop 8) = (((c.bytes r ph).drop 2).drop 2).drop 4 by rw [List.drop_drop, List.drop_drop]]
  simp only [Completion.bytes, List.append_assoc]
  rw [List.drop_left' (leBytes_length 2 _), List.drop_left' (leBytes_length 2 _), List.drop_left' (leBytes_length 4 _),
    List.take_left' (leBytes_length 8 _)]

/-- A field of bytes that are read one by one. -/
theorem map_range_field {f : Nat → Byte} {b : Bytes} {off n : Nat} (h : ∀ i (hi : i < b.length), f i = b[i]) (hn : off + n ≤ b.length) :
    ((List.range n).map fun i => f (off + i)) = (b.drop off).take n := by
  refine List.ext_getElem (by simp; omega) fun i hi _ => ?_
  simp only [List.length_map, List.length_range] at hi
  simp [h (off + i) (by omega)]

/-- An entry that stands in memory shows its fields there. -/
theorem Completion.fields_of_memory {m : Memory} {k r : Nat} {ph : Bool} {c : Completion}
    (h : ∀ i (hi : i < (c.bytes r ph).length), memRead m (k + i) = (c.bytes r ph)[i]) :
    ((List.range 2).map fun i => memRead m (k + 2 + i)) = leBytes 2 c.status ∧
    ((List.range 4).map fun i => memRead m (k + 4 + i)) = leBytes 4 c.cmdId ∧
    ((List.range 8).map fun i => memRead m (k + 8 + i)) = leBytes 8 c.herd := by
  have field (off n : Nat) (hn : off + n ≤ 32) : ((List.range n).map fun i => memRead m (k + off + i)) = ((c.bytes r ph).drop off).take n := by
    simp only [Nat.add_assoc k]
    exact map_range_field (f := fun i => memRead m (k + i)) h (hn.trans_eq (c.bytes_length r ph).symm)
  exact ⟨(field 2 2 (by decide)).trans (c.bytes_status r ph), (field 4 4 (by decide)).trans (c.bytes_cmdId r ph),
    (field 8 8 (by decide)).trans (c.bytes_herd r ph)⟩

/-! ### The transaction of an entry -/

/-- The WRITE that carries completion `c` to the place of the next completion of ring `r`. -/
def Ring.entryTx (r : Nat) (c : Completion) (g : Ring) : Bytes := txHeader 1 0 0 32 (g.cpl + 32 * g.cplTail) ++ c.bytes r g.phase

theorem Ring.entryTx_length (r : Nat) (c : Completion) (g : Ring) : (g.entryTx r c).length = 48 := by
  simp only [Ring.entryTx, List.length_append, txHeader_length, Completion.bytes_length]

/-- Without result bytes a completion is the WRITE of its entry, then the MESSAGE. -/
theorem W.deliver_entry {r : Nat} {c : Completion} (hc : c.result = []) (w : W) :
    w.deliver r c = ((w.sendTx clRecord 0 ((w.dev.ring r).entryTx r c)).ring r Ring.delivered).message clRecord r := by
  have hlen := c.bytes_length r (w.dev.ring r).phase
  have hne : c.bytes r (w.dev.ring r).phase ≠ [] := fun h => by simp [h] at hlen
  simp only [W.deliver, hc, W.writeHost_nil, Dev.doneClass, List.isEmpty_nil, Bool.not_true, Bool.false_and, Bool.false_eq_true, if_false]
  rw [W.writeHost_short hne (by omega), hlen]
  rfl

/-- Sending takes nothing away from what waits. -/
theorem W.mem_toSend_sendTx {x : Waiting} {w : W} (hx : x ∈ w.dev.halter.toSend) (cls key : Nat) (tx : Bytes) :
    x ∈ (w.sendTx cls key tx).dev.halter.toSend := by
  unfold W.sendTx
  split
  · rw [W.emit_dev]
    exact hx
  · rw [← List.takeWhile_append_dropWhile (p := Waiting.before cls key) (l := w.dev.halter.toSend), List.mem_append] at hx
    exact List.mem_append.mpr (hx.imp_right (List.mem_cons_of_mem _))

/-- Without a credit a transaction waits. -/
theorem W.sendTx_waits {w : W} (hw : w.dev.halter.credits = 0) {cls key : Nat} {tx : Bytes} (ht : tx ≠ []) :
    { cls := cls, key := key, bytes := tx } ∈ (w.sendTx cls key tx).dev.halter.toSend := by
  have hlen : 0 < tx.length := List.length_pos_of_ne_nil ht
  have hfull : w.dev.halter.takes tx = false := by
    simp only [Link.takes, hw, ceilDiv, Bool.and_eq_false_iff, decide_eq_false_iff_not]
    exact .inr (by omega)
  simp only [W.sendTx, hfull, Bool.false_and, Bool.false_eq_true, if_false]
  exact List.mem_append.mpr (.inr List.mem_cons_self)

/-- A MESSAGE writes no byte. -/
theorem W.peek_message (cls v k : Nat) (w : W) : (w.message cls v).peek k = w.peek k := by
  have hop : fld (txHeader 4 0 0 0 v) 0 1 = 4 := by simpa using txHeader_op 4 0 0 0 v []
  unfold W.message W.sendTx
  split
  · simp only [W.emit, hop, Nat.reduceEqDiff, if_false]
    rfl
  · rfl

theorem W.peek_ring (r k : Nat) (f : Ring → Ring) (w : W) : (w.ring r f).peek k = w.peek k := rfl

theorem W.mem_toSend_message {x : Waiting} {w : W} (hx : x ∈ w.dev.halter.toSend) (cls v : Nat) : x ∈ (w.message cls v).dev.halter.toSend :=
  W.mem_toSend_sendTx hx ..

section
variable {r : Nat} {c : Completion} {w : W}

/-- Where nothing waits on the link and it takes the entry, its bytes stand at the place of the next completion (DEDUCED: log entry 137). -/
theorem W.peek_deliver {g : Ring} (hg : w.dev.ring r = g) (hc : c.result = []) (hs : w.dev.halter.toSend = []) (hu : w.dev.halter.isUp = true)
    (hk : w.dev.halter.credits ≠ 0) (i : Nat) (hi : i < (c.bytes r g.phase).length) :
    (w.deliver r c).peek (hostKey ((g.cpl + 32 * g.cplTail) % 2 ^ 64) + i) = (c.bytes r g.phase)[i] := by
  have ht : w.dev.halter.takes (g.entryTx r c) = true := by
    simp only [Link.takes, hu, Ring.entryTx_length, ceilDiv, Bool.true_and, decide_eq_true_eq]
    omega
  rw [W.deliver_entry hc, W.peek_message, W.peek_ring, hg, W.sendTx_now hs ht, Ring.entryTx]
  exact W.peek_emit_same hi w

theorem W.mem_toSend_deliver {g : Ring} (hg : w.dev.ring r = g) (hc : c.result = []) (hk : w.dev.halter.credits = 0) :
    { cls := clRecord, key := 0, bytes := g.entryTx r c } ∈ (w.deliver r c).dev.halter.toSend := by
  have ht : g.entryTx r c ≠ [] := fun h => by simpa [h] using g.entryTx_length r c
  rw [W.deliver_entry hc, hg]
  refine W.mem_toSend_message ?_ clRecord r
  rw [W.ring_halter]
  exact W.sendTx_waits hk ht

end

/-! ### NOP while the link is UP -/

/-- The completion of a NOP. -/
def nopCompletion (e : Entry) (s : State) : Completion :=
  { status := Status.done.code, cmdId := e.cmdId.toNat, herd := s.clock.herd, index := (s.dev.ring e.ring.val).subHead, value := 0
    resultAt := e.result.toNat, result := [] }

/-- The working record in which a NOP is outstanding no more. -/
def nopOver (e : Entry) (s : State) : W := (begun s 0x01 e).ring e.ring.val fun g => { g with out := g.out.filter (·.index ≠ (order s 0x01 e).index) }

/-- Its ring stands where it stood but for SUB_HEAD. -/
theorem nopOver_ring (e : Entry) (s : State) :
    (nopOver e s).dev.ring e.ring.val =
      { s.dev.ring e.ring.val with subHead := ((s.dev.ring e.ring.val).subHead + 1) % 256, out := [] } := by
  rw [nopOver, W.ring_ring_self, begun, W.ring_ring_self]
  simp

theorem exec_nop_delivers {e : Entry} {s : State} (h : Accepts 0x01 e s) (hu : s.dev.halter.isUp = true) :
    exec (.nop e) s = ends s ((nopOver e s).deliver e.ring.val (nopCompletion e s)) := by
  have hup : (nopOver e s).dev.halter.isUp = true := hu
  refine (exec_nop h).trans (congrArg (ends s) ?_)
  rw [complete_of_outstanding (begun_outstanding s 0x01 e), List.take_nil]
  exact if_pos hup

/-- Settles O10: the entry is one WRITE, which the link takes at once (log entry 137) or which waits for a credit; the ring then moves the place of the
next completion. -/
theorem completionEntryIsWritten : Obligations.CompletionEntryIsWritten := by
  intro e s t h hm hu ht g at_ c tx
  rw [exec_nop_delivers h hu, ends, Outcome.next.injEq] at ht
  subst ht
  have hring := nopOver_ring e s
  have hafter : ((nopOver e s).deliver e.ring.val (nopCompletion e s)).dev.ring e.ring.val = ((nopOver e s).dev.ring e.ring.val).delivered := by
    rw [Dev.ring, W.deliver_rings, tget_tput_same]
  refine ⟨fun hs hk => ?written, fun hk => ?waits, ?cplTail, ?phase⟩
  case written =>
    refine Completion.fields_of_memory (c := c) (r := e.ring.val) (ph := g.phase) fun i hi => ?_
    rw [memRead_leave hm (W.deliver_st ..)]
    exact W.peek_deliver hring rfl hs hu hk i hi
  case waits =>
    have htx : tx = ((nopOver e s).dev.ring e.ring.val).entryTx e.ring.val c := by rw [hring]; rfl
    rw [W.leave_dev, htx]
    exact W.mem_toSend_deliver (c := nopCompletion e s) rfl rfl hk
  case cplTail => rw [W.leave_dev, hafter, hring]; rfl
  case phase => rw [W.leave_dev, hafter, hring]; rfl

end Sys2Proof.Machine
end

section
/-! SUPPORT. ADMIN and FENCE of a ring's commands, MUSTER, and batches that join a paddock's queue (R420, R424, R427, R437, R475). -/

namespace Sys2Proof.Machine

open Host

/-! ### ADMIN and FENCE (R420, R424) -/

/-- A command that needs ADMIN is denied before anything else of its entry is looked at. -/
theorem W.runCommand_denied {r : Nat} {o : Outstanding} {w : W} (hop : anyRing o.op = false) (ha : (w.dev.ring r).admin = false) :
    w.runCommand r o = w.complete r o.index .denied := by
  simp only [W.runCommand, hop, ha, Bool.not_false, Bool.and_self, if_true]

/-- A command with FENCE waits for every earlier one of its ring. -/
theorem Dev.mayStartCommand_fence {d : Dev} {g : Ring} {o p : Outstanding} {rest : List Outstanding} (hg : g.out = p :: rest) (hp : p ≠ o)
    (hf : o.entry.flags.getLsbD 0 = true) : d.mayStartCommand g o = false := by
  simp [Dev.mayStartCommand, hg, hp, hf]

theorem begun_admin (s : State) (op : Nat) (e : Entry) : ((begun s op e).dev.ring e.ring.val).admin = (s.dev.ring e.ring.val).admin := by
  rw [begun, W.ring_ring_self]
  rfl

/-- Settles O11: a quiet ring runs the fetched command at once, where ADMIN is the first check; a FENCE looks for the command at the front. -/
theorem commandsNeedAdminAndWaitForFence : Obligations.CommandsNeedAdminAndWaitForFence := by
  refine ⟨fun op e s hq hop hadmin => ?denied, fun d g o p rest hg hp hf => Dev.mayStartCommand_fence hg hp hf⟩
  case denied =>
    rw [act_eq, fetch_quiet hq]
    exact congrArg (ends s) (W.runCommand_denied hop ((begun_admin s op e).trans hadmin))

/-! ### MUSTER (R437, R438) -/

theorem begun_tenant (s : State) (op : Nat) (e : Entry) : ((begun s op e).dev.ring e.ring.val).tenant = (s.dev.ring e.ring.val).tenant := by
  rw [begun, W.ring_ring_self]
  rfl

/-- Settles O12: the fetch of the command leaves its ring's ADMIN and tenant. -/
theorem musterWritesRecord : Obligations.MusterWritesRecord := by
  intro e s h g w
  refine act_fetch_ends h ?_
  show doMuster (begun s 0x02 e) e.ring.val (order s 0x02 e) = _
  rw [doMuster, begun_admin, begun_tenant]
  rfl

/-! ### Wakes beside the paddocks -/

/-- A wake touches the power domains and the Drove ports. -/
theorem W.wake_keeps {g : W → β} (hpower : ∀ (f : Power → Power) w, g (w.power f) = g w) (hport : ∀ (p : Nat) (f : Link → Link) w, g (w.port p f) = g w)
    (n : Nat) (w : W) : g (w.wake n) = g w := by
  have hdomain (f : Domain → Domain) (v : W) : g (v.domain n f) = g v := by
    unfold W.domain
    split
    · rfl
    · exact hpower _ v
  unfold W.wake
  dsimp only
  split
  · rfl
  · split
    · exact (W.when_keeps (hport _ _) _ _).trans (hdomain _ w)
    · exact hdomain _ w

theorem W.wakePad_keeps {g : W → β} (hpower : ∀ (f : Power → Power) w, g (w.power f) = g w)
    (hport : ∀ (p : Nat) (f : Link → Link) w, g (w.port p f) = g w) (p : Nat) (w : W) : g (w.wakePad p) = g w := by
  unfold W.wakePad
  split
  · split
    · rfl
    · exact W.each_keeps (W.wake_keeps hpower hport) _ w
  · rfl

theorem W.wakePad_pads (p : Nat) (w : W) : (w.wakePad p).dev.pads = w.dev.pads :=
  W.wakePad_keeps (g := (·.dev.pads)) (fun _ _ => rfl) (fun _ _ _ => rfl) p w

theorem W.wakePad_log (p : Nat) (w : W) : (w.wakePad p).log = w.log :=
  W.wakePad_keeps (g := W.log) (fun _ _ => rfl) (fun _ _ _ => rfl) p w

/-! ### BATCH (R427, R428) -/

theorem Dev.pad?_W_pad {p : Nat} {q : Paddock} {w : W} (hq : w.dev.pad? p = some q) (f : Paddock → Paddock) : (w.pad p f).dev.pad? p = some (f q) := by
  simp only [W.pad, hq]
  exact tget?_tput_same _ _ _

/-- The batch that command `o` of ring `r` asks for. -/
def W.batchOf (r : Nat) (o : Outstanding) (w : W) : Batch :=
  { Batch.blank with
    ring := r, index := o.index, cmdId := o.entry.cmdId.toNat, family := o.field 36 4, seed := o.field 40 8
    launch := if (o.field 33 1).testBit 1 then some (o.field 48 8) else none, pauseLive := (o.field 33 1).testBit 0
    window := o.entry.payload.toNat, windowLen := o.payloadLen, tenant := (w.dev.ring r).tenant, accepted := o.herd }

/-- With its checks passed a batch joins its paddock's queue, whose domains wake. -/
theorem doBatch_queues {w : W} {r : Nat} {o : Outstanding} {q : Paddock} (hq : w.dev.pad? (o.field 32 1) = some q) (ht : q.state ≠ .tearing)
    (hf : o.field 33 1 ≤ 3)
    (hx : maxNat ((q.plans.filter fun x => x.family = o.field 36 4 && x.kind ≠ pkService).map
      (LoadEnv.hostExtent { dev := w.dev, p := o.field 32 1, pad := q })) ≤ o.payloadLen) :
    doBatch w r o = (w.pad (o.field 32 1) fun q => { q with batches := q.batches ++ [w.batchOf r o] }).wakePad (o.field 32 1) := by
  simp only [doBatch, hq, if_neg (Nat.not_lt.mpr hf), if_neg ht, if_neg (Nat.not_lt.mpr hx)]
  rfl

/-- Settles O14: the wakes leave paddocks, rings and memory, so the batch stands last in its queue and its command is outstanding still. -/
theorem batchQueues : Obligations.BatchQueues := by
  intro e s q h w o p hq ht hf hx
  let queued := w.pad p fun q => { q with batches := q.batches ++ [w.batchOf e.ring.val o] }
  refine ⟨(queued.wakePad p).leave s, w.batchOf e.ring.val o, act_fetch_ends h (doBatch_queues hq ht hf hx), ?queue, rfl, rfl, rfl, rfl, rfl, rfl, ?out, ?mem⟩
  case queue =>
    rw [W.leave_dev, Dev.pad?, W.wakePad_pads, ← Dev.pad?, Dev.pad?_W_pad hq]
    rfl
  case out =>
    rw [W.leave_dev, Dev.ring, (W.Beside.wakePad p queued).rings, W.pad_rings]
    exact begun_ring_out s 0x12 e
  case mem =>
    rw [W.leave_mem, W.wakePad_log, W.pad_log]
    rfl

end Sys2Proof.Machine
end

section
/-! SUPPORT. GO of MUSTER_CTL, GO of RCV_CTL and the writes of PWR_CTL: where the registers lie, and what a write of them does (R437, R470, R493, R496,
R508 to R512). -/

namespace Sys2Proof.Machine

open Host

/-! ### Registers that act as soon as they are written -/

/-- The BOOT block answers in every phase, IMAGE_WAIT among them (R510). -/
theorem Dev.regAt_boot (d : Dev) {off : Nat} (herd : Nat) (hlt : off < 0x1000) (hal : off % 4 = 0) : d.regAt herd (bBoot + off) = d.bootReg off := by
  have hal' : (bBoot + off) % 4 = 0 := by unfold bBoot; omega
  have hbig : ¬ 2 ^ 32 ≤ bBoot + off := by unfold bBoot; omega
  have hbelow : ∀ k ≤ bBoot, ¬ bBoot + off < k := by omega
  have hfault : bBoot + off < bFault := by unfold bBoot bFault; omega
  simp only [Dev.regAt, hal', hbig, hfault, hbelow bCfg (by decide), hbelow bBoot le_rfl, Nat.le_add_right, Nat.add_sub_cancel_left, ne_eq,
    not_true_eq_false, decide_true, Bool.and_self, Bool.not_true, Bool.and_false, Bool.false_eq_true, if_false, if_true]

/-- A register that is not checked acts on a write of a master that has the privilege it asks for (R511, R512). -/
theorem W.writeKey_acts {m : Master} {k : Nat} {r : Reg} {w : W} (hr : w.dev.regAt w.herd k = some r) (hp : r.priv = true → masterPriv m = true)
    (hc : isChecked k = false) (addr v : Nat) : w.writeKey m addr k v = w.actReg m k v := by
  have hpass : (r.priv && !masterPriv m) = false := by
    cases hpriv : r.priv with
    | false => rfl
    | true => simp [hp hpriv]
  simp only [W.writeKey, hr, hpass, hc, Bool.false_eq_true, if_false]

/-- A direct address below the indirect pairs is its register's key. -/
theorem W.writeDirect_key {a : Nat} (h : a < bIdx) (m : Master) (v : Nat) (w : W) : w.writeDirect m a v = w.writeKey m a a v := by
  have hmapped : ¬ 2 ^ 24 ≤ a := by unfold bIdx at h; omega
  have hpair : idxData a = none := by simp [idxData, Nat.not_le.mpr h]
  simp only [W.writeDirect, hpair, if_neg hmapped]

theorem W.byMaster_reach {m : Master} {s : State} (h : s.dev.reach m = true) (f : W → W) : W.byMaster m f (W.of s) = f (W.of s) := if_pos h

/-! ### MUSTER_CTL (R437) -/

theorem W.musterCtl_go (m : Master) (w : W) : w.writeDirect m (bBoot + 0x18) 1 = w.musterGo := by
  have hreg := w.dev.regAt_boot (off := 0x18) w.herd (by decide) (by decide)
  rw [W.writeDirect_key (by decide), W.writeKey_acts hreg (fun h => absurd h Bool.false_ne_true) (by decide)]
  rfl

/-! ### PWR_CTL (R470) -/

theorem W.pwrCtl_acts {m : Master} {w : W} (hm : masterPriv m = true) (hw : w.dev.boot.phase ≠ .imageWait) (addr v : Nat) :
    w.writeKey m addr (indKey 0 0x2_0004) v = w.writePwrCtl v := by
  have hreg := Dev.regAt_indKey (off := 0x2_0004) w.herd 0 hw (by decide) (by decide)
  have hc : isChecked (indKey 0 0x2_0004) = false := (isChecked_indKey 0 (by decide)).trans (by decide)
  rw [W.writeKey_acts hreg (fun _ => hm) hc]
  rfl

theorem W.writePwrCtl_enter {w : W} (h : w.dev.boot.phase = .run) : w.writePwrCtl 1 = w.power fun p => { p with standbyAsked := true } :=
  if_pos h

/-- Out of STANDBY the paddocks wake that have batches or live requests. -/
theorem W.writePwrCtl_exit {w : W} (h : w.dev.boot.phase = .standby) :
    w.writePwrCtl 2 =
      let busy := w.dev.pads.filter fun (x : Nat × Paddock) => !x.2.batches.isEmpty || !(w.dev.livePad x.1).isEmpty
      W.each (busy.map (·.1)) W.wakePad ((w.power fun p => { p with standbyAsked := false }).boot fun b => { b with phase := .run }) :=
  if_pos h

theorem exec_standbyEnter {m : Master} {s : State} (h : Reaches m s) (hm : masterPriv m = true) :
    exec (.standbyEnter m) s = ends s ((W.of s).writePwrCtl 1) :=
  congrArg (ends s) ((W.byMaster_reaches h _).trans (W.pwrCtl_acts hm h.noWait _ _))

theorem exec_standbyExit {m : Master} {s : State} (h : Reaches m s) (hm : masterPriv m = true) :
    exec (.standbyExit m) s = winds s ((W.of s).writePwrCtl 2) :=
  congrArg (winds s) ((W.byMaster_reaches h _).trans (W.pwrCtl_acts hm h.noWait _ _))

/-! ### RCV_CTL (R493, R496) -/

/-- The boot ROM installs an image where that is asked for. -/
def Boot.installIf (install : Bool) (i : Image) (b : Boot) : Boot := if install then b.install i else b

/-- The boot ROM uses an image. -/
def Boot.useImage (i : Image) (b : Boot) : Boot :=
  { (if i.kind = imFirmware then { b with fw := some i } else { b with cfg := some i } : Boot) with rcvStatus := Status.done.code }

/-- With both images present bring-up goes on from stage 1. -/
def Boot.resume (herd : Nat) (b : Boot) : Boot :=
  if b.fw.isSome && b.cfg.isSome then { b with phase := .bringUp, stagesDone := 1, stageStart := herd } else b

section
variable (install : Bool) (i : Image) (b : Boot)

/-- Installing puts the image in its region of the tack store, whose header and owner record it may write; nothing else changes. -/
theorem Boot.install_eq :
    ∃ tack, b.install i = if i.kind = imFirmware then { b with tackFw := some i, tack := tack } else { b with tackCfg := some i, tack := tack } := by
  unfold Boot.install
  by_cases hk : i.kind = imFirmware
  · simp only [if_pos hk]
    split <;> exact ⟨_, rfl⟩
  · simp only [if_neg hk]
    split <;> exact ⟨_, rfl⟩

theorem Boot.installIf_firmware (hk : i.kind = imFirmware) :
    ∃ tack, b.installIf install i = { b with tackFw := if install then some i else b.tackFw, tack := tack } := by
  obtain ⟨tack, htack⟩ := b.install_eq i
  rw [if_pos hk] at htack
  cases install with
  | false => exact ⟨b.tack, rfl⟩
  | true => exact ⟨tack, htack⟩

theorem Boot.installIf_config (hk : i.kind = imConfig) :
    ∃ tack, b.installIf install i = { b with tackCfg := if install then some i else b.tackCfg, tack := tack } := by
  obtain ⟨tack, htack⟩ := b.install_eq i
  rw [if_neg (by rw [hk]; decide)] at htack
  cases install with
  | false => exact ⟨b.tack, rfl⟩
  | true => exact ⟨tack, htack⟩

theorem Boot.installIf_phase : (b.installIf install i).phase = b.phase := by
  obtain ⟨tack, htack⟩ := b.install_eq i
  cases install with
  | false => rfl
  | true =>
    rw [Boot.installIf, if_pos rfl, htack]
    split <;> rfl

theorem Boot.useImage_firmware (hk : i.kind = imFirmware) : b.useImage i = { b with fw := some i, rcvStatus := Status.done.code } := by
  simp only [Boot.useImage, if_pos hk]

theorem Boot.useImage_config (hk : i.kind = imConfig) : b.useImage i = { b with cfg := some i, rcvStatus := Status.done.code } := by
  have hno : i.kind ≠ imFirmware := by rw [hk]; decide
  simp only [Boot.useImage, if_neg hno]

theorem Boot.useImage_phase : (b.useImage i).phase = b.phase := by
  unfold Boot.useImage
  dsimp only
  split <;> rfl

end

/-- Going on changes the phase, the stage and its start. -/
theorem Boot.resume_frame (herd : Nat) (b : Boot) :
    b.resume herd = { b with phase := (b.resume herd).phase, stagesDone := (b.resume herd).stagesDone, stageStart := (b.resume herd).stageStart } := by
  unfold Boot.resume
  split <;> rfl

/-- Bring-up goes on with both images, and otherwise the phase stays. -/
theorem Boot.resume_phase (herd : Nat) (b : Boot) :
    if (b.resume herd).fw.isSome && (b.resume herd).cfg.isSome then (b.resume herd).phase = .bringUp ∧ (b.resume herd).stagesDone = 1
    else (b.resume herd).phase = b.phase := by
  by_cases h : (b.fw.isSome && b.cfg.isSome) = true
  · simp only [Boot.resume, if_pos h, and_self]
  · simp only [Boot.resume, if_neg h]

theorem W.writeRcvCtl_go {v : Nat} {w : W} (hv : v.testBit 0 = true) (hw : w.dev.boot.phase = .imageWait) :
    w.writeRcvCtl .secure v = (w.boot fun b => { b with rcvInstall := v.testBit 2 }).receiveImage := by
  have hgo : (v.testBit 0 && decide ((w.boot fun b => { b with rcvInstall := v.testBit 2 }).dev.boot.phase = .imageWait) &&
      decide (Master.secure = .secure)) = true := by
    rw [hv, W.boot_boot, hw]
    rfl
  exact if_pos hgo

theorem W.receiveImage_verified {i : Image} {w : W}
    (hv : w.dev.boot.verify w.dev.boot.wanted (w.peeks (hostKey (w.dev.boot.rcvHi * 2 ^ 32 + w.dev.boot.rcvLo)) w.dev.boot.rcvLen) = .ok i) :
    w.receiveImage = w.boot fun b => ((b.installIf b.rcvInstall i).useImage i).resume w.herd := by
  delta W.receiveImage -- its equation lemma is slow to derive
  simp only [hv]
  rfl

/-- GO of RCV_CTL over a SECURE transaction in IMAGE_WAIT takes an image that verifies. -/
theorem W.rcvCtl_go (install : Bool) {i : Image} {w : W} (hw : w.dev.boot.phase = .imageWait)
    (hv : w.dev.boot.verify w.dev.boot.wanted (w.peeks (hostKey (w.dev.boot.rcvHi * 2 ^ 32 + w.dev.boot.rcvLo)) w.dev.boot.rcvLen) = .ok i) :
    w.writeDirect .secure (bBoot + 0x0C) (if install then 5 else 1) =
      w.boot fun b => ((Boot.installIf install i { b with rcvInstall := install }).useImage i).resume w.herd := by
  have hreg := w.dev.regAt_boot (off := 0x0C) w.herd (by decide) (by decide)
  have hgo : (if install then 5 else 1).testBit 0 = true := by cases install <;> decide
  have hinstall : (if install then 5 else 1).testBit 2 = install := by cases install <;> decide
  have hact (v : Nat) : w.actReg .secure (bBoot + 0x0C) v = w.writeRcvCtl .secure v := rfl
  rw [W.writeDirect_key (by decide), W.writeKey_acts hreg (fun _ => rfl) (by decide), hact, W.writeRcvCtl_go hgo hw, hinstall]
  exact W.receiveImage_verified (w := w.boot fun b => { b with rcvInstall := install }) hv

theorem exec_rcvCtlGo (install : Bool) {i : Image} {s : State} (hr : s.dev.reach .secure = true) (hw : s.dev.boot.phase = .imageWait)
    (hv : s.dev.boot.verify s.dev.boot.wanted ((W.of s).peeks (hostKey (s.dev.boot.rcvHi * 2 ^ 32 + s.dev.boot.rcvLo)) s.dev.boot.rcvLen) = .ok i) :
    exec (.rcvCtlGo .secure install) s =
      ends s ((W.of s).boot fun b => ((Boot.installIf install i { b with rcvInstall := install }).useImage i).resume s.clock.herd) :=
  congrArg (ends s) ((W.byMaster_reach hr _).trans (W.rcvCtl_go (w := W.of s) install hw hv))

/-- Settles O34: each write reaches the action of its register. A received image is in use, and the tack store's where it is installed; the phase then
depends on whether both images are there. -/
theorem bootAndPowerRegistersAct : Obligations.BootAndPowerRegistersAct := by
  refine ⟨fun s hr => ?muster, fun install i s hr hw hv => ?receive, fun m s h hm => ⟨fun hrun => ?enter, fun hstandby => ?exit⟩⟩
  case muster => exact congrArg (ends s) ((W.byMaster_reach hr _).trans (W.musterCtl_go .plain _))
  case receive =>
    refine ⟨_, exec_rcvCtlGo install hr hw hv, rfl, rfl, ?_⟩
    rw [W.leave_dev, W.boot_boot, W.of_dev]
    have hresumed := ((Boot.installIf install i { s.dev.boot with rcvInstall := install }).useImage i).resume_phase s.clock.herd
    rw [Boot.useImage_phase, Boot.installIf_phase, hw] at hresumed
    refine ⟨?status, fun hk => ?firmware, fun hk => ?config, hresumed⟩
    case status => rw [Boot.resume_frame]; rfl
    case firmware =>
      obtain ⟨tack, htack⟩ := Boot.installIf_firmware install i { s.dev.boot with rcvInstall := install } hk
      rw [Boot.resume_frame, Boot.useImage_firmware i _ hk, htack]
      exact ⟨rfl, rfl, rfl⟩
    case config =>
      obtain ⟨tack, htack⟩ := Boot.installIf_config install i { s.dev.boot with rcvInstall := install } hk
      rw [Boot.resume_frame, Boot.useImage_config i _ hk, htack]
      exact ⟨rfl, rfl, rfl⟩
  case enter => exact (exec_standbyEnter h hm).trans (congrArg (ends s) (W.writePwrCtl_enter hrun))
  case exit => exact (exec_standbyExit h hm).trans (congrArg (winds s) (W.writePwrCtl_exit hstandby))

end Sys2Proof.Machine
end

section
/-! SUPPORT. The safe state, and every other phase in which the module does not work: what each row leaves of it then (R450, R510, R541, R542). -/

namespace Sys2Proof.Machine

open Host

/-! ### Guards that are shut -/

theorem W.when_shut {c : Bool} (h : c = false) (f : W → W) (w : W) : w.when c f = w := by
  rw [h]
  rfl

/-- An action that changes nothing leaves the state as it is. -/
theorem act_unchanged {f : W → W} {s : State} (h : f (W.of s) = W.of s) : act f s = .next s := (act_eq f s).trans (by rw [h]; rfl)

section
variable {w : W} (hp : w.dev.boot.phase.collects = false)
include hp

theorem W.working_parked (f : W → W) : W.working f w = w := W.when_shut hp f w

theorem W.queueResetOver_parked (q : Nat) : w.queueResetOver q = w := by simp [W.queueResetOver, hp]

theorem W.byMaster_parked (m : Master) (f : W → W) : W.byMaster m f w = w := W.when_shut (by simp [Dev.reach, hp]) f w

/-- No command of a ring starts. -/
theorem W.wind_parked : w.wind = w := by simp [W.wind, hp]

/-- Every phase in which a ring is fetched from is one of work. -/
theorem W.fetch_parked (op : Nat) (e : Entry) : w.fetch op e = w := by
  have hphase : w.dev.boot.phase ≠ .run ∧ w.dev.boot.phase ≠ .standby := by
    constructor <;> intro h <;> simp [h, Phase.collects] at hp
  simp [W.fetch, Dev.mayFetch, hphase]

end

section
variable {d : Dev} (hp : d.boot.phase.collects = false)
include hp

theorem Dev.hostReach_parked : d.hostReach = false := by simp [Dev.hostReach, hp]

/-- No step runs. -/
theorem Dev.liveStep_parked (p : Nat) : d.liveStep? p = none := by simp [Dev.liveStep?, hp]

end

theorem runWord_parked {s : State} (hp : s.dev.boot.phase.collects = false) (cls : Nat) (ok : Ctx → W → Bool) (f : Ctx → W → W) (p w j : Nat) :
    runWord cls ok f p w j s = .next s := by
  unfold runWord
  split
  · rfl
  · simp [hp, idle_eq]

/-- Settles O8: the guard of each of the six rows asks for a phase in which the module works. -/
theorem parkedModuleKeepsDevice : Obligations.ParkedModuleKeepsDevice := by
  intro m addr v e p w j s hp
  have windParked (f : W → W) (hf : f (W.of s) = W.of s) : actWind f s = .next s := act_unchanged (by rw [hf]; exact W.wind_parked hp)
  refine ⟨?write, ?read, ?batch, ?pass, ?boundary, ?recovery⟩
  case write => exact windParked _ (W.byMaster_parked hp m _)
  case read => exact act_unchanged (W.byMaster_parked hp m _)
  case batch => exact act_unchanged (W.fetch_parked hp 0x12 e)
  case pass => exact runWord_parked hp cPASS anyWord doPass p.val w j
  case boundary =>
    show execStepBoundary p s = .next s
    simp only [execStepBoundary, Dev.liveStep_parked hp, idle_eq]
  case recovery => exact windParked _ (W.working_parked hp _)

/-! ### What the gatehouse alone does -/

/-- From `w` to `w'` no byte is written, the phase stays, and of the device only records of the gatehouse differ: those of the start, of power and of the
management bus. -/
structure W.GatehouseOnly (w w' : W) : Prop where
  log : w'.log = w.log
  phase : w'.dev.boot.phase = w.dev.boot.phase
  dev : w'.dev = { w.dev with boot := w'.dev.boot, power := w'.dev.power, mgmt := w'.dev.mgmt }

namespace W.GatehouseOnly
variable {w : W}

theorem of_eq {w' : W} (h : w' = w) : GatehouseOnly w w' := h ▸ ⟨rfl, rfl, rfl⟩

theorem shut {c : Bool} (h : c = false) {f : W → W} : GatehouseOnly w (w.when c f) := of_eq (W.when_shut h f w)

theorem when {c : Bool} {f : W → W} (h : GatehouseOnly w (f w)) : GatehouseOnly w (w.when c f) := by
  unfold W.when
  split
  · exact h
  · exact of_eq rfl

theorem boot {f : Boot → Boot} (h : (f w.dev.boot).phase = w.dev.boot.phase) : GatehouseOnly w (w.boot f) := ⟨rfl, h, rfl⟩
theorem power (f : Power → Power) : GatehouseOnly w (w.power f) := ⟨rfl, rfl, rfl⟩
theorem mgmt (f : Mgmt → Mgmt) : GatehouseOnly w (w.mgmt f) := ⟨rfl, rfl, rfl⟩

/-- The bus answers or refuses, in its own record. -/
theorem busAnswer (b : Bytes) : GatehouseOnly w (w.busAnswer b) := by
  unfold W.busAnswer
  split <;> exact mgmt _

theorem alertResponse : GatehouseOnly w w.alertResponse := by
  unfold W.alertResponse
  split
  · exact busAnswer _
  · exact mgmt _

end W.GatehouseOnly

/-- `o` answers a state in which, beside the clock, only records of the gatehouse differ from `s`. -/
def Rests (s : State) (o : Outcome State Fault Refusal) : Prop :=
  ∃ (w : W) (c : Clock), (W.of s).GatehouseOnly w ∧ o = .next (w.leave { s with clock := c })

section
variable {s : State} {f : W → W}

theorem rests_act (h : (W.of s).GatehouseOnly (f (W.of s))) : Rests s (act f s) := ⟨_, s.clock, h, rfl⟩

theorem rests_idle : Rests s (idle s) := rests_act (.of_eq rfl)

theorem rests_actAt (n : Nat) (h : (W.of (atHerd s n)).GatehouseOnly (f (W.of (atHerd s n)))) : Rests s (actAt n f s) :=
  have ⟨hlog, hphase, hdev⟩ := h
  ⟨_, s.clock.advance n, ⟨hlog, hphase, hdev⟩, rfl⟩

/-- Where the module does not work, what an action lets start adds nothing. -/
theorem rests_actWind (hp : s.dev.boot.phase.collects = false) (h : f (W.of s) = W.of s) : Rests s (actWind f s) :=
  rests_act (.of_eq (by rw [h]; exact W.wind_parked hp))

theorem rests_actWindAt (n : Nat) (hp : s.dev.boot.phase.collects = false) (h : f (W.of (atHerd s n)) = W.of (atHerd s n)) :
    Rests s (actWindAt n f s) :=
  rests_actAt n (f := fun w => (f w).wind) (.of_eq (by rw [h]; exact W.wind_parked hp))

end

/-! ### Rows that choose whether they act -/

section
variable {s : State} (hp : s.dev.boot.phase.collects = false)
include hp

theorem rests_runWord (cls : Nat) (ok : Ctx → W → Bool) (f : Ctx → W → W) (p w j : Nat) : Rests s (runWord cls ok f p w j s) :=
  runWord_parked hp cls ok f p w j ▸ rests_idle

theorem rests_execLaunchPoint (h : Nat) : Rests s (execLaunchPoint h s) := by
  unfold execLaunchPoint
  split
  · exact rests_actWindAt h hp (W.working_parked hp _)
  · exact rests_idle

theorem rests_execLockstepTimeout (p : Fin 64) : Rests s (execLockstepTimeout p s) := by
  unfold execLockstepTimeout
  split
  · exact rests_idle
  · exact rests_actWindAt _ hp (W.working_parked hp _)

theorem rests_ofLiveStep (p : Nat) (f : Step → Outcome State Fault Refusal) :
    Rests s (match s.dev.liveStep? p with | none => idle s | some x => f x) := by
  rw [Dev.liveStep_parked hp]
  exact rests_idle

theorem rests_execSyncMessage (count : DWord) (check : Byte) (stop : Bool) (h : Nat) : Rests s (execSyncMessage count check stop h s) := by
  simp only [execSyncMessage, hp, Bool.not_false, Bool.true_or, if_true]
  exact rests_idle

theorem rests_execSyncStale : Rests s (execSyncStale s) := by
  simp only [execSyncStale, hp, Bool.false_and, Bool.false_eq_true, if_false]
  exact rests_idle

end

/-! ### The safe state (R450) -/

theorem Dev.nandOn_safe {d : Dev} (hs : d.boot.phase = .safe) : d.nandOn = false := by simp [Dev.nandOn, hs]

theorem Dev.storageServed_safe {d : Dev} (hs : d.boot.phase = .safe) : d.storageServed = false := by simp [Dev.storageServed, hs]

section
variable {w : W} (hs : w.dev.boot.phase = .safe)
include hs

theorem W.storageFetch_safe (q op : Nat) (e : StorageEntry) : w.storageFetch q op e = w := by
  simp [W.storageFetch, Dev.storageServed_safe hs]

theorem W.stage_safe (f : StageFindings) : w.stage f = w := if_pos (by simp [hs])

theorem W.trainRetry_safe (lanes : Nat) : w.trainRetry lanes = w := if_neg (by simp [hs])

/-- 56 V is present already. -/
theorem W.inputOn_safe : w.inputOn = w := if_pos (by simp [hs])

/-- No drain is under way that could end. -/
theorem W.drainOver_safe : w.drainOver = w := if_pos (by simp [hs])

theorem W.tapLoad_safe (i : TapInstr) : w.tapLoad i = w := if_neg (by simp [Dev.tapWorks, hs])

theorem W.tapPreload_safe (v : Option (BitVec 32)) : w.tapPreload v = w := by
  cases v with
  | none => rfl
  | some b => exact W.when_shut (by simp [Dev.tapWorks, hs]) _ w

/-- A sample is measured, and nothing follows from it. -/
theorem W.sample_safe (r : RailSample) : w.sample r = w.measure r := if_pos hs

/-- The pins alone are noted: the module starts again with RESET_N low or a cycle of PWR_EN. -/
theorem W.pwrEnRise_safe : w.pwrEnRise = w.boot fun b => { b with pwrEn := true } := if_neg (by simp [hs])

theorem W.resetRise_safe : w.resetRise = w.boot fun b => { b with resetN := true } := if_neg (by simp [hs])

end

section
variable {s : State} (hs : s.dev.boot.phase = .safe)
include hs

/-- The loss of the reference clock is noted; its DEVICE record asks for a collector at work. -/
theorem rests_execRefClkFault : Rests s (execRefClkFault s) :=
  rests_act (.when (by
    rw [W.detect, W.raise_parked (congrArg Phase.collects hs)]
    exact .boot rfl))

theorem rests_execRailSample (r : RailSample) : Rests s (execRailSample r s) :=
  rests_act (.when (by
    rw [W.sample_safe hs]
    exact ⟨rfl, rfl, rfl⟩))

theorem rests_execSyncWaitTimeout : Rests s (execSyncWaitTimeout s) := by
  have hwaits : s.dev.syncWaits = false := by simp [Dev.syncWaits, hs]
  simp only [execSyncWaitTimeout, hwaits, Bool.false_eq_true, if_false]
  exact rests_idle

theorem rests_execSamplePreload (preload : Option (BitVec 32)) : Rests s (execSamplePreload preload s) :=
  rests_act (.of_eq ((congrArg (W.tapPreload preload) (W.tapLoad_safe hs .samplePreload)).trans (W.tapPreload_safe hs preload)))

/-- In the safe state a row that does not end it waits for a module at work, or for a store, a domain, a pin or the TAP that rests; or it is the
gatehouse's own. -/
theorem rests_exec {c : Instr} (hc : leavesSafe c = false) : Rests s (exec c s) := by
  have hp : s.dev.boot.phase.collects = false := congrArg Phase.collects hs
  unfold exec
  cases c with
  | resetNLow | orderlyPowerDown | inputPowerLost => exact absurd hc Bool.noConfusion
  -- the rings
  | nop | muster | planLoad | planUnload | batch | cancel | admitRequest | input | pause | resume | paddockForm | paddockTeardown | serveSet
  | tenantSet | lockstepPair | tokenizerLoad | grammarLoad | adapterLoad | adapterUnload | indexCreate | indexUpdate | indexConsolidate
  | indexGeneration | indexDelete | embCreate | embVersion | embMigrate | embDelete | hostWrite | hostRead | peerCopy | commonsMigrate | pageRetire
  | groomRequest | energySet | fwHandover | attest => exact rests_act (.of_eq (W.fetch_parked hp _ _))
  | subTail | cplHead | strHead | evtHead => exact rests_act (.shut (Dev.hostReach_parked hp))
  -- the storage queues and the shed
  | storageRead | storageWrite | storageDiscard => exact rests_act (.of_eq (W.storageFetch_safe hs _ _ _))
  | storageCompletion | mapCheckpoint | garbageCollection => exact rests_act (.shut (Dev.nandOn_safe hs))
  | pageProgramComplete | blockEraseComplete => exact rests_act (.shut (by simp [Dev.nandOn_safe hs]))
  | shedSubTail | compHead | shedQueueReset => exact rests_act (.shut (by simp [Dev.hostReach_parked hp]))
  | queueResetEnd => exact rests_act (.of_eq (W.queueResetOver_parked hp _))
  -- the registers
  | faultClear | faultInject | musterCtlGo | rcvCtlGo | standbyEnter | loReadCapture => exact rests_act (.of_eq (W.byMaster_parked hp _ _))
  | swap | cfgOpen | cfgCommit | cfgAbandon | cfgRefWrite | standbyExit | indirectAccess | registerWrite =>
    exact rests_actWind hp (W.byMaster_parked hp _ _)
  -- happenings of a module at work
  | halterControlFlit | halterReplayTimeout | halterLinkLost | droveTrain | droveControl | droveReplayTimeout | deadlineReadArrival
  | defectListAppend | stackTempReading | stackTrip => exact rests_act (.of_eq (W.working_parked hp _))
  | halterDataFlit | halterLinkUp | droveLinkLost | lockstepDigestReady | lockstepDigestReceived | faultDetection | recoveryEnd | scrubEnd
  | reformationEnd | cfgSweepEnd | pageFillDone | commonsCopyDone | embCopyDone | groomServiceEnd | handoverCoreReturn | tackRewriteDone
  | codebookCopyDone => exact rests_actWind hp (W.working_parked hp _)
  | remapDue => exact rests_actAt _ (.of_eq (W.working_parked hp _))
  | cfgSweepStart | energyWindowEnd | budgetSliceEnd => exact rests_actAt _ (.shut (by simp [atHerd, hp]))
  | cfgWindowTimeout | epochBoundary => exact rests_actWindAt _ hp (W.working_parked hp _)
  | migPeriod => exact rests_actWindAt _ hp (W.when_shut (by simp [atHerd, hp]) _ _)
  -- launch points, steps and their words
  | launchPoint h => exact rests_execLaunchPoint hp h
  | stepBoundary p => exact rests_ofLiveStep hp p.val _
  | holdPoint p => exact rests_ofLiveStep hp p.val _
  | holdEnd p => exact rests_ofLiveStep hp p.val _
  | deadlineExpiry p => exact rests_ofLiveStep hp p.val _
  | lockstepTimeout p => exact rests_execLockstepTimeout hp p
  | planNop | pass | vec | pack | select8 | select | compact | move | bayTable | bayHamming | bayFetch | bayHop | bayQueueOut | lookup | update
  | bayDecode | merge | tokenize | detokenize | mask | shedRead | barnRead | barnWrite | droveSend | droveRecv | hostOut | random | repeatWord =>
    exact rests_runWord hp _ _ _ _ _ _
  -- sleep, SYNC and bring-up
  | domainWake | domainAwake | domainDeepen => exact rests_act (.shut (congrArg Phase.sleeps hs))
  | syncMessage count check stop h => exact rests_execSyncMessage hp count check stop h
  | syncWaitTimeout => exact rests_execSyncWaitTimeout hs
  | syncStale => exact rests_execSyncStale hp
  | syncOutSend => exact rests_actAt _ (.shut (by simp [atHerd, Dev.sends, hs]))
  | stageComplete => exact rests_act (.of_eq (W.stage_safe hs _))
  | halterTrainRetry => exact rests_act (.of_eq (W.trainRetry_safe hs _))
  | inputPowerApplied => exact rests_act (.of_eq (W.inputOn_safe hs))
  | heldEntry => exact rests_act (.of_eq (W.drainOver_safe hs))
  -- the gatehouse: pins, log, rails, the management bus and the TAP
  | pwrEnRise => exact rests_act (W.pwrEnRise_safe (w := W.of s) hs ▸ .boot rfl)
  | resetNRise => exact rests_act (W.resetRise_safe (w := W.of s) hs ▸ .boot rfl)
  | faultLogCopy => exact rests_act (.when (.boot rfl))
  | railSample r => exact rests_execRailSample hs r
  | refClkFault => exact rests_execRefClkFault hs
  | statusWord | readVin | readIin | readTemperature1 | readPin | pmbusRevision | mfrEnergyBlock => exact rests_act (.busAnswer _)
  | alertResponse => exact rests_act .alertResponse
  | pmbusWrite | smbusBusTimeout | tapReset => exact rests_act (.mgmt _)
  | bypass | idcode | extest | clamp | highz => exact rests_act (.of_eq (W.tapLoad_safe hs _))
  | samplePreload preload => exact rests_execSamplePreload hs preload

end

/-- Settles O7: what a row leaves in the safe state differs in records of the gatehouse alone, and the statement names none of them. -/
theorem safeStateIsHeld : Obligations.SafeStateIsHeld := by
  intro c s t hs hc ht
  obtain ⟨w, clock, ⟨hlog, hphase, hdev⟩, hw⟩ := rests_exec hs hc
  obtain rfl : t = w.leave { s with clock := clock } := Outcome.next.inj (ht.symm.trans hw)
  refine ⟨hphase.trans hs, ?_⟩
  simp only [W.leave, hlog]
  rw [hdev]
  exact ⟨rfl, rfl, rfl, rfl, rfl, rfl, rfl, rfl, rfl⟩

end Sys2Proof.Machine
end

section
/-! SUPPORT. Clearing a fault record, FLT_INJECT, and the sweeps of the checked registers (R449, R455, R458, R522 to R524). -/

namespace Sys2Proof.Machine

open Host

/-! ### The FAULT block -/

/-- Outside IMAGE_WAIT the FAULT block answers from its base on. -/
theorem Dev.regAt_fault {d : Dev} {off : Nat} (herd : Nat) (hw : d.boot.phase ≠ .imageWait) (hlt : off < 0x1000) (hal : off % 4 = 0) :
    d.regAt herd (bFault + off) = d.faultReg off := by
  have hal' : (bFault + off) % 4 = 0 := by unfold bFault; omega
  have hbig : ¬ 2 ^ 32 ≤ bFault + off := by unfold bFault; omega
  have hbelow : ∀ k ≤ bFault, ¬ bFault + off < k := by omega
  have hring : bFault + off < 0x4000 := by unfold bFault; omega
  simp only [Dev.regAt, hal', hw, hbig, hring, hbelow bCfg (by decide), hbelow bBoot (by decide), hbelow bFault le_rfl, Nat.add_sub_cancel_left, ne_eq,
    not_true_eq_false, decide_false, Bool.false_and, Bool.false_eq_true, if_false, if_true]

/-- Of the FAULT block only the second word is checked (R521). -/
theorem isChecked_fault {off : Nat} (hlt : off < 0x1000) (hne : off ≠ 4) : isChecked (bFault + off) = false := by
  have hsmall : bFault + off < 2 ^ 32 := by unfold bFault; omega
  have hword : bFault + off ≠ bFault + 4 := by omega
  have hring : ¬ bRing ≤ bFault + off := by unfold bFault bRing; omega
  have hevents : ∀ i, bFault + off ≠ bRing + i := fun i h => hring (h ▸ Nat.le_add_right _ i)
  have hlink : ¬ bFabric + 0x1000 ≤ bFault + off := by unfold bFault bFabric; omega
  have hunit : ¬ bUnit ≤ bFault + off := by unfold bFault bUnit; omega
  simp only [isChecked, Nat.div_eq_of_lt hsmall, Nat.mod_eq_of_lt hsmall, hword, hring, hevents 0x1000, hevents 0x1004, hlink, hunit, if_true,
    decide_false, Bool.false_and, Bool.or_false]

/-- The record slots are privileged registers. -/
theorem Dev.faultReg_slot (d : Dev) {off : Nat} (hlo : 0x100 ≤ off) (hhi : off < 0x900) : ∃ v, d.faultReg off = privReg v := by
  unfold Dev.faultReg
  split
  any_goals omega
  simp only [hlo, hhi, decide_true, Bool.and_self, if_true]
  exact ⟨_, rfl⟩

/-- No register below the UNIT block is a table's. -/
theorem tableOfCtl_direct {k : Nat} (h : k < bUnit) : tableOfCtl k = none := by
  have hsmall : k < 2 ^ 32 := by unfold bUnit at h; omega
  have hbelow : ¬ bUnit + 0x4000 ≤ k := by omega
  simp only [tableOfCtl, Nat.div_eq_of_lt hsmall, Nat.mod_eq_of_lt hsmall, hbelow, if_true, decide_false, Bool.false_and, Bool.false_eq_true, if_false]

theorem W.actReg_faultSlot (m : Master) (slot : Fin 32) (v : Nat) (w : W) :
    w.actReg m (bFault + (0x100 + slot.val * 0x40)) v = w.clearFault slot.val := by
  have htable : tableOfCtl (bFault + (0x100 + slot.val * 0x40)) = none := tableOfCtl_direct (by unfold bFault bUnit; omega)
  have hblock : ∀ k < bFault, bFault + (0x100 + slot.val * 0x40) ≠ k := by omega
  have hinject : bFault + (0x100 + slot.val * 0x40) ≠ bFault + 0x0C := by omega
  have hslots : bFault + 0x100 ≤ bFault + (0x100 + slot.val * 0x40) ∧ bFault + (0x100 + slot.val * 0x40) < bFault + 0x900 := by omega
  have hword : (bFault + (0x100 + slot.val * 0x40)) % 0x40 = 0 := by unfold bFault; omega
  have hindex : (bFault + (0x100 + slot.val * 0x40) - bFault - 0x100) / 0x40 = slot.val := by omega
  simp only [W.actReg, htable, hblock bCfg (by decide), hblock (bCfg + 4) (by decide), hblock (bBoot + 0x0C) (by decide),
    hblock (bBoot + 0x18) (by decide), hinject, hslots, hword, hindex, decide_true, Bool.and_self, if_false, if_true]

/-- A privileged master's write of a register of the FAULT block that is not checked acts on it. -/
theorem exec_faultReg {m : Master} {s : State} {off v x : Nat} (h : Reaches m s) (hm : masterPriv m = true) (hlt : off < 0x1000)
    (hal : off % 4 = 0) (hne : off ≠ 4) (hreg : s.dev.faultReg off = privReg x) :
    act (W.byMaster m (W.writeDirect m (bFault + off) v)) s = ends s ((W.of s).actReg m (bFault + off) v) := by
  have hidx : bFault + off < bIdx := by unfold bFault bIdx; omega
  have hkey : (W.of s).writeDirect m (bFault + off) v = (W.of s).actReg m (bFault + off) v :=
    (W.writeDirect_key hidx m v _).trans
      (W.writeKey_acts ((Dev.regAt_fault _ h.noWait hlt hal).trans hreg) (fun _ => hm) (isChecked_fault hlt hne) _ v)
  exact congrArg (ends s) ((W.byMaster_reaches h _).trans hkey)

theorem exec_faultClear {m : Master} {s : State} (h : Reaches m s) (hm : masterPriv m = true) (slot : Fin 32) :
    exec (.faultClear m slot) s = ends s ((W.of s).clearFault slot.val) := by
  obtain ⟨x, hx⟩ := s.dev.faultReg_slot (off := 0x100 + slot.val * 0x40) (by omega) (by omega)
  have hrow := exec_faultReg (v := 0) h hm (by omega) (by omega) (by omega) hx
  rw [W.actReg_faultSlot, ← Nat.add_assoc] at hrow
  exact hrow

theorem exec_faultInject {m : Master} {s : State} (h : Reaches m s) (hm : masterPriv m = true) (cls : BitVec 3) :
    exec (.faultInject m cls) s = ends s ((W.of s).injectFault cls.toNat) := by
  have hact : (W.of s).actReg m (bFault + 0x0C) cls.toNat = (W.of s).injectFault (cls.toNat % 8) := rfl
  rw [Nat.mod_eq_of_lt cls.isLt] at hact
  exact (exec_faultReg h hm (by decide) (by decide) (by decide) rfl).trans (congrArg (ends s) hact)

/-- Settles O33: both rows reach the action of their register, and each clause is one case of it. -/
theorem faultRegistersAct : Obligations.FaultRegistersAct := by
  intro m s h hm
  refine ⟨?clear, ?record, ?device⟩
  case clear =>
    intro slot r hslot hdone hlasts
    have hgo : (r.done && !s.dev.causeLasts r) = true := by simp [hdone, hlasts]
    refine (exec_faultClear h hm slot).trans (congrArg (ends s) ?_)
    simp only [W.clearFault, W.of_dev, hslot, hgo, if_true]
  case record =>
    intro cls hcls
    exact (exec_faultInject h hm cls).trans (congrArg (ends s) (if_pos hcls))
  case device =>
    intro cls hcls
    have hhigh : ¬ cls.toNat ≤ 4 := by omega
    exact (exec_faultInject h hm cls).trans (congrArg (ends s) ((if_neg hhigh).trans (if_pos hcls)))

/-! ### Sweeps (R522 to R524) -/

theorem W.cfg_congr {f g : CfgCheck → CfgCheck} {w : W} (h : f w.dev.regs.cfg = g w.dev.regs.cfg) : w.cfg f = w.cfg g := by
  simp only [W.cfg, W.regs, h]

/-- A sweep that starts with no write-back due takes what the checked registers hold. -/
theorem W.sweepStart_settled {w : W} (hr : w.dev.regs.cfg.restoring = false) (h : Nat) :
    w.sweepStart h = w.cfg fun c => { c with
      sweep := some { crc := sweepCrc w.dev.checked, startHerd := h, windowSeen := c.holder.isSome, forCommit := c.committing } } := by
  simp only [W.sweepStart, W.when_shut hr]

/-- Sweep `x` has ended: its value stands and it is counted. -/
def W.swept (x : Sweep) (w : W) : W := w.cfg fun c => { c with sweep := none, last := x.crc, sweeps := (c.sweeps + 1) % 2 ^ 32 }

/-- No checked register is the sweep's own. -/
theorem W.swept_checked (x : Sweep) (w : W) : (w.swept x).dev.checked = w.dev.checked := rfl

section
variable {x : Sweep} {w : W} (hx : w.dev.regs.cfg.sweep = some x)
include hx

/-- What the end of a sweep chooses by: the sweep itself, and the window and the reference as they then are. -/
theorem W.sweepEnd_running :
    w.sweepEnd =
      let c := w.dev.regs.cfg
      let w := w.swept x
      if x.forCommit && c.committing then ((w.commitCfg w.dev.checked).cfg fun c => { c with ref := x.crc, state := 1 }).closeWindow true
      else if x.windowSeen || c.holder.isSome || !c.live then w
      else if x.crc = c.ref then
        let w := w.cfg fun c => { c with state := 1, restoring := false }
        if c.restoring then w.finishRecoveries 17 else w
      else if c.restoring then w.detect caCfgRestore uHub 5 (x.crc + c.ref * 2 ^ 32) 0 []
      else (w.cfg fun c => { c with state := 2 }).detect caCfgMismatch uHub 5 (x.crc + c.ref * 2 ^ 32) 0 [] := by
  simp only [W.sweepEnd, hx]
  rfl

theorem W.sweepEnd_commits (hf : x.forCommit = true) (hc : w.dev.regs.cfg.committing = true) :
    w.sweepEnd = (((w.swept x).commitCfg w.dev.checked).cfg fun c => { c with ref := x.crc, state := 1 }).closeWindow true := by
  rw [W.sweepEnd_running hx, ← W.swept_checked x w]
  exact if_pos (Bool.and_eq_true_iff.mpr ⟨hf, hc⟩)

/-- A window that is or was open makes the sweep's value count for nothing. -/
theorem W.sweepEnd_windowSeen (hw : x.windowSeen = true ∨ w.dev.regs.cfg.holder ≠ none) (hc : w.dev.regs.cfg.committing = false) :
    w.sweepEnd = w.swept x := by
  have hseen : (x.windowSeen || w.dev.regs.cfg.holder.isSome || !w.dev.regs.cfg.live) = true := by
    rcases hw with h | h
    · simp [h]
    · simp [Option.isSome_iff_ne_none.mpr h]
  rw [W.sweepEnd_running hx]
  simp only [hc, hseen, Bool.and_false, Bool.false_eq_true, if_false, if_true]

/-- Without a window, and with no write-back behind it, the sweep's value is compared with the reference (R523). -/
theorem W.sweepEnd_compares (hf : x.forCommit = false) (hw : x.windowSeen = false) (hh : w.dev.regs.cfg.holder = none)
    (hl : w.dev.regs.cfg.live = true) (hr : w.dev.regs.cfg.restoring = false) :
    w.sweepEnd =
      if x.crc = w.dev.regs.cfg.ref then (w.swept x).cfg fun c => { c with state := 1 }
      else ((w.swept x).cfg fun c => { c with state := 2 }).detect caCfgMismatch uHub 5 (x.crc + w.dev.regs.cfg.ref * 2 ^ 32) 0 [] := by
  have hsettled : (w.swept x).cfg (fun c => { c with state := 1, restoring := false }) = (w.swept x).cfg fun c => { c with state := 1 } :=
    W.cfg_congr (congrArg (fun b => { (w.swept x).dev.regs.cfg with state := 1, restoring := b }) hr.symm)
  rw [W.sweepEnd_running hx]
  simp only [hf, hw, hh, hl, hr, hsettled, Option.isSome_none, Bool.false_and, Bool.or_self, Bool.not_true, Bool.false_eq_true, if_false]

end

/-- Settles O48: that a sweep takes what the checked registers hold at its start is the model's choice (log entry 36); its end commits, compares or does
neither. -/
theorem sweepsAct : Obligations.SweepsAct := by
  refine ⟨?start, fun x s hs hx => ⟨?commit, ?compare, ?window⟩⟩
  case start =>
    intro h s hs hmul hr
    exact (actAt_when h (c := fun _ => decide (h % 400_000 = 0)) hs (decide_eq_true hmul) _).trans
      (congrArg (ends (atHerd s h)) (W.sweepStart_settled (w := W.of (atHerd s h)) hr h))
  case commit =>
    intro hf hc
    exact (actWind_working hs _).trans (congrArg (winds s) (W.sweepEnd_commits (w := W.of s) hx hf hc))
  case compare =>
    intro hf hw hh hl hr
    have hend := (actWind_working hs _).trans (congrArg (winds s) (W.sweepEnd_compares (w := W.of s) hx hf hw hh hl hr))
    exact ⟨fun heq => hend.trans (congrArg (winds s) (if_pos heq)), fun hne => hend.trans (congrArg (winds s) (if_neg hne))⟩
  case window =>
    intro hw hc
    exact (actWind_working hs _).trans (congrArg (winds s) (W.sweepEnd_windowSeen (w := W.of s) hx hw hc))

end Sys2Proof.Machine
end

section
/-! SUPPORT. SYNC messages, the management bus and the TAP (R479, R545 to R551). -/

namespace Sys2Proof.Machine

open Host

/-! ### SYNC (R545 to R549) -/

section
variable {count : DWord} {check : Byte} {h : Nat} {s : State} (hs : AtWork s) (hc : count.toNat % 8 = 0)
include hs hc

/-- A message of R545's form whose check fails is counted, and no more. -/
theorem exec_syncMessage_bad (hg : syncGood count.toNat check.toNat = false) : exec (.syncMessage count check false h) s = act (W.sync Sync.bad) s := by
  have hcollects : s.dev.boot.phase.collects = true := hs
  simp [exec, execSyncMessage, hcollects, syncForm, hc, hg]

/-- A valid message loads the herd count while stage 0 waits for it, and is compared with it later. -/
theorem exec_syncMessage_good (hg : syncGood count.toNat check.toNat = true) :
    exec (.syncMessage count check false h) s =
      if s.dev.syncWaits then act (W.sync (Sync.lock count.toNat)) { s with clock := { herd := count.toNat } }
      else actAt h (W.sync (Sync.compare count.toNat h)) s := by
  have hcollects : s.dev.boot.phase.collects = true := hs
  simp [exec, execSyncMessage, hcollects, syncForm, hc, hg]

end

/-- Settles O56: each message takes one branch of its row. `h` is the module's own count at the marker (log entry 96). -/
theorem syncMessagesAct : Obligations.SyncMessagesAct := by
  intro count check h s hs
  refine ⟨fun hc hg => ⟨fun hw => ?load, fun hw => ?compare⟩, fun hc hg => exec_syncMessage_bad hs hc hg, fun hw => ?solo, fun hl => ?stale, fun hd hm => ?send⟩
  case load => exact ⟨_, (exec_syncMessage_good hs hc hg).trans (if_pos hw), rfl, rfl, rfl, rfl, rfl⟩
  case compare => exact ⟨_, (exec_syncMessage_good hs hc hg).trans (if_neg (by simp [hw])), rfl, rfl, rfl, rfl, rfl⟩
  case solo => exact ⟨_, if_pos hw, rfl, rfl, rfl⟩
  case stale => exact if_pos (Bool.and_eq_true_iff.mpr ⟨hs, hl⟩)
  case send =>
    exact congrArg (ends (atHerd s h)) (if_pos (Bool.and_eq_true_iff.mpr ⟨hd, decide_eq_true hm⟩))

/-! ### The management bus (R479, R550) -/

theorem act_busAnswer {s : State} (hs : s.dev.busAnswers s.clock.herd = true) (f : W → Bytes) :
    act (fun w => w.busAnswer (f w)) s = ends s ((W.of s).mgmt fun m => { m with answer := f (W.of s), nack := false }) :=
  congrArg (ends s) (if_pos hs)

/-- Settles O59: a bus that answers gives each command its bytes. The exponent of a LINEAR11 value (log entry 91), the mean of the first samples (92) and
the byte of the alert response (93) are the model's own. -/
theorem managementBusAnswers : Obligations.ManagementBusAnswers := by
  refine ⟨fun code data s => ⟨_, act_eq W.busRefuse s, rfl, rfl, rfl⟩, fun s hs => ?_⟩
  intro tells p
  have answers := act_busAnswer hs
  refine ⟨?status, ?vin, ?iin, ?temperature, ?pin, ?revision, ?energy, fun halert => ?alert, rfl⟩
  case status => exact answers fun w => leBytes 2 w.dev.power.statusWord
  case vin => exact answers fun w => leBytes 2 (linear11 w.dev.power.vinMV 1000)
  case iin => exact answers fun w => leBytes 2 (linear11 w.dev.power.inputMW (max 1 w.dev.power.vinMV))
  case temperature => exact answers fun w => leBytes 2 (linear11 w.dev.hottest 1)
  case pin => exact answers fun w => leBytes 2 (linear11 w.dev.power.inputMW 1000)
  case revision => exact answers fun _ => leBytes 1 0x33
  case energy => exact answers fun w => w.dev.energyBlock w.herd
  case alert => exact (congrArg (ends s) (if_pos halert)).trans (answers fun _ => leBytes 1 (2 * (0x40 + Config.smbAddr.toNat)))

/-! ### The TAP (R551) -/

/-- The instruction that acts in a phase where `i` is loaded: EXTEST, CLAMP and HIGHZ only in HELD, and else BYPASS. -/
def TapInstr.acting (phase : Phase) (i : TapInstr) : TapInstr :=
  if i = .extest ∨ i = .clamp ∨ i = .highz then (if phase = .held then i else .bypass) else i

/-- What the scan of an acting instruction gives; `captured` are the pins. -/
def TapInstr.scan (captured : Nat) (i : TapInstr) : Nat :=
  if i = .idcode then 0x0B7AC0F3 else if i = .samplePreload ∨ i = .extest then captured else 0

theorem Dev.tapActs_eq (d : Dev) : d.tapActs = d.mgmt.tap.acting d.boot.phase := by
  unfold Dev.tapActs
  cases d.mgmt.tap <;> rfl

theorem Dev.pinsFromBoundary_bypass {d : Dev} (h : d.tapActs = .bypass) : d.pinsFromBoundary = false := by
  rw [Dev.pinsFromBoundary, h]
  rfl

/-- A TAP that works loads an instruction and scans its data register. -/
theorem W.tapLoad_works {w : W} (h : w.dev.tapWorks = true) (i : TapInstr) :
    w.tapLoad i = w.fresh.2.mgmt fun m => { m with
      tap := i, tapReset := false, tdo := (i.acting w.dev.boot.phase).scan (Config.freeNat w.dev.fresh) } := by
  have hacts : ((w.mgmt fun m => { m with tap := i, tapReset := false }).fresh).2.dev.tapActs = i.acting w.dev.boot.phase := Dev.tapActs_eq _
  rw [W.tapLoad, if_pos h]
  dsimp only
  rw [hacts]
  cases i.acting w.dev.boot.phase <;> rfl

/-- The rows that load an instruction and set no boundary register. -/
theorem exec_tapRow {i : Instr} {k : TapInstr}
    (h : (i, k) ∈ [(.bypass, .bypass), (.idcode, .idcode), (.samplePreload none, .samplePreload), (.extest, .extest), (.clamp, .clamp), (.highz, .highz)])
    (s : State) : exec i s = act (W.tapLoad k) s := by
  fin_cases h <;> rfl

/-- Settles O60: each row loads its instruction, and the scan follows from the instruction that acts. What BYPASS scans, and the three instructions outside
HELD, is log entry 95. -/
theorem tapInstructionsLoad : Obligations.TapInstructionsLoad := by
  intro s
  refine ⟨fun hw => ⟨fun i k hik => ?load, fun v => ?preload⟩, rfl⟩
  case load =>
    have hload := W.tapLoad_works (w := W.of s) hw k
    refine ⟨_, (exec_tapRow hik s).trans (congrArg (ends s) hload), rfl, rfl, rfl, ?idcode, ?bypass, ?held⟩
    case idcode => rintro rfl; rfl
    case bypass => rintro rfl; rfl
    case held =>
      intro hk
      have hacting (phase : Phase) : k.acting phase = if phase = .held then k else .bypass := if_pos hk
      have hacts (t : State) (ht : t.dev.mgmt.tap = k) : t.dev.tapActs = if t.dev.boot.phase = .held then k else .bypass := by
        rw [Dev.tapActs_eq, ht, hacting]
      refine ⟨hacts _ rfl, fun hheld => ⟨?scan, ?pins⟩⟩
      case scan =>
        show (k.acting s.dev.boot.phase).scan _ = 0
        rw [hacting, if_neg hheld]
        rfl
      case pins =>
        refine Dev.pinsFromBoundary_bypass (Eq.trans (hacts _ ?_) (if_neg hheld))
        rfl
  case preload =>
    have hload := W.tapLoad_works (w := W.of s) hw .samplePreload
    exact ⟨_, (congrArg (fun w => ends s (W.tapPreload (some v) w)) hload).trans (congrArg (ends s) (if_pos hw)), rfl, rfl⟩

end Sys2Proof.Machine
end

section
/-! SUPPORT. Sleep and wake of power domains, and the commands and ends of groom services and of a firmware handover (R463 to R469, R476, R478, R482, R498 to
R503). -/

namespace Sys2Proof.Machine

open Host

/-! ### Power domains (R463 to R469, R482) -/

theorem act_sleeps {s : State} (hs : s.dev.boot.phase.sleeps = true) (f : W → W) :
    act (fun w => w.when w.dev.boot.phase.sleeps f) s = ends s (f (W.of s)) :=
  congrArg (ends s) (if_pos hs)

theorem W.domain_absent (n : Nat) (f : Domain → Domain) (w : W) : (w.domain n f).dev.domainAbsent n = w.dev.domainAbsent n := by
  unfold W.domain
  split <;> rfl

section
variable {n : Nat} {w : W}

/-- A sleeping domain starts to wake, where no running step uses it or its wake is due; the port of one that was OFF trains. -/
theorem W.wake_sleeping (h0 : (w.dev.domain n).state ≠ 0) (hw : (w.dev.domain n).waking = false)
    (hdue : w.dev.plannedUse n = true → w.dev.wakeDue w.herd n = true) :
    w.wake n =
      let v := w.domain n fun x => { x with waking := true, wakes := (x.wakes + 1) % 65536 }
      (portOf n).elim v fun p => v.when ((w.dev.domain n).state = 4 && !v.dev.domainAbsent n) (W.port p fun l => { l with state := 1 }) := by
  have hgo : (decide ((w.dev.domain n).state = 0) || (w.dev.domain n).waking || (w.dev.plannedUse n && !w.dev.wakeDue w.herd n)) = false := by
    cases hu : w.dev.plannedUse n with
    | false => simp [h0, hw]
    | true => simp [h0, hw, hdue hu]
  rw [W.wake]
  simp only [hgo, Bool.false_eq_true, if_false]
  cases portOf n <;> rfl

/-- A wake that completes ends in ON or in IDLE, and after OFF the domain is set up again. -/
theorem W.awake_waking (hw : (w.dev.domain n).waking = true) :
    w.awake n =
      let v := w.domain n fun x => { x with
        waking := false, state := if w.dev.plannedUse n && !w.dev.holdsDomain n then 0 else 1, idleSince := w.herd }
      if (w.dev.domain n).state = 4 then v.backFromOff n else v := by
  simp only [W.awake, hw, if_true, W.when, decide_eq_true_eq]

/-- The state that a domain may not pass: R464 alone bounds one that running steps use, and DEPTH_MAX too any other. -/
def Dev.depthBound (d : Dev) (n : Nat) : Nat := if d.plannedUse n then d.deepest n else d.deepestNow n

/-- The gap of a domain reaches the minimum gap of the next state. -/
def Dev.gapReached (d : Dev) (h n : Nat) : Bool :=
  let x := d.domain n
  if d.plannedUse n then decide (minGap (x.state + 1) ≤ d.gap n) else decide (minGap (x.state + 1) * 8 ≤ (h - x.idleSince) * 21)

/-- A domain goes one state deeper where its bound, its gap and the background let it. -/
theorem W.deepen_goes (hw : (w.dev.domain n).waking = false) (hh : w.dev.holdsDomain n = false) (hbound : (w.dev.domain n).state < w.dev.depthBound n)
    (hback : (w.dev.domain n).state = 0 ∨ w.dev.backgroundDomains.contains n = false) (hgap : w.dev.gapReached w.herd n = true) :
    w.deepen n =
      let v := w.domain n fun x => { x with state := x.state + 1 }
      if (w.dev.domain n).state = 3 then v.domainLost n else v := by
  have hrest : (decide ((w.dev.domain n).state = 0) || !w.dev.backgroundDomains.contains n) = true := by
    rcases hback with h | h
    · simp only [h, decide_true, Bool.true_or]
    · simp only [h, Bool.not_false, Bool.or_true]
  unfold Dev.depthBound at hbound
  unfold Dev.gapReached at hgap
  simp only [W.deepen, hw, hh, hbound, hrest, hgap, Bool.not_false, decide_true, Bool.and_self, if_true, W.when, decide_eq_true_eq]

/-- Below ON a domain in which background work runs stays as it is. -/
theorem W.deepen_background (h0 : (w.dev.domain n).state ≠ 0) (hback : w.dev.backgroundDomains.contains n = true) : w.deepen n = w := by
  simp only [W.deepen, h0, hback, decide_false, Bool.not_true, Bool.or_self, Bool.and_false, Bool.false_and, Bool.false_eq_true, if_false]

end

/-- Settles O52, by the domain's own record: its wake, the end of its wake, and one state deeper. What is lost on the way to OFF and set up again after it is
log entries 133 and 136. -/
theorem domainsSleepAndWake : Obligations.DomainsSleepAndWake := by
  intro n s hs ha x deeper gone
  have goes : x.waking = false → s.dev.holdsDomain n.val = false → x.state < s.dev.depthBound n.val →
      (x.state = 0 ∨ s.dev.backgroundDomains.contains n.val = false) → s.dev.gapReached s.clock.herd n.val = true →
      exec (.domainDeepen n) s = if x.state = 3 then gone else deeper := by
    intro hw hh hbound hback hgap
    refine (act_sleeps hs _).trans ((congrArg (ends s) (W.deepen_goes (w := W.of s) hw hh hbound hback hgap)).trans ?_)
    exact apply_ite (ends s) ..
  refine ⟨fun h0 hw hdue => ?wake, fun hw => ?awake, fun hw hh hu hbound hback hgap => ?idle, fun hw hh hu hbound hback hgap => ?planned,
    fun hw h0 hback => ?background⟩
  case wake =>
    have hwake := W.wake_sleeping (w := W.of s) h0 hw hdue
    refine ⟨fun hport => ?_, fun p hp h4 => ?_⟩
    · refine (act_sleeps hs _).trans (congrArg (ends s) (hwake.trans ?_))
      rcases hport with hp | h4
      · rw [hp]
        rfl
      · have hshut : (decide (((W.of s).dev.domain n.val).state = 4)) = false := decide_eq_false h4
        cases portOf n.val with
        | none => rfl
        | some p => exact W.when_shut (by rw [hshut]; rfl) _ _
    · refine (act_sleeps hs _).trans (congrArg (ends s) (hwake.trans ?_))
      have hgo : decide (((W.of s).dev.domain n.val).state = 4) = true := decide_eq_true h4
      have habsent : (W.of s).dev.domainAbsent n.val = false := ha
      rw [hp]
      exact if_pos (by rw [hgo, W.domain_absent, habsent]; rfl)
  case awake => exact (act_sleeps hs _).trans (congrArg (ends s) (W.awake_waking (w := W.of s) hw))
  case idle =>
    exact goes hw hh (by rw [Dev.depthBound, hu]; exact hbound) hback (by rw [Dev.gapReached, hu]; exact decide_eq_true hgap)
  case planned =>
    exact goes hw hh (by rw [Dev.depthBound, hu]; exact hbound) hback (by rw [Dev.gapReached, hu]; exact decide_eq_true hgap)
  case background => exact (act_sleeps hs _).trans (congrArg (ends s) (W.deepen_background (w := W.of s) h0 hback))

/-! ### GROOM_REQUEST, ENERGY_SET, FW_HANDOVER and ATTEST (R476, R478, R498, R499, R501) -/

section
variable {w : W} {r : Nat} {o : Outstanding}

/-- The service that a GROOM_REQUEST asks for, as it starts. -/
def W.serviceOf (r : Nat) (o : Outstanding) (w : W) : GroomService :=
  let b := w.payload o
  { ring := r, index := o.index, cmdId := o.entry.cmdId.toNat, service := fld b 0 1, target := fld b 2 2, first := fld b 4 4, count := fld b 8 4
    running := true, queued := false, start := w.herd, units := w.dev.groomUnits (fld b 0 1) (fld b 2 2) (fld b 4 4) (fld b 8 4) }

/-- A request whose target is the part's, and whose entries are there, starts its service. -/
theorem doGroomRequest_starts (hlen : (w.payload o).length = 32) (hres : fld (w.payload o) 1 1 = 0) (hzero : allZero ((w.payload o).drop 12) = true)
    (hlo : 1 ≤ fld (w.payload o) 0 1) (hhi : fld (w.payload o) 0 1 ≤ gsScrub)
    (htarget : w.dev.groomTarget (w.serviceOf r o).service (w.serviceOf r o).target (w.serviceOf r o).first (w.serviceOf r o).count = true)
    (hpart : w.dev.boot.part.groomAbsent (w.serviceOf r o).service (w.serviceOf r o).target = false)
    (hgranted : w.dev.groomGranted (w.serviceOf r o) = true) : doGroomRequest w r o = w.addService (w.serviceOf r o) := by
  have hone : decide (fld (w.payload o) 0 1 = 0) = false := decide_eq_false (by omega)
  have hlast : decide (gsScrub < fld (w.payload o) 0 1) = false := decide_eq_false (Nat.not_lt.mpr hhi)
  simp only [W.serviceOf] at htarget hpart hgranted ⊢
  simp only [doGroomRequest, hlen, hres, hzero, hone, hlast, htarget, hpart, hgranted, ne_eq, not_true_eq_false, decide_false, Bool.not_true, Bool.or_self,
    Bool.false_eq_true, if_false, if_true]

/-- With no window held and SET below 4, ENERGY_SET keeps window and allowance for a launch point. -/
theorem doEnergySet_keeps (hok : energyOk (w.payload o) = true) (hcfg : w.dev.regs.cfg.holder = none) (hset : fld (w.payload o) 0 1 < 4) :
    doEnergySet w r o = (w.power fun p => { p with
      pendWindow := if (fld (w.payload o) 0 1).testBit 0 then some (fld (w.payload o) 4 4) else p.pendWindow
      pendAllow := if (fld (w.payload o) 0 1).testBit 1 then some (fld (w.payload o) 8 2) else p.pendAllow }).complete r o.index .done := by
  have hblocks : w.dev.regs.cfg.blocks = false := by rw [CfgCheck.blocks, hcfg]
  have hbit (i : Nat) (hi : 2 ^ 2 ≤ 2 ^ i) : (fld (w.payload o) 0 1).testBit i = false := Nat.testBit_lt_two_pow (by omega)
  simp only [doEnergySet, hok, hblocks, hbit 2 (by decide), hbit 3 (by decide), hbit 4 (by decide), W.when_shut, Bool.not_true, Bool.false_eq_true, if_false]

/-- A firmware image that verifies, over a state of the format it takes, begins a handover. -/
theorem doFwHandover_begins {i : Image} (hflags : o.field 32 1 ≤ 1) (hfree : w.dev.boot.handover = none)
    (hverify : w.dev.boot.verify [imFirmware] (w.payload o) = .ok i) (hstate : (w.dev.boot.fw.map (·.stateFormat)).getD 0 = i.stateFormat) :
    doFwHandover w r o = w.boot fun b => { b with
      handover := some { ring := r, index := o.index, cmdId := o.entry.cmdId.toNat, image := i, todo := handoverOrder, away := none, onNew := []
                         keepStore := (o.field 32 1).testBit 0, rewriting := false } } := by
  have hone : decide (1 < o.field 32 1) = false := decide_eq_false (Nat.not_lt.mpr hflags)
  simp only [doFwHandover, hone, hfree, hverify, hstate, Option.isSome_none, ne_eq, not_true_eq_false, Bool.false_eq_true, if_false]

/-- A device whose identity holds answers its report, where RESULT_LEN has room for it. -/
theorem doAttest_reports (hid : w.dev.boot.identityBad = false) (hroom : w.dev.reportLen ≤ o.entry.resultLen.toNat) :
    doAttest w r o = w.complete r o.index .done 0 (w.dev.report w.herd o.entry.inline) := by
  simp only [doAttest, hid, Nat.not_lt.mpr hroom, Bool.false_eq_true, if_false]

end

/-- Settles O26: with its checks passed, each command reaches its last branch. -/
theorem deviceCommandsAct : Obligations.DeviceCommandsAct := by
  refine ⟨fun e s h => ?groom, fun e s h => ?energy, fun e s i h => ?handover, fun e s h hid => ?attest⟩
  case groom =>
    intro w o b g hlen hres hzero hlo hhi htarget hpart hgranted
    exact act_fetch_ends h (doGroomRequest_starts hlen hres hzero hlo hhi htarget hpart hgranted)
  case energy =>
    intro w b hok hcfg hset
    exact act_fetch_ends h (doEnergySet_keeps hok hcfg hset)
  case handover =>
    intro w o hflags hfree hverify hstate g
    exact act_fetch_ends h (doFwHandover_begins hflags hfree hverify hstate)
  case attest =>
    intro w hroom
    exact act_fetch_ends h (doAttest_reports hid hroom)

/-! ### The ends of groom services and of a handover (R500, R501, R503) -/

/-- A scrub, or a service other than a memory test that has failed, writes nothing and saves no training: its end is its result and its completion. -/
theorem W.groomEnd_plain {n : Nat} {ok : Bool} {g : GroomService} {w : W} (hg : w.dev.groom.services[n]? = some g) (hr : g.running = true)
    (hq : g.queued = false) (hkind : g.service = gsScrub ∨ g.service ≠ gsMemTest ∧ ok = false) :
    w.groomEnd n ok [] =
      (w.groom fun x => { services := x.services.eraseIdx n
                          results := ((g.cmdId, (if ok then Status.done else .groomFailed).code, g.service, w.herd) :: x.results).take 16 }).complete
        g.ring g.index (if ok then .done else .groomFailed) g.start := by
  have hnotest : g.service ≠ gsMemTest := by
    rcases hkind with h | h
    · rw [h]; decide
    · exact h.1
  have hnocal : (ok && decide (g.service ≤ gsDroveCal)) = false ∧ (ok && decide (g.service = gsDroveCal)) = false := by
    rcases hkind with h | h
    · rw [h]; simp [gsScrub, gsDroveCal]
    · simp [h.2]
  have hstalls (c : Bool) (l : List Nat) : w.when c (W.each (([] : List Nat).filter l.contains) W.failStall) = w := by cases c <;> rfl
  simp only [W.groomEnd, hg, hr, hq, hstalls, W.groomWrites, hnotest, hnocal, W.when_shut, Bool.not_true, Bool.false_and, Bool.false_eq_true, if_false]

section
variable {c : Nat} {h : Handover} {w : W} (hh : w.dev.boot.handover = some h)
include hh

/-- A core that fails its self-check ends the handover without effect. -/
theorem W.coreReturn_fails (ha : h.away = some c) :
    w.coreReturn c false = (w.boot fun b => { b with handover := none }).complete h.ring h.index .handoverAborted := by
  simp [W.coreReturn, hh, ha, W.abortHandover]

/-- A core that is not the last is on the new firmware. -/
theorem W.coreReturn_next (ha : h.away = some c) (ht : h.todo ≠ []) :
    w.coreReturn c true = w.boot fun b => { b with handover := some { h with away := none, onNew := h.onNew ++ [c] } } := by
  simp [W.coreReturn, hh, ha, ht]

/-- The last core brings the device onto the new firmware; the gatehouse follows it. -/
theorem W.coreReturn_last (ha : h.away = some c) (ht : h.todo = []) :
    w.coreReturn c true =
      let g := { h with away := none, onNew := h.onNew ++ [c] }
      let v := (w.boot fun b => { b with fw := some h.image }).mgmt fun m => { m with busyUntil := w.herd + gatehouseTicks }
      if h.keepStore then v.handoverDone g .done else v.boot fun b => { b with handover := some { g with rewriting := true }, tackFw := none } := by
  simp [W.coreReturn, hh, ha, ht]

theorem W.rewriteDone_rewriting (hr : h.rewriting = true) (ok : Bool) :
    w.rewriteDone ok = if ok then (w.boot (Boot.install h.image)).handoverDone h .done else w.handoverDone h .storeWrite := by
  simp [W.rewriteDone, hh, hr]

end

/-- Settles O55. That the gatehouse is busy for the whole 100 µs that R499 allows is log entry 80. -/
theorem groomAndHandoverEnd : Obligations.GroomAndHandoverEnd := by
  refine ⟨fun n ok g s hs hg hr hq hkind => ?groom, fun c h s hs hh ha => ⟨?fails, fun ht => ?next, fun ht hkeep => ?kept, fun ht hkeep => ?rewritten⟩,
    fun ok h s hs hh hr => ?done⟩
  case groom => exact (actWind_working hs _).trans (congrArg (winds s) (W.groomEnd_plain (w := W.of s) hg hr hq hkind))
  case fails => exact (actWind_working hs _).trans (congrArg (winds s) (W.coreReturn_fails (w := W.of s) hh ha))
  case next => exact (actWind_working hs _).trans (congrArg (winds s) (W.coreReturn_next (w := W.of s) hh ha ht))
  case kept => exact (actWind_working hs _).trans (congrArg (winds s) ((W.coreReturn_last (w := W.of s) hh ha ht).trans (if_pos hkeep)))
  case rewritten =>
    exact (actWind_working hs _).trans (congrArg (winds s) ((W.coreReturn_last (w := W.of s) hh ha ht).trans (if_neg (by simp [hkeep]))))
  case done => exact (actWind_working hs _).trans (congrArg (winds s) (W.rewriteDone_rewriting (w := W.of s) hh hr ok))

end Sys2Proof.Machine
end

section
/-! SUPPORT. Accesses of registers, the privileged and the checked ones, and the configuration window (R508 to R518, R524 to R526). -/

namespace Sys2Proof.Machine

open Host

/-! ### Writes and reads of a register (R508, R511, R512, R515) -/

/-- A direct address that is no data register of an indirect pair is its register's key. -/
theorem W.writeDirect_plain {a : Nat} (ha : a < 2 ^ 24) (hi : idxData a = none) (m : Master) (v : Nat) (w : W) : w.writeDirect m a v = w.writeKey m a a v := by
  simp only [W.writeDirect, hi, if_neg (Nat.not_le.mpr ha)]

theorem W.readDirect_plain {a : Nat} (ha : a < 2 ^ 24) (hi : idxData a = none) (m : Master) (w : W) : w.readDirect m a = w.readKey m a := by
  simp only [W.readDirect, hi, if_neg (Nat.not_le.mpr ha)]

section
variable {m : Master} {a : BitVec 24} {s : State} (h : Reaches m s) (hi : idxData a.toNat = none)
include h hi

theorem exec_registerWrite (v : Word) : exec (.registerWrite m a v) s = winds s ((W.of s).writeKey m a.toNat a.toNat v.toNat) :=
  congrArg (winds s) ((W.byMaster_reaches h _).trans (W.writeDirect_plain a.isLt hi m v.toNat _))

theorem exec_loReadCapture : exec (.loReadCapture m a) s = ends s ((W.of s).readKey m a.toNat) :=
  congrArg (ends s) ((W.byMaster_reaches h _).trans (W.readDirect_plain a.isLt hi m _))

end

/-- What a master's privilege lets pass. -/
theorem Reg.passes {m : Master} {r : Reg} (hp : r.priv = true → masterPriv m = true) : (r.priv && !masterPriv m) = false := by
  cases hpriv : r.priv with
  | false => rfl
  | true => simp [hp hpriv]

section
variable {m : Master} {k : Nat} {r : Reg} {w : W} (hr : w.dev.regAt w.herd k = some r)
include hr

theorem W.writeKey_denied (hp : r.priv = true) (hm : masterPriv m = false) (addr v : Nat) : w.writeKey m addr k v = w.countPriv addr := by
  simp only [W.writeKey, hr, hp, hm, Bool.not_false, Bool.and_self, if_true]

theorem W.readKey_denied (hp : r.priv = true) (hm : masterPriv m = false) : w.readKey m k = w.answered 0 0 := by
  simp only [W.readKey, hr, hp, hm, Bool.not_false, Bool.and_self, if_true]

/-- The holder of the window writes a checked register before COMMIT; any other write of it is dropped and counted. EN_CFG takes no write. -/
theorem W.writeKey_checked (hp : r.priv = true → masterPriv m = true) (hc : isChecked k = true) (addr v : Nat) :
    w.writeKey m addr k v =
      if w.dev.regs.cfg.holder = some (!masterHost m) ∧ w.dev.regs.cfg.committing = false then (if k = indKey 0 0x2_0008 then w else w.putReg k v)
      else w.cfg fun c => { c with drop := (c.drop + 1) % 2 ^ 32 } := by
  simp only [W.writeKey, hr, Reg.passes hp, hc, Bool.false_eq_true, if_false, if_true, Bool.and_eq_true, decide_eq_true_eq, Bool.not_eq_true']

/-- A read that privilege lets pass, of a register that counts no grants and is no _HI, answers the value; a _LO captures its _HI. -/
theorem W.readKey_value (hp : r.priv = true → masterPriv m = true) (ht : tableOfCtl k = none) (hhi : r.hi = false) :
    w.readKey m k =
      let hi := match w.dev.regAt w.herd (k + 4) with | some x => x.val | none => 0
      (if r.lo then w.regs fun g => { g with captured := nput (masterNo m * 2 ^ 48 + k + 4) hi g.captured } else w).answered r.val 0 := by
  simp only [W.readKey, hr, Reg.passes hp, ht, hhi, Option.getD_some, Bool.false_eq_true, if_false] <;> rfl

end

/-- Settles O37: outside the condition of the window, the write of a checked register takes the branch that counts it. -/
theorem checkedWritesNeedTheWindow : Obligations.CheckedWritesNeedTheWindow := by
  intro m k w r hr hp hc hout a v
  refine (W.writeKey_checked hr hp hc a v).trans (if_neg ?_)
  rintro ⟨hholder, hopen⟩
  exact hout.elim (absurd hholder) (by simp [hopen])

/-- Settles O36: without privilege a write only counts, and a read answers zero. -/
theorem privilegedRegistersAreGuarded : Obligations.PrivilegedRegistersAreGuarded := by
  intro m k w r hr hp hm
  have hread := W.readKey_denied hr hp hm
  refine ⟨fun a v ha => ?drop, ?value, ?status, fun a v s hw hk h hi => ?rows⟩
  case drop => rw [W.writeKey_denied hr hp hm, W.countPriv, Nat.mod_eq_of_lt ha]
  case value => rw [hread]; rfl
  case status => rw [hread]; rfl
  case rows =>
    subst hw hk
    exact ⟨exec_registerWrite h hi v, exec_loReadCapture h hi⟩

/-! ### Indirect pairs (R516 to R518) -/

/-- A wake for an access touches the power domains, and what one that was OFF gets back: its pending tables and its Drove port. -/
theorem W.wakeFor_keeps {g : W → β} (hpower : ∀ (f : Power → Power) w, g (w.power f) = g w) (hport : ∀ (p : Nat) (f : Link → Link) w, g (w.port p f) = g w)
    (hslots : ∀ (f : Slots → Slots) w, g (w.slots f) = g w) (n : Nat) (w : W) : g (w.wakeFor n) = g w := by
  have hdomain (f : Domain → Domain) (v : W) : g (v.domain n f) = g v := by
    unfold W.domain
    split
    · rfl
    · exact hpower _ v
  have hback (v : W) : g (v.backFromOff n) = g v := by
    have hreload : g (v.reload n) = g v := W.each_keeps (fun _ w => hslots _ w) _ v
    unfold W.backFromOff
    dsimp only
    split
    · exact (hport _ _ _).trans hreload
    · exact hreload
  unfold W.wakeFor W.wakeTo
  dsimp only
  split
  · rfl
  · exact (W.when_keeps hback _ _).trans (hdomain _ w)

section
variable {m : Master} {t k : Nat} {w : W} (ht : w.dev.targetAbsent t = false)
include ht

theorem Dev.targetAbsent_woken : (W.each (targetDomains t) W.wakeFor w).dev.targetAbsent t = false := by
  have hboot : (W.each (targetDomains t) W.wakeFor w).dev.boot = w.dev.boot :=
    W.each_keeps (g := (·.dev.boot)) (W.wakeFor_keeps (g := (·.dev.boot)) (fun _ _ => rfl) (fun _ _ _ => rfl) (fun _ _ => rfl)) _ w
  rw [Dev.targetAbsent, hboot]
  exact ht

theorem W.readPair_present : w.readPair m t k = ((W.each (targetDomains t) W.wakeFor w).readKey m (w.dev.pairKey t k)).advancePair t k := by
  simp only [W.readPair, Dev.targetAbsent_woken ht, Bool.false_eq_true, if_false]

theorem W.writePair_present (v : Nat) :
    w.writePair m t k v =
      ((W.each (targetDomains t) W.wakeFor w).writeKey m (bIdx + t * 0x40 + k * 0x10 + 4) (w.dev.pairKey t k) v).advancePair t k := by
  simp only [W.writePair, Dev.targetAbsent_woken ht, Bool.false_eq_true, if_false]

end

/-- Settles O35: an access that privilege lets pass reaches its register, directly or through its pair. -/
theorem registerAccessesAct : Obligations.RegisterAccessesAct := by
  refine ⟨fun m a v s r h hi hr hp => ⟨fun hc hholder hopen => ?checked, fun hc => ?acts, fun ht hhi => ?read⟩, fun m t k s h ht => ⟨?readPair, fun v => ?writePair⟩⟩
  case checked =>
    have hdirect : a.toNat ≠ indKey 0 0x2_0008 := Nat.ne_of_lt (Nat.lt_of_lt_of_le a.isLt (by decide))
    refine (exec_registerWrite h hi v).trans (congrArg (winds s) ((W.writeKey_checked (w := W.of s) hr hp hc _ _).trans ?_))
    exact (if_pos ⟨hholder, hopen⟩).trans (if_neg hdirect)
  case acts => exact (exec_registerWrite h hi v).trans (congrArg (winds s) (W.writeKey_acts (w := W.of s) hr hp hc _ _))
  case read => exact (exec_loReadCapture h hi).trans (congrArg (ends s) (W.readKey_value (w := W.of s) hr hp ht hhi))
  case readPair => exact congrArg (winds s) ((W.byMaster_reaches h _).trans (W.readPair_present (w := W.of s) ht))
  case writePair => exact congrArg (winds s) ((W.byMaster_reaches h _).trans (W.writePair_present (w := W.of s) ht v.toNat))

/-! ### The configuration window (R524 to R526) -/

/-- Outside IMAGE_WAIT the CFG block answers from its base on. -/
theorem Dev.regAt_cfg {d : Dev} {off : Nat} (herd : Nat) (hw : d.boot.phase ≠ .imageWait) (hlt : off < 0x1000) (hal : off % 4 = 0) :
    d.regAt herd (bCfg + off) = d.cfgReg off := by
  have hal' : (bCfg + off) % 4 = 0 := by unfold bCfg; omega
  have hbig : ¬ 2 ^ 32 ≤ bCfg + off := by unfold bCfg; omega
  have hbelow : ¬ bCfg + off < bCfg := by omega
  have hboot : bCfg + off < bBoot := by unfold bCfg bBoot; omega
  simp only [Dev.regAt, hal', hw, hbig, hbelow, hboot, Nat.add_sub_cancel_left, ne_eq, not_true_eq_false, decide_false, Bool.false_and,
    Bool.false_eq_true, if_false, if_true]

section
variable {m : Master} {s : State} (h : Reaches m s) (hm : masterPriv m = true)
include h hm

/-- A privileged master's write of CFG_CTL takes effect. -/
theorem exec_cfgCtl (v : Nat) : actWind (W.byMaster m (W.writeDirect m bCfg v)) s = winds s ((W.of s).writeCfgCtl m v) := by
  have hreg : (W.of s).dev.regAt (W.of s).herd bCfg = privReg _ := Dev.regAt_cfg (off := 0) _ h.noWait (by decide) (by decide)
  have hact : (W.of s).actReg m bCfg v = (W.of s).writeCfgCtl m v := rfl
  refine congrArg (winds s) ((W.byMaster_reaches h _).trans ?_)
  rw [W.writeDirect_key (by decide), W.writeKey_acts hreg (fun _ => hm) (by decide), hact]

theorem exec_cfgRefWrite (v : Word) : exec (.cfgRefWrite m v) s = winds s ((W.of s).writeCfgRef m v.toNat) := by
  have hreg : (W.of s).dev.regAt (W.of s).herd (bCfg + 4) = privReg _ := Dev.regAt_cfg _ h.noWait (by decide) (by decide)
  have hact : (W.of s).actReg m (bCfg + 4) v.toNat = (W.of s).writeCfgRef m v.toNat := rfl
  refine congrArg (winds s) ((W.byMaster_reaches h _).trans ?_)
  rw [W.writeDirect_key (by decide), W.writeKey_acts hreg (fun _ => hm) (by decide), hact]

end

theorem W.cfg_slots (f : CfgCheck → CfgCheck) (w : W) : (w.cfg f).dev.slots = w.dev.slots := rfl

theorem W.commitCfg_slots (l : List (Nat × Nat)) (w : W) : (w.commitCfg l).dev.slots = w.dev.slots := rfl

theorem W.swapNow_regs (t : Nat) (w : W) : (w.swapNow t).dev.regs = w.dev.regs := by
  unfold W.swapNow
  split
  · rfl
  · split <;> rfl

/-- A SWAP goes by the slot tables alone, so that a change of the window's record beside it does not matter. -/
theorem W.swapNow_cfg (t : Nat) (f : CfgCheck → CfgCheck) (w : W) : (w.cfg f).swapNow t = (w.swapNow t).cfg f := by
  unfold W.swapNow
  split
  · rfl
  · split
    next h => rw [if_pos (show tableValid t (tableEntries w.dev.slots.pend t) = true from h)]; rfl
    next h => rw [if_neg (show ¬ tableValid t (tableEntries w.dev.slots.pend t) = true from h)]; rfl

theorem W.each_swapNow_cfg (l : List Nat) (f : CfgCheck → CfgCheck) (w : W) : W.each l W.swapNow (w.cfg f) = (W.each l W.swapNow w).cfg f := by
  induction l generalizing w with
  | nil => rfl
  | cons t r ih => exact (congrArg (W.each r W.swapNow) (W.swapNow_cfg t f w)).trans (ih (w.swapNow t))

/-- What the closing of a window does with the SWAPs that waited for it: a commit applies them. -/
def W.endSwaps (committed : Bool) (w : W) : W :=
  let v := w.slots fun x => { x with swapWait := [] }
  if committed then W.each w.dev.slots.swapWait W.swapNow v else v

/-- The window's record, closed. -/
def CfgCheck.closed (committed : Bool) (c : CfgCheck) : CfgCheck :=
  { c with holder := none, committing := false, timeoutGone := c.timeoutGone || committed }

theorem W.endSwaps_regs (committed : Bool) (w : W) : (w.endSwaps committed).dev.regs = w.dev.regs := by
  unfold W.endSwaps
  dsimp only
  split
  · exact W.each_keeps (g := (·.dev.regs)) W.swapNow_regs _ _
  · rfl

/-- The record may close before the SWAPs end. -/
theorem W.endSwaps_closed (committed : Bool) (w : W) :
    (w.endSwaps committed).cfg (CfgCheck.closed committed) =
      let v := (w.slots fun x => { x with swapWait := [] }).cfg (CfgCheck.closed committed)
      if committed then W.each w.dev.slots.swapWait W.swapNow v else v := by
  cases committed with
  | false => rfl
  | true => exact (W.each_swapNow_cfg _ _ _).symm

/-- A window that closes ends the SWAPs, and a host that waits receives it. -/
theorem W.closeWindow_eq (committed : Bool) (w : W) :
    w.closeWindow committed =
      let v := (w.endSwaps committed).cfg (CfgCheck.closed committed)
      if w.dev.regs.cfg.openWait then v.takeWindow false else v := by
  have hwait : ((w.endSwaps committed).cfg (CfgCheck.closed committed)).dev.regs.cfg.openWait = w.dev.regs.cfg.openWait :=
    congrArg (fun r => r.cfg.openWait) (W.endSwaps_regs committed w)
  dsimp only
  rw [← hwait, W.endSwaps_closed]
  rfl

theorem W.closeWindow_slots (committed : Bool) (w : W) : (w.closeWindow committed).dev.slots = (w.endSwaps committed).dev.slots := by
  rw [W.closeWindow_eq]
  dsimp only
  split <;> rfl

/-- Where no host waits for it, the window stays closed. -/
theorem W.closeWindow_noWait {w : W} (h : w.dev.regs.cfg.openWait = false) (committed : Bool) :
    w.closeWindow committed =
      let v := (w.slots fun x => { x with swapWait := [] }).cfg (CfgCheck.closed committed)
      if committed then W.each w.dev.slots.swapWait W.swapNow v else v := by
  rw [W.closeWindow_eq, h, ← W.endSwaps_closed]
  rfl

/-- As `W.closeWindow_noWait`, after a change of the window's record: both together are one change of it. -/
theorem W.closeWindow_cfg {f g : CfgCheck → CfgCheck} {committed : Bool} {w : W} (h : (f w.dev.regs.cfg).openWait = false)
    (hg : (f w.dev.regs.cfg).closed committed = g w.dev.regs.cfg) :
    (w.cfg f).closeWindow committed =
      let v := (w.slots fun x => { x with swapWait := [] }).cfg g
      if committed then W.each w.dev.slots.swapWait W.swapNow v else v := by
  have hclosed : ((w.cfg f).slots fun x => { x with swapWait := [] }).cfg (CfgCheck.closed committed) =
      (w.slots fun x => { x with swapWait := [] }).cfg g :=
    W.cfg_congr (w := w.slots fun x => { x with swapWait := [] }) (f := fun c => (f c).closed committed) hg
  rw [W.closeWindow_noWait (w := w.cfg f) h, hclosed]
  rfl

section
variable {m : Master} {w : W}

theorem W.cfgOpen_takes (h : w.dev.regs.cfg.holder = none) : w.writeCfgCtl m 1 = w.takeWindow (!masterHost m) := by
  show w.openWindow (!masterHost m) = _
  rw [W.openWindow, h]

variable (h : w.dev.regs.cfg.holder = some (!masterHost m))
include h

theorem W.cfgCommit_begins : w.writeCfgCtl m 2 = w.cfg fun c => { c with committing := true } := if_pos h

theorem W.cfgAbandon_closes (hc : w.dev.regs.cfg.committing = false) : w.writeCfgCtl m 0 = w.closeWindow false := by
  show w.abandonWindow (!masterHost m) = _
  rw [W.abandonWindow, if_pos h, if_neg (by simp [hc])]

theorem W.writeCfgRef_closes (v : Nat) :
    w.writeCfgRef m v = ((w.commitCfg w.dev.checked).cfg fun c => { c with ref := v, state := 1 }).closeWindow true := if_pos h

end

/-- A commit by CFG_REF closes a window for which no host waits. -/
theorem W.commit_closes {w : W} (h : w.dev.regs.cfg.openWait = false) (l : List (Nat × Nat)) (v : Nat) :
    ((w.commitCfg l).cfg fun c => { c with ref := v, state := 1 }).closeWindow true =
      W.each w.dev.slots.swapWait W.swapNow ((w.slots fun x => { x with swapWait := [] }).cfg fun c => { c with
        ref := v, committed := l.filter fun x => x.2 ≠ 0, state := 1, holder := none, committing := false, timeoutGone := true }) := by
  refine W.closeWindow_cfg (w := w) (f := fun c => { c with ref := v, committed := l.filter fun x => x.2 ≠ 0, state := 1 }) h ?_
  simp only [CfgCheck.closed, Bool.or_true]

/-- A host window that is held for more than 100 ms closes, unless its commit is in progress. -/
theorem W.windowTimeout_closes {h : Nat} {w : W} (hh : w.dev.regs.cfg.holder = some false) (hc : w.dev.regs.cfg.committing = false)
    (hlate : w.dev.regs.cfg.openedAt + 40_000_000 < h) :
    w.windowTimeout h = (w.cfg fun c => { c with timeout := true, timeoutGone := false }).closeWindow false := by
  simp [W.windowTimeout, hh, hc, hlate]

/-- Settles O31: each write reaches CFG_CTL or CFG_REF. A host that waits for the window (log entry 83) stands outside the hypotheses. -/
theorem configurationWindowMoves : Obligations.ConfigurationWindowMoves := by
  refine ⟨fun m s h hm hh => ?opens, fun m s h hm hh => ⟨?commit, fun hwait => ⟨fun hc => ?abandon, fun v => ?reference⟩⟩,
    fun n s hs hh hc hwait hlate => ?timeout⟩
  case opens => exact (exec_cfgCtl h hm 1).trans (congrArg (winds s) (W.cfgOpen_takes hh))
  case commit => exact (exec_cfgCtl h hm 2).trans (congrArg (winds s) (W.cfgCommit_begins hh))
  case abandon =>
    have hopen : (W.of s).dev.regs.cfg.committing = false := hc
    refine (exec_cfgCtl h hm 0).trans (congrArg (winds s) (((W.cfgAbandon_closes hh hc).trans (W.closeWindow_noWait hwait false)).trans ?_))
    refine W.cfg_congr ?_
    simp only [CfgCheck.closed, Bool.or_false, W.slots_regs, hopen]
  case reference =>
    exact (exec_cfgRefWrite h hm v).trans (congrArg (winds s) ((W.writeCfgRef_closes hh v.toNat).trans (W.commit_closes hwait _ v.toNat)))
  case timeout =>
    have hopen : (W.of (atHerd s n)).dev.regs.cfg.committing = false := hc
    refine (actWindAt_working n hs _).trans (congrArg (winds (atHerd s n)) ((W.windowTimeout_closes (w := W.of (atHerd s n)) hh hc hlate).trans ?_))
    refine (W.closeWindow_cfg (w := W.of (atHerd s n)) (g := fun c => { c with timeout := true, timeoutGone := false, holder := none }) hwait ?_).trans
      (if_neg Bool.false_ne_true)
    simp only [CfgCheck.closed, Bool.or_false, hopen]

/-- Settles O38: a SWAP joins those that wait, and only a close that commits applies them. -/
theorem swapsWaitForTheWindow : Obligations.SwapsWaitForTheWindow := by
  refine ⟨fun m t s h hm hopen hpresent => ?waits, fun w => ⟨?applied, ?dropped⟩, fun m v s h hm hh => ⟨?reference, fun hc => ?abandon⟩,
    fun x s hs hx hf hc => ?sweep, fun n s hs hh hc hlate => ?timeout⟩
  case waits =>
    refine (exec_swap h hm t).trans (congrArg (winds s) ((W.swapTable_present (hpresent.imp_left (swapTarget_eq_tLinks t).mpr)).trans (if_pos hopen)))
  case applied => exact W.closeWindow_slots true w
  case dropped => exact W.closeWindow_slots false w
  case reference => exact (exec_cfgRefWrite h hm v).trans (congrArg (winds s) (W.writeCfgRef_closes hh v.toNat))
  case abandon => exact (exec_cfgCtl h hm 0).trans (congrArg (winds s) (W.cfgAbandon_closes hh hc))
  case sweep =>
    have hend := W.sweepEnd_commits (w := W.of s) hx hf hc
    refine ⟨_, (actWind_working hs _).trans (congrArg (winds s) hend), ?_⟩
    rw [W.cfg_slots, W.commitCfg_slots]
    rfl
  case timeout => exact ⟨_, (actWindAt_working n hs _).trans (congrArg (winds (atHerd s n)) (W.windowTimeout_closes (w := W.of (atHerd s n)) hh hc hlate)), rfl⟩

end Sys2Proof.Machine
end

section
/-! SUPPORT. The tack store's regions, what a loss of power or a reset keeps, and where the pins and the input power take the module (R470, R484, R485, R541
to R543). -/

namespace Sys2Proof.Machine

open Host

/-! ### Regions of the tack store (R485) -/

theorem seqHigher_next (n : Nat) : seqHigher ((n + 1) % 2 ^ 32) n = true := by
  have hone : ((n + 1) % 2 ^ 32 + 2 ^ 32 - n % 2 ^ 32) % 2 ^ 32 = 1 := by omega
  simp only [seqHigher, hone]
  decide

theorem seqHigher_before (n : Nat) : seqHigher n ((n + 1) % 2 ^ 32) = false := by
  have hfar : ¬ (n + 2 ^ 32 - (n + 1) % 2 ^ 32 % 2 ^ 32) % 2 ^ 32 < 2 ^ 31 := by omega
  simp only [seqHigher, hfar, decide_false, Bool.and_false]

/-- What is written is what the region then holds: the copy that is not current takes it, valid and with the higher SEQ. -/
theorem TackRegion.get_write (x e : α) (r : TackRegion α) : (r.write x).get e = x := by
  by_cases ha : r.onA = true
  · have hwrite : r.write x = { r with b := { seq := (r.a.seq + 1) % 2 ^ 32, crcOk := true, held := x } } := by
      simp only [TackRegion.write, TackRegion.current?, ha, if_true, Option.map_some, Option.getD_some]
    have hon : (r.write x).onA = false := by
      simp only [hwrite, TackRegion.onA, seqHigher_next, Bool.and_self, Bool.not_true, Bool.and_false]
    simp only [TackRegion.get, TackRegion.current?, hon, Bool.false_eq_true, if_false]
    rw [hwrite]
    rfl
  · have hon : (r.write x).onA = true := by
      cases hb : r.b.crcOk with
      | false =>
        simp only [TackRegion.write, if_neg ha]
        simp only [TackRegion.onA, hb, Bool.false_and, Bool.not_false, Bool.and_self]
      | true =>
        simp only [TackRegion.write, TackRegion.current?, if_neg ha, hb, if_true, Option.map_some, Option.getD_some]
        simp only [TackRegion.onA, seqHigher_before, Bool.and_false, Bool.not_false, Bool.and_self]
    simp only [TackRegion.get, TackRegion.current?, hon, if_true]
    simp only [TackRegion.write, if_neg ha, Option.map_some, Option.getD_some]

theorem Boot.logCopy_setLogCopy (l : List Bytes) (b : Boot) : (b.setLogCopy l).logCopy = l := TackRegion.get_write l [] b.tack.faultLog

theorem Boot.header_setHeader (f : StoreHeader → StoreHeader) (b : Boot) : (b.setHeader f).header = f b.header := TackRegion.get_write _ _ b.tack.header

/-! ### What a loss of power or a reset keeps (R450, R470) -/

/-- The write buffer is lost by writes to the medium and to the shed's record, beside free values. -/
theorem W.loseBuffer_keeps {g : W → β} (hfresh : ∀ w, g w.fresh.2 = g w) (hpokes : ∀ k b w, g (w.pokes k b) = g w)
    (hshed : ∀ (f : Shed → Shed) w, g (w.shed f) = g w) (w : W) : g w.loseBuffer = g w := by
  have undone (k : Nat) (es : List Buffered) (acc : W × Bool) :
      g (es.foldl (fun (acc : W × Bool) b =>
        if acc.2 then acc
        else
          let (n, w) := acc.1.fresh
          if Config.freeBool n then (w, true) else (w.pokes k b.old, false)) acc).1 = g acc.1 := by
    induction es generalizing acc with
    | nil => rfl
    | cons b r ih =>
      refine (ih _).trans ?_
      dsimp only
      split
      · rfl
      · split
        · exact hfresh _
        · exact (hpokes _ _ _).trans (hfresh _)
  have all (l : List Nat) (f : W → Nat → W) (hf : ∀ w n, g (f w n) = g w) (v : W) : g (l.foldl f v) = g v := by
    induction l generalizing v with
    | nil => rfl
    | cons n r ih => exact (ih _).trans (hf v n)
  unfold W.loseBuffer
  refine (hshed _ _).trans (all _ _ (fun v n => ?_) w)
  exact undone _ _ (v, false)

theorem W.wipe_keeps {g : W → β} (hpoke : ∀ k b w, g (w.poke k b) = g w) (f : Nat → Bool) (w : W) : g (w.wipe f) = g w :=
  W.each_keeps (f := fun k => W.poke k 0) (fun k w => hpoke k 0 w) _ w

/-- The gatehouse's part of the start record: what the loss of the module's contents keeps of it. -/
def Boot.kept (b : Boot) : Boot :=
  { Boot.reset with
    part := b.part, phase := b.phase, inputPresent := b.inputPresent, pwrEn := b.pwrEn, resetN := b.resetN, tack := b.tack
    nextFull := b.nextFull, log := b.log, prev := b.prev, romVersion := b.romVersion, tackFw := b.tackFw, tackCfg := b.tackCfg }

section
variable (w : W)

theorem W.dropContents_boot : w.dropContents.dev.boot = w.dev.boot.kept :=
  congrArg Boot.kept ((W.wipe_keeps (g := (·.dev.boot)) (fun _ _ _ => rfl) _ _).trans
    (W.loseBuffer_keeps (g := (·.dev.boot)) (fun _ => rfl) (fun _ _ _ => by rw [W.pokes_dev]) (fun _ _ => rfl) w))

theorem W.dropContents_log : w.dropContents.dev.faults.log = w.dev.faults.log := by
  simp only [W.dropContents, Dev.dropped]
  exact (W.wipe_keeps (g := (·.dev.faults.log)) (fun _ _ _ => rfl) _ _).trans
    (W.loseBuffer_keeps (g := (·.dev.faults.log)) (fun _ => rfl) (fun _ _ _ => by rw [W.pokes_dev]) (fun _ _ => rfl) w)

theorem W.dropContents_pads : w.dropContents.dev.pads = [] := rfl

theorem W.dropContents_buffer : w.dropContents.dev.shed.buffer = [] := rfl

end

/-- The module has lost its contents and is in `phase`: no paddock, nothing in the shed's buffer; pins, fault log and its copy as they were. -/
structure W.Emptied (phase : Phase) (w w' : W) : Prop where
  phase : w'.dev.boot.phase = phase
  present : w'.dev.boot.inputPresent = w.dev.boot.inputPresent
  pwrEn : w'.dev.boot.pwrEn = w.dev.boot.pwrEn
  resetN : w'.dev.boot.resetN = w.dev.boot.resetN
  logCopy : w'.dev.boot.logCopy = w.dev.boot.logCopy
  log : w'.dev.faults.log = w.dev.faults.log
  pads : w'.dev.pads = []
  buffer : w'.dev.shed.buffer = []

theorem W.Emptied.trans {p q : Phase} {w v u : W} (hv : Emptied p w v) (hu : Emptied q v u) : Emptied q w u where
  phase := hu.phase
  present := hu.present.trans hv.present
  pwrEn := hu.pwrEn.trans hv.pwrEn
  resetN := hu.resetN.trans hv.resetN
  logCopy := hu.logCopy.trans hv.logCopy
  log := hu.log.trans hv.log
  pads := hu.pads
  buffer := hu.buffer

/-- Any change of the start record after the loss that keeps pins and log copy, and sets the phase. -/
theorem W.emptied_of_boot {p : Phase} {w w' : W} {b : Boot} (hb : w'.dev.boot = b) (hphase : b.phase = p)
    (hpins : b.inputPresent = w.dev.boot.inputPresent ∧ b.pwrEn = w.dev.boot.pwrEn ∧ b.resetN = w.dev.boot.resetN) (hcopy : b.logCopy = w.dev.boot.logCopy)
    (hlog : w'.dev.faults.log = w.dev.faults.log) (hpads : w'.dev.pads = []) (hbuffer : w'.dev.shed.buffer = []) : Emptied p w w' := by
  subst hb
  obtain ⟨hpresent, hpwr, hreset⟩ := hpins
  exact ⟨hphase, hpresent, hpwr, hreset, hcopy, hlog, hpads, hbuffer⟩

theorem W.enterHeld_boot (w : W) : w.enterHeld.dev.boot = { w.dev.boot.kept with phase := .held } :=
  congrArg (fun b : Boot => { b with phase := .held }) w.dropContents_boot

theorem W.enterHeld_empties (w : W) : Emptied .held w w.enterHeld :=
  W.emptied_of_boot w.enterHeld_boot rfl ⟨rfl, rfl, rfl⟩ rfl w.dropContents_log rfl rfl

theorem W.dropContents_phase_boot (p : Phase) (w : W) : (w.dropContents.phase p).dev.boot = { w.dev.boot.kept with phase := p } :=
  congrArg (fun b : Boot => { b with phase := p }) w.dropContents_boot

theorem W.dropContents_phase_empties (p : Phase) (w : W) : Emptied p w (w.dropContents.phase p) :=
  W.emptied_of_boot (w.dropContents_phase_boot p) rfl ⟨rfl, rfl, rfl⟩ rfl w.dropContents_log rfl rfl

/-- The start record as bring-up begins. -/
def Boot.started (h : Nat) (b : Boot) : Boot :=
  { b.kept.setHeader fun x => { x with startCount := x.startCount + 1 } with phase := .bringUp, stagesDone := 0, prev := b.log, log := [], stageStart := h }

theorem W.beginStart_boot (w : W) : w.beginStart.dev.boot = w.dev.boot.started w.dropContents.herd :=
  congrArg (fun b : Boot => { b.setHeader fun x => { x with startCount := x.startCount + 1 } with
    phase := .bringUp, stagesDone := 0, prev := b.log, log := [], stageStart := w.dropContents.herd }) w.dropContents_boot

theorem Boot.started_startCount (h : Nat) (b : Boot) : (b.started h).startCount = b.startCount + 1 :=
  congrArg StoreHeader.startCount (Boot.header_setHeader (fun x => { x with startCount := x.startCount + 1 }) b.kept)

theorem W.beginStart_empties (w : W) : Emptied .bringUp w w.beginStart :=
  W.emptied_of_boot w.beginStart_boot rfl ⟨rfl, rfl, rfl⟩ rfl w.dropContents_log rfl rfl

/-- Where PWR_EN and RESET_N take a module with 56 V (R541). -/
def Phase.byPins (pwrEn resetN : Bool) : Phase := if !pwrEn then .held else if !resetN then .inReset else .bringUp

theorem W.settlePower_starts {w : W} (hin : w.dev.boot.inputPresent = true) (hp : w.dev.boot.pwrEn = true) (hr : w.dev.boot.resetN = true) :
    w.settlePower = w.beginStart := by
  simp only [W.settlePower, hin, hp, hr, Bool.not_true, Bool.false_eq_true, if_false]

theorem W.settlePower_empties {w : W} (hin : w.dev.boot.inputPresent = true) : Emptied (Phase.byPins w.dev.boot.pwrEn w.dev.boot.resetN) w w.settlePower := by
  unfold Phase.byPins W.settlePower
  simp only [hin, Bool.not_true, Bool.false_eq_true, if_false]
  split
  · exact w.enterHeld_empties
  · split
    · exact W.dropContents_phase_empties .inReset w
    · exact w.beginStart_empties

/-! ### An orderly power-down (R470, R543) -/

theorem W.shed_keeps_pageProgram {g : W → β} (hshed : ∀ (f : Shed → Shed) w, g (w.shed f) = g w) (c : Nat) (w : W) : g (w.pageProgram c true) = g w := by
  have hcmds (f : StorageCmd → StorageCmd) (v : W) : g (v.storageCmds f) = g v := hshed _ v
  have hcmd (n : Nat) (f : StorageCmd → StorageCmd) (v : W) : g (v.storageCmd n f) = g v := hshed _ v
  have hdurable (b : Buffered) (v : W) : g (v.durable b.granule b.seq) = g v := by
    unfold W.durable
    dsimp only
    split
    · exact (hcmd _ _ _).trans (hshed _ v)
    · exact (hcmds _ _).trans ((hcmd _ _ _).trans (hshed _ v))
  have hpage (gs : List Nat) (v : W) : g (v.programPage c gs) = g v := by
    unfold W.programPage
    split
    · rfl
    · exact (hshed _ _).trans (hshed _ v)
  unfold W.pageProgram
  dsimp only
  split
  · rfl
  · simp only [if_true]
    split
    · rfl
    · exact (W.each_keeps (fun b w => hdurable b w) _ _).trans (hpage _ w)

/-- The drain touches the shed alone. -/
theorem W.drainShed_keeps {g : W → β} (hshed : ∀ (f : Shed → Shed) w, g (w.shed f) = g w) (w : W) : g w.drainShed = g w :=
  W.each_keeps (W.shed_keeps_pageProgram hshed) _ w

theorem tget?_of_notMem {k : Nat} {l : List (Nat × α)} (h : k ∉ l.map (·.1)) : tget? k l = none := by
  induction l with
  | nil => rfl
  | cons x r ih =>
    rw [List.map_cons, List.mem_cons, not_or] at h
    rw [tget?, if_neg (Ne.symm h.1)]
    exact ih h.2

theorem Dev.step?_step_same (p : Nat) (f : Step → Step) (w : W) : (w.step p f).dev.step? p = (w.dev.step? p).map f := by
  cases hq : w.dev.pad? p with
  | none => simp only [W.step, W.pad, Dev.step?, hq, Option.bind_none, Option.map_none]
  | some q =>
    unfold W.step
    simp only [Dev.step?, Dev.pad?_W_pad hq, hq, Option.bind_some]

theorem Dev.step?_step_other {p q : Nat} (h : p ≠ q) (f : Step → Step) (w : W) : (w.step q f).dev.step? p = w.dev.step? p := by
  unfold W.step W.pad
  split
  · exact congrArg (fun o : Option Paddock => o.bind (·.step)) (tget?_tput_other h _ _)
  · rfl

theorem Dev.step?_each_other {p : Nat} {l : List Nat} (h : p ∉ l) (f : Step → Step) (w : W) :
    (W.each l (fun q w => w.step q f) w).dev.step? p = w.dev.step? p := by
  induction l generalizing w with
  | nil => rfl
  | cons q r ih =>
    rw [List.mem_cons, not_or] at h
    exact (ih h.2 _).trans (Dev.step?_step_other h.1 f w)

/-- Every paddock that a loop over steps names has a step that the change has made. -/
theorem Dev.step?_each_mem {p : Nat} {l : List Nat} (h : p ∈ l) {f : Step → Step} {x : Step} (w : W)
    (hx : (W.each l (fun q w => w.step q f) w).dev.step? p = some x) : ∃ y, x = f y := by
  induction l generalizing w with
  | nil => exact absurd h List.not_mem_nil
  | cons q r ih =>
    by_cases hr : p ∈ r
    · exact ih hr (w.step q f) hx
    · obtain rfl : p = q := (List.mem_cons.mp h).resolve_right hr
      have hstep := (Dev.step?_each_other hr f (w.step p f)).symm.trans hx
      rw [Dev.step?_step_same] at hstep
      obtain ⟨y, -, hy⟩ := Option.map_eq_some_iff.mp hstep
      exact ⟨y, hy.symm⟩

/-- The state in which an orderly power-down begins: every step is to abandon. -/
def W.abandonSteps (w : W) : W := W.each (w.dev.pads.map (·.1)) (fun p w => w.step p fun s => { s with abandon := true }) w

theorem W.abandonSteps_abandon {p : Nat} {x : Step} {w : W} (hx : w.abandonSteps.dev.step? p = some x) : x.abandon = true := by
  by_cases hp : p ∈ w.dev.pads.map (·.1)
  · obtain ⟨y, rfl⟩ := Dev.step?_each_mem hp w hx
    rfl
  · have hnone : w.dev.step? p = none := by rw [Dev.step?, Dev.pad?, tget?_of_notMem hp]; rfl
    rw [W.abandonSteps, Dev.step?_each_other hp, hnone] at hx
    exact absurd hx (by simp)

section
variable {w : W}

theorem W.pwrEnFall_drains (h : w.dev.boot.phase = .run ∨ w.dev.boot.phase = .standby) :
    w.pwrEnFall = ((w.boot fun b => { b with pwrEn := false }).phase .poweringDown).abandonSteps := by
  rcases h with h | h <;>
  · simp only [W.pwrEnFall, W.boot_boot, h]
    rfl

theorem W.pwrEnFall_held (h : w.dev.boot.phase = .bringUp ∨ w.dev.boot.phase = .imageWait ∨ w.dev.boot.phase = .safe ∨ w.dev.boot.phase = .inReset) :
    w.pwrEnFall = (w.boot fun b => { b with pwrEn := false }).enterHeld := by
  rcases h with h | h | h | h <;> simp only [W.pwrEnFall, W.boot_boot, h]

theorem W.resetLow_drops (h0 : w.dev.boot.phase ≠ .noPower) (hh : w.dev.boot.phase ≠ .held) :
    w.resetLow = ((w.boot fun b => { b with resetN := false }).dropContents).phase .inReset := by
  unfold W.resetLow
  dsimp only
  split
  next h => exact absurd h h0
  next h => exact absurd h hh
  next => rfl

/-- The drained module: its buffer is on the medium, its map checkpointed, and its newest log records in the tack store. -/
def W.drained (w : W) : W := ((w.drainShed).shed fun s => { s with checkpoint := s.map }).copyLog

theorem W.drainOver_settles (h : w.dev.boot.phase = .poweringDown) : w.drainOver = w.drained.enterHeld.settlePower := if_neg (not_not_intro h)

theorem W.drained_boot : w.drained.dev.boot = w.dev.boot.setLogCopy (w.dev.faults.log.take 256) := by
  have hboot : w.drainShed.dev.boot = w.dev.boot := W.drainShed_keeps (g := (·.dev.boot)) (fun _ _ => rfl) w
  have hlog : w.drainShed.dev.faults.log = w.dev.faults.log := W.drainShed_keeps (g := (·.dev.faults.log)) (fun _ _ => rfl) w
  show w.drainShed.dev.boot.setLogCopy (w.drainShed.dev.faults.log.take 256) = _
  rw [hboot, hlog]

end

/-- The end of the drain goes where the pins say, with the newest log records in the tack store. -/
theorem W.drainOver_empties {w : W} (h : w.dev.boot.phase = .poweringDown) (hin : w.dev.boot.inputPresent = true) :
    ∃ w', w.drainOver = w' ∧ w'.dev.boot.phase = .byPins w.dev.boot.pwrEn w.dev.boot.resetN ∧ w'.dev.pads = [] ∧ w'.dev.shed.buffer = [] ∧
      w'.dev.boot.logCopy = w.dev.faults.log.take 256 := by
  have hheld := w.drained.enterHeld_empties
  have hboot := w.drained_boot
  have hpresent : w.drained.enterHeld.dev.boot.inputPresent = true := hheld.present.trans ((congrArg Boot.inputPresent hboot).trans hin)
  obtain ⟨hphase, -, -, -, hcopy, -, hpads, hbuffer⟩ := hheld.trans (W.settlePower_empties hpresent)
  rw [hheld.pwrEn, hheld.resetN, hboot] at hphase
  rw [hboot, Boot.logCopy_setLogCopy] at hcopy
  exact ⟨_, W.drainOver_settles h, hphase, hpads, hbuffer, hcopy⟩

/-- Settles O57. Each event settles the phase by the pins, or empties the module; which writes to the tack store a loss of 56 V cuts short is open. -/
theorem powerSequencingActs : Obligations.PowerSequencingActs := by
  intro s b goes
  refine ⟨fun h => ?applied, fun h hin => ?rise, fun h => ?drains, fun h => ?held, fun h hin => ?drained, fun h0 hh => ?low, fun h hin hp => ?risen, ?lost⟩
  case applied =>
    have hsettled := W.settlePower_empties (w := (W.of s).boot fun b => { b with inputPresent := true }) rfl
    exact ⟨_, congrArg (ends s) (if_neg (not_not_intro h)), hsettled.phase, hsettled.present⟩
  case rise =>
    have hsettled := W.settlePower_empties (w := (W.of s).boot fun b => { b with pwrEn := true }) hin
    refine ⟨_, congrArg (ends s) (if_pos h), hsettled.phase, fun hr => ?_⟩
    have hstart := (congrArg (·.dev.boot) (W.settlePower_starts (w := (W.of s).boot fun b => { b with pwrEn := true }) hin rfl hr)).trans (W.beginStart_boot _)
    exact ⟨(congrArg Boot.startCount hstart).trans (Boot.started_startCount _ _), congrArg Boot.prev hstart⟩
  case drains =>
    have hboot : (((W.of s).boot fun b => { b with pwrEn := false }).phase .poweringDown).abandonSteps.dev.boot.phase = .poweringDown :=
      W.each_keeps (g := (·.dev.boot.phase)) (fun p w => congrArg Boot.phase (W.step_boot p _ w)) _ _
    have hlog : (((W.of s).boot fun b => { b with pwrEn := false }).phase .poweringDown).abandonSteps.log = [] :=
      W.each_keeps (g := W.log) (fun p w => W.step_log p _ w) _ _
    refine ⟨_, congrArg (ends s) (W.pwrEnFall_drains (w := W.of s) h), hboot, ?_, fun p x hx => W.abandonSteps_abandon hx⟩
    rw [W.leave_mem, hlog]
    rfl
  case held =>
    have hempty := ((W.of s).boot fun b => { b with pwrEn := false }).enterHeld_empties
    exact ⟨_, congrArg (ends s) (W.pwrEnFall_held (w := W.of s) h), hempty.phase, hempty.pads, hempty.pwrEn⟩
  case drained =>
    obtain ⟨w, hw, hphase, hpads, hbuffer, hcopy⟩ := W.drainOver_empties (w := W.of s) h hin
    exact ⟨_, congrArg (ends s) hw, hphase, hpads, hbuffer, hcopy⟩
  case low =>
    have hempty := W.dropContents_phase_empties .inReset ((W.of s).boot fun b => { b with resetN := false })
    exact ⟨_, congrArg (ends s) (W.resetLow_drops (w := W.of s) h0 hh), hempty.phase, hempty.resetN, hempty.pads, hempty.log⟩
  case risen =>
    have hstart := (congrArg (·.dev.boot) (W.settlePower_starts (w := (W.of s).boot fun b => { b with resetN := true }) hin hp rfl)).trans (W.beginStart_boot _)
    exact ⟨_, congrArg (ends s) (if_pos h), congrArg Boot.phase hstart, congrArg Boot.stagesDone hstart,
      (congrArg Boot.startCount hstart).trans (Boot.started_startCount _ _)⟩
  case lost => exact ⟨_, rfl, rfl, rfl, rfl, rfl, rfl⟩

end Sys2Proof.Machine
end

section
/-! SUPPORT. The stages of bring-up: what each does of the start record, and the configuration of stage 9 (R483, R490 to R495). -/

namespace Sys2Proof.Machine

open Host

/-! ### The course of bring-up (R491, R494) -/

/-- Where bring-up stands: the phase, the stages done and their reports. -/
def Boot.course (b : Boot) : Phase × Nat × List StageReport := (b.phase, b.stagesDone, b.log)

/-- A stage has passed: bring-up goes on, with one stage more done and one report more. -/
structure Boot.Passed (b b' : Boot) : Prop where
  phase : b'.phase = b.phase
  stagesDone : b'.stagesDone = b.stagesDone + 1
  log : b'.log.length = b.log.length + 1

theorem Boot.passed_of_course {a b b' : Boot} (h : Passed a b') (hc : a.course = b.course) : Passed b b' := by
  simp only [Boot.course, Prod.mk.injEq] at hc
  obtain ⟨hphase, hdone, hlog⟩ := hc
  exact ⟨h.phase.trans hphase, hdone ▸ h.stagesDone, hlog ▸ h.log⟩

theorem W.passStage_passed (degraded : Bool) (found detail flags ms : Nat) (w : W) :
    Boot.Passed w.dev.boot (w.passStage degraded found detail flags ms).dev.boot := ⟨rfl, rfl, List.length_append⟩

/-- A stage that passes after work that leaves the course as it is. -/
theorem W.passStage_after {v w : W} (hc : v.dev.boot.course = w.dev.boot.course) (degraded : Bool) (found detail flags ms : Nat) :
    Boot.Passed w.dev.boot (v.passStage degraded found detail flags ms).dev.boot :=
  Boot.passed_of_course (W.passStage_passed degraded found detail flags ms v) hc

/-! ### What the stages do beside it -/

theorem W.boot_course {f : Boot → Boot} (hf : ∀ b, (f b).course = b.course) (w : W) : (w.boot f).dev.boot.course = w.dev.boot.course := hf _

theorem W.when_course {f : Boot → Boot} (hf : ∀ b, (f b).course = b.course) (c : Bool) (w : W) :
    (w.when c (W.boot f)).dev.boot.course = w.dev.boot.course :=
  W.when_keeps (g := fun w => w.dev.boot.course) (W.boot_course hf) c w

theorem W.addDefects_course (l : List DefectEntry) (w : W) : (w.addDefects l).dev.boot.course = w.dev.boot.course := by
  unfold W.addDefects
  exact (W.when_course (fun _ => by rfl) _ _).trans (W.when_course (fun _ => by rfl) _ w)

theorem W.addRetired_course (l : List Nat) (w : W) : (w.addRetired l).dev.boot.course = w.dev.boot.course := by
  unfold W.addRetired
  exact W.when_course (fun _ => by rfl) _ w

theorem W.removeFenced_boot (w : W) : w.removeFenced.dev.boot = w.dev.boot := by
  unfold W.removeFenced
  exact W.each_keeps (g := (·.dev.boot)) (fun t v => W.slots_boot _ v) _ w

theorem W.writeShedTables_boot (w : W) : w.writeShedTables.dev.boot = w.dev.boot := by
  unfold W.writeShedTables
  exact W.each_keeps (g := (·.dev.boot)) (fun t v => W.slots_boot _ v) _ w

theorem W.trainLinks_boot (w : W) : w.trainLinks.dev.boot = w.dev.boot := by
  unfold W.trainLinks
  exact (W.each_keeps (g := (·.dev.boot)) (fun p v => W.port_boot p _ v) _ _).trans (W.when_keeps (g := (·.dev.boot)) (fun v => W.halter_boot _ v) _ w)

/-! ### Each stage -/

section
variable {f : StageFindings} {w : W} (hp : w.dev.boot.phase = .bringUp)
include hp

theorem W.stage_zero (hn : w.dev.boot.stagesDone = 0) (href : f.refClk = true) (hsync : w.dev.sync.locked = true ∨ w.dev.sync.solo = true) :
    w.stage f = w.passStage false 0 w.dev.power.vinMV 0 f.durationMS := by
  have hgo : (f.refClk && (w.dev.sync.locked || w.dev.sync.solo)) = true := by
    rcases hsync with h | h <;> simp [href, h]
  simp only [W.stage, hp, hn, hgo, ne_eq, not_true_eq_false, if_false, if_true]

theorem W.stage_one_noStore (hn : w.dev.boot.stagesDone = 1) (hs : sfdpOffersNone f.sfdp = true) :
    w.stage f = w.device { cause := caStartFault, cls := clDevice, ukind := uHub, uindex := 6, detail := 0, arg := 1, pads := [], delay := 0 } := by
  simp only [W.stage, hp, hn, hs, ne_eq, not_true_eq_false, if_false, if_true]

/-- Without a firmware image, here and in the tack store, the module waits for one. -/
theorem W.stage_one_noFirmware (hn : w.dev.boot.stagesDone = 1) (hs : sfdpOffersNone f.sfdp = false) (hfw : w.dev.boot.fw = none) (hok : f.fwOk = false) :
    ∃ (cfg : Option Image) (status detail ms : Nat),
      w.stage f = (w.boot fun b => { b with tack := { b.tack with device := some f.sfdp }, fw := none, cfg := cfg }).stopForImage status detail ms := by
  simp only [W.stage, hp, hn, hs, hfw, hok, ne_eq, not_true_eq_false, Option.isSome_none, Bool.false_eq_true, if_false]
  exact ⟨_, _, _, _, rfl⟩

theorem W.stage_two (hn : w.dev.boot.stagesDone = 2) :
    w.stage f = (w.boot fun b => { b with deviceId := derivedId f.identityOk, identityBad := !f.identityOk }).passStage false 0
      (derivedId f.identityOk % 2 ^ 64) 0 f.durationMS := by
  simp only [W.stage, hp, hn, ne_eq, not_true_eq_false, if_false]

theorem W.stage_three_mismatch (hn : w.dev.boot.stagesDone = 3) (ht : f.topologyOk = false) :
    w.stage f = (w.boot fun b => { b with cfg := none }).stopForImage Status.topologyMismatch.code f.diesFound f.durationMS := by
  simp only [W.stage, hp, hn, ht, ne_eq, not_true_eq_false, Bool.false_and, Bool.false_eq_true, if_false]

theorem W.stage_four (hn : w.dev.boot.stagesDone = 4) : Boot.Passed w.dev.boot (w.stage f).dev.boot := by
  simp only [W.stage, hp, hn, ne_eq, not_true_eq_false, if_false]
  exact W.passStage_after ((W.boot_course (fun _ => by rfl) _).trans (W.addDefects_course _ w)) ..

theorem W.stage_five (hn : w.dev.boot.stagesDone = 5) : Boot.Passed w.dev.boot (w.stage f).dev.boot := by
  simp only [W.stage, hp, hn, ne_eq, not_true_eq_false, if_false]
  refine W.passStage_after (Eq.trans (congrArg Boot.course (W.tiers_boot _ _)) ?_) ..
  exact (W.addDefects_course _ _).trans (W.addRetired_course _ w)

theorem W.stage_six (hn : w.dev.boot.stagesDone = 6) : Boot.Passed w.dev.boot (w.stage f).dev.boot := by
  simp only [W.stage, hp, hn, ne_eq, not_true_eq_false, if_false]
  generalize hv : W.addDefects _ w = v
  have hc : v.dev.boot.course = w.dev.boot.course := hv ▸ W.addDefects_course _ w
  refine W.passStage_after ((W.boot_course (fun _ => by rfl) _).trans ?_) ..
  rw [W.removeFenced_boot]
  exact hc

theorem W.stage_seven (hn : w.dev.boot.stagesDone = 7) : Boot.Passed w.dev.boot (w.stage f).dev.boot := by
  simp only [W.stage, hp, hn, ne_eq, not_true_eq_false, if_false, W.trainLinks_boot]
  refine W.passStage_after ((W.boot_course (fun _ => by rfl) _).trans ((congrArg Boot.course (W.writeShedTables_boot _)).trans ?_)) ..
  refine (congrArg Boot.course ((W.shed_boot _ _).trans (W.tiers_boot _ _))).trans ?_
  exact (W.boot_course (fun _ => by rfl) _).trans (W.addRetired_course _ w)

/-- Stage 8 passes where the Halter link is UP. -/
theorem W.stage_eight (hn : w.dev.boot.stagesDone = 8) (hu : w.dev.halter.isUp = true) : Boot.Passed w.dev.boot (w.stage f).dev.boot := by
  have hstate : w.dev.halter.state ≠ 1 := by
    intro h
    simp [Link.isUp, h] at hu
  simp only [W.stage, hp, hn, hu, hstate, ne_eq, not_true_eq_false, if_false, if_true]
  refine W.passStage_after ((W.boot_course (fun _ => by rfl) _).trans ?_) ..
  exact congrArg Boot.course (W.each_keeps (g := (·.dev.boot)) (fun p v => W.port_boot p _ v) _ w)

/-- Each of the stages 4 to 8 passes, the last where the Halter link is UP. -/
theorem W.stage_later (hlo : 4 ≤ w.dev.boot.stagesDone) (hhi : w.dev.boot.stagesDone ≤ 8)
    (hu : w.dev.boot.stagesDone = 8 → w.dev.halter.isUp = true) : Boot.Passed w.dev.boot (w.stage f).dev.boot := by
  have hstage : w.dev.boot.stagesDone = 4 ∨ w.dev.boot.stagesDone = 5 ∨ w.dev.boot.stagesDone = 6 ∨ w.dev.boot.stagesDone = 7 ∨
      w.dev.boot.stagesDone = 8 := by omega
  rcases hstage with hn | hn | hn | hn | hn
  · exact W.stage_four hp hn
  · exact W.stage_five hp hn
  · exact W.stage_six hp hn
  · exact W.stage_seven hp hn
  · exact W.stage_eight hp hn (hu hn)

end

/-! ### Stage 9 (R490, R495) -/

/-- `w'` comes from `w` with its phase and the state in which the command began as they were. -/
structure W.Steady (w w' : W) : Prop where
  phase : w'.dev.boot.phase = w.dev.boot.phase
  st : w'.st = w.st

theorem W.Steady.refl (w : W) : Steady w w := ⟨rfl, rfl⟩

theorem W.Steady.trans {w v u : W} (hv : Steady w v) (hu : Steady v u) : Steady w u := ⟨hu.phase.trans hv.phase, hu.st.trans hv.st⟩

theorem W.Steady.each {f : α → W → W} {l : List α} (h : ∀ x ∈ l, ∀ w, Steady w (f x w)) (w : W) : Steady w (W.each l f w) := by
  induction l generalizing w with
  | nil => exact .refl w
  | cons x r ih => exact (h x List.mem_cons_self w).trans (ih (fun y hy => h y (List.mem_cons_of_mem x hy)) (f x w))

theorem W.Steady.ite {c : Prop} {_ : Decidable c} {w v u : W} (hv : Steady w v) (hu : Steady w u) : Steady w (if c then v else u) := by
  split
  · exact hv
  · exact hu

/-! The new part of the device is a variable in these rules, so that the kernel never computes with what it holds. -/

theorem W.boot_steady {f : Boot → Boot} (hf : ∀ b, (f b).phase = b.phase) (w : W) : Steady w (w.boot f) := ⟨hf _, rfl⟩
theorem W.regs_steady (f : Regs → Regs) (w : W) : Steady w (w.regs f) := ⟨rfl, rfl⟩
theorem W.slots_steady (f : Slots → Slots) (w : W) : Steady w (w.slots f) := ⟨rfl, rfl⟩
theorem W.faults_steady (f : Faults → Faults) (w : W) : Steady w (w.faults f) := ⟨rfl, rfl⟩
theorem W.events_steady (f : EventRing → EventRing) (w : W) : Steady w (w.events f) := ⟨rfl, rfl⟩
theorem W.power_steady (f : Power → Power) (w : W) : Steady w (w.power f) := ⟨rfl, rfl⟩
theorem W.ring_steady (r : Nat) (f : Ring → Ring) (w : W) : Steady w (w.ring r f) := ⟨rfl, rfl⟩
theorem W.queue_steady (q : Nat) (f : Queue → Queue) (w : W) : Steady w (w.queue q f) := ⟨rfl, rfl⟩

theorem W.setPend_steady (t i v : Nat) (w : W) : Steady w (w.setPend t i v) := by
  unfold W.setPend
  exact .ite (W.slots_steady _ w) (.refl w)

/-- No register's value is the phase: neither of those at direct addresses, nor of EN_CFG, a pending table or a storage queue. -/
theorem W.setReg_steady (k v : Nat) (w : W) : Steady w (w.setReg k v) := by
  unfold W.setReg
  refine .ite ?direct (.ite (.ite (W.power_steady _ w) (.refl w)) (.ite (W.setPend_steady _ _ _ w) (.ite (W.setPend_steady _ _ _ w)
    (.ite ?queue (W.setPend_steady _ _ _ w)))))
  case direct =>
    refine .ite (W.faults_steady _ w) (.ite (W.boot_steady (fun _ => by rfl) w) (.ite (W.boot_steady (fun _ => by rfl) w)
      (.ite (W.boot_steady (fun _ => by rfl) w) (.ite (W.regs_steady _ w) (.ite (W.regs_steady _ w) (.ite ?ring
      (.ite (W.events_steady _ w) (.ite (W.events_steady _ w) (.ite (W.slots_steady _ w) (.ite (W.setPend_steady _ _ _ w) (.refl w)))))))))))
    split
    case h_8 => exact .refl w
    all_goals exact W.ring_steady _ _ w
  case queue =>
    split
    case h_5 => exact .refl w
    all_goals exact W.queue_steady _ _ w

theorem W.putReg_steady (k v : Nat) (w : W) : Steady w (w.putReg k v) := by
  unfold W.putReg
  exact .ite (W.regs_steady _ w) (.ite ((W.setReg_steady _ _ w).trans (W.setReg_steady k v _)) (W.setReg_steady k v w))

/-- No checked register is a data register of an indirect pair. -/
theorem idxData_checked {k : Nat} (hc : isChecked k = true) : idxData k = none := by
  refine if_neg fun hpair => ?_
  simp only [Bool.and_eq_true, decide_eq_true_eq] at hpair
  obtain ⟨⟨hlo, hhi⟩, -⟩ := hpair
  have hsmall : k < 2 ^ 32 := by unfold bIdx at hhi; omega
  have hbelow : ∀ i ≤ bIdx, ¬ k < i := by omega
  have hother : ∀ i < bIdx, k ≠ i := by omega
  rw [isChecked] at hc
  simp only [Nat.div_eq_of_lt hsmall, Nat.mod_eq_of_lt hsmall, hother (bFault + 4) (by decide), hbelow (bRing + 0x1000) (by decide),
    hother (bRing + 0x1000) (by decide), hother (bRing + 0x1004) (by decide), hbelow (bFabric + 0x1000 + 119 * 0x100) (by decide),
    hbelow (bUnit + 15 * 0x400) (by decide), if_true, decide_false, Bool.and_false, Bool.false_and, Bool.or_false, Bool.false_eq_true] at hc

theorem W.configReg_steady {k : Nat} (hc : isChecked k = true) (value mask : Nat) (w : W) : Steady w (w.configReg k value mask) := by
  unfold W.configReg
  split
  · exact .refl w
  · simp only [hc, if_true]
    exact .ite (.refl w) (W.putReg_steady _ _ w)

theorem W.configEntry_steady {e : Nat × Nat × Nat} (hc : isChecked e.1 = true) (w : W) : Steady w (w.configEntry e) := by
  simp only [W.configEntry, idxData_checked hc]
  exact W.configReg_steady hc _ _ w

theorem W.passStage_regs (degraded : Bool) (found detail flags ms : Nat) (w : W) :
    (w.passStage degraded found detail flags ms).dev.regs = w.dev.regs := rfl

theorem W.passStage_st (degraded : Bool) (found detail flags ms : Nat) (w : W) : (w.passStage degraded found detail flags ms).st = w.st := rfl

/-- Stage 9 writes the configuration, commits it, and ends in RUN. -/
theorem W.stage_nine {f : StageFindings} {w : W} (hp : w.dev.boot.phase = .bringUp) (hn : w.dev.boot.stagesDone = 9)
    (hc : ∀ e ∈ (w.dev.boot.cfg.map (·.entries)).getD [], isChecked e.1 = true) :
    (w.stage f).dev.boot.phase = .run ∧ (w.stage f).dev.boot.readyHerd = w.herd ∧ (w.stage f).dev.regs.cfg.live = true ∧
      (w.stage f).dev.regs.cfg.state = 1 := by
  simp only [W.stage, hp, hn, ne_eq, not_true_eq_false, if_false]
  generalize hv : W.each _ W.configEntry w = v
  have hs : W.Steady w v := hv ▸ .each (fun e he w => W.configEntry_steady (hc e he) w) w
  simp only [hs.phase.trans hp, not_true_eq_false, if_false]
  generalize v.dev.checked = l
  generalize hx : W.cfg _ (v.commitCfg l) = x
  have hlive : x.dev.regs.cfg.live = true ∧ x.dev.regs.cfg.state = 1 := by
    rw [← hx]
    exact ⟨rfl, rfl⟩
  have hst : x.st = w.st := by rw [← hx, W.cfg, W.regs_st, W.commitCfg, W.cfg, W.regs_st, hs.st]
  generalize hy : W.passStage false 0 _ 0 _ x = y
  have hregs : y.dev.regs = x.dev.regs := by rw [← hy, W.passStage_regs]
  have hyst : y.st = w.st := by rw [← hy, W.passStage_st, hst]
  refine ⟨rfl, congrArg (fun s : State => s.clock.herd) hyst, ?_⟩
  rw [W.power_regs, W.boot_regs, hregs]
  exact hlive

/-! ### The Halter link at stage 8 (R494) -/

theorem W.trainRetry_trains {lanes : Nat} {w : W} (hp : w.dev.boot.phase = .bringUp) (hn : w.dev.boot.stagesDone = 8) (hd : w.dev.halter.isUp = false)
    (hl : w.dev.halterState lanes ≠ 1) : w.trainRetry lanes = w.halter (Link.start (w.dev.halterState lanes) 512) := by
  simp only [W.trainRetry, hp, hn, hd, hl, decide_true, Bool.not_false, Bool.and_self, if_true, if_false]

/-- Settles O58: each stage by its branch. -/
theorem stagesComplete : Obligations.StagesComplete := by
  refine ⟨fun f s hp => ⟨fun hn href hsync => ?zero, fun hn hs => ?noStore, fun hn hs hfw hok => ?noFirmware, fun hn ht => ?mismatch, fun hn => ?two,
    fun hlo hhi hu => ?later, fun hn hc => ?nine⟩, fun lanes s hp hn hd hl => ?retry⟩
  case zero =>
    have hstage := W.stage_zero (f := f) (w := W.of s) hp hn href hsync
    have hpassed := W.passStage_passed false 0 s.dev.power.vinMV 0 f.durationMS (W.of s)
    exact ⟨_, congrArg (ends s) hstage, hpassed.stagesDone.trans (congrArg (· + 1) hn), hpassed.phase.trans hp, hpassed.log, rfl⟩
  case noStore => exact ⟨_, congrArg (ends s) (W.stage_one_noStore (f := f) (w := W.of s) hp hn hs), (W.device_stops _ _).phase⟩
  case noFirmware =>
    obtain ⟨cfg, status, detail, ms, hstage⟩ := W.stage_one_noFirmware (f := f) (w := W.of s) hp hn hs hfw hok
    exact ⟨_, congrArg (ends s) hstage, rfl, List.length_append⟩
  case mismatch => exact ⟨_, congrArg (ends s) (W.stage_three_mismatch (f := f) (w := W.of s) hp hn ht), rfl, rfl⟩
  case two => exact ⟨_, congrArg (ends s) (W.stage_two (f := f) (w := W.of s) hp hn), congrArg (· + 1) hn, rfl⟩
  case later =>
    have hpassed := W.stage_later (f := f) (w := W.of s) hp hlo hhi hu
    exact ⟨_, act_eq _ s, hpassed.stagesDone, hpassed.phase.trans hp, hpassed.log⟩
  case nine => exact ⟨_, act_eq _ s, W.stage_nine (w := W.of s) hp hn hc⟩
  case retry => exact congrArg (ends s) (W.trainRetry_trains (w := W.of s) hp hn hd hl)

end Sys2Proof.Machine
end
